-- ==== Sys2Proof/Word.lean ====
section
/-! DEFINITION. The word type of the PX-840 (R2): 64-bit words, and the plainest arithmetic on bit patterns. -/

namespace Sys2Proof

/-- A doubleword of R2: the width of a general register. -/
abbrev Word := BitVec 64

/-- A byte of R2. -/
abbrev Byte := BitVec 8

/-- A 6-bit register field of R29 and R31. -/
abbrev Reg := BitVec 6

/-- `bits(v,hi,lo)` of R6, as a natural number. -/
def natBits (v hi lo : Nat) : Nat := v / 2 ^ lo % 2 ^ (hi + 1 - lo)

/-- The low `n` bits of `v` read as a signed number, `sx(v,n)` of R6 before it is cut to 64 bits. -/
def sxInt (v n : Nat) : Int :=
  if v % 2 ^ n < 2 ^ (n - 1) then ((v % 2 ^ n : Nat) : Int) else ((v % 2 ^ n : Nat) : Int) - (2 ^ n : Nat)

/-- An unbounded integer cut to 64 bits. -/
def wordOfInt (i : Int) : Word := BitVec.ofInt 64 i

end Sys2Proof
end

