-- ==== Sys2Proof/Syntax.lean ====
section
/-! DEFINITION. The instructions and events of the PX-840: one constructor of `Instr` per row of the
opcode table. The first field `sw` of an instruction is the switch marker S of its head (R27, R37).
The events of the table carry which agent they happen to. -/

namespace Sys2Proof

/-- Functions of `alu`, `aluw`, `alui`, `aluiw` (R41, R65). -/
inductive AluFn where
  | add | sub | and | or | xor | andn | sll | srl | sra | rol | ror | slt | sltu | seq | min | max
deriving DecidableEq, Repr

/-- Functions of `muldiv` (R68). -/
inductive MulFn where
  | mul | mulh | mulhu | mulhsu | div | divu | rem | remu | mulw | divw | divuw | remw | remuw
deriving DecidableEq, Repr

/-- Functions of `bit` (R70). -/
inductive BitFn where
  | clz | ctz | popc | brev | bswap | sxb | sxh | sxw | zxb | zxh | zxw | bext | bdep
deriving DecidableEq, Repr

/-- Conditions of `sel` (R71). -/
inductive SelCond where
  | nz | z | ltz | gez | gtz | lez
deriving DecidableEq, Repr

/-- Functions of `addr` (R72). -/
inductive AddrFn where
  | idx | dec | add3
deriving DecidableEq, Repr

/-- Conditions of `bcc` (R81). -/
inductive BrCond where
  | eq | ne | lt | ge | ltu | geu
deriving DecidableEq, Repr

/-- Widths of `ld` and `ldu` (R170). -/
inductive LdW where
  | ub | uh | uw | d | sb | sh | sw
deriving DecidableEq, Repr

/-- Widths of `st` and `stu` (R170). -/
inductive StW where
  | b | h | w | d
deriving DecidableEq, Repr

/-- Forms of `vld` and `vst` (R172). -/
inductive VecW where
  | c | cm | s32 | x32 | s64 | x64
deriving DecidableEq, Repr

/-- Functions of `pref` (R174). -/
inductive PrefFn where
  | l1 | l1w | cm | ws
deriving DecidableEq, Repr

/-- Operations of the atomics (R225). -/
inductive AmoOp where
  | add | and | or | xor | min | max | minu | maxu | swap | bsiadd
deriving DecidableEq, Repr

/-- Widths of the atomics (R225). -/
inductive AmoW where
  | w | d | q
deriving DecidableEq, Repr

/-- Functions of the combining barrier (R233). -/
inductive BarFn where
  | max | min | sum | or
deriving DecidableEq, Repr

/-- Scopes of a `tlb` invalidation (R193). -/
inductive TlbScope where
  | core | cluster | die | module
deriving DecidableEq, Repr

/-- The number formats of R271. -/
inductive Fmt where
  | e4m3 | e5m2 | e3m2 | e2m3 | e2m1 | dpow8 | i8 | bf16 | f16 | f32 | f64 | i32 | i64 | bsi96
deriving DecidableEq, Repr

/-- Functions of `vf` and `vd` (R313). -/
inductive VfFn where
  | add | sub | mul | div | min | max | abs | neg | copysign
deriving DecidableEq, Repr

/-- Operations of `vfma` (R314). -/
inductive FmaFn where
  | fma | fms | fnma | fnms
deriving DecidableEq, Repr

/-- Operations of `vi` (R315). -/
inductive ViFn where
  | add | sub | mul | mulh | mulhu | and | or | xor | andn | sll | srl | sra | min | max | minu | maxu
  | adds | addus | subs | subus | abs
deriving DecidableEq, Repr

/-- Conditions of `vcmp` (R316). -/
inductive VcmpCond where
  | eq | ne | lt | le | gt | ge | unordLtu | ordGeu
deriving DecidableEq, Repr

/-- Types of `vcmp` (R316). -/
inductive VcmpTy where
  | f32 | f64 | i32 | i64
deriving DecidableEq, Repr

/-- Operations of `vred` (R318). -/
inductive VredFn where
  | addF32 | maxF32 | minF32 | addF64 | maxF64 | minF64 | addI32 | addI64 | maxI32 | minI32 | maxI64
  | minI64 | bsiF32
deriving DecidableEq, Repr

/-- Functions of `vperm` (R320). -/
inductive VpermFn where
  | perm | perm2 | sldn | slup | bcast | zlo | zhi | uzev | uzod
deriving DecidableEq, Repr

/-- Functions of `vmsk` (R321). -/
inductive VmskFn where
  | and | or | xor | andn | not | fromg | tog | popc | ffs | first
deriving DecidableEq, Repr

/-- Functions of `vspec` (R322). -/
inductive VspecFn where
  | rcp | sqrt | rsqrt | exp2 | log2
deriving DecidableEq, Repr

/-- Functions of `vmov` (R323). -/
inductive VmovFn where
  | mov | bc32 | bc64 | ins32 | ins64 | ext32 | ext64 | iota
deriving DecidableEq, Repr

/-- Functions of `vbsi` (R324). -/
inductive VbsiFn where
  | cvtF32 | cvtF64 | add | rndF32 | rndF64
deriving DecidableEq, Repr

/-- The memory operand of a T32M tail (R29, R30): base, index, ORD, SCP, EVP and D9. -/
structure MemOp where
  b : Reg
  x : Reg
  ord : BitVec 2
  scp : BitVec 3
  evp : BitVec 3
  d9 : BitVec 9
deriving DecidableEq, Repr

/-- The ordering field X of an atomic (R225): SCP, ORD and EVP. -/
structure AmoOrd where
  scp : BitVec 3
  ord : BitVec 2
  evp : BitVec 3
deriving DecidableEq, Repr

/-- The shared fields RM, SC, Z and KM of a vector tail (R312). -/
structure VFlags where
  rm : BitVec 3
  sc : Bool
  z : Bool
  km : BitVec 3
deriving DecidableEq, Repr

/-- A thread slot of the module: the core number 0 to 5,119 (1280 x die + 16 x cluster + core) and the
slot number 0 to 7 (R9, R92). -/
structure SlotRef where
  core : Nat
  slot : Nat
deriving DecidableEq, Repr

/-- A message with its route word's source (R237, R265). `at_` is the die that it has come to over a link of the module
(R10, R264); it is no part of the message. -/
structure Packet where
  src : BitVec 32
  d0 : Word
  d1 : Word
  d2 : Word
  d3 : Word
  payload : List Word
  at_ : Option Nat := none
deriving DecidableEq, Repr

/-- The instructions and the events of the opcode table. -/
inductive Instr where
  -- control flow
  | br (sw : Bool) (loff : BitVec 27) (hi : BitVec 5)
  | jal (sw : Bool) (a : Reg) (loff : BitVec 27) (hi : BitVec 5)
  | bcc (sw : Bool) (c : BrCond) (a b : Reg) (loff : BitVec 18) (hi : BitVec 5)
  | bz (sw : Bool) (a : Reg) (loff : BitVec 18) (hi : BitVec 5)
  | bnz (sw : Bool) (a : Reg) (loff : BitVec 18) (hi : BitVec 5)
  | jalr (sw : Bool) (a b : Reg) (i : BitVec 10)
  | ret (sw : Bool) (a : Reg)
  | loop (sw : Bool) (a : Reg) (loff : BitVec 18) (hi : BitVec 5)
  | loopGtz (sw : Bool) (a : Reg) (loff : BitVec 18) (hi : BitVec 5)
  | sig (sw : Bool) (crc : BitVec 16)
  -- strands
  | yield (sw : Bool)
  | endAct (sw : Bool)
  | wait (sw : Bool) (a : Reg)
  | spawn (sw : Bool) (a b w : Reg) (prio : BitVec 3) (delta : BitVec 16)
  | launch (sw : Bool) (a b : Reg)
  | once (sw : Bool)
  -- integer
  | alu (sw : Bool) (f : AluFn) (a b c : Reg)
  | aluw (sw : Bool) (f : AluFn) (a b c : Reg)
  | muldiv (sw : Bool) (f : MulFn) (a b c : Reg)
  | alui (sw : Bool) (f : AluFn) (a b : Reg) (imm : BitVec 16)
  | aluiw (sw : Bool) (f : AluFn) (a b : Reg) (imm : BitVec 16)
  | liImm16 (sw : Bool) (a : Reg) (imm : BitVec 16)
  | liImm32 (sw : Bool) (a : Reg) (imm : BitVec 32)
  | liImm48 (sw : Bool) (a : Reg) (imm : BitVec 48)
  | bit (sw : Bool) (f : BitFn) (a b c : Reg)
  | sel (sw : Bool) (c : SelCond) (a b cc d : Reg)
  | addr (sw : Bool) (f : AddrFn) (a b c d : Reg) (sh : BitVec 3) (x : BitVec 8)
  | movaPcl (sw : Bool) (a : Reg) (off : BitVec 12)
  | movaNext (sw : Bool) (a : Reg)
  -- memory
  | ld (sw : Bool) (w : LdW) (a : Reg) (m : MemOp)
  | st (sw : Bool) (w : StW) (a : Reg) (m : MemOp)
  | ldu (sw : Bool) (w : LdW) (a : Reg) (m : MemOp)
  | stu (sw : Bool) (w : StW) (a : Reg) (m : MemOp)
  | vld (sw : Bool) (w : VecW) (a : Reg) (m : MemOp)
  | vst (sw : Bool) (w : VecW) (a : Reg) (m : MemOp)
  | pref (sw : Bool) (f : PrefFn) (lgk : BitVec 3) (m : MemOp)
  | copFlush (sw : Bool) (m : MemOp)
  | copClean (sw : Bool) (m : MemOp)
  | copInv (sw : Bool) (m : MemOp)
  | copZero (sw : Bool) (m : MemOp)
  | copDemote (sw : Bool) (m : MemOp)
  | keep (sw : Bool) (n : BitVec 3) (b c : Reg)
  | unkeep (sw : Bool) (n : BitVec 3)
  -- ordering
  | fence (sw : Bool) (scp : BitVec 3) (later earlier : BitVec 2)
  | tfence (sw : Bool)
  | fwaitW (sw : Bool) (b : Reg) (lines : BitVec 10)
  | fwaitRw (sw : Bool) (b : Reg) (lines : BitVec 10)
  | fwaitAll (sw : Bool)
  | irrev (sw : Bool)
  -- atomics and barriers
  | amo (sw : Bool) (op : AmoOp) (w : AmoW) (b c : Reg) (o : AmoOrd)
  | amof (sw : Bool) (op : AmoOp) (w : AmoW) (a b c : Reg) (o : AmoOrd)
  | cas (sw : Bool) (w : AmoW) (a b c d : Reg) (o : AmoOrd)
  | amot (sw : Bool) (op : AmoOp) (w : AmoW) (b c d : Reg) (o : AmoOrd)
  | barArrive (sw : Bool) (bi : BitVec 2)
  | barWait (sw : Bool) (bi : BitVec 2)
  | barSync (sw : Bool) (bi : BitVec 2)
  | barCombine (sw : Bool) (f : BarFn) (a b : Reg) (bi : BitVec 2)
  -- messages and engines
  | send (sw : Bool) (a b : Reg) (rep rmo res : Bool) (delta : BitVec 16)
  | bind (sw : Bool) (ch : BitVec 6) (b : Reg) (cl : Bool)
  | unbind (sw : Bool) (ch : BitVec 6) (cl : Bool)
  | chanMask (sw : Bool) (ch : BitVec 6)
  | chanUnmask (sw : Bool) (ch : BitVec 6)
  | chanPrio (sw : Bool) (ch : BitVec 6) (p : BitVec 3)
  | job (sw : Bool) (b c : Reg)
  | ldirSet (sw : Bool) (b : Reg)
  | ldirSwap (sw : Bool)
  | ldirRev (sw : Bool)
  | collMax (sw : Bool) (b : Reg)
  | collReduceBsi (sw : Bool) (b : Reg)
  | collBcast (sw : Bool) (b : Reg)
  | collGather (sw : Bool) (b : Reg)
  -- composition and system
  | compose (sw : Bool) (lg : BitVec 3)
  | release (sw : Bool)
  | srRd (sw : Bool) (a : Reg) (n : BitVec 10)
  | srWr (sw : Bool) (a b : Reg) (n : BitVec 10)
  | srSet (sw : Bool) (a b : Reg) (n : BitVec 10)
  | srClr (sw : Bool) (a b : Reg) (n : BitVec 10)
  | trap (sw : Bool) (n : BitVec 7)
  | brk (sw : Bool) (n : BitVec 7)
  | tret (sw : Bool) (kr : Bool)
  | mchkAbort (sw : Bool)
  | mchkInject (sw : Bool) (b : Reg)
  | tlbVa (sw : Bool) (sc : TlbScope) (b c : Reg)
  | tlbAsid (sw : Bool) (sc : TlbScope) (c : Reg)
  | tlbAll (sw : Bool) (sc : TlbScope)
  | tlbProbe (sw : Bool) (a b c : Reg)
  | trcOn (sw : Bool)
  | trcOff (sw : Bool)
  | trcFreeze (sw : Bool)
  | trcMark (sw : Bool) (b : Reg)
  | ctrRd (sw : Bool) (a : Reg) (n : BitVec 4)
  | ctrSel (sw : Bool) (n : BitVec 4) (b : Reg)
  | ctrClr (sw : Bool) (n : BitVec 4)
  -- conversion
  | cvt (sw : Bool) (rm : BitVec 3) (sat : Bool) (dst src : Fmt) (a b c : Reg)
  | vcvt (sw : Bool) (rm : BitVec 3) (sat : Bool) (dst src : Fmt) (a b : Reg) (km p : BitVec 3) (d : Reg)
  | vquant (sw : Bool) (rm : BitVec 3) (f : Fmt) (p : BitVec 3) (a b c d : Reg)
  | vdeq (sw : Bool) (f : Fmt) (p : BitVec 3) (a b c d : Reg)
  | vbexp (sw : Bool) (delta : Bool) (f : Fmt) (a b c : Reg)
  | vrng (sw : Bool) (a c : Reg)
  | vmxio (sw : Bool) (out : Bool) (rm : BitVec 3) (sat : Bool) (f : Fmt) (p : BitVec 3) (a b c d : Reg)
  -- vector
  | vf (sw : Bool) (f : VfFn) (v : VFlags) (a b c : Reg)
  | vfma (sw : Bool) (f : FmaFn) (wide : Bool) (v : VFlags) (a b c d : Reg)
  | vd (sw : Bool) (f : VfFn) (v : VFlags) (a b c : Reg)
  | vi (sw : Bool) (f : ViFn) (wide : Bool) (v : VFlags) (a b c : Reg)
  | vcmp (sw : Bool) (c : VcmpCond) (t : VcmpTy) (v : VFlags) (a : BitVec 3) (b cc : Reg)
  | vsel (sw : Bool) (wide : Bool) (km : BitVec 3) (a b c : Reg)
  | vred (sw : Bool) (f : VredFn) (km : BitVec 3) (a b : Reg)
  | vperm (sw : Bool) (f : VpermFn) (z : Bool) (km : BitVec 3) (a b c d : Reg)
  | vmsk (sw : Bool) (f : VmskFn) (a b c : Reg)
  | vspec (sw : Bool) (f : VspecFn) (wide : Bool) (rm : BitVec 3) (z : Bool) (km : BitVec 3) (a b : Reg)
  | vmov (sw : Bool) (f : VmovFn) (z : Bool) (km : BitVec 3) (a b c : Reg)
  | vbsi (sw : Bool) (f : VbsiFn) (rm : BitVec 3) (p : BitVec 2) (a b c : Reg)
  -- matrix
  | mm (sw : Bool) (t : BitVec 2) (clr : Bool) (b c : Reg)
  | mms (sw : Bool) (t : BitVec 2) (clr : Bool) (b c : Reg)
  | mmx (sw : Bool) (t : BitVec 2) (clr : Bool) (b c : Reg)
  | mzero (sw : Bool) (t : BitVec 2) (c : Reg)
  | mread (sw : Bool) (t : BitVec 2) (clr : Bool) (b c : Reg)
  | mstw (sw : Bool) (b c : Reg)
  -- events of a thread slot
  | longLatencyResult (r : SlotRef) (k : Nat)
  | parkEnd (r : SlotRef)
  | stallEnd (r : SlotRef)
  | vectorCompletion (r : SlotRef)
  | fillingComplete (r : SlotRef)
  | readyRecordPickup (r : SlotRef)
  | teamPlacement (cluster k : Nat) (cores : List Nat)
  | placementHorizonExpiry (cluster : Nat)
  | drainEnd (cluster : Nat)
  | budgetExpiry (r : SlotRef)
  | commit (r : SlotRef)
  | commitEntryIssue (r : SlotRef)
  | irrevocableDrain (r : SlotRef)
  | trapEntry (r : SlotRef)
  | composeClaim (r : SlotRef)
  | handBack (r : SlotRef) (flip : Option (Nat × Nat × Word))
  | operandArrival (r : SlotRef) (sender receiver : Nat) (sent arrived : Word) (major func : BitVec 8)
  | linkPortArrival (core : Nat) (dir : BitVec 3)
  -- events of translation and memory
  | pageWalk (r : SlotRef) (va : Word) (store : Bool)
  | tlbInvalidationComplete (r : SlotRef)
  | localAtomicPerform (r : SlotRef)
  | dirtyWriteback (cluster : Nat) (line : Nat) (fails : Bool)
  -- events of messages
  | messageArrival (k : Nat)
  | pendingQueueRetake (core : Nat) (ch : BitVec 6)
  | bounceReturn (k : Nat)
  | bounceResend (core k : Nat)
  | bounceOverflow (r : SlotRef)
  | landArrival (k : Nat)
  | farAtomicRequest (k : Nat)
  | farAtomicReply (k : Nat)
  | nackResync (k : Nat)
  | nackMoved (k : Nat)
  | nackBusy (k : Nat)
  | farAtomicTimeout (core home : Nat)
  | homeStateReclaim (cluster : Nat) (src : BitVec 32)
  | movedEntryExpiry (cluster k : Nat)
  -- events of launches
  | launchQueueTake (part q : Nat)
  | launchDelivery (k : Nat)
  | launchStart (part lid : Nat) (core : Nat)
  | launchCompletion (part lid : Nat)
  | ttFiring (part e : Nat)
  | ttHeldLaunch (part e : Nat)
  -- events of engines
  | jobCardArrival (k : Nat)
  | jobCopy (cluster k : Nat)
  | jobFill (cluster k : Nat)
  | jobRput (cluster k : Nat)
  | jobStage (cluster k : Nat)
  | jobAcc (cluster k : Nat)
  | jobMaxi (cluster k : Nat)
  | jobCompletion (cluster k : Nat)
  | matrixCommandArrival (k : Nat)
  | maMm (cluster part : Nat)
  | maMms (cluster part : Nat)
  | maMmx (cluster part : Nat)
  | maMzero (cluster part : Nat)
  | maMread (cluster part : Nat)
  | maMstw (cluster part : Nat)
  | matrixCommandCompletion (cluster part : Nat)
  | maSlotBoundary (cluster : Nat)
  | collCommandArrival (k : Nat)
  | collContribution (k : Nat)
  | completionNotice (k : Nat)
  | collInstanceTimeout (die g : Nat) (cseq : Word)
  | ggenWrite (die g : Nat) (v : Word)
  -- events of links
  | gletosPacketSend (k : Nat)
  | linkDataFlit (die inst : Nat) (flit : BitVec 512)
  | linkIdleFlit (die inst : Nat) (flit : BitVec 512)
  | linkNackFlit (die inst : Nat) (flit : BitVec 512)
  | linkReplayTimeout (die inst : Nat)
  | degradeRequest (die inst : Nat) (flit : BitVec 512)
  | degradeAcknowledge (die inst : Nat) (flit : BitVec 512)
  | retrainComplete (die inst : Nat) (errLo errHi : Nat) (ok : Bool)
  | linkWindowExpiry (die inst : Nat)
  | lcmdForceDegrade (die inst : Nat)
  | lcmdRetrain (die inst : Nat)
  -- events of device registers and firmware
  | cmsplitWrite (cluster : Nat) (v : Word)
  | cmsplitApply (cluster : Nat)
  | lostClear (cluster i : Nat)
  | fenceWrite (die i : Nat) (v : Word)
  | mc2Clear (r : SlotRef)
  | pswapOut (die part : Nat)
  | pswapIn (die part : Nat)
  | swapContextMove (die part : Nat)
  | trcctlWrite (core : Nat) (v : Word)
  | deviceRegisterWrite (die : Nat) (off : BitVec 29) (v : Word)
  -- events of the host
  | hostMemRead (o : Nat)
  | hostMemWrite (o : Nat) (n : Nat) (v : BitVec 512)
  | teardown (part q : Nat)
  | reset (part q : Nat)
  | regq (part q : Nat) (hdr : Word)
  | glaze (g : Word) (epoch : Word)
  | timesync (off rate : Word)
  | hmcmdRefused (cmd part q : BitVec 8)
  | glazeSave
  | glazeImageComplete
  | heartbeatMiss (m : Nat)
  | coldReset (fwOk recOk : Bool)
  | hotReset (fwOk recOk : Bool)
  | recoveryImage (fwOk recOk : Bool)
  | getVersion
  | getCapabilities
  | negotiateAlgorithms
  | getDigests
  | getCertificate
  | challenge (nonce : BitVec 256)
  | getMeasurements
  | thermalThrottle (die : Nat)
  | throttleClear (die : Nat)
  | thermalTrip
  | cxlCacheSnoop (line : Nat)
  | moduleDown (m : Nat)
  | spareLoad (m slot : Nat)
  | spareLoadComplete
  | replayEnd
  | replyCacheMigration (srcCluster : Nat) (oldPage newPage : Nat)
  | forwardingTableEntry (die : Nat) (oldPage newPage : Nat) (enter : Bool)
  | rebuild (die : Nat) (stack : Nat)
  | cdatRequest
deriving DecidableEq, Repr

end Sys2Proof
end

