-- ==== Sys2Proof/WellFormed.lean ====
section
/-! DEFINITION. Which instructions the encodings admit: the register-field limits of R31, R33, R34 and R75,
the values R30 marks ILLEGAL, and the limits the entries state on encoded fields. An instruction that is not
well formed raises ILLEGAL (R42, R383). -/

namespace Sys2Proof

/-- A port register of R32: registers 48 to 58. -/
def isPort (r : Reg) : Bool := 48 ≤ r.toNat && r.toNat ≤ 58

/-- A register that R31 does not reserve: 0 to 58. -/
def regOk (r : Reg) : Bool := r.toNat ≤ 58

/-- A general register field where ports and reserved registers are ILLEGAL: 0 to 47. -/
def gprOk (r : Reg) : Bool := r.toNat ≤ 47

/-- A vector register field (R34): 0 to 31. -/
def vecOk (r : Reg) : Bool := r.toNat ≤ 31

/-- A mask register field held in six bits (R312, R321): 0 to 7. -/
def maskOk (r : Reg) : Bool := r.toNat ≤ 7

/-- A register whose read pops (R33): lk0-lk3, eq0-eq3 and inb. -/
def isPop (r : Reg) : Bool := 48 ≤ r.toNat && r.toNat ≤ 56

/-- A source field of R31, R32: not reserved, and not outb, whose read is ILLEGAL. -/
def srcOk (r : Reg) : Bool := regOk r && r.toNat != 57

/-- A destination field of R31, R32: not reserved, and not inb or tsr, whose write is ILLEGAL. -/
def dstOk (r : Reg) : Bool := regOk r && r.toNat != 56 && r.toNat != 58

/-- R33: at most one pop among the sources, counted with repetition. -/
def popsOk (rs : List Reg) : Bool := (rs.filter isPop).length ≤ 1

/-- Sources of an instruction that may name ports (R33, R64). -/
def srcsOk (rs : List Reg) : Bool := rs.all srcOk && popsOk rs

/-- The register pair of a 128-bit operand (R226, R319): even, 2 to 46. -/
def pairOk (r : Reg) : Bool := r.toNat % 2 == 0 && 2 ≤ r.toNat && r.toNat ≤ 46

/-- The fields of a T32M tail (R30, R33). -/
def memOk (m : MemOp) : Bool :=
  gprOk m.b && gprOk m.x && m.scp.toNat ≤ 5 && m.evp.toNat ≤ 6

/-- The ordering fields of an atomic (R30, R229). -/
def amoOrdOk (o : AmoOrd) : Bool := o.scp.toNat ≤ 5 && o.evp.toNat ≤ 6

/-- The widths an atomic operation allows (R225). -/
def amoWidthOk (op : AmoOp) (w : AmoW) : Bool :=
  match op, w with
  | .swap, _ => true
  | .bsiadd, .q => true
  | .bsiadd, _ => false
  | _, .q => false
  | _, _ => true

/-- An operand register of an atomic: a pair for 128 bits, otherwise any source. -/
def amoSrcOk (w : AmoW) (r : Reg) : Bool := if w = .q then pairOk r else srcOk r

/-- A destination register of a fetching atomic: a pair for 128 bits, otherwise any destination. -/
def amoDstOk (w : AmoW) (r : Reg) : Bool := if w = .q then pairOk r else dstOk r

/-- Shift functions of R66, whose immediate is a limited amount. -/
def AluFn.isShift : AluFn → Bool
  | .sll | .srl | .sra | .rol | .ror => true
  | _ => false

/-- The immediate limits of R66: a shift amount of 0 to 63, or 0 to 31 for the 32-bit forms. -/
def aluImmOk (w : Nat) (f : AluFn) (imm : BitVec 16) : Bool := !f.isShift || imm.toNat < w

/-- The functions of `bit` that read gC (R70). -/
def BitFn.isBinary : BitFn → Bool
  | .bext | .bdep => true
  | _ => false

/-- An MX element format, codes 0 to 5 (R271). -/
def Fmt.isMx : Fmt → Bool
  | .e4m3 | .e5m2 | .e3m2 | .e2m3 | .e2m1 | .dpow8 => true
  | _ => false

/-- The width of a format in bits (R271). -/
def Fmt.width : Fmt → Nat
  | .e4m3 | .e5m2 | .dpow8 | .i8 => 8
  | .e3m2 | .e2m3 => 6
  | .e2m1 => 4
  | .bf16 | .f16 => 16
  | .f32 | .i32 => 32
  | .f64 | .i64 => 64
  | .bsi96 => 128

/-- A rounding field with SR allowed (R293): not 6, and SAT clear under DYN. -/
def rmSrOk (rm : BitVec 3) (sat : Bool) : Bool := rm.toNat != 6 && !(rm.toNat == 7 && sat)

/-- The coordinate field of a rounding field that allows SR: it names a general register under SR, DYN decides at issue,
and in every other mode it is ignored (R293). -/
def coordOk (rm : BitVec 3) (r : Reg) : Bool := rm.toNat != 5 || gprOk r

/-- A rounding field without SR (R300, R307): not 5 or 6. -/
def rmOk (rm : BitVec 3) : Bool := rm.toNat != 5 && rm.toNat != 6

/-- A segment `p` of `n` elements of width `w` that lies in a vector register (R293). -/
def segOk (w n p : Nat) : Bool := n * w * (p + 1) ≤ 1024

/-- The number of elements of a `vcvt` (R295). -/
def vcvtCount (dst src : Fmt) : Nat := if dst.width = 64 ∨ src.width = 64 then 16 else 32

/-- The segment limit of `vcvt` (R295): zero for equal widths, otherwise the narrower side's segment fits. -/
def vcvtSegOk (dst src : Fmt) (p : Nat) : Bool :=
  if dst.width = src.width then p == 0 else segOk (min dst.width src.width) (vcvtCount dst src) p

/-- Fields of the common vector encoding (R312), for a function with or without rounding. -/
def vflagsOk (v : VFlags) (rounds : Bool) : Bool := if rounds then rmOk v.rm else v.rm.toNat == 0

/-- Operand C of a vector instruction: a vector register, or a scalar one under SC (R312). -/
def vcOk (v : VFlags) (c : Reg) : Bool := if v.sc then gprOk c else vecOk c

/-- `vf` functions that take one operand (R313). -/
def VfFn.isUnary : VfFn → Bool
  | .abs | .neg => true
  | _ => false

/-- The fields a function of `vperm` uses (R320): vC, then vD, then gD. -/
def VpermFn.usesC : VpermFn → Bool
  | .perm | .perm2 | .zlo | .zhi | .uzev | .uzod => true
  | _ => false

/-- Functions of `vperm` whose D names a scalar register (R320). -/
def VpermFn.usesG : VpermFn → Bool
  | .sldn | .slup | .bcast => true
  | _ => false

/-- Register limits of `vmsk` (R321). -/
def vmskOk (f : VmskFn) (a b c : Reg) : Bool :=
  match f with
  | .and | .or | .xor | .andn => maskOk a && maskOk b && maskOk c
  | .not => maskOk a && maskOk b && c == 0
  | .fromg | .first => maskOk a && gprOk b && c == 0
  | .tog | .popc | .ffs => gprOk a && maskOk b && c == 0

/-- Register limits of `vmov` (R323). -/
def vmovOk (f : VmovFn) (z : Bool) (km : BitVec 3) (a b c : Reg) : Bool :=
  match f with
  | .mov => vecOk a && vecOk b && c == 0
  | .bc32 | .bc64 | .iota => vecOk a && gprOk b && c == 0
  | .ins32 | .ins64 => vecOk a && gprOk b && gprOk c && !z && km == 0
  | .ext32 | .ext64 => gprOk a && vecOk b && gprOk c && !z && km == 0

/-- Limits of `vbsi` (R324). -/
def vbsiOk (f : VbsiFn) (rm : BitVec 3) (p : BitVec 2) (a b c : Reg) : Bool :=
  vecOk a && vecOk b &&
    match f with
    | .cvtF32 => gprOk c && rm == 0
    | .cvtF64 => gprOk c && rm == 0 && p.toNat ≤ 1
    | .add => vecOk c && rm == 0 && p == 0
    | .rndF32 => c == 0 && rmOk rm
    | .rndF64 => c == 0 && rmOk rm && p.toNat ≤ 1

/-- The index register of a vector memory form: scalar stride, vector index, or plain index (R172). -/
def vmemOk (w : VecW) (a : Reg) (m : MemOp) : Bool :=
  vecOk a && gprOk m.b && m.scp.toNat ≤ 5 && m.evp.toNat ≤ 6 &&
    match w with
    | .x32 | .x64 => vecOk m.x
    | _ => gprOk m.x

/-- A well-formed instruction: one whose encoded fields all hold values that its entry allows. The events of
the table have no encoding and are well formed. -/
def Instr.wf : Instr → Bool
  | .br .. | .sig .. | .yield _ | .endAct _ | .once _ | .tfence _ | .fwaitAll _ | .irrev _ => true
  | .jal _ a _ _ => gprOk a
  | .bcc _ _ a b _ _ => gprOk a && gprOk b
  | .bz _ a _ _ | .bnz _ a _ _ => gprOk a
  | .jalr _ a b _ => gprOk a && gprOk b
  | .ret _ a => gprOk a && a != 0
  | .loop _ a _ _ | .loopGtz _ a _ _ => gprOk a && a != 0
  | .wait _ a => gprOk a
  | .spawn _ a b w _ _ => gprOk a && gprOk b && gprOk w
  | .launch _ a b => gprOk a && gprOk b
  | .alu _ _ a b c | .aluw _ _ a b c | .muldiv _ _ a b c => dstOk a && srcsOk [b, c]
  | .alui _ f a b imm => dstOk a && srcsOk [b] && aluImmOk 64 f imm
  | .aluiw _ f a b imm => dstOk a && srcsOk [b] && aluImmOk 32 f imm
  | .liImm16 _ a _ | .liImm32 _ a _ | .liImm48 _ a _ => dstOk a
  | .bit _ f a b c => dstOk a && srcsOk (if f.isBinary then [b, c] else [b]) && (f.isBinary || c == 0)
  | .sel _ _ a b c d => dstOk a && srcsOk [b, c, d]
  | .addr _ f a b c d _ _ =>
    dstOk a && srcsOk (if f = .add3 then [b, c, d] else [b, c]) && (f = .add3 || d == 0)
  | .movaPcl _ a _ | .movaNext _ a => dstOk a
  | .ld _ _ a m | .ldu _ _ a m => dstOk a && memOk m
  | .st _ _ a m | .stu _ _ a m => srcOk a && memOk m
  | .vld _ w a m | .vst _ w a m => vmemOk w a m
  | .pref _ _ _ m => memOk m && m.ord == 0
  | .copFlush _ m | .copClean _ m | .copInv _ m | .copZero _ m | .copDemote _ m => memOk m
  | .keep _ _ b c => gprOk b && gprOk c
  | .unkeep _ _ => true
  | .fence _ scp later earlier => scp.toNat ≤ 5 && later != 0 && earlier != 0
  | .fwaitW _ b _ | .fwaitRw _ b _ => gprOk b
  | .amo _ op w b c o => gprOk b && amoSrcOk w c && amoWidthOk op w && amoOrdOk o
  | .amof _ op w a b c o => amoDstOk w a && gprOk b && amoSrcOk w c && amoWidthOk op w && amoOrdOk o
  | .cas _ w a b c d o =>
    amoDstOk w a && gprOk b && amoSrcOk w c && amoSrcOk w d && popsOk [c, d] && amoOrdOk o
  | .amot _ op w b c d o =>
    gprOk b && srcOk c && gprOk d && w != .q && op != .bsiadd && amoOrdOk o
  | .barArrive .. | .barWait .. | .barSync .. => true
  | .barCombine _ _ a b _ => dstOk a && srcsOk [b]
  | .send _ a b _ _ _ _ => gprOk a && gprOk b
  | .bind _ _ b _ => gprOk b
  | .unbind .. | .chanMask .. | .chanUnmask .. | .chanPrio .. => true
  | .job _ b c => gprOk b && gprOk c
  | .ldirSet _ b => gprOk b
  | .ldirSwap _ | .ldirRev _ | .release _ => true
  | .collMax _ b | .collReduceBsi _ b | .collBcast _ b | .collGather _ b => gprOk b
  | .compose _ lg => 1 ≤ lg.toNat && lg.toNat ≤ 4
  | .srRd _ a _ => gprOk a
  | .srWr _ a b _ | .srSet _ a b _ | .srClr _ a b _ => gprOk a && gprOk b
  | .trap .. | .brk .. | .tret .. | .mchkAbort _ => true
  | .mchkInject _ b => gprOk b
  | .tlbVa _ _ b c => gprOk b && gprOk c
  | .tlbAsid _ _ c => gprOk c
  | .tlbAll .. => true
  | .tlbProbe _ a b c => gprOk a && gprOk b && gprOk c
  | .trcOn _ | .trcOff _ | .trcFreeze _ => true
  | .trcMark _ b => gprOk b
  | .ctrRd _ a n => gprOk a && n.toNat ≤ 11
  | .ctrSel _ n b => gprOk b && n.toNat ≤ 11
  | .ctrClr _ n => n.toNat ≤ 11
  | .cvt _ rm sat dst src a b c =>
    gprOk a && gprOk b && coordOk rm c && rmSrOk rm sat && dst != .bsi96 && src != .bsi96
  | .vcvt _ rm sat dst src a b _ p d =>
    vecOk a && vecOk b && coordOk rm d && rmSrOk rm sat && dst != .bsi96 && src != .bsi96 &&
      vcvtSegOk dst src p.toNat
  | .vquant _ rm f p a b c d =>
    vecOk a && vecOk b && gprOk c && coordOk rm d && rmSrOk rm false && f.isMx && segOk f.width 32 p.toNat
  | .vdeq _ f p a b c d => vecOk a && vecOk b && gprOk c && gprOk d && f.isMx && segOk f.width 32 p.toNat
  | .vbexp _ delta f a b c => gprOk a && vecOk b && gprOk c && f.isMx && (delta || c == 0)
  | .vrng _ a c => vecOk a && gprOk c
  | .vmxio _ _ rm sat f p a b c d =>
    vecOk a && vecOk b && gprOk c && gprOk d && rmOk rm && !(rm.toNat == 7 && sat) && f.isMx && f != .dpow8 &&
      segOk f.width 32 p.toNat
  | .vf _ f v a b c | .vd _ f v a b c =>
    vecOk a && vecOk b && (if f.isUnary then c == 0 && !v.sc else vcOk v c) && vflagsOk v true
  | .vfma _ _ _ v a b c d => vecOk a && vecOk b && vcOk v c && vecOk d && vflagsOk v true
  | .vi _ f _ v a b c =>
    vecOk a && vecOk b && (if f = .abs then c == 0 && !v.sc else vcOk v c) && vflagsOk v false
  | .vcmp _ _ _ v _ b c => vecOk b && vcOk v c && vflagsOk v false
  | .vsel _ _ _ a b c => vecOk a && vecOk b && vecOk c
  | .vred _ f _ a b => (if f = .bsiF32 then pairOk a else gprOk a) && vecOk b
  | .vperm _ f _ _ a b c d =>
    vecOk a && vecOk b && (if f.usesC then vecOk c else c == 0) &&
      (if f = .perm2 then vecOk d else if f.usesG then gprOk d else d == 0)
  | .vmsk _ f a b c => vmskOk f a b c
  | .vspec _ _ _ rm _ _ a b => vecOk a && vecOk b && rmOk rm
  | .vmov _ f z km a b c => vmovOk f z km a b c
  | .vbsi _ f rm p a b c => vbsiOk f rm p a b c
  | .mm _ _ _ b c | .mms _ _ _ b c | .mmx _ _ _ b c | .mread _ _ _ b c => gprOk b && gprOk c
  | .mzero _ _ c => gprOk c
  | .mstw _ b c => gprOk b && gprOk c
  | .longLatencyResult .. | .parkEnd .. | .stallEnd .. | .vectorCompletion .. | .fillingComplete ..
  | .readyRecordPickup .. | .teamPlacement .. | .placementHorizonExpiry .. | .drainEnd .. | .budgetExpiry ..
  | .commit .. | .commitEntryIssue .. | .irrevocableDrain .. | .trapEntry .. | .composeClaim .. | .handBack ..
  | .operandArrival .. | .linkPortArrival .. | .pageWalk .. | .tlbInvalidationComplete ..
  | .localAtomicPerform .. | .dirtyWriteback .. | .messageArrival .. | .pendingQueueRetake ..
  | .bounceReturn .. | .bounceResend .. | .bounceOverflow .. | .landArrival .. | .farAtomicRequest ..
  | .farAtomicReply .. | .nackResync .. | .nackMoved .. | .nackBusy .. | .farAtomicTimeout ..
  | .homeStateReclaim .. | .movedEntryExpiry .. | .launchQueueTake .. | .launchDelivery .. | .launchStart ..
  | .launchCompletion .. | .ttFiring .. | .ttHeldLaunch .. | .jobCardArrival .. | .jobCopy .. | .jobFill ..
  | .jobRput .. | .jobStage .. | .jobAcc .. | .jobMaxi .. | .jobCompletion .. | .matrixCommandArrival ..
  | .maMm .. | .maMms .. | .maMmx .. | .maMzero .. | .maMread .. | .maMstw .. | .matrixCommandCompletion ..
  | .maSlotBoundary .. | .collCommandArrival .. | .collContribution .. | .completionNotice ..
  | .collInstanceTimeout .. | .ggenWrite .. | .gletosPacketSend .. | .linkDataFlit .. | .linkIdleFlit ..
  | .linkNackFlit .. | .linkReplayTimeout .. | .degradeRequest .. | .degradeAcknowledge ..
  | .retrainComplete .. | .linkWindowExpiry .. | .lcmdForceDegrade .. | .lcmdRetrain .. | .cmsplitWrite ..
  | .cmsplitApply .. | .lostClear .. | .fenceWrite .. | .mc2Clear .. | .pswapOut .. | .pswapIn ..
  | .swapContextMove .. | .trcctlWrite .. | .deviceRegisterWrite .. | .hostMemRead .. | .hostMemWrite ..
  | .teardown .. | .reset .. | .regq .. | .glaze .. | .timesync .. | .hmcmdRefused .. | .glazeSave
  | .glazeImageComplete | .heartbeatMiss .. | .coldReset .. | .hotReset .. | .recoveryImage .. | .getVersion
  | .getCapabilities | .negotiateAlgorithms | .getDigests | .getCertificate | .challenge .. | .getMeasurements
  | .thermalThrottle .. | .throttleClear .. | .thermalTrip | .cxlCacheSnoop .. | .moduleDown ..
  | .spareLoad .. | .spareLoadComplete | .replayEnd | .replyCacheMigration .. | .forwardingTableEntry ..
  | .rebuild .. | .cdatRequest => true

end Sys2Proof
end

