-- ==== Sys2Proof/Decode.lean ====
section
/-! DEFINITION. Heads and tails (R20 to R30, R41, R42): the decoder, total on every head and tail, rejecting by
name, and the encoder. The field layouts are those of R27 and R29. -/

namespace Sys2Proof

/-- Why a head and its tail are ILLEGAL (R28, R41, R42, R383). -/
inductive DecodeErr where
  /-- OPC 0 with a nonzero field, or a reserved major (R28, R41). -/
  | reservedMajor
  /-- A TL the major does not allow (R41). -/
  | badTailLength
  /-- An unassigned function code (R42). -/
  | badFunction
  /-- A reserved field that is not zero (R4). -/
  | reservedField
  /-- A register field or value outside its limits (R31, R33, R34, R75). -/
  | badOperand
deriving DecidableEq, Repr

/-- A head with its tail: the tail is zero-extended to 48 bits (R21, R27). -/
structure Enc where
  head : BitVec 16
  tail : BitVec 48
deriving DecidableEq, Repr

/-! The fields of a head (R27). -/

def hdS (h : BitVec 16) : Bool := h.getLsbD 15
def hdTl (h : BitVec 16) : Nat := (h.extractLsb' 13 2).toNat
def hdOpc (h : BitVec 16) : Nat := (h.extractLsb' 6 7).toNat
def hdA (h : BitVec 16) : Reg := h.extractLsb' 0 6

/-! The fields of the tail formats (R29). -/

def t16B (t : BitVec 48) : Reg := t.extractLsb' 10 6
def t16C (t : BitVec 48) : Reg := t.extractLsb' 4 6
def t16F (t : BitVec 48) : BitVec 4 := t.extractLsb' 0 4
def t16I (t : BitVec 48) : BitVec 10 := t.extractLsb' 0 10
def t32B (t : BitVec 48) : Reg := t.extractLsb' 26 6
def t32F4 (t : BitVec 48) : BitVec 4 := t.extractLsb' 22 4
def t32W (t : BitVec 48) : Reg := t.extractLsb' 16 6
def t32I (t : BitVec 48) : BitVec 16 := t.extractLsb' 0 16
def t32C (t : BitVec 48) : Reg := t.extractLsb' 20 6
def t32D (t : BitVec 48) : Reg := t.extractLsb' 14 6
def t32F (t : BitVec 48) : BitVec 6 := t.extractLsb' 8 6
def t32X (t : BitVec 48) : BitVec 8 := t.extractLsb' 0 8
def tmOrd (t : BitVec 48) : BitVec 2 := t.extractLsb' 18 2
def tmScp (t : BitVec 48) : BitVec 3 := t.extractLsb' 15 3
def tmEvp (t : BitVec 48) : BitVec 3 := t.extractLsb' 12 3
def tmW (t : BitVec 48) : BitVec 3 := t.extractLsb' 9 3
def tmD9 (t : BitVec 48) : BitVec 9 := t.extractLsb' 0 9
def tbF (t : BitVec 48) : BitVec 3 := t.extractLsb' 23 3
def tbLoff (t : BitVec 48) : BitVec 18 := t.extractLsb' 5 18
def tbHi (t : BitVec 48) : BitVec 5 := t.extractLsb' 0 5
def tjLoff (t : BitVec 48) : BitVec 27 := t.extractLsb' 5 27

/-! Building heads and tails (R27, R29). -/

def mkHead (sw : Bool) (tl : BitVec 2) (opc : BitVec 7) (a : Reg) : BitVec 16 :=
  BitVec.ofBool sw ++ tl ++ opc ++ a

def mkT16R (b c : Reg) (f : BitVec 4) : BitVec 48 := (b ++ c ++ f).setWidth 48
def mkT16I (b : Reg) (i : BitVec 10) : BitVec 48 := (b ++ i).setWidth 48
def mkT32I (b : Reg) (f : BitVec 4) (w : Reg) (i : BitVec 16) : BitVec 48 := (b ++ f ++ w ++ i).setWidth 48
def mkT32R (b c d : Reg) (f : BitVec 6) (x : BitVec 8) : BitVec 48 := (b ++ c ++ d ++ f ++ x).setWidth 48
def mkT32M (m : MemOp) (w : BitVec 3) : BitVec 48 :=
  (m.b ++ m.x ++ m.ord ++ m.scp ++ m.evp ++ w ++ m.d9).setWidth 48
def mkT32B (b : Reg) (f : BitVec 3) (loff : BitVec 18) (hi : BitVec 5) : BitVec 48 :=
  (b ++ f ++ loff ++ hi).setWidth 48
def mkT32J (loff : BitVec 27) (hi : BitVec 5) : BitVec 48 := (loff ++ hi).setWidth 48

/-! Function codes. The constructors of each function type stand in the order of its codes, from 0. -/

def aluFns : List AluFn :=
  [.add, .sub, .and, .or, .xor, .andn, .sll, .srl, .sra, .rol, .ror, .slt, .sltu, .seq, .min, .max]
def mulFns : List MulFn :=
  [.mul, .mulh, .mulhu, .mulhsu, .div, .divu, .rem, .remu, .mulw, .divw, .divuw, .remw, .remuw]
def bitFns : List BitFn :=
  [.clz, .ctz, .popc, .brev, .bswap, .sxb, .sxh, .sxw, .zxb, .zxh, .zxw, .bext, .bdep]
def selConds : List SelCond := [.nz, .z, .ltz, .gez, .gtz, .lez]
def addrFns : List AddrFn := [.idx, .dec, .add3]
def brConds : List BrCond := [.eq, .ne, .lt, .ge, .ltu, .geu]
def ldWs : List LdW := [.ub, .uh, .uw, .d, .sb, .sh, .sw]
def stWs : List StW := [.b, .h, .w, .d]
def vecWs : List VecW := [.c, .cm, .s32, .x32, .s64, .x64]
def prefFns : List PrefFn := [.l1, .l1w, .cm, .ws]
def amoOps : List AmoOp := [.add, .and, .or, .xor, .min, .max, .minu, .maxu, .swap, .bsiadd]
def amoWs : List AmoW := [.w, .d, .q]
def fmts : List Fmt :=
  [.e4m3, .e5m2, .e3m2, .e2m3, .e2m1, .dpow8, .i8, .bf16, .f16, .f32, .f64, .i32, .i64, .bsi96]
def vfFns : List VfFn := [.add, .sub, .mul, .div, .min, .max, .abs, .neg, .copysign]
def fmaFns : List FmaFn := [.fma, .fms, .fnma, .fnms]
def viFns : List ViFn :=
  [.add, .sub, .mul, .mulh, .mulhu, .and, .or, .xor, .andn, .sll, .srl, .sra, .min, .max, .minu, .maxu,
   .adds, .addus, .subs, .subus, .abs]
def vcmpConds : List VcmpCond := [.eq, .ne, .lt, .le, .gt, .ge, .unordLtu, .ordGeu]
def vcmpTys : List VcmpTy := [.f32, .f64, .i32, .i64]
def vredFns : List VredFn :=
  [.addF32, .maxF32, .minF32, .addF64, .maxF64, .minF64, .addI32, .addI64, .maxI32, .minI32, .maxI64, .minI64,
   .bsiF32]
def vpermFns : List VpermFn := [.perm, .perm2, .sldn, .slup, .bcast, .zlo, .zhi, .uzev, .uzod]
def vmskFns : List VmskFn := [.and, .or, .xor, .andn, .not, .fromg, .tog, .popc, .ffs, .first]
def vspecFns : List VspecFn := [.rcp, .sqrt, .rsqrt, .exp2, .log2]
def vmovFns : List VmovFn := [.mov, .bc32, .bc64, .ins32, .ins64, .ext32, .ext64, .iota]
def vbsiFns : List VbsiFn := [.cvtF32, .cvtF64, .add, .rndF32, .rndF64]

/-- The scope codes of `tlb` (R193): 1 is unassigned. -/
def tlbScopeOf : Nat → Option TlbScope
  | 0 => some .core
  | 2 => some .cluster
  | 3 => some .die
  | 4 => some .module
  | _ => none

def tlbScopeCode : TlbScope → Reg
  | .core => 0
  | .cluster => 2
  | .die => 3
  | .module => 4

/-- The combining functions of `bar` (R233): codes 3 to 6. -/
def barFnOf : Nat → Option BarFn
  | 3 => some .max
  | 4 => some .min
  | 5 => some .sum
  | 6 => some .or
  | _ => none

def barFnCode : BarFn → BitVec 4
  | .max => 3
  | .min => 4
  | .sum => 5
  | .or => 6

/-- The function found under a code, or an unassigned function code (R42). -/
def pick (l : List α) (n : Nat) (k : α → Except DecodeErr Instr) : Except DecodeErr Instr :=
  match l[n]? with
  | some x => k x
  | none => .error .badFunction

/-- A reserved field that must be zero (R4). -/
def zeroOr (b : Bool) (k : Except DecodeErr Instr) : Except DecodeErr Instr :=
  if b then k else .error .reservedField

/-- The memory operand of a T32M tail. -/
def memOf (t : BitVec 48) : MemOp := ⟨t32B t, t32X48 t, tmOrd t, tmScp t, tmEvp t, tmD9 t⟩
where t32X48 (t : BitVec 48) : Reg := t.extractLsb' 20 6

/-- The ordering field X of an atomic (R225). -/
def amoOrdOf (t : BitVec 48) : AmoOrd := ⟨t.extractLsb' 5 3, t.extractLsb' 3 2, t.extractLsb' 0 3⟩

def amoX (o : AmoOrd) : BitVec 8 := o.scp ++ o.ord ++ o.evp

/-- The shared vector fields of X (R312). -/
def vflagsOf (t : BitVec 48) : VFlags := ⟨t.extractLsb' 5 3, t.getLsbD 4, t.getLsbD 3, t.extractLsb' 0 3⟩

def vflagsX (v : VFlags) : BitVec 8 := v.rm ++ BitVec.ofBool v.sc ++ BitVec.ofBool v.z ++ v.km

/-- The TL values a major allows (R41); `none` for a reserved major. -/
def majorTl (m : Nat) : Option (List Nat) :=
  if m ∈ [0x06, 0x09, 0x0A, 0x0B, 0x0E, 0x41, 0x43, 0x59] then some [0]
  else if m ∈ [0x05, 0x08, 0x0D, 0x10, 0x11, 0x12, 0x16, 0x19, 0x40, 0x42, 0x4C, 0x51, 0x52, 0x53, 0x54, 0x58,
      0x5B, 0x5C, 0x5D, 0x5E] then some [1]
  else if m = 0x15 then some [1, 2, 3]
  else if m ∈ [0x01, 0x02, 0x03, 0x04, 0x07, 0x0C, 0x13, 0x14, 0x17, 0x18, 0x50, 0x55, 0x5A] then some [2]
  else if (0x30 ≤ m ∧ m ≤ 0x38) ∨ (0x48 ≤ m ∧ m ≤ 0x4B) ∨ (0x60 ≤ m ∧ m ≤ 0x66) ∨ (0x68 ≤ m ∧ m ≤ 0x73)
      ∨ (0x78 ≤ m ∧ m ≤ 0x7D) then some [2]
  else none

/-- Control majors 0x01 to 0x0E (R80 to R83, R91, R124 to R127). -/
def decodeControl (opc : Nat) (s : Bool) (a : Reg) (t : BitVec 48) : Except DecodeErr Instr :=
  match opc with
  | 0x01 => zeroOr (a == 0) (.ok (.br s (tjLoff t) (tbHi t)))
  | 0x02 => pick brConds (tbF t).toNat fun c => .ok (.bcc s c a (t32B t) (tbLoff t) (tbHi t))
  | 0x03 =>
    pick [false, true] (tbF t).toNat fun nz => zeroOr (t32B t == 0)
      (.ok (if nz then .bnz s a (tbLoff t) (tbHi t) else .bz s a (tbLoff t) (tbHi t)))
  | 0x04 => .ok (.jal s a (tjLoff t) (tbHi t))
  | 0x05 => .ok (.jalr s a (t16B t) (t16I t))
  | 0x06 => .ok (.ret s a)
  | 0x07 =>
    pick [false, true] (tbF t).toNat fun g => zeroOr (t32B t == 0)
      (.ok (if g then .loopGtz s a (tbLoff t) (tbHi t) else .loop s a (tbLoff t) (tbHi t)))
  | 0x08 => zeroOr (a == 0) (.ok (.sig s (t32I t)))
  | 0x09 => zeroOr (a == 0) (.ok (.yield s))
  | 0x0A => zeroOr (a == 0) (.ok (.endAct s))
  | 0x0B => .ok (.wait s a)
  | 0x0C =>
    zeroOr (!(t32F4 t).getLsbD 3)
      (.ok (.spawn s a (t32B t) (t32W t) ((t32F4 t).extractLsb' 0 3) (t32I t)))
  | 0x0D => zeroOr (t16C t == 0 && t16F t == 0) (.ok (.launch s a (t16B t)))
  | 0x0E => zeroOr (a == 0) (.ok (.once s))
  | _ => .error .reservedMajor

/-- Integer majors 0x10 to 0x19 (R65 to R73). -/
def decodeInt (opc tl : Nat) (s : Bool) (a : Reg) (t : BitVec 48) : Except DecodeErr Instr :=
  match opc with
  | 0x10 => pick aluFns (t16F t).toNat fun f => .ok (.alu s f a (t16B t) (t16C t))
  | 0x11 => pick aluFns (t16F t).toNat fun f => .ok (.aluw s f a (t16B t) (t16C t))
  | 0x12 => pick mulFns (t16F t).toNat fun f => .ok (.muldiv s f a (t16B t) (t16C t))
  | 0x13 => pick aluFns (t32F4 t).toNat fun f => zeroOr (t32W t == 0) (.ok (.alui s f a (t32B t) (t32I t)))
  | 0x14 => pick aluFns (t32F4 t).toNat fun f => zeroOr (t32W t == 0) (.ok (.aluiw s f a (t32B t) (t32I t)))
  | 0x15 =>
    .ok (if tl = 1 then .liImm16 s a (t32I t) else if tl = 2 then .liImm32 s a (t.extractLsb' 0 32)
      else .liImm48 s a t)
  | 0x16 => pick bitFns (t16F t).toNat fun f => .ok (.bit s f a (t16B t) (t16C t))
  | 0x17 =>
    pick selConds (t32F t).toNat fun c => zeroOr (t32X t == 0) (.ok (.sel s c a (t32B t) (t32C t) (t32D t)))
  | 0x18 =>
    pick addrFns ((t32F t).extractLsb' 3 3).toNat fun f =>
      .ok (.addr s f a (t32B t) (t32C t) (t32D t) ((t32F t).extractLsb' 0 3) (t32X t))
  | 0x19 =>
    pick [false, true] (t16F t).toNat fun next =>
      if next then zeroOr (t16B t == 0 && t16C t == 0) (.ok (.movaNext s a))
      else .ok (.movaPcl s a (t16B t ++ t16C t))
  | _ => .error .reservedMajor

/-- Memory majors 0x30 to 0x38 (R158, R170 to R175). -/
def decodeMem (opc : Nat) (s : Bool) (a : Reg) (t : BitVec 48) : Except DecodeErr Instr :=
  match opc with
  | 0x30 => pick ldWs (tmW t).toNat fun w => .ok (.ld s w a (memOf t))
  | 0x31 => pick stWs (tmW t).toNat fun w => .ok (.st s w a (memOf t))
  | 0x32 => pick ldWs (tmW t).toNat fun w => .ok (.ldu s w a (memOf t))
  | 0x33 => pick stWs (tmW t).toNat fun w => .ok (.stu s w a (memOf t))
  | 0x34 => pick vecWs (tmW t).toNat fun w => .ok (.vld s w a (memOf t))
  | 0x35 => pick vecWs (tmW t).toNat fun w => .ok (.vst s w a (memOf t))
  | 0x36 => pick prefFns a.toNat fun f => .ok (.pref s f (tmW t) (memOf t))
  | 0x37 =>
    pick [Instr.copFlush s (memOf t), .copClean s (memOf t), .copInv s (memOf t), .copZero s (memOf t),
      .copDemote s (memOf t)] a.toNat fun i => zeroOr (tmW t == 0) (.ok i)
  | 0x38 =>
    zeroOr (a.extractLsb' 3 3 == 0 && t32D t == 0 && t32X t == 0)
      (pick [false, true] (t32F t).toNat fun un =>
        if un then zeroOr (t32B t == 0 && t32C t == 0) (.ok (.unkeep s (a.extractLsb' 0 3)))
        else .ok (.keep s (a.extractLsb' 0 3) (t32B t) (t32C t)))
  | _ => .error .reservedMajor

/-- Ordering majors 0x40 to 0x43 (R212 to R215). -/
def decodeOrder (opc : Nat) (s : Bool) (a : Reg) (t : BitVec 48) : Except DecodeErr Instr :=
  match opc with
  | 0x40 =>
    zeroOr (a.extractLsb' 3 3 == 0 && t16B t == 0 && (t16I t).extractLsb' 4 6 == 0)
      (.ok (.fence s (a.extractLsb' 0 3) ((t16I t).extractLsb' 2 2) ((t16I t).extractLsb' 0 2)))
  | 0x41 => zeroOr (a == 0) (.ok (.tfence s))
  | 0x42 =>
    match a.toNat with
    | 0 => .ok (.fwaitW s (t16B t) (t16I t))
    | 1 => .ok (.fwaitRw s (t16B t) (t16I t))
    | 2 => zeroOr (t16B t == 0 && t16I t == 0) (.ok (.fwaitAll s))
    | 3 => .error .badFunction
    | _ => .error .reservedField
  | 0x43 => zeroOr (a == 0) (.ok (.irrev s))
  | _ => .error .reservedMajor

/-- Atomic and barrier majors 0x48 to 0x4C (R225 to R233). -/
def decodeAtomic (opc : Nat) (s : Bool) (a : Reg) (t : BitVec 48) : Except DecodeErr Instr :=
  match opc with
  | 0x48 =>
    pick amoOps ((t32F t).extractLsb' 0 4).toNat fun op => pick amoWs ((t32F t).extractLsb' 4 2).toNat fun w =>
      zeroOr (a == 0 && t32D t == 0) (.ok (.amo s op w (t32B t) (t32C t) (amoOrdOf t)))
  | 0x49 =>
    pick amoOps ((t32F t).extractLsb' 0 4).toNat fun op => pick amoWs ((t32F t).extractLsb' 4 2).toNat fun w =>
      zeroOr (t32D t == 0) (.ok (.amof s op w a (t32B t) (t32C t) (amoOrdOf t)))
  | 0x4A =>
    pick amoWs ((t32F t).extractLsb' 4 2).toNat fun w =>
      zeroOr ((t32F t).extractLsb' 0 4 == 0) (.ok (.cas s w a (t32B t) (t32C t) (t32D t) (amoOrdOf t)))
  | 0x4B =>
    pick amoOps ((t32F t).extractLsb' 0 4).toNat fun op => pick amoWs ((t32F t).extractLsb' 4 2).toNat fun w =>
      zeroOr (a == 0) (.ok (.amot s op w (t32B t) (t32C t) (t32D t) (amoOrdOf t)))
  | 0x4C =>
    zeroOr ((t16C t).extractLsb' 2 4 == 0)
      (match (t16F t).toNat with
      | 0 => zeroOr (a == 0 && t16B t == 0) (.ok (.barArrive s ((t16C t).extractLsb' 0 2)))
      | 1 => zeroOr (a == 0 && t16B t == 0) (.ok (.barWait s ((t16C t).extractLsb' 0 2)))
      | 2 => zeroOr (a == 0 && t16B t == 0) (.ok (.barSync s ((t16C t).extractLsb' 0 2)))
      | n =>
        match barFnOf n with
        | some f => .ok (.barCombine s f a (t16B t) ((t16C t).extractLsb' 0 2))
        | none => .error .badFunction)
  | _ => .error .reservedMajor

/-- Message and engine majors 0x50 to 0x55 (R250 to R263, R359). -/
def decodeMsg (opc : Nat) (s : Bool) (a : Reg) (t : BitVec 48) : Except DecodeErr Instr :=
  match opc with
  | 0x50 =>
    zeroOr (!(t32F4 t).getLsbD 3 && t32W t == 0)
      (.ok (.send s a (t32B t) ((t32F4 t).getLsbD 0) ((t32F4 t).getLsbD 1) ((t32F4 t).getLsbD 2) (t32I t)))
  | 0x51 =>
    zeroOr ((t16I t).extractLsb' 0 8 == 0)
      (if (t16I t).getLsbD 9 then zeroOr (t16B t == 0) (.ok (.unbind s a ((t16I t).getLsbD 8)))
      else .ok (.bind s a (t16B t) ((t16I t).getLsbD 8)))
  | 0x52 =>
    zeroOr (t16B t == 0 && (t16I t).extractLsb' 3 5 == 0)
      (match ((t16I t).extractLsb' 8 2).toNat with
      | 0 => zeroOr ((t16I t).extractLsb' 0 3 == 0) (.ok (.chanMask s a))
      | 1 => zeroOr ((t16I t).extractLsb' 0 3 == 0) (.ok (.chanUnmask s a))
      | 2 => .ok (.chanPrio s a ((t16I t).extractLsb' 0 3))
      | _ => .error .badFunction)
  | 0x53 => zeroOr (a == 0 && t16F t == 0) (.ok (.job s (t16B t) (t16C t)))
  | 0x54 =>
    zeroOr (a == 0 && (t16I t).extractLsb' 0 8 == 0)
      (match ((t16I t).extractLsb' 8 2).toNat with
      | 0 => .ok (.ldirSet s (t16B t))
      | 1 => zeroOr (t16B t == 0) (.ok (.ldirSwap s))
      | 2 => zeroOr (t16B t == 0) (.ok (.ldirRev s))
      | _ => .error .badFunction)
  | 0x55 =>
    pick [Instr.collMax s (t32B t), .collReduceBsi s (t32B t), .collBcast s (t32B t), .collGather s (t32B t)]
      (t32F t).toNat fun i => zeroOr (a == 0 && t32C t == 0 && t32D t == 0 && t32X t == 0) (.ok i)
  | _ => .error .reservedMajor

/-- Major 0x5B (R391 to R394): `trap`, `tret`, `brk`, `mchk`. -/
def decodeTrap (s : Bool) (t : BitVec 48) : Except DecodeErr Instr :=
  match ((t16I t).extractLsb' 7 3).toNat with
  | 0 => zeroOr (t16B t == 0) (.ok (.trap s ((t16I t).extractLsb' 0 7)))
  | 1 => zeroOr (t16B t == 0 && (t16I t).extractLsb' 1 6 == 0) (.ok (.tret s ((t16I t).getLsbD 0)))
  | 2 => zeroOr (t16B t == 0) (.ok (.brk s ((t16I t).extractLsb' 0 7)))
  | 3 => zeroOr (t16B t == 0 && (t16I t).extractLsb' 0 7 == 0) (.ok (.mchkAbort s))
  | 4 => zeroOr ((t16I t).extractLsb' 0 7 == 0) (.ok (.mchkInject s (t16B t)))
  | _ => .error .badFunction

/-- Composition and system majors 0x58 to 0x5E (R147, R148, R193, R391 to R394, R407 to R409). -/
def decodeSystem (opc : Nat) (s : Bool) (a : Reg) (t : BitVec 48) : Except DecodeErr Instr :=
  match opc with
  | 0x58 =>
    zeroOr (a == 0 && t16B t == 0 && (t16I t).extractLsb' 3 7 == 0)
      (.ok (.compose s ((t16I t).extractLsb' 0 3)))
  | 0x59 => zeroOr (a == 0) (.ok (.release s))
  | 0x5A =>
    zeroOr (t32W t == 0 && (t32I t).extractLsb' 10 6 == 0)
      (match (t32F4 t).toNat with
      | 0 => zeroOr (t32B t == 0) (.ok (.srRd s a ((t32I t).extractLsb' 0 10)))
      | 1 => .ok (.srWr s a (t32B t) ((t32I t).extractLsb' 0 10))
      | 2 => .ok (.srSet s a (t32B t) ((t32I t).extractLsb' 0 10))
      | 3 => .ok (.srClr s a (t32B t) ((t32I t).extractLsb' 0 10))
      | _ => .error .badFunction)
  | 0x5B => zeroOr (a == 0) (decodeTrap s t)
  | 0x5C =>
    match (t16F t).toNat with
    | 3 => .ok (.tlbProbe s a (t16B t) (t16C t))
    | n =>
      match tlbScopeOf a.toNat with
      | none => .error .badFunction
      | some sc =>
        match n with
        | 0 => .ok (.tlbVa s sc (t16B t) (t16C t))
        | 1 => zeroOr (t16B t == 0) (.ok (.tlbAsid s sc (t16C t)))
        | 2 => zeroOr (t16B t == 0 && t16C t == 0) (.ok (.tlbAll s sc))
        | _ => .error .badFunction
  | 0x5D =>
    zeroOr (a == 0 && (t16I t).extractLsb' 0 8 == 0)
      (match ((t16I t).extractLsb' 8 2).toNat with
      | 0 => zeroOr (t16B t == 0) (.ok (.trcOn s))
      | 1 => zeroOr (t16B t == 0) (.ok (.trcOff s))
      | 2 => zeroOr (t16B t == 0) (.ok (.trcFreeze s))
      | _ => .ok (.trcMark s (t16B t)))
  | 0x5E =>
    zeroOr ((t16I t).extractLsb' 4 4 == 0)
      (match ((t16I t).extractLsb' 8 2).toNat with
      | 0 => zeroOr (t16B t == 0) (.ok (.ctrRd s a ((t16I t).extractLsb' 0 4)))
      | 1 => zeroOr (a == 0) (.ok (.ctrSel s ((t16I t).extractLsb' 0 4) (t16B t)))
      | 2 => zeroOr (a == 0 && t16B t == 0) (.ok (.ctrClr s ((t16I t).extractLsb' 0 4)))
      | _ => .error .badFunction)
  | _ => .error .reservedMajor

/-- Conversion majors 0x60 to 0x66 (R293 to R300). -/
def decodeConv (opc : Nat) (s : Bool) (a : Reg) (t : BitVec 48) : Except DecodeErr Instr :=
  let f := t32F t
  let x := t32X t
  match opc with
  | 0x60 =>
    pick fmts (x.extractLsb' 4 4).toNat fun dst => pick fmts (x.extractLsb' 0 4).toNat fun src =>
      zeroOr (t32D t == 0 && f.extractLsb' 4 2 == 0)
        (.ok (.cvt s (f.extractLsb' 0 3) (f.getLsbD 3) dst src a (t32B t) (t32C t)))
  | 0x61 =>
    pick fmts (x.extractLsb' 4 4).toNat fun dst => pick fmts (x.extractLsb' 0 4).toNat fun src =>
      zeroOr (f.extractLsb' 4 2 == 0)
        (.ok (.vcvt s (f.extractLsb' 0 3) (f.getLsbD 3) dst src a (t32B t) ((t32C t).extractLsb' 0 3)
          ((t32C t).extractLsb' 3 3) (t32D t)))
  | 0x62 =>
    pick fmts (x.extractLsb' 0 4).toNat fun fm => zeroOr (f.extractLsb' 3 3 == 0 && !x.getLsbD 7)
      (.ok (.vquant s (f.extractLsb' 0 3) fm (x.extractLsb' 4 3) a (t32B t) (t32C t) (t32D t)))
  | 0x63 =>
    pick fmts (x.extractLsb' 0 4).toNat fun fm => zeroOr (f == 0 && !x.getLsbD 7)
      (.ok (.vdeq s fm (x.extractLsb' 4 3) a (t32B t) (t32C t) (t32D t)))
  | 0x64 =>
    pick [false, true] (f.extractLsb' 0 2).toNat fun delta => pick fmts (x.extractLsb' 0 4).toNat fun fm =>
      zeroOr (f.extractLsb' 2 4 == 0 && t32D t == 0 && x.extractLsb' 4 4 == 0)
        (.ok (.vbexp s delta fm a (t32B t) (t32C t)))
  | 0x65 => zeroOr (t32B t == 0 && t32D t == 0 && f == 0 && x == 0) (.ok (.vrng s a (t32C t)))
  | 0x66 =>
    pick fmts (x.extractLsb' 0 4).toNat fun fm => zeroOr (!f.getLsbD 5 && !x.getLsbD 7)
      (.ok (.vmxio s (f.getLsbD 4) (f.extractLsb' 0 3) (f.getLsbD 3) fm (x.extractLsb' 4 3) a (t32B t) (t32C t)
        (t32D t)))
  | _ => .error .reservedMajor

/-- Vector majors 0x68 to 0x73 (R312 to R324). -/
def decodeVec (opc : Nat) (s : Bool) (a : Reg) (t : BitVec 48) : Except DecodeErr Instr :=
  let f := t32F t
  let v := vflagsOf t
  let plain := v.rm == 0 && !v.sc
  match opc with
  | 0x68 => pick vfFns f.toNat fun fn => zeroOr (t32D t == 0) (.ok (.vf s fn v a (t32B t) (t32C t)))
  | 0x69 =>
    pick fmaFns (f.extractLsb' 0 2).toNat fun fn => zeroOr (f.extractLsb' 3 3 == 0)
      (.ok (.vfma s fn (f.getLsbD 2) v a (t32B t) (t32C t) (t32D t)))
  | 0x6A => pick vfFns f.toNat fun fn => zeroOr (t32D t == 0) (.ok (.vd s fn v a (t32B t) (t32C t)))
  | 0x6B =>
    pick viFns (f.extractLsb' 0 5).toNat fun fn => zeroOr (t32D t == 0)
      (.ok (.vi s fn (f.getLsbD 5) v a (t32B t) (t32C t)))
  | 0x6C =>
    pick vcmpConds (f.extractLsb' 0 3).toNat fun c => pick vcmpTys (f.extractLsb' 3 2).toNat fun ty =>
      zeroOr (a.extractLsb' 3 3 == 0 && !f.getLsbD 5 && t32D t == 0)
        (.ok (.vcmp s c ty v (a.extractLsb' 0 3) (t32B t) (t32C t)))
  | 0x6D =>
    pick [false, true] f.toNat fun wide => zeroOr (plain && !v.z && t32D t == 0)
      (.ok (.vsel s wide v.km a (t32B t) (t32C t)))
  | 0x6E =>
    pick vredFns f.toNat fun fn => zeroOr (plain && !v.z && t32C t == 0 && t32D t == 0)
      (.ok (.vred s fn v.km a (t32B t)))
  | 0x6F =>
    pick vpermFns f.toNat fun fn => zeroOr plain (.ok (.vperm s fn v.z v.km a (t32B t) (t32C t) (t32D t)))
  | 0x70 =>
    pick vmskFns f.toNat fun fn => zeroOr (t32D t == 0 && t32X t == 0) (.ok (.vmsk s fn a (t32B t) (t32C t)))
  | 0x71 =>
    pick vspecFns (f.extractLsb' 0 3).toNat fun fn =>
      zeroOr (f.extractLsb' 4 2 == 0 && !v.sc && t32C t == 0 && t32D t == 0)
        (.ok (.vspec s fn (f.getLsbD 3) v.rm v.z v.km a (t32B t)))
  | 0x72 =>
    pick vmovFns f.toNat fun fn => zeroOr (plain && t32D t == 0)
      (.ok (.vmov s fn v.z v.km a (t32B t) (t32C t)))
  | 0x73 =>
    pick vbsiFns f.toNat fun fn => zeroOr (t32D t == 0 && (t32X t).extractLsb' 2 3 == 0)
      (.ok (.vbsi s fn v.rm ((t32X t).extractLsb' 0 2) a (t32B t) (t32C t)))
  | _ => .error .reservedMajor

/-- Matrix majors 0x78 to 0x7D (R348). -/
def decodeMatrix (opc : Nat) (s : Bool) (a : Reg) (t : BitVec 48) : Except DecodeErr Instr :=
  let f := t32F t
  let acc : BitVec 2 := f.extractLsb' 0 2
  let clr := f.getLsbD 2
  zeroOr (a == 0 && t32D t == 0 && t32X t == 0 && f.extractLsb' 3 3 == 0)
    (match opc with
    | 0x78 => .ok (.mm s acc clr (t32B t) (t32C t))
    | 0x79 => .ok (.mms s acc clr (t32B t) (t32C t))
    | 0x7A => .ok (.mmx s acc clr (t32B t) (t32C t))
    | 0x7B => zeroOr (t32B t == 0 && !clr) (.ok (.mzero s acc (t32C t)))
    | 0x7C => .ok (.mread s acc clr (t32B t) (t32C t))
    | 0x7D => zeroOr (acc == 0 && !clr) (.ok (.mstw s (t32B t) (t32C t)))
    | _ => .error .reservedMajor)

/-- The instruction whose fields are those of the head and tail, before the operand limits. -/
def decodeFields (e : Enc) : Except DecodeErr Instr :=
  let opc := hdOpc e.head
  let s := hdS e.head
  let a := hdA e.head
  if opc < 0x10 then decodeControl opc s a e.tail
  else if opc < 0x20 then decodeInt opc (hdTl e.head) s a e.tail
  else if opc < 0x40 then decodeMem opc s a e.tail
  else if opc < 0x48 then decodeOrder opc s a e.tail
  else if opc < 0x50 then decodeAtomic opc s a e.tail
  else if opc < 0x58 then decodeMsg opc s a e.tail
  else if opc < 0x60 then decodeSystem opc s a e.tail
  else if opc < 0x68 then decodeConv opc s a e.tail
  else if opc < 0x78 then decodeVec opc s a e.tail
  else decodeMatrix opc s a e.tail

/-- The decoder (R41, R42): total, rejecting by name. -/
def decode (e : Enc) : Except DecodeErr Instr :=
  match majorTl (hdOpc e.head) with
  | none => .error .reservedMajor
  | some tls =>
    if hdTl e.head ∈ tls then
      match decodeFields e with
      | .ok i => if i.wf then .ok i else .error .badOperand
      | .error r => .error r
    else .error .badTailLength

/-- The function code of a constructor in its list of codes. -/
def codeIn [DecidableEq α] (l : List α) (x : α) : Nat := l.idxOf x

/-- A function code as an n-bit field. -/
def fc [DecidableEq α] (n : Nat) (l : List α) (x : α) : BitVec n := BitVec.ofNat n (codeIn l x)

/-- The words of an instruction (R27, R29 and each entry's encoding). The events of the table have none. -/
def encode : Instr → Option Enc
  | .br s l h => some ⟨mkHead s 2 0x01 0, mkT32J l h⟩
  | .bcc s c a b l h => some ⟨mkHead s 2 0x02 a, mkT32B b (fc 3 brConds c) l h⟩
  | .bz s a l h => some ⟨mkHead s 2 0x03 a, mkT32B 0 0 l h⟩
  | .bnz s a l h => some ⟨mkHead s 2 0x03 a, mkT32B 0 1 l h⟩
  | .jal s a l h => some ⟨mkHead s 2 0x04 a, mkT32J l h⟩
  | .jalr s a b i => some ⟨mkHead s 1 0x05 a, mkT16I b i⟩
  | .ret s a => some ⟨mkHead s 0 0x06 a, 0⟩
  | .loop s a l h => some ⟨mkHead s 2 0x07 a, mkT32B 0 0 l h⟩
  | .loopGtz s a l h => some ⟨mkHead s 2 0x07 a, mkT32B 0 1 l h⟩
  | .sig s crc => some ⟨mkHead s 1 0x08 0, crc.setWidth 48⟩
  | .yield s => some ⟨mkHead s 0 0x09 0, 0⟩
  | .endAct s => some ⟨mkHead s 0 0x0A 0, 0⟩
  | .wait s a => some ⟨mkHead s 0 0x0B a, 0⟩
  | .spawn s a b w p d => some ⟨mkHead s 2 0x0C a, mkT32I b (0#1 ++ p) w d⟩
  | .launch s a b => some ⟨mkHead s 1 0x0D a, mkT16R b 0 0⟩
  | .once s => some ⟨mkHead s 0 0x0E 0, 0⟩
  | .alu s f a b c => some ⟨mkHead s 1 0x10 a, mkT16R b c (fc 4 aluFns f)⟩
  | .aluw s f a b c => some ⟨mkHead s 1 0x11 a, mkT16R b c (fc 4 aluFns f)⟩
  | .muldiv s f a b c => some ⟨mkHead s 1 0x12 a, mkT16R b c (fc 4 mulFns f)⟩
  | .alui s f a b i => some ⟨mkHead s 2 0x13 a, mkT32I b (fc 4 aluFns f) 0 i⟩
  | .aluiw s f a b i => some ⟨mkHead s 2 0x14 a, mkT32I b (fc 4 aluFns f) 0 i⟩
  | .liImm16 s a i => some ⟨mkHead s 1 0x15 a, i.setWidth 48⟩
  | .liImm32 s a i => some ⟨mkHead s 2 0x15 a, i.setWidth 48⟩
  | .liImm48 s a i => some ⟨mkHead s 3 0x15 a, i⟩
  | .bit s f a b c => some ⟨mkHead s 1 0x16 a, mkT16R b c (fc 4 bitFns f)⟩
  | .sel s c a b cc d => some ⟨mkHead s 2 0x17 a, mkT32R b cc d (fc 6 selConds c) 0⟩
  | .addr s f a b c d sh x => some ⟨mkHead s 2 0x18 a, mkT32R b c d (fc 3 addrFns f ++ sh) x⟩
  | .movaPcl s a o => some ⟨mkHead s 1 0x19 a, mkT16R (o.extractLsb' 6 6) (o.extractLsb' 0 6) 0⟩
  | .movaNext s a => some ⟨mkHead s 1 0x19 a, mkT16R 0 0 1⟩
  | .ld s w a m => some ⟨mkHead s 2 0x30 a, mkT32M m (fc 3 ldWs w)⟩
  | .st s w a m => some ⟨mkHead s 2 0x31 a, mkT32M m (fc 3 stWs w)⟩
  | .ldu s w a m => some ⟨mkHead s 2 0x32 a, mkT32M m (fc 3 ldWs w)⟩
  | .stu s w a m => some ⟨mkHead s 2 0x33 a, mkT32M m (fc 3 stWs w)⟩
  | .vld s w a m => some ⟨mkHead s 2 0x34 a, mkT32M m (fc 3 vecWs w)⟩
  | .vst s w a m => some ⟨mkHead s 2 0x35 a, mkT32M m (fc 3 vecWs w)⟩
  | .pref s f k m => some ⟨mkHead s 2 0x36 (fc 6 prefFns f), mkT32M m k⟩
  | .copFlush s m => some ⟨mkHead s 2 0x37 0, mkT32M m 0⟩
  | .copClean s m => some ⟨mkHead s 2 0x37 1, mkT32M m 0⟩
  | .copInv s m => some ⟨mkHead s 2 0x37 2, mkT32M m 0⟩
  | .copZero s m => some ⟨mkHead s 2 0x37 3, mkT32M m 0⟩
  | .copDemote s m => some ⟨mkHead s 2 0x37 4, mkT32M m 0⟩
  | .keep s n b c => some ⟨mkHead s 2 0x38 (0#3 ++ n), mkT32R b c 0 0 0⟩
  | .unkeep s n => some ⟨mkHead s 2 0x38 (0#3 ++ n), mkT32R 0 0 0 1 0⟩
  | .fence s scp l e => some ⟨mkHead s 1 0x40 (0#3 ++ scp), mkT16I 0 (0#6 ++ l ++ e)⟩
  | .tfence s => some ⟨mkHead s 0 0x41 0, 0⟩
  | .fwaitW s b n => some ⟨mkHead s 1 0x42 0, mkT16I b n⟩
  | .fwaitRw s b n => some ⟨mkHead s 1 0x42 1, mkT16I b n⟩
  | .fwaitAll s => some ⟨mkHead s 1 0x42 2, 0⟩
  | .irrev s => some ⟨mkHead s 0 0x43 0, 0⟩
  | .amo s op w b c o => some ⟨mkHead s 2 0x48 0, mkT32R b c 0 (fc 2 amoWs w ++ fc 4 amoOps op) (amoX o)⟩
  | .amof s op w a b c o => some ⟨mkHead s 2 0x49 a, mkT32R b c 0 (fc 2 amoWs w ++ fc 4 amoOps op) (amoX o)⟩
  | .cas s w a b c d o => some ⟨mkHead s 2 0x4A a, mkT32R b c d (fc 2 amoWs w ++ 0#4) (amoX o)⟩
  | .amot s op w b c d o => some ⟨mkHead s 2 0x4B 0, mkT32R b c d (fc 2 amoWs w ++ fc 4 amoOps op) (amoX o)⟩
  | .barArrive s b => some ⟨mkHead s 1 0x4C 0, mkT16R 0 (0#4 ++ b) 0⟩
  | .barWait s b => some ⟨mkHead s 1 0x4C 0, mkT16R 0 (0#4 ++ b) 1⟩
  | .barSync s b => some ⟨mkHead s 1 0x4C 0, mkT16R 0 (0#4 ++ b) 2⟩
  | .barCombine s f a v b => some ⟨mkHead s 1 0x4C a, mkT16R v (0#4 ++ b) (barFnCode f)⟩
  | .send s a b rep rmo res d =>
    some ⟨mkHead s 2 0x50 a,
      mkT32I b (0#1 ++ BitVec.ofBool res ++ BitVec.ofBool rmo ++ BitVec.ofBool rep) 0 d⟩
  | .bind s ch b cl => some ⟨mkHead s 1 0x51 ch, mkT16I b (0#1 ++ BitVec.ofBool cl ++ 0#8)⟩
  | .unbind s ch cl => some ⟨mkHead s 1 0x51 ch, mkT16I 0 (1#1 ++ BitVec.ofBool cl ++ 0#8)⟩
  | .chanMask s ch => some ⟨mkHead s 1 0x52 ch, mkT16I 0 0⟩
  | .chanUnmask s ch => some ⟨mkHead s 1 0x52 ch, mkT16I 0 (1#2 ++ 0#8)⟩
  | .chanPrio s ch p => some ⟨mkHead s 1 0x52 ch, mkT16I 0 (2#2 ++ 0#5 ++ p)⟩
  | .job s b c => some ⟨mkHead s 1 0x53 0, mkT16R b c 0⟩
  | .ldirSet s b => some ⟨mkHead s 1 0x54 0, mkT16I b 0⟩
  | .ldirSwap s => some ⟨mkHead s 1 0x54 0, mkT16I 0 (1#2 ++ 0#8)⟩
  | .ldirRev s => some ⟨mkHead s 1 0x54 0, mkT16I 0 (2#2 ++ 0#8)⟩
  | .collMax s b => some ⟨mkHead s 2 0x55 0, mkT32R b 0 0 0 0⟩
  | .collReduceBsi s b => some ⟨mkHead s 2 0x55 0, mkT32R b 0 0 1 0⟩
  | .collBcast s b => some ⟨mkHead s 2 0x55 0, mkT32R b 0 0 2 0⟩
  | .collGather s b => some ⟨mkHead s 2 0x55 0, mkT32R b 0 0 3 0⟩
  | .compose s lg => some ⟨mkHead s 1 0x58 0, mkT16I 0 (0#7 ++ lg)⟩
  | .release s => some ⟨mkHead s 0 0x59 0, 0⟩
  | .srRd s a n => some ⟨mkHead s 2 0x5A a, mkT32I 0 0 0 (0#6 ++ n)⟩
  | .srWr s a b n => some ⟨mkHead s 2 0x5A a, mkT32I b 1 0 (0#6 ++ n)⟩
  | .srSet s a b n => some ⟨mkHead s 2 0x5A a, mkT32I b 2 0 (0#6 ++ n)⟩
  | .srClr s a b n => some ⟨mkHead s 2 0x5A a, mkT32I b 3 0 (0#6 ++ n)⟩
  | .trap s n => some ⟨mkHead s 1 0x5B 0, mkT16I 0 (0#3 ++ n)⟩
  | .tret s kr => some ⟨mkHead s 1 0x5B 0, mkT16I 0 (1#3 ++ 0#6 ++ BitVec.ofBool kr)⟩
  | .brk s n => some ⟨mkHead s 1 0x5B 0, mkT16I 0 (2#3 ++ n)⟩
  | .mchkAbort s => some ⟨mkHead s 1 0x5B 0, mkT16I 0 (3#3 ++ 0#7)⟩
  | .mchkInject s b => some ⟨mkHead s 1 0x5B 0, mkT16I b (4#3 ++ 0#7)⟩
  | .tlbVa s sc b c => some ⟨mkHead s 1 0x5C (tlbScopeCode sc), mkT16R b c 0⟩
  | .tlbAsid s sc c => some ⟨mkHead s 1 0x5C (tlbScopeCode sc), mkT16R 0 c 1⟩
  | .tlbAll s sc => some ⟨mkHead s 1 0x5C (tlbScopeCode sc), mkT16R 0 0 2⟩
  | .tlbProbe s a b c => some ⟨mkHead s 1 0x5C a, mkT16R b c 3⟩
  | .trcOn s => some ⟨mkHead s 1 0x5D 0, mkT16I 0 0⟩
  | .trcOff s => some ⟨mkHead s 1 0x5D 0, mkT16I 0 (1#2 ++ 0#8)⟩
  | .trcFreeze s => some ⟨mkHead s 1 0x5D 0, mkT16I 0 (2#2 ++ 0#8)⟩
  | .trcMark s b => some ⟨mkHead s 1 0x5D 0, mkT16I b (3#2 ++ 0#8)⟩
  | .ctrRd s a n => some ⟨mkHead s 1 0x5E a, mkT16I 0 (0#6 ++ n)⟩
  | .ctrSel s n b => some ⟨mkHead s 1 0x5E 0, mkT16I b (1#2 ++ 0#4 ++ n)⟩
  | .ctrClr s n => some ⟨mkHead s 1 0x5E 0, mkT16I 0 (2#2 ++ 0#4 ++ n)⟩
  | .cvt s rm sat dst src a b c =>
    some ⟨mkHead s 2 0x60 a, mkT32R b c 0 (0#2 ++ BitVec.ofBool sat ++ rm) (fc 4 fmts dst ++ fc 4 fmts src)⟩
  | .vcvt s rm sat dst src a b km p d =>
    some ⟨mkHead s 2 0x61 a,
      mkT32R b (p ++ km) d (0#2 ++ BitVec.ofBool sat ++ rm) (fc 4 fmts dst ++ fc 4 fmts src)⟩
  | .vquant s rm f p a b c d => some ⟨mkHead s 2 0x62 a, mkT32R b c d (0#3 ++ rm) (0#1 ++ p ++ fc 4 fmts f)⟩
  | .vdeq s f p a b c d => some ⟨mkHead s 2 0x63 a, mkT32R b c d 0 (0#1 ++ p ++ fc 4 fmts f)⟩
  | .vbexp s delta f a b c =>
    some ⟨mkHead s 2 0x64 a, mkT32R b c 0 (0#5 ++ BitVec.ofBool delta) (0#4 ++ fc 4 fmts f)⟩
  | .vrng s a c => some ⟨mkHead s 2 0x65 a, mkT32R 0 c 0 0 0⟩
  | .vmxio s out rm sat f p a b c d =>
    some ⟨mkHead s 2 0x66 a,
      mkT32R b c d (0#1 ++ BitVec.ofBool out ++ BitVec.ofBool sat ++ rm) (0#1 ++ p ++ fc 4 fmts f)⟩
  | .vf s f v a b c => some ⟨mkHead s 2 0x68 a, mkT32R b c 0 (fc 6 vfFns f) (vflagsX v)⟩
  | .vfma s f wide v a b c d =>
    some ⟨mkHead s 2 0x69 a, mkT32R b c d (0#3 ++ BitVec.ofBool wide ++ fc 2 fmaFns f) (vflagsX v)⟩
  | .vd s f v a b c => some ⟨mkHead s 2 0x6A a, mkT32R b c 0 (fc 6 vfFns f) (vflagsX v)⟩
  | .vi s f wide v a b c =>
    some ⟨mkHead s 2 0x6B a, mkT32R b c 0 (BitVec.ofBool wide ++ fc 5 viFns f) (vflagsX v)⟩
  | .vcmp s c ty v a b cc =>
    some ⟨mkHead s 2 0x6C (0#3 ++ a), mkT32R b cc 0 (0#1 ++ fc 2 vcmpTys ty ++ fc 3 vcmpConds c) (vflagsX v)⟩
  | .vsel s wide km a b c => some ⟨mkHead s 2 0x6D a, mkT32R b c 0 (0#5 ++ BitVec.ofBool wide) (0#5 ++ km)⟩
  | .vred s f km a b => some ⟨mkHead s 2 0x6E a, mkT32R b 0 0 (fc 6 vredFns f) (0#5 ++ km)⟩
  | .vperm s f z km a b c d =>
    some ⟨mkHead s 2 0x6F a, mkT32R b c d (fc 6 vpermFns f) (0#4 ++ BitVec.ofBool z ++ km)⟩
  | .vmsk s f a b c => some ⟨mkHead s 2 0x70 a, mkT32R b c 0 (fc 6 vmskFns f) 0⟩
  | .vspec s f wide rm z km a b =>
    some ⟨mkHead s 2 0x71 a,
      mkT32R b 0 0 (0#2 ++ BitVec.ofBool wide ++ fc 3 vspecFns f) (rm ++ 0#1 ++ BitVec.ofBool z ++ km)⟩
  | .vmov s f z km a b c =>
    some ⟨mkHead s 2 0x72 a, mkT32R b c 0 (fc 6 vmovFns f) (0#4 ++ BitVec.ofBool z ++ km)⟩
  | .vbsi s f rm p a b c => some ⟨mkHead s 2 0x73 a, mkT32R b c 0 (fc 6 vbsiFns f) (rm ++ 0#3 ++ p)⟩
  | .mm s t clr b c => some ⟨mkHead s 2 0x78 0, mkT32R b c 0 (0#3 ++ BitVec.ofBool clr ++ t) 0⟩
  | .mms s t clr b c => some ⟨mkHead s 2 0x79 0, mkT32R b c 0 (0#3 ++ BitVec.ofBool clr ++ t) 0⟩
  | .mmx s t clr b c => some ⟨mkHead s 2 0x7A 0, mkT32R b c 0 (0#3 ++ BitVec.ofBool clr ++ t) 0⟩
  | .mzero s t c => some ⟨mkHead s 2 0x7B 0, mkT32R 0 c 0 (0#4 ++ t) 0⟩
  | .mread s t clr b c => some ⟨mkHead s 2 0x7C 0, mkT32R b c 0 (0#3 ++ BitVec.ofBool clr ++ t) 0⟩
  | .mstw s b c => some ⟨mkHead s 2 0x7D 0, mkT32R b c 0 0 0⟩
  | _ => none

/-- The function code a trap record shows (R62, R375): the entry's function field; for memory accesses the
W code; for atomics F; 0 where the entry has none. -/
def funcOf (e : Enc) : Nat :=
  let t := e.tail
  let m := hdOpc e.head
  if m ∈ [0x02, 0x03, 0x07] then (tbF t).toNat
  else if m ∈ [0x10, 0x11, 0x12, 0x16, 0x19, 0x4C, 0x5C] then (t16F t).toNat
  else if m ∈ [0x13, 0x14, 0x5A] then (t32F4 t).toNat
  else if m = 0x18 then ((t32F t).extractLsb' 3 3).toNat
  else if m ∈ [0x17, 0x38, 0x48, 0x49, 0x4A, 0x4B, 0x55, 0x62, 0x63, 0x64, 0x65, 0x66] then (t32F t).toNat
  else if m ∈ [0x30, 0x31, 0x32, 0x33, 0x34, 0x35] then (tmW t).toNat
  else if m ∈ [0x36, 0x37] then (hdA e.head).toNat
  else if m = 0x42 then (hdA e.head).toNat
  else if m ∈ [0x52, 0x54, 0x5D, 0x5E] then ((t16I t).extractLsb' 8 2).toNat
  else if m = 0x51 then ((t16I t).extractLsb' 9 1).toNat
  else if m = 0x5B then ((t16I t).extractLsb' 7 3).toNat
  else if m ∈ [0x60, 0x61] then (t32F t).toNat
  else if 0x68 ≤ m ∧ m ≤ 0x73 then (t32F t).toNat
  else if 0x78 ≤ m ∧ m ≤ 0x7D then (t32F t).toNat
  else 0

/-- An instruction of the table given as one number: the head stands in the highest 16 of the `nbits` bits and the
tail below it, as the table's words are numbered; a tail longer than `nbits` gives has zeros above them. -/
def encOfTable (nbits w : Nat) : Enc :=
  ⟨BitVec.ofNat 16 (w / 2 ^ (nbits - 16)), BitVec.ofNat 48 (w % 2 ^ (nbits - 16))⟩

/-- What the decoder reads from a table word. -/
def decodeTableWord (nbits w : Nat) : Option Instr :=
  match decode (encOfTable nbits w) with
  | .ok i => some i
  | .error _ => none

/-! Instruction lines (R20 to R26). A line is the list of its 32 halfwords, slot 0 first. -/

/-- `half(L, n)` of R20. -/
def half (line : List (BitVec 16)) (n : Nat) : BitVec 16 := line.getD n 0

/-- The prefix sum t of R26 for head `h`; `none` where an EOL head stands before it. -/
def tailSum (line : List (BitVec 16)) : Nat → Option Nat
  | 0 => some 0
  | j + 1 =>
    if half line j = 0 then none
    else (tailSum line j).map (· + hdTl (half line j))

/-- The tail of `k` halfwords whose least significant slot is `lo` (R21, R26). -/
def tailAt (line : List (BitVec 16)) (lo : Nat) : Nat → Nat
  | 0 => 0
  | i + 1 => tailAt line lo i + (half line (lo + i)).toNat * 2 ^ (16 * i)

/-- The procedure of R26: the head and tail at head index `h`, or `none` where it raises ILLEGAL. -/
def decodeLine (line : List (BitVec 16)) (h : Nat) : Option Enc :=
  if half line 0 = 0 then none
  else
    match tailSum line h with
    | none => none
    | some t =>
      if 32 - t ≤ h ∨ half line h = 0 ∨ 31 < h + t + hdTl (half line h) then none
      else
        let k := hdTl (half line h)
        some ⟨half line h, BitVec.ofNat 48 (tailAt line (32 - t - k) k)⟩

/-- The PC that follows head `h` in sequence (R26): head `h + 1` of the line where slot `h + 1` lies below the tail
region and holds no EOL head, otherwise head 0 of the next line. -/
def seqPc (lineAddr : Word) (line : List (BitVec 16)) (h : Nat) : Word :=
  match tailSum line (h + 1) with
  | some t => if h + 1 < 32 - t ∧ half line (h + 1) ≠ 0 then lineAddr + BitVec.ofNat 64 (2 * (h + 1)) else lineAddr + 64
  | none => lineAddr + 64

end Sys2Proof
end

