-- ==== Sys2Proof/Config.lean ====
section
/-! DEFINITION. What an implementation or an installation fixes, and the values the manual leaves open. The free
values have no body: nothing in Lean can evaluate them, so no statement can rest on a value of them. They are applied
to the counter `free` of State, which a step that uses one advances (assumption log 7). -/

namespace Sys2Proof.Config

/-- A free natural number: which entry of an inconsistent 64 KiB group a translation uses (R184), whether an
unanswered far atomic was performed (R222). -/
opaque freeNat : Nat → Nat

/-- A free doubleword: a value the manual names without stating it. -/
opaque freeWord : Nat → BitVec 64

/-- A free vector register value: bits of a vector result the manual does not state. -/
opaque freeVec : Nat → BitVec 1024

end Sys2Proof.Config
end

