-- ==== Sys2Proof/Machine/State.lean ====
section
/-! DEFINITION. The state of one PX-840 module: everything the manual gives the machine, as plain data, and
`State.reset`, the module right after reset. Tables indexed by core, cluster, die, address or number are lists of
(key, value) pairs sorted by key; an entry that is not listed has its reset value. -/

namespace Sys2Proof.Machine

/-- Why the model stops: a condition the manual gives no effect for. -/
inductive Fault where
  /-- Raised by `step` when the agenda names a thread slot that the module does not have (R9, R92): no agent of the
  machine can do so. Safe: the model stops where nothing is described. -/
  | noSuchSlot
deriving DecidableEq, Repr

/-- Why the model gives an instruction no meaning. -/
inductive Refusal where
  /-- Raised by `exec` for an instruction that has no meaning in the model yet. Safe: nothing is claimed of it. -/
  | notModelled (mnemonic : String)
deriving DecidableEq, Repr

/-- The states of a thread slot (R92, R139, R380). -/
inductive SlotSt where
  | free | filling | ready | parked | stalled | closing | composing | lead | helper | releasing | halted
deriving DecidableEq, Repr

/-- The states of an activation (R102). -/
inductive ActSt where
  | none | starting | running | irrevocable | ended | committed | aborted
deriving DecidableEq, Repr

/-- The states of a strand (R96). -/
inductive StrandSt where
  | ready | running | waiting | done
deriving DecidableEq, Repr

/-- The trigger kinds of R99. `root` also covers a spawned strand's first activation (R95, RESUME). -/
inductive TrigKind where
  | channel | continuation | self | root
deriving DecidableEq, Repr

/-- A commit key (R106). -/
structure Key where
  ts : Word
  sid : BitVec 40
  idx : BitVec 16
deriving DecidableEq, Repr

/-- The kinds of memory of R150. -/
inductive Kind where
  | device | host | coreStore | scratch | io | view
deriving DecidableEq, Repr

/-- A translation as a TLB holds it (R181, R183, R188): the virtual page, its size, the leaf entry and where the
leaf stands. -/
structure TlbEntry where
  asid : Nat
  vpage : Nat
  size : Nat
  pte : Word
  global : Bool
deriving DecidableEq, Repr

/-- A table pointer held in the table cache (R188): the table that the pointer at level `level` names. -/
structure TableEntry where
  asid : Nat
  level : Nat
  prefixVa : Nat
  table : Nat
deriving DecidableEq, Repr

/-- A binding of a channel (R94, R251). -/
structure Binding where
  entry : Word
  prio : BitVec 3
  budget : Nat
  domain : BitVec 32
  chk : Bool
  ldir : Word
  team : Nat
deriving DecidableEq, Repr

/-- CHKMODE of R87. -/
structure ChkMode where
  expect : BitVec 16
  run : BitVec 16
  isOpen : Bool
  en : Bool
deriving DecidableEq, Repr

/-- One trap frame of R378. -/
structure TrapFrame where
  trapc : Word
  trapa : Word
  trapv : Word
  trapp : Word
  chk : Word
  modew : Word
  g1 : Word
  g2 : Word
  g3 : Word
  g4 : Word
  g5 : Word
  g6 : Word
deriving DecidableEq, Repr

/-- A trap about to be taken: its code and what R373 and R375 load. -/
structure TrapInfo where
  code : Nat
  resume : Word
  cause : Nat
  lane : Nat
  vseq : Nat
  fpflags : Nat
  major : Nat
  func : Nat
  trapp : Word
deriving DecidableEq, Repr

/-- A machine check about to be reported: the fields of R384. -/
structure McInfo where
  type : Nat
  sev : Nat
  unit : Nat
  agent : BitVec 32
  lane : Nat
  major : Nat
  func : Nat
  res : Nat
  pc : Word
  info : Word
deriving DecidableEq, Repr

/-- The trigger of an activation, held by the NI until the activation commits (R99, R198, R262); `accBy` and `acc` are
the core that accepted it and the number of the acceptance, by which equal keys are ordered (R201), and `ranOn` the
core on which it ran last, to which the push record `pushed` belongs. -/
structure Trigger where
  kind : TrigKind
  key : Key
  chn : BitVec 6
  payload : List Word
  msg : Option Packet
  super : Bool
  pushed : List (Nat × Word)
  redeliveries : Nat
  conflicts : Nat
  accBy : Nat
  acc : Nat
  ranOn : Nat
  accAt : Nat := 0
deriving DecidableEq, Repr

/-- How an access asks caches to treat its line: the eviction priority in force, which is CATTR's where the access names
none (R156, R181), and the page's compressible bit (R159). -/
structure LineAttr where
  evp : Nat
  cmp : Bool
deriving DecidableEq, Repr

/-- A part of an access that lies in one line, with its translation (R168, R186). -/
structure MPart where
  va : Nat
  pa : Nat
  n : Nat
  e : TlbEntry
deriving DecidableEq, Repr

/-- An atomic on its way to its performing point (R217, R225 to R230): its physical and virtual address, operation,
width and operand, the new value of a `cas` whose compare value is the operand, the trigger descriptor of an `amot`,
its outgoing index, and how caches treat its line (R228). -/
structure AtomReq where
  pa : Nat
  va : Nat
  op : AmoOp
  w : AmoW
  v : BitVec 128
  cas : Option (BitVec 128)
  trig : Option (BitVec 256)
  idx : BitVec 16
  attr : LineAttr
deriving DecidableEq, Repr

/-- Where a long-latency result goes when it returns, and what it is (R32, R38). A pop of a port register that
had nothing to give waits in the entry. -/
inductive LongWhat where
  /-- A value, and for a 128-bit pair its high doubleword. -/
  | value (v hi : Word)
  /-- An instruction whose popped operand has not arrived (R32, R38): the instruction, the operand values captured at
  issue by position (the popped one is missing), the port register it waits for and, for an engine queue, the number of
  the command whose token it takes. -/
  | pop (i : Instr) (ops : List (Nat × Word)) (port claim : Nat)
  /-- A fetching atomic on its way to its home (R222, R246). -/
  | far (seq : Nat) (home : Nat)
  /-- A fetching atomic that waits for ownership of its line (R218, R219). -/
  | own (a : AtomReq)
deriving DecidableEq, Repr

/-- One outstanding long-latency result (R38, R40): the register named as its destination, a second register for a
128-bit pair (R226), and the head and function of the instruction. `ticket` holds the outgoing index and the command
number that an instruction whose result is pushed to an engine queue took at issue, or the index of an `amot` (R33).
`parts` is what a store or an atomic that waits for a popped operand will access, checked at issue; `held` numbers the
places it keeps in the store buffer, and `desc` is the trigger descriptor of an `amot`. `split` keeps the two parts of
a load that crosses a line boundary, and whether its value is signed (R168). -/
structure Outst where
  dest : Nat
  pair : Bool
  what : LongWhat
  major : Nat
  func : Nat
  pc : Word
  once : Nat
  ticket : Option (Nat × Nat)
  parts : List MPart := []
  held : Option Nat := none
  desc : Option (BitVec 256) := none
  split : Option (Bool × List MPart) := none
deriving DecidableEq, Repr

/-- A vector instruction dispatched and not yet complete (R302 to R305): the instruction, its VSEQ, its PC, and
the scalar operands and element addresses captured at dispatch. `elems` gives, for a vector memory access, each
element's lane, virtual address and translated address, and `attrs` how caches treat its line. -/
structure VecOp where
  instr : Instr
  vseq : BitVec 8
  pc : Word
  ops : List (Nat × Word)
  rmode : Word
  fond : List Word
  elems : List (Nat × Nat × Nat)
  attrs : List LineAttr := []
deriving DecidableEq, Repr

/-- A late vector fault waiting to be found at a park (R308). -/
structure LateFault where
  pc : Word
  vseq : BitVec 8
  lane : Nat
  flags : Nat
  major : Nat
  func : Nat
deriving DecidableEq, Repr

/-- What a parked slot does when its park ends (R37): it goes on at the PC, it takes a trap (R377), or it performs the
instruction that parked it and has not completed: a terminator, `compose`, `release`, `tret`, `mchk.abort`, `trap`,
`brk`, or a write to WSP in a composed core (R124, R145 to R148, R308, R391 to R393). -/
inductive ParkCont where
  | resume
  | trap (t : TrapInfo)
  | after (i : Instr)
deriving DecidableEq, Repr

/-- Why a slot is STALLED (R92). -/
inductive StallWhy where
  | none
  | linkFull | popEmpty | pool | job | moving | once | barrier (b : Nat) | commitToken | tlbInval
  | vectorBusy | srVector | outLimit | fwait | probe | bounceRoom (since : Nat) | retRoom | outbOrder | publishing
deriving DecidableEq, Repr

/-- One entry of an activation's store buffer (R173, R175, R195, R220). Addresses are system physical; `va` keeps
the virtual address for the footprint comparisons of R204 and R206, `attr` how caches treat the line (R156). `await`
keeps the place of part `k` of store or atomic `held`, which waits for a popped operand (R32). -/
inductive BufEntry where
  | store (pa va size value : Nat) (attr : LineAttr)
  | cop (f : Nat) (pa va : Nat)
  | amo (a : AtomReq)
  | await (held k : Nat)
deriving DecidableEq, Repr

/-- One outgoing entry (R106, R195): its send index and what is issued at commit. `cap` holds what an engine command
captures when it is sent: SEEDLO, SEEDHI, TENSOR and STEP (R329), then, for a matrix instruction, its major, tile,
clear flag, whether it gives the exponent word, and that word (R348), or, for `coll`, its operation (R359). -/
inductive OutWhat where
  | send (d0 d1 d3 : Word) (payload : List Word)
  | spawn (pc g1 g2 : Word) (ts : Word) (prio : BitVec 3) (pool : Nat)
  | launch (pa : Nat) (reply : Word) (view ptr : Nat)
  | engine (q : Nat) (word : Word) (qseq : Nat) (cap : List Nat)
  | job (card : Word) (agent : BitVec 32) (cap : List Nat)
  | bind (ch : Nat) (cl : Bool) (b : Binding)
  | unbind (ch : Nat) (cl : Bool)
  | keep (n : Nat) (lo hi : Word) (die : Nat)
  | unkeep (n : Nat) (die : Nat)
  | amot
deriving DecidableEq, Repr

/-- An outgoing entry with its send index (R106). -/
structure OutEntry where
  idx : Nat
  what : OutWhat
deriving DecidableEq, Repr

/-- A translation that a buffered effect went through (R190, R192, R193): the address space, the virtual page, its
size, whether the entry was global, and the slots whose invalidation has dropped the entry and waits for the effect. -/
structure UsedTrans where
  asid : Nat
  vpage : Nat
  size : Nat
  global : Bool
  stale : List Nat
deriving DecidableEq, Repr

/-- The frame state that a slot's bank holds of one frame (R35): what a write to WSP leaves behind until the activation
commits. -/
structure FrameCtx where
  wsp : Nat
  regs : List (Nat × Word)
  vregs : List (Nat × BitVec 1024)
  masks : List (Nat × BitVec 32)
  user : BitVec 8
  budBase : Nat
  rmode : Word
  fflags : Word
  ldir : Word
  tensor : Word
  stepR : Word
  seedLo : Word
  seedHi : Word
  tstack : Option (List TrapFrame)
deriving DecidableEq, Repr

/-- A thread slot and the activation it holds (R34, R35, R92 to R102, R375, R396). -/
structure Slot where
  st : SlotSt
  stall : StallWhy
  pc : Word
  npc : Word
  regs : List (Nat × Word)
  vregs : List (Nat × BitVec 1024)
  masks : List (Nat × BitVec 32)
  ts : Word
  sid : BitVec 40
  chn : BitVec 6
  prio : BitVec 3
  part : BitVec 8
  user : BitVec 8
  smode : Bool
  budSet : Nat
  budAt : Nat
  budBase : Nat
  rmode : Word
  fflags : Word
  ldir : Word
  tensor : Word
  stepR : Word
  seedLo : Word
  seedHi : Word
  wsp : Nat
  curLog2 : BitVec 3
  tvb : Word
  trapc : Word
  trapa : Word
  trapv : Word
  trapp : Word
  mc2 : Word
  xroot : Word
  super : Bool
  chk : ChkMode
  vseq : BitVec 8
  tstack : Option (List TrapFrame)
  pend : List Nat
  outst : List Outst
  vq : List VecOp
  late : Option LateFault
  cont : ParkCont
  inbox : List Word
  inboxN : Nat
  outb : List Word
  act : ActSt
  trig : Trigger
  key : Key
  seqNo : Nat
  strand : Nat
  fresh : Bool
  domain : BitVec 32
  buf : List BufEntry
  reserved : Nat
  outg : List OutEntry
  nextIdx : Nat
  readset : List Nat
  readva : List Nat
  term : Option Instr
  wmask : Word
  pops : List (Nat × Word)
  pushes : List (Nat × Word)
  tokPops : List (Nat × Nat)
  trans : List UsedTrans
  ctxs : List FrameCtx
  team : Option Nat
  tidx : Nat
  onceN : Nat
  onceArm : Option Word
  barArr : List (Nat × Nat)
  ordN : Nat
  holdN : Nat
  helperOf : Option SlotRef
  irrevAsked : Bool
  vecFetch : Bool
  endNo : Nat
  phase : Nat
  lastPc : Word
deriving DecidableEq, Repr

/-- One command of a token store (R255): its queue and number, its completion word once it has come. -/
structure Token where
  queue : Nat
  qseq : Nat
  done : Option Word
deriving DecidableEq, Repr

/-- A strand: the hardware's copy of its continuation record (R95 to R99) and what it waits for. `trig` is the
trigger of its next activation while it is READY. `toks` is its token store (R255). -/
structure Strand where
  st : StrandSt
  pc : Word
  wsp : Nat
  ts : Word
  sid : BitVec 40
  wmask : Word
  domain : BitVec 32
  prio : BitVec 3
  chk : Bool
  team : Option Nat
  tidx : Nat
  resume : Word
  super : Bool
  home : Nat
  pool : Nat
  trig : Option Trigger
  toks : List Token
  qseqs : List (Nat × Nat)
  dropped : Bool
deriving DecidableEq, Repr

/-- A line held by a cache: address / 64, dirty, sticky, held exclusively (in an L1: dirty is M, exclusive and clean E,
neither S), and written back past the cluster memory (R152, R156). A compressed block (`blk`) is one entry for the four
lines from `line` on, in the line frames it takes (R159). Lists of lines run from the most to the least recently used. -/
structure CLine where
  line : Nat
  dirty : Bool
  sticky : Bool
  excl : Bool
  thru : Bool
  blk : Bool
  frames : Nat
deriving DecidableEq, Repr

/-- What the wafer store holds (R159, R166): an expanded block of 256 bytes, or the view tile number `k` of the
descriptor at `desc`, built from the lines `src`. -/
inductive WaferTag where
  | block (b : Nat)
  | tile (desc view k : Nat) (src : List Nat)
deriving DecidableEq, Repr

/-- A far-atomic request held by its requester until the reply (R222); `newPage` is where a NACK said its page now is
(R224). -/
structure FarReq where
  home : Nat
  seq : Nat
  pkt : Packet
  sentAt : Nat
  retry : Nat
  slot : SlotRef
  live : Bool
  fetch : Bool
  req : AtomReq
  newPage : Option Nat := none
deriving DecidableEq, Repr

/-- A bounced message in a return buffer (R244); `job` is the number of the command that it is the message of (R255). -/
structure RetMsg where
  pkt : Packet
  at_ : Nat
  times : Nat
  job : Option Nat := none
deriving DecidableEq, Repr

/-- A core (R11, R94, R142, R188, R218, R241, R244, R261, R405, R406). `tabOld` keeps the handlers and masks with which
the cycle of their last change began (R242). -/
structure CoreSt where
  handlers : List (Nat × Binding)
  masked : BitVec 64
  maxLog2 : BitVec 3
  pendq : List (Nat × Packet)
  retbuf : List RetMsg
  linkbuf : List (Nat × Word)
  linkfly : List (Nat × Word)
  itlb : List TlbEntry
  dtlb : List TlbEntry
  l1d : List CLine
  l1i : List CLine
  predictor : List (Nat × (Nat × Nat))
  far : List FarReq
  farNext : List (Nat × Nat)
  trace : List (Nat × BitVec 128)
  trcctl : Word
  trctrig : Word
  trcpos : Nat
  trcWrapped : Bool
  trcPost : Option Nat
  trcSample : Nat
  ctrs : List (Nat × (Nat × Nat))
  ctrSel : List (Nat × Word)
  tabOld : Option (Nat × List (Nat × Binding) × BitVec 64) := none
deriving DecidableEq, Repr

/-- One footprint region of a job (R206, R257). -/
structure Region where
  base : Nat
  rowBytes : Nat
  rows : Nat
  stride : Int
deriving DecidableEq, Repr

/-- Who issued an engine command (R186, R255, R259). -/
structure Issuer where
  part : BitVec 8
  xroot : Word
  super : Bool
  domain : BitVec 32
  ts : Word
  sid : BitVec 40
  idx : Nat
  strand : Nat
  queue : Nat
  qseq : Nat
  agent : BitVec 32
  launch : Nat
deriving DecidableEq, Repr

/-- How far an engine command has come (R259, R328, R329, R356); a job whose embedded matrix command has reported is
`joined`. -/
inductive JobSt where
  | issued | read | ready | running | finished | joined
deriving DecidableEq, Repr

/-- An error of the hardware that is about to happen: the next result of a unit of a core comes out with these bits
flipped (R57 to R63, R137, R310). Units are numbered as R384 numbers them; `lane` is 63 for the scalar pipeline. Unit 8
is what a member core receives of a composition's register moves, `lane` then the register (R137). For an engine (R256,
R346, R361), `after` results come out right before the wrong one. -/
structure Glitch where
  core : Nat
  unit : Nat
  lane : Nat
  flip : Word
  after : Nat
deriving DecidableEq, Repr

/-- What a running job has still to write, block by block, and how it then ends: at a line that ends in an abort
completion, or with an error that its engine's check found, with byte 0x0B of the record (R206, R259, R384). -/
structure JobWork where
  writes : List (Nat × List (BitVec 8))
  stop : Option Nat
  fault : Option (Glitch × Nat)
deriving DecidableEq, Repr

/-- An engine command from issue to completion (R206, R255 to R259, R329, R359): its number in order of issue, the
engine's agent identifier, the command word, the bytes of the block as read, its footprints and its completion; how often
its command has bounced (R243), what is left of it while its writes become visible block by block (R206), and for a
collective the frames that its results go to, as (virtual address, length, physical address) (R192). -/
structure Job where
  id : Nat
  agent : BitVec 32
  cmd : Word
  iss : Issuer
  st : JobSt
  card : List (BitVec 8)
  rd : List Region
  wr : List Region
  status : Nat
  cause : Nat
  record : List Word
  parent : Option Nat
  captured : List Nat
  bounces : Nat := 0
  todo : Option JobWork := none
  frames : List (Nat × Nat × Nat) := []
deriving DecidableEq, Repr

/-- An accumulator tile of a matrix array (R326, R345): its exponent, and by element, numbered 128 x row + column, its
integer and its status: class in [1:0] (0 finite, 1 +infinity, 2 -infinity, 3 NaN), SAT in [2], INEXACT in [3]. -/
structure Tile where
  e : BitVec 16
  acc : List (Nat × BitVec 96)
  status : List (Nat × BitVec 4)
  valid : Bool
deriving DecidableEq, Repr

/-- A home's state for one source of far atomics (R223). -/
structure HomeSrc where
  src : BitVec 32
  exp : Nat
  replies : List (Nat × Nat × List Word)
  movedTo : List (Nat × Nat)
  lastAt : Nat
deriving DecidableEq, Repr

/-- A reply kept under a moved identity (R224). -/
structure MovedReply where
  src : BitVec 32
  oldHome : Nat
  seq : Nat
  reply : List Word
  at_ : Nat
deriving DecidableEq, Repr

/-- A waiting team (R108, R109): the team record's number, its arrival, its size and what starts it. -/
structure WaitTeam where
  team : Nat
  at_ : Nat
  cluster : Nat
deriving DecidableEq, Repr

/-- The context that a partition swap moves into shadow storage (R404). -/
structure Shadow where
  part : Nat
  handlers : List (Nat × List (Nat × Binding))
  pendqs : List (Nat × List (Nat × Packet))
  retbufs : List (Nat × List RetMsg)
  ready : List Nat
  taken : List Nat
  pool : List (Nat × Word)
deriving DecidableEq, Repr

/-- A cluster; `drain` is the team for which it drains (R109), and `claimAt` the cycle, plus one, in which it last
granted a claim (R147) (R11, R97, R108, R109, R155 to R162, R188, R223, R326 to R347, R404). -/
structure ClusterSt where
  part : BitVec 8
  owned : Bool
  ready : List Nat
  waiting : List Nat
  taken : List Nat
  waitTeams : List WaitTeam
  drain : Option Nat
  tlb : List TlbEntry
  cmLines : List CLine
  rdcLines : List CLine
  retLines : List CLine
  waferLines : List WaferTag
  pendingSplit : Option Word
  tiles : List (Nat × Tile)
  maSlot : Nat
  homes : List HomeSrc
  movedReplies : List MovedReply
  recentAtomics : List (Nat × Nat × Nat)
  shadow : List Shadow
  noAdmit : Bool
  claimAt : Nat := 0
  cctrs : List (Nat × (Nat × Nat))
  ccSel : List (Nat × Word)
deriving DecidableEq, Repr

/-- A contribution that a leaf keeps and a coordinator receives (R354, R356). -/
structure Contrib where
  group : Nat
  cseq : Word
  rank : Nat
  op : Nat
  count : Nat
  x : BitVec 16
  root : Nat
  data : List (BitVec 8)
  aborted : Bool
  leaf : Nat
  job : Nat
deriving DecidableEq, Repr

/-- An open instance at its coordinator (R353, R354); `gone` lists the ranks removed from the membership since it
opened. -/
structure Inst where
  group : Nat
  cseq : Word
  openedAt : Nat
  genOpen : Nat
  openSet : List Nat
  op : Nat
  count : Nat
  x : BitVec 16
  root : Nat
  fixed : Bool
  accepted : List Contrib
  refused : List (Contrib × Nat)
  notified : Bool
  gone : List Nat := []
deriving DecidableEq, Repr

/-- A completion notice: the command it ends, its status, its result bytes and its outcome record (R356, R357,
R362), and the residues of the record that goes with STATUS 4 (R361, R384). -/
structure CollNotice where
  group : Nat
  cseq : Word
  rank : Nat
  leaf : Nat
  job : Nat
  status : Nat
  dst : Option (List (Nat × List (BitVec 8)))
  outcome : List Word
  res : Nat := 0
deriving DecidableEq, Repr

/-- A die (R188, R191, R351 to R356, R422). `maps` holds the membership bitmap in force of each group, `grows` the
bitmap of the ranks that a grow added with the GGROW in force then. `lostStacks` lists the stacks with a channel marked
lost, and `badUnits` the units that cannot be read, each as 4 x stripe + stack (R163). `forward` is the forwarding
table: the numbers of the first 4 KiB frames of the old and the new page, and the page's size in such frames (R191).
`served` names the contributions of remembered instances whose notice has been sent: group, CSEQ, leaf and command
(R356). -/
structure DieSt where
  tlb : List TlbEntry
  tableCache : List TableEntry
  forward : List (Nat × Nat × Nat)
  insts : List Inst
  outcomes : List (Nat × Word)
  leaf : List Contrib
  pendingCoord : List (Nat × Word)
  maps : List (Nat × Nat)
  grows : List (Nat × Nat × Nat)
  replay : Bool
  halfClock : Bool
  lostStacks : List Nat
  badUnits : List Nat
  served : List (Nat × Word × Nat × Nat) := []
deriving DecidableEq, Repr

/-- A domain (R103 to R107, R199 to R202). -/
structure Domain where
  part : BitVec 8
  ordered : Bool
  sidBase : BitVec 12
  counter : Nat
  live : Bool
  lid : Nat
  lastKey : Option Key
  holder : Option Nat
  faulted : Bool
deriving DecidableEq, Repr

/-- What an instance of `once` gave (R127): the PC, the destination and value, or nothing written. -/
structure OnceInst where
  k : Nat
  pc : Word
  performer : Nat
  done : Bool
  dest : Nat
  value : Word
  value2 : Word
deriving DecidableEq, Repr

/-- One barrier of a team in its current phase: the arrivals of the members with their kind and value, and the
result of the phase completed last (R233, R235). -/
structure Barrier where
  phase : Nat
  arr : List (Nat × Nat × Word)
  result : Word
  mixed : Bool
deriving DecidableEq, Repr

/-- A team (R108 to R110, R127, R207, R233): its members' continuation records in team-index order, the slots of
its running activation, the undo list of its scratch accesses, and the push records of an aborted run, by team index
with the member's core (R262). -/
structure Team where
  n : Nat
  domain : BitVec 32
  part : BitVec 8
  prio : BitVec 3
  key : Key
  members : List Nat
  live : List Nat
  slots : List SlotRef
  running : Bool
  bars : List (Nat × Barrier)
  onces : List OnceInst
  undo : List (Nat × BitVec 8)
  irrev : Bool
  entry : Word
  arg : Word
  trig : Trigger
  budget : Nat
  chk : Bool
  ldir : Word
  ts : Word
  pushed : List (Nat × Nat × List (Nat × Word))
deriving DecidableEq, Repr

/-- How far a launch has come (R115). -/
inductive LaunchSt where
  | waiting | placing | live
deriving DecidableEq, Repr

/-- A live launch (R112 to R115, R121, R387): the record as copied, where it came from, and its domain. -/
structure Launch where
  part : Nat
  lid : Nat
  record : BitVec 512
  queue : Option Nat
  ttEntry : Option Nat
  parent : Option Nat
  st : LaunchSt
  domain : BitVec 32
  faulted : Bool
  cancelled : Option Nat
deriving DecidableEq, Repr

/-- A completion that the dispatcher remembers: the launch, its status, and whether it had been cancelled (R115, R122).
-/
structure Ended where
  part : Nat
  lid : Nat
  status : Nat
  cancelled : Bool
deriving DecidableEq, Repr

/-- A partition: its clusters are those whose `part` names it (R123); the supervisor's root (R180) and the watched
queues registered for it (R116). -/
structure Part where
  valid : Bool
  xroot : Word
  queues : List (Nat × Nat)
  held : List (Nat × BitVec 512)
deriving DecidableEq, Repr

/-- A launch on its way to the dispatcher (R126): record, reply and issuing activation. -/
structure Delivery where
  part : Nat
  record : BitVec 512
  readable : Bool
  reply : Word
  parent : Nat
  key : Key
  src : BitVec 32
deriving DecidableEq, Repr

/-- What travels between the agents of the module (R238, R255, R354, R356); `cmdBack` is the command of a job on its
way back from a full inbox (R243). -/
inductive NetItem where
  | msg (p : Packet)
  | cmd (src : BitVec 32) (job : Nat)
  | cmdBack (src : BitVec 32) (job : Nat)
  | contrib (dst : Nat) (c : Contrib)
  | notice (n : CollNotice)
  | delivery (d : Delivery)
deriving DecidableEq, Repr

/-- What reaches a management core (R240, R244, R385, and the notices other rules name). -/
inductive FwNote where
  | containment (words : List Word)
  | returned (reason : Nat) (words : List Word)
  | message (p : Packet)
  | launchCancelled (lid : Nat)
  | launchFault (lid : Nat)
  | badQueueEntry (part q : Nat) (index : Word)
  | queueStopped (part q : Nat)
  | refusedLaunch (lid status : Nat)
  | ttBadRule (part e : Nat)
  | memoryAbort (line : Nat)
  | lostNoEntry (line : Nat)
  | landAbort (addr : Nat)
  | atomicAbort (pa : Nat)
  | linkDegrade (die inst : Nat)
  | linkDown (die inst : Nat)
  | linkCheck (words : List Word)
  | engineCheck (words : List Word)
  | collTimeout (g : Nat) (cseq : Word)
  | crumb75
  | crumbFull
  | glaze (g epoch : Word)
  | thermalTrip
  | moduleFailed (m : Nat)
  | brokenLogFault (m : Nat)
deriving DecidableEq, Repr

/-- A delivery to the management core of a die on a channel. -/
structure FwMsg where
  die : Nat
  chan : Nat
  note : FwNote
deriving DecidableEq, Repr

/-- Where an instance stands in the exchange of R268. -/
inductive DegradeSt where
  | none | asked | training | down
deriving DecidableEq, Repr

/-- A link instance (R264 to R269): the replay buffer holds the unacknowledged data flits with their SEQ, and `turn`
counts the data flits sent, modulo 4, for the share of the reply network (R238). -/
structure LinkInst where
  up : Bool
  degraded : Bool
  half : Bool
  nextSeq : BitVec 16
  expSeq : BitVec 16
  replay : List (BitVec 512)
  queued : List (Nat × Nat × List (BitVec 8))
  wire : List (BitVec 512)
  partials : List (Nat × List (BitVec 8))
  nackSent : Bool
  lastProgress : Nat
  windowStart : Nat
  dstate : DegradeSt
  toFull : Bool
  stopped : BitVec 8
  turn : Nat
deriving DecidableEq, Repr

/-- One entry of the crumb log (R365, R367): its epoch, whether it is DEFERRED, what was sent, its offset in the crumb
region and its bytes. -/
structure Crumb where
  epoch : Nat
  deferred : Bool
  item : NetItem
  offset : Nat
  size : Nat
deriving DecidableEq, Repr

/-- One receipt (R366): the source module, D1, and D2[55:0] or the identity of a far-atomic request. -/
structure Receipt where
  src : Nat
  d1 : Word
  d2 : Nat
  ident : Nat
deriving DecidableEq, Repr

/-- A spare that replays the module it takes the place of, and whose number it carries: the image slot, and whether the
load has ended (R369). -/
structure Spare where
  slot : Nat
  loaded : Bool
deriving DecidableEq, Repr

/-- Where a glaze stands (R363). -/
inductive GlazeSt where
  | idle | holding | writing
deriving DecidableEq, Repr

/-- The time base (R418), in units of 1 / (33 x 10^9) of a nanosecond, so that a cycle of 3.3 GHz is 10^10 units; the
remaining slew in the same units, the rate correction in parts per 10^9 and whether a TIMESYNC has come since
reset. -/
structure TimeBase where
  units : Nat
  slew : Int
  rate : Int
  synced : Bool
deriving DecidableEq, Repr

/-- A partition as the configuration record lays it out (R402, R420): its clusters, its root, and the values of its
registers. -/
structure PartCfg where
  part : Nat
  clusters : List Nat
  xroot : Word
  ptvec : Word
  pbudlim : Word
  phoriz : Word
  pttab : Word
deriving DecidableEq, Repr

/-- The configuration record and the secure flash (R419 to R421). -/
structure Flash where
  fwVersion : Nat
  minVersion : Nat
  parts : List PartCfg
  cmsplit : Option Word
  lthr : Option Word
  crumb : Word
  powerCap : Nat
deriving DecidableEq, Repr

/-- The host mailbox (R413). -/
structure Mailbox where
  hmcmd : Word
  hmarg0 : Word
  hmarg1 : Word
  hmstat : Word
  bootstat : Word
deriving DecidableEq, Repr

/-- What has been asked over the DOE mailboxes (R411, R421), in order. -/
inductive DoeMsg where
  | getVersion | getCapabilities | negotiateAlgorithms | getDigests | getCertificate
  | challenge (nonce : BitVec 256) | getMeasurements | cdat
deriving DecidableEq, Repr

/-- Whose turn the next step is: a slot's, an event's, or the arrival of an item of the fabric. `host` writes its own
memory (R210) and `hostArg` an argument of its mailbox (R413); `pooled` is a write of another module to the pooled
safe-tier memory (R364); `cross` sends the message at a position of the fabric over a die link (R264); `jobPart` lets `n`
more blocks of a job's writes become visible (R206); `part` is the moment at which the lower or the upper part of a load
across a line boundary reads (R168); `linkSeq` tells the end of an instance taken down the SEQ that its peer expects
(R268). -/
inductive Who where
  | slot (r : SlotRef)
  | event (e : Instr)
  | arrive (n : NetItem)
  | host (pa : Nat) (bytes : List (BitVec 8))
  | hostArg (second : Bool) (v : Word)
  | pooled (a : Nat) (bytes : List (BitVec 8))
  | cross (k : Nat)
  | jobPart (id n : Nat)
  | part (r : SlotRef) (upper : Bool)
  | linkSeq (die inst : Nat) (seq : BitVec 16)
deriving DecidableEq, Repr

/-- One turn of the agenda: how many cycles have passed since the step before, and who moves (assumption log 2). -/
structure Turn where
  cycles : Nat
  who : Who
deriving DecidableEq, Repr

/-- What a glaze image brings back (R363, R364): the memory of the module and its on-die state. -/
structure Image where
  mem : List Host.Cell
  dev : List (Nat × Word)
  slots : List (Nat × Slot)
  cores : List (Nat × CoreSt)
  clusters : List (Nat × ClusterSt)
  dies : List (Nat × DieSt)
  parts : List (Nat × Part)
  strands : List (Nat × Strand)
  domains : List (Nat × Domain)
  teams : List (Nat × Team)
  launches : List Launch
  completed : List Ended
  jobs : List Job
  jobNext : Nat
  domNext : Nat
  seqNext : Nat
  net : List NetItem
deriving DecidableEq, Repr

/-- The state of the module. -/
structure State where
  now : Nat
  time : TimeBase
  modNo : Nat
  cur : SlotRef
  agenda : List Turn
  mem : List Host.Cell
  safe : List Host.Cell
  bad : List Nat
  soft : List Nat
  dev : List (Nat × Word)
  slots : List (Nat × Slot)
  cores : List (Nat × CoreSt)
  clusters : List (Nat × ClusterSt)
  dies : List (Nat × DieSt)
  parts : List (Nat × Part)
  strands : List (Nat × Strand)
  domains : List (Nat × Domain)
  teams : List (Nat × Team)
  launches : List Launch
  completed : List Ended
  jobs : List Job
  jobNext : Nat
  domNext : Nat
  seqNext : Nat
  net : List NetItem
  links : List (Nat × LinkInst)
  down : List Nat
  fw : List FwMsg
  mailbox : Mailbox
  doe : List DoeMsg
  flash : Flash
  bootStep : Nat
  recovery : Bool
  glaze : GlazeSt
  glazeG : Word
  glazeEpoch : Nat
  epoch : Nat
  images : List (Nat × Image)
  crumbs : List Crumb
  crumbBroken : Bool
  crumb75 : Bool
  receipts : List Receipt
  spare : Option Spare
  routed : List Nat
  tripped : Bool
  glitches : List Glitch
  free : Nat
deriving DecidableEq, Repr

/-- A key of zeros, for slots that hold no activation. -/
def Key.zero : Key := { ts := 0, sid := 0, idx := 0 }

/-- The trigger of a slot that holds no activation. -/
def Trigger.none : Trigger :=
  { kind := .root, key := Key.zero, chn := 0, payload := [], msg := .none, super := false, pushed := [],
    redeliveries := 0, conflicts := 0, accBy := 0, acc := 0, ranOn := 0 }

/-- A slot after reset: FREE, with the reset values of R35, R87, R375, R381 and R396; a register the manual gives no
reset value for is 0 (assumption log 1). -/
def Slot.reset : Slot :=
  { st := .free, stall := .none, pc := 0, npc := 0, regs := [], vregs := [], masks := [], ts := 0, sid := 0,
    chn := 0, prio := 0, part := 0, user := 0, smode := false, budSet := 0, budAt := 0, budBase := 0, rmode := 0,
    fflags := 0, ldir := 0, tensor := 0, stepR := 0, seedLo := 0, seedHi := 0, wsp := 0, curLog2 := 0, tvb := 0,
    trapc := 0, trapa := 0, trapv := 0, trapp := 0, mc2 := 0, xroot := 0, super := false,
    chk := { expect := 0, run := 0xFFFF, isOpen := false, en := false }, vseq := 0, tstack := .none, pend := [],
    outst := [], vq := [], late := .none, cont := .resume, inbox := [], inboxN := 0, outb := [], act := .none,
    trig := Trigger.none, key := Key.zero, seqNo := 0, strand := 0, fresh := false, domain := 0, buf := [],
    reserved := 0, outg := [], nextIdx := 0, readset := [], readva := [], term := .none, wmask := 0, pops := [], pushes := [],
    tokPops := [], trans := [], ctxs := [], team := .none, tidx := 0, onceN := 0, onceArm := .none, barArr := [], ordN := 0, holdN := 0,
    helperOf := .none, irrevAsked := false,
    vecFetch := false, endNo := 0, phase := 0, lastPc := 0 }

/-- A strand with no record written: DONE (R96). -/
def Strand.reset : Strand :=
  { st := .done, pc := 0, wsp := 0, ts := 0, sid := 0, wmask := 0, domain := 0, prio := 0, chk := false,
    team := .none, tidx := 0, resume := 0, super := false, home := 0, pool := 0, trig := .none,
    toks := [], qseqs := [], dropped := false }

/-- A core after reset: no binding, every channel unmasked (R253), MAXLOG2 4 (R142), empty caches, TLBs and queues,
predictor counters 0 (R218), trace and counters 0 (R406). -/
def CoreSt.reset : CoreSt :=
  { handlers := [], masked := 0, maxLog2 := 4, pendq := [], retbuf := [], linkbuf := [], linkfly := [], itlb := [], dtlb := [],
    l1d := [], l1i := [], predictor := [], far := [], farNext := [], trace := [], trcctl := 0, trctrig := 0,
    trcpos := 0, trcWrapped := false, trcPost := .none, trcSample := 0, ctrs := [], ctrSel := [] }

/-- An accumulator tile after reset: VALID, 0 (R326). -/
def Tile.reset : Tile :=
  { e := 0, acc := [], status := [], valid := true }

/-- A cluster after reset. -/
def ClusterSt.reset : ClusterSt :=
  { part := 0, owned := false, ready := [], waiting := [], taken := [], waitTeams := [], drain := .none, tlb := [], cmLines := [],
    rdcLines := [], retLines := [], waferLines := [], pendingSplit := .none, tiles := [], maSlot := 0, homes := [],
    movedReplies := [], recentAtomics := [], shadow := [], noAdmit := false, cctrs := [], ccSel := [] }

/-- A die after reset. -/
def DieSt.reset : DieSt :=
  { tlb := [], tableCache := [], forward := [], insts := [], outcomes := [], leaf := [], pendingCoord := [],
    maps := [], grows := [],
    replay := false, halfClock := false, lostStacks := [], badUnits := [] }

/-- A partition that no configuration record has laid out. -/
def Part.reset : Part := { valid := false, xroot := 0, queues := [], held := [] }

/-- A domain identifier that names no live domain. -/
def Domain.reset : Domain :=
  { part := 0, ordered := true, sidBase := 0, counter := 0, live := false, lid := 0, lastKey := .none,
    holder := .none, faulted := false }

/-- A team number that names no team. -/
def Team.reset : Team :=
  { n := 0, domain := 0, part := 0, prio := 0, key := Key.zero, members := [], live := [], slots := [],
    running := false, bars := [], onces := [], undo := [], irrev := false, entry := 0, arg := 0,
    trig := Trigger.none, budget := 0, chk := false, ldir := 0, ts := 0, pushed := [] }

/-- A barrier in its first phase. -/
def Barrier.reset : Barrier := { phase := 0, arr := [], result := 0, mixed := false }

/-- A link instance after reset: LSTAT 0 (R269). -/
def LinkInst.reset : LinkInst :=
  { up := false, degraded := false, half := false, nextSeq := 0, expSeq := 0, replay := [], queued := [], wire := [],
    partials := [], nackSent := false, lastProgress := 0, windowStart := 0, dstate := .none, toFull := false,
    stopped := 0, turn := 0 }

/-- The flash as this model's reset finds it: no configuration record (assumption log 3). -/
def Flash.reset : Flash :=
  { fwVersion := 0, minVersion := 0, parts := [], cmsplit := .none, lthr := .none, crumb := 0, powerCap := 3000 }

/-- The module right after reset (R423 before its first step): every slot FREE, every register at its reset value,
memory with nothing listed, no work anywhere. -/
def State.reset : State :=
  { now := 0, time := { units := 0, slew := 0, rate := 0, synced := false }, modNo := 0,
    cur := { core := 0, slot := 0 }, agenda := [], mem := [], safe := [], bad := [], soft := [], dev := [],
    slots := [], cores := [], clusters := [], dies := [], parts := [], strands := [], domains := [], teams := [],
    launches := [], completed := [], jobs := [], jobNext := 0, domNext := 1, seqNext := 0, net := [], links := [],
    down := [], fw := [],
    mailbox := { hmcmd := 0, hmarg0 := 0, hmarg1 := 0, hmstat := 0, bootstat := 0 }, doe := [],
    flash := Flash.reset, bootStep := 0, recovery := false, glaze := .idle, glazeG := 0, glazeEpoch := 0, epoch := 0, images := [],
    crumbs := [], crumbBroken := false, crumb75 := false, receipts := [], spare := .none, routed := [],
    tripped := false, glitches := [], free := 0 }

end Sys2Proof.Machine
end

