-- ==== Sys2Proof/Machine/Maps.lean ====
section
/-! DEFINITION. Tables as lists of (key, value) pairs sorted by key: reading with a default, and writing. A scalar
table lists no entry equal to its default, so that equal tables are equal lists; a table of records keeps what is
written. -/

namespace Sys2Proof.Machine

/-- The value a table holds at `k`; `d` where nothing is listed. -/
def smGet {α : Type} (d : α) : List (Nat × α) → Nat → α
  | [], _ => d
  | (j, v) :: r, k => if j = k then v else smGet d r k

/-- Whether a table lists `k`. -/
def smHas {α : Type} : List (Nat × α) → Nat → Bool
  | [], _ => false
  | (j, _) :: r, k => j == k || smHas r k

/-- The table without `k`. -/
def smDel {α : Type} : List (Nat × α) → Nat → List (Nat × α)
  | [], _ => []
  | (j, v) :: r, k => if j = k then smDel r k else (j, v) :: smDel r k

/-- The table with (k, v) put in before the first larger key. -/
def smIns {α : Type} : List (Nat × α) → Nat → α → List (Nat × α)
  | [], k, v => [(k, v)]
  | (j, u) :: r, k, v => if k < j then (k, v) :: (j, u) :: r else (j, u) :: smIns r k v

/-- A scalar table with `v` written at `k`: an entry equal to the default is not listed. -/
def smSet {α : Type} [DecidableEq α] (d : α) (m : List (Nat × α)) (k : Nat) (v : α) : List (Nat × α) :=
  if v = d then smDel m k else smIns (smDel m k) k v

/-- A table of records with `v` written at `k`. -/
def rmSet {α : Type} (m : List (Nat × α)) (k : Nat) (v : α) : List (Nat × α) := smIns (smDel m k) k v

/-- Keys strictly rising and no entry equal to the default: the canonical form of a scalar table. -/
def smWf {α : Type} [DecidableEq α] (d : α) : List (Nat × α) → Bool
  | [] => true
  | [(_, v)] => v != d
  | (j, v) :: (k, u) :: r => j < k && v != d && smWf d ((k, u) :: r)

/-- The first `n` naturals from `k` on. -/
def natsFrom (k : Nat) : Nat → List Nat
  | 0 => []
  | n + 1 => k :: natsFrom (k + 1) n

/-- Replace the first element that satisfies `p`. -/
def updFirst {α : Type} (p : α → Bool) (f : α → α) : List α → List α
  | [] => []
  | a :: r => if p a then f a :: r else a :: updFirst p f r

/-- Remove the element at position `k`. -/
def dropAt {α : Type} : List α → Nat → List α
  | [], _ => []
  | _ :: r, 0 => r
  | a :: r, k + 1 => a :: dropAt r k

/-- Put an element before the first one that `p` accepts. -/
def insBefore {α : Type} (p : α → Bool) (a : α) : List α → List α
  | [] => [a]
  | b :: r => if p b then a :: b :: r else b :: insBefore p a r

end Sys2Proof.Machine
end

