-- ==== Sys2Proof/Machine/Access.lean ====
section
/-! DEFINITION. Reading and writing the parts of State: slots, cores, clusters, dies, tables, registers, device
registers, and agent identifiers (R9 to R13). -/

namespace Sys2Proof.Machine

/-- The number of a slot in the module: 8 x core + slot. -/
def slotKey (r : SlotRef) : Nat := 8 * r.core + r.slot

/-- The slot with a number. -/
def slotRefOf (n : Nat) : SlotRef := { core := n / 8, slot := n % 8 }

def State.slot (s : State) (r : SlotRef) : Slot := smGet Slot.reset s.slots (slotKey r)

def State.setSlot (s : State) (r : SlotRef) (sl : Slot) : State :=
  { s with slots := rmSet s.slots (slotKey r) sl }

/-- The slot that issues. -/
def State.me (s : State) : Slot := s.slot s.cur

def State.setMe (s : State) (sl : Slot) : State := s.setSlot s.cur sl

def State.core (s : State) (c : Nat) : CoreSt := smGet CoreSt.reset s.cores c

def State.setCore (s : State) (c : Nat) (x : CoreSt) : State := { s with cores := rmSet s.cores c x }

def State.cluster (s : State) (c : Nat) : ClusterSt := smGet ClusterSt.reset s.clusters c

def State.setCluster (s : State) (c : Nat) (x : ClusterSt) : State := { s with clusters := rmSet s.clusters c x }

def State.die (s : State) (d : Nat) : DieSt := smGet DieSt.reset s.dies d

def State.setDie (s : State) (d : Nat) (x : DieSt) : State := { s with dies := rmSet s.dies d x }

def State.getPart (s : State) (p : Nat) : Part := smGet Part.reset s.parts p

def State.setPart (s : State) (p : Nat) (x : Part) : State := { s with parts := rmSet s.parts p x }

def State.strand (s : State) (a : Nat) : Strand := smGet Strand.reset s.strands a

def State.setStrand (s : State) (a : Nat) (x : Strand) : State := { s with strands := rmSet s.strands a x }

def State.dom (s : State) (d : Nat) : Domain := smGet Domain.reset s.domains d

def State.setDom (s : State) (d : Nat) (x : Domain) : State := { s with domains := rmSet s.domains d x }

def State.getTeam (s : State) (t : Nat) : Team := smGet Team.reset s.teams t

def State.setTeam (s : State) (t : Nat) (x : Team) : State := { s with teams := rmSet s.teams t x }

def State.link (s : State) (die inst : Nat) : LinkInst := smGet LinkInst.reset s.links (16 * die + inst)

def State.setLink (s : State) (die inst : Nat) (x : LinkInst) : State :=
  { s with links := rmSet s.links (16 * die + inst) x }

/-- The cluster of the module (0 to 319) that a core (0 to 5,119) belongs to. -/
def clusterOf (core : Nat) : Nat := core / 16

/-- The die of a core. -/
def dieOf (core : Nat) : Nat := core / 1280

/-- The die of a cluster of the module. -/
def dieOfCluster (cl : Nat) : Nat := cl / 80

/-- The cores of a cluster. -/
def coresOf (cl : Nat) : List Nat := natsFrom (16 * cl) 16

/-- The slots of a core. -/
def slotsOf (core : Nat) : List SlotRef := (natsFrom 0 8).map fun k => { core := core, slot := k }

/-- An agent identifier from module, die, cluster of the die and unit (R12). -/
def agentId (m die cl unit : Nat) : BitVec 32 := BitVec.ofNat 32 (m * 2 ^ 14 + die * 2 ^ 12 + cl * 2 ^ 5 + unit)

/-- The agent identifier of a core of this module. -/
def coreAgent (s : State) (core : Nat) : BitVec 32 :=
  agentId s.modNo (dieOf core) (clusterOf core % 80) (core % 16)

/-- The agent identifier of a unit of a cluster of this module. -/
def clusterAgent (s : State) (cl unit : Nat) : BitVec 32 := agentId s.modNo (dieOfCluster cl) (cl % 80) unit

/-- The agent identifier of a die-level unit of this module. -/
def dieAgent (s : State) (die unit : Nat) : BitVec 32 := agentId s.modNo die 127 unit

def agentModule (a : BitVec 32) : Nat := natBits a.toNat 31 14
def agentDie (a : BitVec 32) : Nat := natBits a.toNat 13 12
def agentCluster (a : BitVec 32) : Nat := natBits a.toNat 11 5
def agentUnit (a : BitVec 32) : Nat := natBits a.toNat 4 0

/-- Whether an identifier names an agent of a module (R13, R14). -/
def agentAssigned (a : BitVec 32) : Bool :=
  if agentCluster a < 80 then agentUnit a ≤ 18
  else agentCluster a == 127 && agentUnit a ≤ 7

/-- The core of this module that an identifier names, if it names one. -/
def agentCore? (s : State) (a : BitVec 32) : Option Nat :=
  if agentModule a = s.modNo ∧ agentCluster a < 80 ∧ agentUnit a < 16 then
    some (1280 * agentDie a + 16 * agentCluster a + agentUnit a)
  else none

/-- The cluster of this module that an identifier of a cluster unit names. -/
def agentModCluster (a : BitVec 32) : Nat := 80 * agentDie a + agentCluster a

/-! Device registers (R398): one table for the whole module, keyed by module physical address. -/

/-- The address of a device register: die, cluster of the die (127 for die level), block and offset. -/
def devAddr (die cl block off : Nat) : Nat :=
  die * 2 ^ 46 + 3 * 2 ^ 44 + cl * 2 ^ 22 + block * 2 ^ 16 + off

/-- The reset value of a device register where it is not 0: CMSPLIT (R155), LTHR and LWIN (R269). -/
def devReset (a : Nat) : Word :=
  let cl := natBits a 28 22
  let block := natBits a 21 16
  let off := natBits a 15 0
  if cl < 80 then
    if block = 0 ∧ off = 0 then 0x0002020C
    else 0
  else if cl = 127 ∧ block = 3 then
    if off % 0x40 = 0x10 ∧ off < 0x400 then 64
    else if off % 0x40 = 0x18 ∧ off < 0x400 then 1000
    else 0
  else 0

def State.devGet (s : State) (a : Nat) : Word := smGet (devReset a) s.dev a

def State.devSet (s : State) (a : Nat) (v : Word) : State := { s with dev := smSet (devReset a) s.dev a v }

/-- A device register of a cluster of the module. -/
def clDev (cl block off : Nat) : Nat := devAddr (dieOfCluster cl) (cl % 80) block off

/-- A die-level device register. -/
def dieDev (die block off : Nat) : Nat := devAddr die 127 block off

/-- The scratch ways of a cluster, from CMSPLIT (R155). -/
def scrWays (s : State) (cl : Nat) : Nat := natBits (s.devGet (clDev cl 0 0)).toNat 20 16

/-- The fence bit of a core (R389). -/
def fenceBit (s : State) (core : Nat) : Bool :=
  (s.devGet (dieDev (dieOf core) 1 (0x800 + 8 * (core % 1280 / 64)))).toNat.testBit (core % 1280 % 64)

/-- Whether a core is a member of a composition: one of its slots leads it or helps. -/
def inComposition (s : State) (core : Nat) : Bool :=
  (slotsOf core).any fun r => (s.slot r).helperOf.isSome || (s.slot r).curLog2 != 0

/-- Whether a core is fenced (R389, R390): a fence takes effect once the core's composition has dissolved (R145). -/
def fenced (s : State) (core : Nat) : Bool := fenceBit s core && !inComposition s core

/-- CPOL of a partition on a die (R389). -/
def cpol (s : State) (die part : Nat) : Nat := (s.devGet (dieDev die 1 (8 * part))).toNat

/-- A field of a partition's registers on a die (R402). -/
def partDev (s : State) (die part off : Nat) : Nat := (s.devGet (dieDev die 2 (64 * part + off))).toNat

/-- The partition's budget limit on a die (R101, R402). -/
def budLimit (s : State) (die part : Nat) : Nat :=
  let v := natBits (partDev s die part 8) 26 0
  if v = 0 then 2 ^ 22 else v

/-- A budget base as BUD takes it: 0 is 2^22, and at most the partition's limit (R101). -/
def budOf (s : State) (die part base : Nat) : Nat := min (if base = 0 then 2 ^ 22 else base) (budLimit s die part)

/-- A core handler, counted as the reset value where unbound. -/
def binding? (c : CoreSt) (ch : Nat) : Option Binding := (c.handlers.find? (fun p => p.1 == ch)).map (·.2)

/-- The handler table and the masks that an arrival sees: those with which the cycle began (R242). -/
def CoreSt.tables (x : CoreSt) (now : Nat) : List (Nat × Binding) × BitVec 64 :=
  match x.tabOld with
  | some (c, h, m) => if c = now then (h, m) else (x.handlers, x.masked)
  | none => (x.handlers, x.masked)

/-- A core whose tables are about to change: what an arrival of this cycle sees is kept (R242). -/
def CoreSt.keepTables (x : CoreSt) (now : Nat) : CoreSt :=
  { x with tabOld := some (now, (x.tables now).1, (x.tables now).2) }

/-- The binding and the mask of a channel that an arrival of this cycle sees. -/
def bindingNow (s : State) (core ch : Nat) : Option Binding :=
  ((((s.core core).tables s.now).1).find? (fun p => p.1 == ch)).map (·.2)

def maskedNow (s : State) (core ch : Nat) : Bool := ((s.core core).tables s.now).2.toNat.testBit ch

/-! Registers of a slot (R31, R34). -/

/-- The general register g_r, g0 reading 0. -/
def Slot.g (sl : Slot) (r : Nat) : Word := if r = 0 then 0 else smGet 0 sl.regs r

/-- Write a general register; a write to g0 is discarded. -/
def Slot.setG (sl : Slot) (r : Nat) (v : Word) : Slot :=
  if r = 0 then sl else { sl with regs := smSet 0 sl.regs r v }

def Slot.v (sl : Slot) (r : Nat) : BitVec 1024 := smGet 0 sl.vregs r

def Slot.setV (sl : Slot) (r : Nat) (v : BitVec 1024) : Slot := { sl with vregs := smSet 0 sl.vregs r v }

/-- The mask register k_r, k0 reading all ones. -/
def Slot.k (sl : Slot) (r : Nat) : BitVec 32 := if r = 0 then 0xFFFFFFFF else smGet 0 sl.masks r

/-- Write a mask register; a write to k0 is discarded. -/
def Slot.setK (sl : Slot) (r : Nat) (v : BitVec 32) : Slot :=
  if r = 0 then sl else { sl with masks := smSet 0 sl.masks r v }

/-- CHKMODE as a doubleword (R87). -/
def ChkMode.word (c : ChkMode) : Word :=
  BitVec.ofNat 64 (c.expect.toNat * 2 ^ 32 + c.run.toNat * 2 ^ 16 + c.isOpen.toNat * 2 + c.en.toNat)

/-- CHKMODE from a doubleword. -/
def chkOfWord (w : Word) : ChkMode :=
  { expect := BitVec.ofNat 16 (natBits w.toNat 47 32), run := BitVec.ofNat 16 (natBits w.toNat 31 16),
    isOpen := w.toNat.testBit 1, en := w.toNat.testBit 0 }

/-- FLAGS as a doubleword (R397). -/
def Slot.flagsWord (sl : Slot) : Word :=
  BitVec.ofNat 64 (sl.smode.toNat * 2 ^ 9 + sl.team.isSome.toNat * 2 ^ 8 + sl.user.toNat)

/-- The remaining budget of a slot at this moment (R101): the countdown is kept as the value at its last setting
and the cycle of that setting. -/
def State.bud (s : State) (sl : Slot) : Nat := sl.budSet - (s.now - sl.budAt)

/-- DEPTH of TRAPC (R375). -/
def Slot.depth (sl : Slot) : Nat := natBits sl.trapc.toNat 10 8

/-- RD of TRAPC (R375). -/
def Slot.rd (sl : Slot) : Bool := sl.trapc.toNat.testBit 13

/-- Whether the slot's handler has not yet read TRAPC (R380). -/
def Slot.doubleRisk (sl : Slot) : Bool := decide (1 ≤ sl.depth) && !sl.rd

/-- Whether a slot's activation has obtained the token and gone irrevocable (R102, R205). -/
def Slot.irrev (sl : Slot) : Bool := sl.act == .irrevocable

/-- The die whose management core a core reports to. -/
def State.fwTell (s : State) (die chan : Nat) (n : FwNote) : State :=
  { s with fw := s.fw ++ [{ die := die, chan := chan, note := n }] }

/-- The composition that a slot leads, as its number of members; 1 outside a composition (R129, R142). -/
def Slot.members (sl : Slot) : Nat := 2 ^ sl.curLog2.toNat

/-- The time base in nanoseconds (R418). -/
def State.timeNs (s : State) : Nat := s.time.units / 33000000000

/-- A key comparison (R106): TS, then origin SID, then send index, each unsigned. -/
def Key.lt (a b : Key) : Bool :=
  if a.ts.toNat ≠ b.ts.toNat then a.ts.toNat < b.ts.toNat
  else if a.sid.toNat ≠ b.sid.toNat then a.sid.toNat < b.sid.toNat
  else a.idx.toNat < b.idx.toNat

/-- `a` does not exceed `b`. -/
def Key.le (a b : Key) : Bool := !b.lt a

end Sys2Proof.Machine
end

