-- ==== Sys2Proof/Machine/Bytes.lean ====
section
/-! DEFINITION. Memory as bytes: one list of (system physical address, byte) pairs in canonical form for HBM, core
stores, scratch and host memory (R178). Multi-byte values are little-endian (R1). A byte that nothing has written
reads 0 (assumption log 4). Reads that end in an abort completion are found here (R161 to R163). -/

namespace Sys2Proof.Machine

/-- The canonical form of a memory list: addresses strictly rising, no entry equal to what an unlisted byte reads
as. -/
def Memory.wf (m : List Host.Cell) : Bool := smWf 0 m

/-- One byte of memory. -/
def State.byte (s : State) (pa : Nat) : Byte := smGet 0 s.mem pa

/-- `n` bytes of a memory list at `a`, little-endian. -/
def bytesLE (m : List Host.Cell) (a : Nat) : Nat → Nat
  | 0 => 0
  | n + 1 => (smGet 0 m a).toNat + 256 * bytesLE m (a + 1) n

/-- A memory list with the low `n` bytes of `v` written at `a`, little-endian. -/
def writeLE (m : List Host.Cell) (a : Nat) : Nat → Nat → List Host.Cell
  | 0, _ => m
  | n + 1, v => writeLE (smSet 0 m a (BitVec.ofNat 8 v)) (a + 1) n (v / 256)

/-- `n` bytes at a physical address, as a number. -/
def State.load (s : State) (pa n : Nat) : Nat := bytesLE s.mem pa n

/-- Write `n` bytes at a physical address. -/
def State.storeAt (s : State) (pa n v : Nat) : State := { s with mem := writeLE s.mem pa n v }

/-- Clear the bytes of a range. -/
def State.zeroRange (s : State) (pa n : Nat) : State :=
  { s with mem := s.mem.filter fun c => decide (c.1 < pa ∨ pa + n ≤ c.1) }

/-- Bytes as a list. -/
def State.bytes (s : State) (pa n : Nat) : List Byte := (natsFrom pa n).map s.byte

/-- Write a list of bytes. -/
def State.storeBytes (s : State) (pa : Nat) : List Byte → State
  | [] => s
  | b :: r => State.storeBytes (s.storeAt pa 1 b.toNat) (pa + 1) r

/-- A list of bytes as a number, little-endian. -/
def leOf : List Byte → Nat
  | [] => 0
  | b :: r => b.toNat + 256 * leOf r

/-- A number as `n` bytes, little-endian. -/
def leBytes (v : Nat) : Nat → List Byte
  | 0 => []
  | n + 1 => BitVec.ofNat 8 v :: leBytes (v / 256) n

/-- A list of bytes as doublewords. -/
def wordsOfBytes (b : List Byte) : List Word :=
  (natsFrom 0 ((b.length + 7) / 8)).map fun i => BitVec.ofNat 64 (leOf ((b.drop (8 * i)).take 8))

/-- Doublewords as bytes. -/
def bytesOfWords (w : List Word) : List Byte := w.flatMap fun v => leBytes v.toNat 8

/-- The 64-byte line of an address. -/
def lineOf (a : Nat) : Nat := a / 64

/-- SPACE of a system physical address (R178). -/
def spaceOf (pa : Nat) : Nat := natBits pa 55 48

/-- The region of a module physical address within its die (R178). -/
def regionOf (pa : Nat) : Nat := natBits pa 45 44

/-- The die whose HBM holds an address (R11). -/
def paDie (pa : Nat) : Nat := natBits pa 47 46

/-- The home slice of a line of device memory, as a cluster of the module (R152). -/
def homeCluster (pa : Nat) : Nat := 80 * paDie pa + natBits pa 45 6 % 80

/-- The kind that the region of an address gives a page whose VIEW is 0 (R150, R178). -/
def kindOf (pa : Nat) : Kind :=
  if spaceOf pa = 1 then .host
  else match regionOf pa with
    | 0 => .device
    | 1 => .coreStore
    | 2 => .scratch
    | _ => .io

/-- The range check of R179. Bits [43:29] of a device-register address, which no rule names, are not looked at
(assumption log 162). -/
def regionOk (s : State) (pa : Nat) : Bool :=
  if spaceOf pa = 1 then true
  else match regionOf pa with
    | 0 => natBits pa 43 0 < 0x3000000000
    | 1 => natBits pa 43 27 == 0 && natBits pa 26 20 < 80
    | 2 => natBits pa 43 29 == 0 && natBits pa 28 22 < 80 &&
        natBits pa 21 0 < scrWays s (80 * paDie pa + natBits pa 28 22) * 0x40000
    | _ => natBits pa 28 22 < 80 || natBits pa 28 22 == 127

/-- The stripe of a byte of a die's HBM, and the stack that holds the byte (R163). -/
def stripeOf (pa : Nat) : Nat := natBits pa 43 0 / 768
def stackOf (pa : Nat) : Nat := (stripeOf pa + 1 + natBits pa 43 0 % 768 / 256) % 4

/-- The unit that holds a byte of a die's HBM, as `badUnits` names it (R163). -/
def unitOf (pa : Nat) : Nat := 4 * stripeOf pa + stackOf pa

/-- Whether the unit of a stripe on stack `k`, data or parity, is to be rebuilt from the others (R163). -/
def unitGone (d : DieSt) (stripe k : Nat) : Bool := d.lostStacks.contains k || d.badUnits.contains (4 * stripe + k)

/-- Whether reads of the stripe that holds a byte end in an abort completion: two of its units are gone (R163). -/
def raidLost (s : State) (pa : Nat) : Bool :=
  kindOf pa == .device &&
    decide (2 ≤ ((natsFrom 0 4).filter (unitGone (s.die (paDie pa)) (stripeOf pa))).length)

/-- Whether some LOSTi of the line's home slice records it (R162). -/
def lostLine (s : State) (pa : Nat) : Bool :=
  kindOf pa == .device &&
    (natsFrom 0 16).any fun i =>
      let w := (s.devGet (clDev (homeCluster pa) 0 (0x100 + 8 * i))).toNat
      w.testBit 63 && natBits w 47 6 == natBits pa 47 6

/-- Whether a read of the line that holds an address ends in an abort completion (R162, R163). -/
def lineAborts (s : State) (pa : Nat) : Bool :=
  s.bad.contains (lineOf pa) || lostLine s pa || raidLost s pa

/-- Whether a read of `n` bytes ends in an abort completion; `n` is at most 128. -/
def readAborts (s : State) (pa n : Nat) : Bool :=
  (natsFrom (lineOf pa) (lineOf (pa + n - 1) - lineOf pa + 1)).any fun l => lineAborts s (64 * l)

/-- A single-bit error of the lines read is corrected and counted in CORRCOUNT of the die (R161, R389). -/
def softFix (s : State) (pa n : Nat) : State :=
  let hit := s.soft.filter fun l => decide (lineOf pa ≤ l ∧ l ≤ lineOf (pa + n - 1))
  if hit.isEmpty then s
  else
    let a := dieDev (paDie pa) 1 0x8A8
    let s1 := { s with soft := s.soft.filter fun l => decide (l < lineOf pa ∨ lineOf (pa + n - 1) < l) }
    s1.devSet a (BitVec.ofNat 64 (((s.devGet a).toNat + hit.length) % 2 ^ 32))

/-- A halfword of an instruction line (R20). -/
def halfAt (s : State) (pa : Nat) (n : Nat) : BitVec 16 := BitVec.ofNat 16 (s.load (pa + 2 * n) 2)

end Sys2Proof.Machine
end

