-- ==== Sys2Proof/Machine/Observe.lean ====
section
/-! DEFINITION. The trace buffer and the event counters (R405, R406): what a record and a count do. Counts are kept
as a total since the last clear and the cycle of that clear, so that a counter that counts cycles needs no step of its
own. -/

namespace Sys2Proof.Machine

/-- The event a counter selects, its bits [5:0] (R406). -/
def selOf (sels : List (Nat × Word)) (n : Nat) : Nat := natBits (smGet 0 sels n).toNat 5 0

/-- The total of a counter at a cycle: the cycles since it was set are in it where it counts cycles. -/
def ctrTotal (now : Nat) (sels : List (Nat × Word)) (ctrs : List (Nat × (Nat × Nat))) (n : Nat) (core : Bool) : Nat :=
  let c := smGet (0, 0) ctrs n
  if core ∧ selOf sels n = 0 then c.1 + (now - c.2) else c.1

/-- A counter as `ctr.rd` and the debug window read it: the count in [47:0] and OVF in [63] (R406, R409). -/
def ctrWord (total : Nat) : Word :=
  BitVec.ofNat 64 (total % 2 ^ 48 + if 2 ^ 48 ≤ total then 2 ^ 63 else 0)

/-- A counter read back from a written doubleword: the count and OVF. -/
def ctrOfWord (w : Word) : Nat := natBits w.toNat 47 0 + if w.toNat.testBit 63 then 2 ^ 48 else 0

/-- Settle the counters of a core at this cycle before a selection changes. -/
def settleCtr (now : Nat) (sels : List (Nat × Word)) (ctrs : List (Nat × (Nat × Nat))) (n : Nat) (core : Bool) :
    List (Nat × (Nat × Nat)) :=
  smSet (0, 0) ctrs n (ctrTotal now sels ctrs n core, now)

/-- The counters of a list that select event `ev` (1 to 8 for a core, 32 to 39 for a cluster), advanced by `k`. -/
def bumpCtrs (sels : List (Nat × Word)) (ev k : Nat) (ctrs : List (Nat × (Nat × Nat))) : List (Nat × (Nat × Nat)) :=
  sels.foldl (fun cs p =>
    if natBits p.2.toNat 5 0 = ev then
      let c := smGet (0, 0) cs p.1
      smSet (0, 0) cs p.1 (c.1 + k, c.2)
    else cs) ctrs

/-- An event of a core is counted (R406). -/
def countCore (s : State) (core ev k : Nat) : State :=
  let x := s.core core
  if x.ctrSel.isEmpty then s else s.setCore core { x with ctrs := bumpCtrs x.ctrSel ev k x.ctrs }

/-- An event of a cluster is counted (R406). -/
def countCluster (s : State) (cl ev k : Nat) : State :=
  let x := s.cluster cl
  if x.ccSel.isEmpty then s else s.setCluster cl { x with cctrs := bumpCtrs x.ccSel ev k x.cctrs }

/-- TRCCTL.EN and FROZEN (R406). -/
def trcOnBit (x : CoreSt) : Bool := x.trcctl.toNat.testBit 0
def trcFrozenBit (x : CoreSt) : Bool := x.trcctl.toNat.testBit 24

/-- A trace record of R405. -/
def traceWord (timeNs ev slot data : Nat) : BitVec 128 :=
  BitVec.ofNat 128 (timeNs % 2 ^ 64 * 2 ^ 64 + ev % 64 * 2 ^ 58 + slot % 8 * 2 ^ 55 + data % 2 ^ 55)

/-- Whether a record matches TRCTRIG (R406). -/
def trcMatches (trig : Word) (ev data : Nat) : Bool :=
  trig.toNat.testBit 63 && natBits trig.toNat 61 56 == ev && natBits trig.toNat 54 0 == data % 2 ^ 55

/-- The buffer of a core with one record written, POST counted, and FROZEN set after it (R405, R406). -/
def traceInto (timeNs : Nat) (x : CoreSt) (ev slot data : Nat) : CoreSt :=
  let x1 := { x with
    trace := rmSet x.trace x.trcpos (traceWord timeNs ev slot data),
    trcpos := (x.trcpos + 1) % 1024, trcWrapped := x.trcWrapped || x.trcpos == 1023 }
  let post := match x.trcPost with
    | some k => some (k - 1)
    | none => if trcMatches x.trctrig ev data then some (natBits x.trcctl.toNat 41 32) else none
  if post = some 0 then { x1 with trcPost := none, trcctl := x.trcctl ||| 0x1000000 } else { x1 with trcPost := post }

/-- Write a trace record of an event where the trace is on, not frozen and the event enabled; `mark` records need no
enable bit of their own (R405, R406, R408). -/
def traceEv (s : State) (r : SlotRef) (ev data : Nat) : State :=
  let x := s.core r.core
  if trcOnBit x && !trcFrozenBit x && (ev == 11 || x.trcctl.toNat.testBit ev) then
    s.setCore r.core (traceInto s.timeNs x ev r.slot data)
  else s

/-- A memory access offered to the sampled trace: one in 2^k is recorded (R405, R406). -/
def traceAccess (s : State) (r : SlotRef) (va : Nat) : State :=
  let x := s.core r.core
  if trcOnBit x && !trcFrozenBit x && x.trcctl.toNat.testBit 4 then
    let n := x.trcSample + 1
    let s1 := s.setCore r.core { x with trcSample := n }
    if n % 2 ^ natBits x.trcctl.toNat 19 16 = 0 then traceEv s1 r 4 va else s1
  else s

end Sys2Proof.Machine
end

