-- ==== Sys2Proof/Machine/Translate.lean ====
section
/-! DEFINITION. Address translation (R177 to R192): page-table entries, the walk of R183, 64 KiB groups, the checks of
R185, accessed and dirty updates, and the TLBs with their fills and drops. -/

namespace Sys2Proof.Machine

/-- The accesses that R185 tells apart. -/
inductive Access where
  | load | store | atomic | fetch | demote | cop | zero | keep | pref
deriving DecidableEq, Repr

/-- Accesses that need W (R185). -/
def Access.writes : Access → Bool
  | .store | .atomic | .cop | .zero => true
  | _ => false

/-- Accesses that need R (R185). -/
def Access.reads : Access → Bool
  | .load | .atomic | .demote | .keep | .pref => true
  | _ => false

/-! Fields of a page-table entry (R181). -/

def pteV (p : Nat) : Bool := p.testBit 0
def pteR (p : Nat) : Bool := p.testBit 1
def pteW (p : Nat) : Bool := p.testBit 2
def pteX (p : Nat) : Bool := p.testBit 3
def pteP (p : Nat) : Bool := p.testBit 4
def pteG (p : Nat) : Bool := p.testBit 5
def pteA (p : Nat) : Bool := p.testBit 6
def pteD (p : Nat) : Bool := p.testBit 7
def pteC64 (p : Nat) : Bool := p.testBit 11
def ptePa (p : Nat) : Nat := natBits p 55 12 * 2 ^ 12
def pteCattr (p : Nat) : Nat := natBits p 58 56
def pteCmp (p : Nat) : Bool := p.testBit 59

/-- How caches treat the line of an access with an EVP field: CATTR's policy where it is 0 (R156, R181). -/
def lineAttr (pte evp : Nat) : LineAttr := { evp := if evp = 0 then pteCattr pte else evp, cmp := pteCmp pte }
def pteMst (p : Nat) : Nat := natBits p 61 60
def pteView (p : Nat) : Nat := natBits p 63 62
def pteLeaf (p : Nat) : Bool := natBits p 3 1 != 0

/-- Whether a system physical address lies in the HBM region of some die (R178, R180). -/
def inHbm (pa : Nat) : Bool := spaceOf pa == 0 && regionOf pa == 0 && natBits pa 43 0 < 0x3000000000

/-- The malformed entries of R182 at a level. A table pointer whose PA names no table of R180 is one of them (assumption
log 157). -/
def malformed (p lvl : Nat) : Bool :=
  natBits p 10 8 != 0 ||
    if !pteLeaf p then
      -- a table pointer: every field but V and PA is zero, and PA names a table (R180, R181)
      natBits p 11 1 != 0 || natBits p 63 56 != 0 || !inHbm (ptePa p)
    else
      pteView p == 3 || 2 ≤ pteMst p || pteCattr p == 7 || (pteW p && !pteR p) || 3 ≤ lvl ||
      (lvl == 2 && natBits p 29 12 != 0) || (lvl == 1 && natBits p 20 12 != 0) || (pteC64 p && lvl != 0) ||
      2 ≤ spaceOf (ptePa p) ||
      (pteCattr p == 6) != (spaceOf (ptePa p) == 0 && regionOf (ptePa p) == 3) ||
      (pteView p != 0 && (pteW p || pteX p || spaceOf (ptePa p) != 0 || regionOf (ptePa p) != 0))

/-- The canonical test of R177. -/
def canonical (va : Nat) : Bool := natBits va 63 57 == if va.testBit 56 then 127 else 0

/-- What a walk finds: a leaf with its entry's address and the table pointers met, a fault of R186, or a read that
ends in an abort completion. -/
inductive WalkRes where
  | leaf (pte addr size : Nat) (ptrs : List TableEntry)
  | fault (cause : Nat)
  | abort (addr : Nat)
deriving DecidableEq, Repr

/-- The size of the page of a leaf (R183). -/
def leafSize (pte lvl : Nat) : Nat := if lvl = 0 ∧ pteC64 pte then 2 ^ 16 else 2 ^ (12 + 9 * lvl)

/-- The index of a virtual address into the table of a level (R177). -/
def vaIndex (va lvl : Nat) : Nat := natBits va (12 + 9 * lvl + 8) (12 + 9 * lvl)

/-- Whether the 16 level-0 entries of a 64 KiB range agree as R184 asks, given the entry met. -/
def groupOk (s : State) (tbl i pte : Nat) : Bool :=
  (natsFrom 0 16).all fun k =>
    let q := s.load (tbl + 8 * (i / 16 * 16 + k)) 8
    pteC64 q && q - natBits q 15 12 * 2 ^ 12 == pte - natBits pte 15 12 * 2 ^ 12

/-- Whether some level-0 entry of a 64 KiB range is a member of a group (R184). -/
def groupAny (s : State) (tbl i : Nat) : Bool :=
  (natsFrom 0 16).any fun k =>
    let q := s.load (tbl + 8 * (i / 16 * 16 + k)) 8
    pteV q && pteC64 q

/-- The entry a walk meets at level 0: the one that va indexes, or, in a 64 KiB group whose entries differ, any one
of the group's entries (R184), which the free value picks. -/
def level0Addr (s : State) (tbl va : Nat) : Nat :=
  let i := vaIndex va 0
  if groupAny s tbl i && !groupOk s tbl i (s.load (tbl + 8 * i) 8) then
    tbl + 8 * (i / 16 * 16 + Config.freeNat s.free % 16)
  else tbl + 8 * i

/-- The walk of R183 from the table `tbl` of level `lvl`, for `n` = lvl + 1 levels. -/
def walkFrom (s : State) (asid va : Nat) (ptrs : List TableEntry) : Nat → Nat → WalkRes
  | 0, _ => .fault 3
  | lvl + 1, tbl =>
    let addr := if lvl = 0 then level0Addr s tbl va else tbl + 8 * vaIndex va lvl
    if lineAborts s addr then .abort addr
    else
      let pte := s.load addr 8
      if !pteV pte then .fault 2
      else if malformed pte lvl then .fault 3
      else if pteLeaf pte then .leaf pte addr (leafSize pte lvl) ptrs
      else if lvl = 0 then .fault 3
      else
        let t := natBits pte 47 12 * 2 ^ 12
        walkFrom s asid va
          (if 2 ≤ lvl then ptrs ++ [{ asid := asid, level := lvl, prefixVa := va / 2 ^ (12 + 9 * lvl), table := t }]
           else ptrs) lvl t

/-- A walk from the root named by an XROOT value (R180, R183). -/
def walkRoot (s : State) (root : Word) (va : Nat) : WalkRes :=
  if !canonical va then .fault 1
  else if !inHbm (natBits root.toNat 47 12 * 2 ^ 12) then .fault 3
  else walkFrom s (natBits root.toNat 63 48) (va % 2 ^ 57) [] 5 (natBits root.toNat 47 12 * 2 ^ 12)

/-- The table-cache entry at a level for an address (R188). -/
def cachedTable (c : List TableEntry) (asid va lvl : Nat) : Option TableEntry :=
  c.find? fun e => e.asid == asid && e.level == lvl && e.prefixVa == va / 2 ^ (12 + 9 * lvl)

/-- A walk by a die's walkers, which start at the lowest table that the table cache holds (R189). -/
def walkDie (s : State) (die : Nat) (root : Word) (va : Nat) : WalkRes :=
  let asid := natBits root.toNat 63 48
  let v := va % 2 ^ 57
  let c := (s.die die).tableCache
  if !canonical va then .fault 1
  else
    match cachedTable c asid v 2 with
    | some e => walkFrom s asid v [] 2 e.table
    | none =>
      match cachedTable c asid v 3 with
      | some e => walkFrom s asid v [] 3 e.table
      | none =>
        match cachedTable c asid v 4 with
        | some e => walkFrom s asid v [] 4 e.table
        | none => walkRoot s root va

/-- Whether a TLB entry serves an address (R188). -/
def TlbEntry.hits (e : TlbEntry) (asid va : Nat) : Bool :=
  e.vpage == va / e.size && (e.global || e.asid == asid)

def tlbFind (t : List TlbEntry) (asid va : Nat) : Option TlbEntry := t.find? fun e => e.hits asid va

/-- A list without what it holds beyond its first `n` elements that satisfy `p`. -/
def keepFirst {α : Type} (p : α → Bool) : Nat → List α → List α
  | _, [] => []
  | 0, a :: r => if p a then keepFirst p 0 r else a :: keepFirst p 0 r
  | n + 1, a :: r => if p a then a :: keepFirst p n r else a :: keepFirst p (n + 1) r

/-- A TLB with an entry put in: the page's older entry goes, and, of those that compete with it for its places, the
oldest beyond their number. -/
def tlbFill (rival : TlbEntry → Bool) (ways : Nat) (t : List TlbEntry) (e : TlbEntry) : List TlbEntry :=
  keepFirst rival ways
    (e :: t.filter fun o => !(o.vpage == e.vpage && o.size == e.size && (o.asid == e.asid || (o.global && e.global))))

/-- The set of an entry in a TLB of 256 sets (assumption log 161). -/
def TlbEntry.set (e : TlbEntry) : Nat := e.vpage % 256

/-- An L1 TLB, fully associative; the L2 TLB of a cluster, of 8 ways; the last-level TLB of a die, of 16 ways, two of
them for 1 GiB pages only (R9, R188). -/
def fillL1 (cap : Nat) (t : List TlbEntry) (e : TlbEntry) : List TlbEntry := tlbFill (fun _ => true) cap t e

def fillL2 (t : List TlbEntry) (e : TlbEntry) : List TlbEntry := tlbFill (fun o => o.set == e.set) 8 t e

def fillLast (t : List TlbEntry) (e : TlbEntry) : List TlbEntry :=
  tlbFill (fun o => o.set == e.set && (o.size == 2 ^ 30) == (e.size == 2 ^ 30)) (if e.size = 2 ^ 30 then 2 else 14) t e

/-- The physical address an entry gives (R183). -/
def TlbEntry.pa (e : TlbEntry) (va : Nat) : Nat :=
  ptePa e.pte.toNat - ptePa e.pte.toNat % e.size + va % e.size

/-- Who translates: a core with its L1 and L2 TLBs, or an engine through its die's TLB only (R186, R188). -/
structure TrCtx where
  core : Option Nat
  die : Nat
  fetch : Bool
  root : Word
  super : Bool
deriving DecidableEq, Repr

/-- The entry that the TLBs hold for an address, nearest level first (R188). -/
def tlbLookup (s : State) (c : TrCtx) (va : Nat) : Option TlbEntry :=
  let asid := natBits c.root.toNat 63 48
  let v := va % 2 ^ 57
  let ll := tlbFind (s.die c.die).tlb asid v
  match c.core with
  | none => ll
  | some k =>
    match tlbFind (if c.fetch then (s.core k).itlb else (s.core k).dtlb) asid v with
    | some e => some e
    | none =>
      match tlbFind (s.cluster (clusterOf k)).tlb asid v with
      | some e => some e
      | none => ll

/-- Fill the TLBs and the table cache with what a walk found, within their sizes (R188). -/
def tlbFillAll (s : State) (c : TrCtx) (e : TlbEntry) (ptrs : List TableEntry) : State :=
  let d := s.die c.die
  let s1 := s.setDie c.die { d with tlb := fillLast d.tlb e, tableCache := (ptrs ++ d.tableCache).take 256 }
  match c.core with
  | none => s1
  | some k =>
    let cl := s1.cluster (clusterOf k)
    let s2 := if e.size = 2 ^ 30 then s1 else s1.setCluster (clusterOf k) { cl with tlb := fillL2 cl.tlb e }
    let x := s2.core k
    if c.fetch then (if e.size = 2 ^ 30 then s2 else s2.setCore k { x with itlb := fillL1 32 x.itlb e })
    else s2.setCore k { x with dtlb := fillL1 64 x.dtlb e }

/-- The view descriptor of a view page (R164): SRC, BTAB, TPITCH, FMT, TROWS, TCOLS, NTR, NTC. -/
structure ViewDesc where
  src : Nat
  btab : Nat
  tpitch : Nat
  fmt : Nat
  trows : Nat
  tcols : Nat
  ntr : Nat
  ntc : Nat
deriving DecidableEq, Repr

def viewDesc (s : State) (p : Nat) : ViewDesc :=
  { src := s.load p 8, btab := s.load (p + 8) 8, tpitch := s.load (p + 0x10) 4, fmt := s.load (p + 0x14) 1,
    trows := s.load (p + 0x15) 1, tcols := s.load (p + 0x16) 1, ntr := s.load (p + 0x18) 2,
    ntc := s.load (p + 0x1A) 2 }

/-- The descriptor checks of R164 and R165: reserved fields zero, fields in range. FMT names an MX element format,
since the view delivers the elements of an MX tile array. -/
def viewDescOk (s : State) (p : Nat) : Bool :=
  let d := viewDesc s p
  s.load (p + 0x17) 1 == 0 && s.load (p + 0x1C) 4 == 0 && s.load (p + 0x20) 32 == 0 &&
  d.src % 64 == 0 && d.tpitch % 16 == 0 && d.fmt ≤ 5 && 1 ≤ d.trows && d.trows ≤ 128 &&
  32 ≤ d.tcols && d.tcols ≤ 128 && d.tcols % 32 == 0

/-- The bytes of a view's shape (R165). -/
def viewBytes (d : ViewDesc) : Nat := 2 * (d.ntr * d.trows) * (d.ntc * d.tcols)

/-- The checks of R185 in order, for `n` bytes at a virtual address: the cause of the first that fails. -/
def permCause (s : State) (super : Bool) (acc : Access) (e : TlbEntry) (va n : Nat) : Option Nat :=
  let p := e.pte.toNat
  let pa := e.pa (va % 2 ^ 57)
  let off := va % e.size
  if !regionOk s (if pteView p = 0 then pa else ptePa p) then some 21
  else if !super && !pteP p then some 19
  else if pteView p != 0 && (acc.writes || !viewDescOk s (ptePa p) ||
      (acc != .demote && viewBytes (viewDesc s (ptePa p)) < off + n)) then some 20
  else if acc.reads && !pteR p then some 16
  else if acc.writes && !pteW p then some 17
  else if acc == .fetch && !(pteX p && (kindOf pa == .device || kindOf pa == .host)) then some 18
  else none

/-- A translation that has been made. -/
inductive TrRes where
  | ok (e : TlbEntry) (pa : Nat)
  | fault (code cause : Nat)
  | moving
  | abort (addr : Nat)
deriving DecidableEq, Repr

/-- The virtual page number that an entry of a walk covers. -/
def entryOf (root : Word) (va pte size : Nat) : TlbEntry :=
  { asid := natBits root.toNat 63 48, vpage := va % 2 ^ 57 / size, size := size, pte := BitVec.ofNat 64 pte,
    global := pteG pte }

/-- A walk that a core's miss starts is counted for its cluster (R406). -/
def countWalk (s : State) (c : TrCtx) : State :=
  match c.core with
  | some k => countCluster s (clusterOf k) 39 1
  | none => s

/-- A walk with its fill. The pick of R184 is a new one for every walk. -/
def walkFill (s0 : State) (c : TrCtx) (va : Nat) : State × WalkRes :=
  let s := countWalk s0 c
  let s1 := { s with free := s.free + 1 }
  match walkDie s c.die c.root va with
  | .leaf pte addr size ptrs => (tlbFillAll s1 c (entryOf c.root va pte size) ptrs, .leaf pte addr size ptrs)
  | r => (s1, r)

/-- Accesses that set D: stores, atomics and `cop.zero` (R187). -/
def Access.dirties (acc : Access) : Bool := acc == .store || acc == .atomic || acc == .zero

/-- Whether an access that passed its checks must have A or D set (R187). -/
def needsAd (acc : Access) (pte : Nat) : Bool :=
  if acc.dirties then !pteD pte else (acc == .load || acc == .fetch) && !pteA pte

/-- Accesses that a moving page stalls: stores, atomics and every `cop` (R192). -/
def Access.stalls (acc : Access) : Bool := acc.writes || acc == .demote

/-- The entry with A, or A and D, set (R187). -/
def withAd (acc : Access) (pte : Nat) : Nat := if acc.dirties then pte ||| 0xC0 else pte ||| 0x40

/-- After a translation has been found: the checks of R185, the moving state of R192, and A and D. -/
def afterLeaf (s : State) (c : TrCtx) (acc : Access) (va n : Nat) (e : TlbEntry) (addr : Option Nat) : State × TrRes :=
  match permCause s c.super acc e va n with
  | some cause => (s, .fault 4 cause)
  | none =>
    if pteMst e.pte.toNat == 1 && acc.stalls then (s, .moving)
    else if !needsAd acc e.pte.toNat then (s, .ok e (e.pa (va % 2 ^ 57)))
    else
      match addr with
      | none => (s, .ok e (e.pa (va % 2 ^ 57)))
      | some a =>
        let e2 := { e with pte := BitVec.ofNat 64 (withAd acc e.pte.toNat) }
        (tlbFillAll (s.storeAt a 8 (withAd acc e.pte.toNat)) c e2 [], .ok e2 (e2.pa (va % 2 ^ 57)))

/-- Translate an access of `n` bytes: the TLBs first, the walk on a miss, and a fresh walk where an entry held
needs its A or D bit set (R183 to R188). -/
def translate (s : State) (c : TrCtx) (acc : Access) (va n : Nat) : State × TrRes :=
  if !canonical va then (s, .fault 3 1)
  else
    let hit := tlbLookup s c va
    let useHit := match hit with
      | some e => (permCause s c.super acc e va n).isSome || !needsAd acc e.pte.toNat ||
          (pteMst e.pte.toNat == 1 && acc.stalls)
      | none => false
    match useHit, hit with
    | true, some e => afterLeaf s c acc va n e none
    | _, _ =>
      match walkFill s c va with
      | (s1, .leaf pte addr size _) => afterLeaf s1 c acc va n (entryOf c.root va pte size) (some addr)
      | (s1, .fault cause) => (s1, .fault 3 cause)
      | (s1, .abort a) => (s1, .abort a)

/-! Invalidations (R193). -/

/-- Which entries a `tlb` invalidation drops: by address, by address space, or all. -/
inductive TlbDrop where
  | va (va asid : Nat)
  | asid (asid : Nat)
  | all
deriving DecidableEq, Repr

def TlbDrop.hitsEntry (d : TlbDrop) (e : TlbEntry) : Bool :=
  match d with
  | .va v a => e.vpage == v % 2 ^ 57 / e.size && (e.global || e.asid == a)
  | .asid a => !e.global && e.asid == a
  | .all => true

def TlbDrop.hitsTable (d : TlbDrop) (e : TableEntry) : Bool :=
  match d with
  | .va v _ => e.prefixVa == v % 2 ^ 57 / 2 ^ (12 + 9 * e.level)
  | .asid _ => true
  | .all => true

/-- Whether a buffered effect went through an entry that the invalidation drops (R193). -/
def TlbDrop.hitsUsed (d : TlbDrop) (u : UsedTrans) : Bool :=
  d.hitsEntry { asid := u.asid, vpage := u.vpage, size := u.size, pte := 0, global := u.global }

def keepTlb (d : TlbDrop) (t : List TlbEntry) : List TlbEntry := t.filter fun e => !d.hitsEntry e

/-- The TLBs of a core, a cluster and a die after a drop (R193). -/
def coreDrop (d : TlbDrop) (x : CoreSt) : CoreSt := { x with itlb := keepTlb d x.itlb, dtlb := keepTlb d x.dtlb }

def clusterDrop (d : TlbDrop) (x : ClusterSt) : ClusterSt := { x with tlb := keepTlb d x.tlb }

def dieDrop (d : TlbDrop) (x : DieSt) : DieSt :=
  { x with tlb := keepTlb d x.tlb, tableCache := x.tableCache.filter fun e => !d.hitsTable e }

/-- Apply a function to the listed records whose key satisfies `p`. -/
def mapWhere {α : Type} (p : Nat → Bool) (f : α → α) (l : List (Nat × α)) : List (Nat × α) :=
  l.map fun c => if p c.1 then (c.1, f c.2) else c

def dropCores (d : TlbDrop) (p : Nat → Bool) (s : State) : State :=
  { s with cores := mapWhere p (coreDrop d) s.cores }

def dropClusters (d : TlbDrop) (p : Nat → Bool) (s : State) : State :=
  { s with clusters := mapWhere p (clusterDrop d) s.clusters }

def dropDies (d : TlbDrop) (p : Nat → Bool) (s : State) : State :=
  { s with dies := mapWhere p (dieDrop d) s.dies }

/-- Whether a core lies in the scope of an invalidation issued on a core (R193). -/
def inTlbScope (sc : TlbScope) (me k : Nat) : Bool :=
  match sc with
  | .core => k == me
  | .cluster => clusterOf k == clusterOf me
  | .die => dieOf k == dieOf me
  | .module => true

/-- The invalidation itself: the entries go from every TLB and table cache in scope. -/
def tlbDropScope (s : State) (sc : TlbScope) (me : Nat) (d : TlbDrop) : State :=
  match sc with
  | .core => dropCores d (fun k => k == me) s
  | .cluster =>
    dropClusters d (fun c => c == clusterOf me) (dropCores d (fun k => clusterOf k == clusterOf me) s)
  | .die =>
    dropDies d (fun x => x == dieOf me) (dropClusters d (fun c => dieOfCluster c == dieOf me)
      (dropCores d (fun k => dieOf k == dieOf me) s))
  | .module => dropDies d (fun _ => true) (dropClusters d (fun _ => true) (dropCores d (fun _ => true) s))

/-- The context in which a slot of a core translates. -/
def slotCtx (s : State) (r : SlotRef) (fetch : Bool) : TrCtx :=
  { core := some r.core, die := dieOf r.core, fetch := fetch, root := (s.slot r).xroot, super := (s.slot r).super }

/-- The translation a buffered effect went through, as kept for R190 and R193. -/
def usedOf (e : TlbEntry) : UsedTrans :=
  { asid := e.asid, vpage := e.vpage, size := e.size, global := e.global, stale := [] }

end Sys2Proof.Machine
end

