-- ==== Sys2Proof/Machine/Life.lean ====
section
/-! DEFINITION. The life of an activation (R92 to R110, R121, R198, R384 to R388): starting it, writing its record and
frame, ending it without effect, and what follows a conflict, a machine check, a cancellation or a domain fault. -/

namespace Sys2Proof.Machine

/-! Frame pools (R97, R400). -/

/-- POOLi.F of a cluster. -/
def poolF (s : State) (cl i : Nat) : Nat := (s.devGet (clDev cl 2 (16 * i))).toNat

/-- The frame address of a pool entry. -/
def poolFrame (s : State) (cl i : Nat) : Nat := natBits (poolF s cl i) 47 8 * 256

/-- The record address of a pool entry. -/
def poolRecord (s : State) (cl i : Nat) : Nat := natBits (s.devGet (clDev cl 2 (16 * i + 8))).toNat 47 6 * 64

/-- Whether a frame lies in the core store of a core, by the core's number in the module (R178). -/
def frameOfCore (pa core : Nat) : Bool :=
  spaceOf pa == 0 && regionOf pa == 1 && paDie pa == dieOf core && natBits pa 43 16 == core % 1280

/-- Whether a frame lies in the scratch of a cluster (R178). -/
def frameInScratch (pa cl : Nat) : Bool :=
  spaceOf pa == 0 && regionOf pa == 2 && paDie pa == dieOfCluster cl && natBits pa 43 22 == cl % 80

/-- The free entries of a cluster's pool, in ascending order (R97). -/
def freeEntries (s : State) (cl : Nat) : List Nat :=
  (natsFrom 0 256).filter fun i => (poolF s cl i).testBit 63 && !(s.cluster cl).taken.contains i

/-- A free entry usable by a core: one in its own core store first, then one in scratch (R97). -/
def usableEntry (s : State) (core : Nat) : Option Nat :=
  let cl := clusterOf core
  let fr := freeEntries s cl
  match fr.find? fun i => frameOfCore (poolFrame s cl i) core with
  | some i => some i
  | none => fr.find? fun i => frameInScratch (poolFrame s cl i) cl

/-- Any free entry for `spawn`: own store, then scratch, then another core's store (R97, R125). -/
def spawnEntry (s : State) (core : Nat) : Option Nat :=
  match usableEntry s core with
  | some i => some i
  | none => (freeEntries s (clusterOf core)).head?

def takeEntry (s : State) (cl i : Nat) : State :=
  let x := s.cluster cl
  s.setCluster cl { x with taken := x.taken ++ [i] }

def returnEntry (s : State) (cl i : Nat) : State :=
  let x := s.cluster cl
  s.setCluster cl { x with taken := x.taken.filter (· != i) }

/-- The lowest-numbered FREE slot of a core (R92). -/
def freeSlot (s : State) (core : Nat) : Option SlotRef :=
  (slotsOf core).find? fun r => (s.slot r).st == .free

/-! Continuation records and frames (R35, R95). -/

/-- RESUME of R95: the trigger of the activation that last committed. -/
def resumeWord (t : Trigger) : Word :=
  let kind := match t.kind with
    | .channel => 0 | .continuation => 1 | .self => 2 | .root => 3
  let n := if t.kind = .channel ∨ t.kind = .continuation then t.payload.length else 0
  let c := if t.kind = .channel ∨ t.kind = .continuation then t.chn.toNat else 0
  BitVec.ofNat 64 (c + n * 2 ^ 6 + kind * 2 ^ 12)

/-- Write a strand's continuation record; LINK is written with the lists (R95). -/
def writeRecord (s : State) (a : Nat) : State :=
  let st := s.strand a
  let m := writeLE s.mem a 8 st.pc.toNat
  let m := writeLE m (a + 0x08) 8 st.wsp
  let m := writeLE m (a + 0x10) 8 st.ts.toNat
  let m := writeLE m (a + 0x18) 8 st.sid.toNat
  let m := writeLE m (a + 0x20) 8 st.wmask.toNat
  let m := writeLE m (a + 0x28) 4 st.domain.toNat
  let m := writeLE m (a + 0x2C) 1 st.prio.toNat
  let m := writeLE m (a + 0x2D) 1 (st.chk.toNat + 2 * st.team.isSome.toNat)
  let m := writeLE m (a + 0x2E) 1 st.tidx
  let m := writeLE m (a + 0x2F) 1 0
  let m := writeLE m (a + 0x30) 8 st.resume.toNat
  { s with mem := m }

/-- A fresh strand's record, with LINK 0 while it is RUNNING (R95). -/
def writeFresh (s : State) (a : Nat) : State :=
  let s1 := writeRecord s a
  { s1 with mem := writeLE s1.mem (a + 0x38) 8 0 }

/-- LINK of every record of a list: the next record, 0 at the end (R95). -/
def writeLinks (m : List Host.Cell) : List Nat → List Host.Cell
  | [] => m
  | [a] => writeLE m (a + 0x38) 8 0
  | a :: b :: r => writeLinks (writeLE m (a + 0x38) 8 b) (b :: r)

/-- Set the ready list and the waiting set of a cluster, with the LINK fields of the records in them and of those
that left (R95, R96). -/
def setLists (s : State) (cl : Nat) (ready waiting : List Nat) : State :=
  let x := s.cluster cl
  let gone := (x.ready ++ x.waiting).filter fun a => !(ready.contains a || waiting.contains a)
  let m := gone.foldl (fun m a => writeLE m (a + 0x38) 8 0) s.mem
  let m := writeLinks (writeLinks m ready) waiting
  { s with mem := m, clusters := rmSet s.clusters cl { x with ready := ready, waiting := waiting } }

/-- A strand becomes READY: its record joins the ready list of its home cluster. -/
def joinReady (s : State) (a : Nat) : State :=
  let st := s.strand a
  let x := s.cluster st.home
  setLists (s.setStrand a { st with st := .ready }) st.home (x.ready.filter (· != a) ++ [a])
    (x.waiting.filter (· != a))

/-- A strand becomes WAITING. -/
def joinWaiting (s : State) (a : Nat) : State :=
  let st := s.strand a
  let x := s.cluster st.home
  setLists (s.setStrand a { st with st := .waiting }) st.home (x.ready.filter (· != a))
    (x.waiting.filter (· != a) ++ [a])

/-- A strand leaves both lists. -/
def leaveLists (s : State) (a : Nat) : State :=
  let st := s.strand a
  let x := s.cluster st.home
  if x.ready.contains a || x.waiting.contains a then
    setLists s st.home (x.ready.filter (· != a)) (x.waiting.filter (· != a))
  else s

/-- A strand becomes DONE: its record and frame are back in the pool (R96). -/
def strandDone (s : State) (a : Nat) : State :=
  let st := s.strand a
  returnEntry ((leaveLists s a).setStrand a { st with st := .done, trig := none, dropped := false }) st.home st.pool

/-- The frame that a trigger writes for a fresh strand; its SID is 0 until it has one (R35, R99, R101, R105). -/
def createFrame (s : State) (w a : Nat) (pc ts : Word) (sid : BitVec 40) (bud : Nat) (ldir g1 g2 : Word) : State :=
  let s1 := s.zeroRange w 5120
  let m := writeLE s1.mem w 8 a
  let m := writeLE m (w + 0x08) 8 g1.toNat
  let m := writeLE m (w + 0x10) 8 g2.toNat
  let m := writeLE m (w + 0x180) 8 pc.toNat
  let m := writeLE m (w + 0x190) 8 ts.toNat
  let m := writeLE m (w + 0x198) 8 sid.toNat
  let m := writeLE m (w + 0x1A0) 8 bud
  let m := writeLE m (w + 0x1B8) 8 ldir.toNat
  { s1 with mem := m }

/-- Doubleword registers g1 to g47 of a frame, from the bytes of the frame. -/
def frameRegs (m : List Host.Cell) (w : Nat) : List Nat → List (Nat × Word)
  | [] => []
  | r :: rs =>
    let v := BitVec.ofNat 64 (bytesLE m (w + 8 * r) 8)
    if v = 0 then frameRegs m w rs else (r, v) :: frameRegs m w rs

def frameVregs (m : List Host.Cell) (w : Nat) : List Nat → List (Nat × BitVec 1024)
  | [] => []
  | r :: rs =>
    let v := BitVec.ofNat 1024 (bytesLE m (w + 0x200 + 128 * r) 128)
    if v = 0 then frameVregs m w rs else (r, v) :: frameVregs m w rs

def frameMasks (m : List Host.Cell) (w : Nat) : List Nat → List (Nat × BitVec 32)
  | [] => []
  | r :: rs =>
    let v := BitVec.ofNat 32 (bytesLE m (w + 0x1200 + 4 * r) 4)
    if v = 0 then frameMasks m w rs else (r, v) :: frameMasks m w rs

/-- The bytes of memory that a frame covers. -/
def frameCells (s : State) (w : Nat) : List Host.Cell :=
  s.mem.filter fun c => decide (w ≤ c.1 ∧ c.1 < w + 5120)

/-- The bank of a slot filled from its frame (R35, R98). -/
def loadFrame (s : State) (sl : Slot) : Slot :=
  let w := sl.wsp
  let m := frameCells s w
  let word (o : Nat) : Word := BitVec.ofNat 64 (bytesLE m (w + o) 8)
  { sl with
    regs := frameRegs m w (natsFrom 1 47), vregs := frameVregs m w (natsFrom 0 32),
    masks := frameMasks m w (natsFrom 1 7),
    pc := word 0x180, npc := word 0x180, user := BitVec.ofNat 8 (bytesLE m (w + 0x188) 1),
    budBase := bytesLE m (w + 0x1A0) 8, rmode := BitVec.ofNat 64 (bytesLE m (w + 0x1A8) 8 % 16),
    fflags := BitVec.ofNat 64 (bytesLE m (w + 0x1B0) 8) &&& 0x3F3F, ldir := word 0x1B8 &&& 0xFFF, tensor := word 0x1C0,
    stepR := word 0x1C8, seedLo := word 0x1D0, seedHi := word 0x1D8 }

/-- A strand that starts has the RO words of its frame rewritten: the link to its record, TS, SID and the reserved words
(R35). -/
def rewriteRo (s : State) (w a : Nat) : State :=
  let st := s.strand a
  let m := writeLE s.mem w 8 a
  let m := writeLE m (w + 0x190) 8 st.ts.toNat
  let m := writeLE m (w + 0x198) 8 st.sid.toNat
  { s with mem := writeLE m (w + 0x1E0) 32 0 }

/-- The doublewords of a trap frame in the order of R378. -/
def TrapFrame.words (f : TrapFrame) : List Word :=
  [f.trapc, f.trapa, f.trapv, f.trapp, f.chk, f.modew, f.g1, f.g2, f.g3, f.g4, f.g5, f.g6]

/-- A trap frame that reads as zeros. -/
def TrapFrame.zero : TrapFrame :=
  { trapc := 0, trapa := 0, trapv := 0, trapp := 0, chk := 0, modew := 0, g1 := 0, g2 := 0, g3 := 0, g4 := 0,
    g5 := 0, g6 := 0 }

/-- A trap frame from its twelve doublewords; reserved fields are ignored (R4, R375). -/
def trapFrameOf (w : Nat → Word) : TrapFrame :=
  { trapc := w 0 &&& 0x37FF, trapa := w 1, trapv := w 2 &&& 0x0000FFFF3FFFFFFF, trapp := w 3, chk := w 4,
    modew := w 5 &&& 1, g1 := w 6, g2 := w 7,
    g3 := w 8, g4 := w 9, g5 := w 10, g6 := w 11 }

/-- The five trap frames of a frame's first trap stack area (R378). -/
def loadTrapStack (s : State) (w : Nat) : List TrapFrame :=
  let m := frameCells s w
  (natsFrom 0 5).map fun n => trapFrameOf fun k => BitVec.ofNat 64 (bytesLE m (w + 0x1220 + 96 * n + 8 * k) 8)

/-- The bytes of the trap stack area. -/
def storeTrapStack (m : List Host.Cell) (w : Nat) (fs : List TrapFrame) : List Host.Cell :=
  (fs.flatMap TrapFrame.words).zipIdx.foldl (fun m p => writeLE m (w + 0x1220 + 8 * p.2) 8 p.1.toNat) m

/-- The frame state of a slot's bank (R35). -/
def ctxOf (sl : Slot) : FrameCtx :=
  { wsp := sl.wsp, regs := sl.regs, vregs := sl.vregs, masks := sl.masks, user := sl.user, budBase := sl.budBase,
    rmode := sl.rmode, fflags := sl.fflags, ldir := sl.ldir, tensor := sl.tensor, stepR := sl.stepR,
    seedLo := sl.seedLo, seedHi := sl.seedHi, tstack := sl.tstack }

/-- A bank with the frame state of another frame. -/
def withCtx (sl : Slot) (c : FrameCtx) : Slot :=
  { sl with
    wsp := c.wsp, regs := c.regs, vregs := c.vregs, masks := c.masks, user := c.user, budBase := c.budBase,
    rmode := c.rmode, fflags := c.fflags, ldir := c.ldir, tensor := c.tensor, stepR := c.stepR, seedLo := c.seedLo,
    seedHi := c.seedHi, tstack := c.tstack }

/-- A write to WSP switches the register context (R35): what the bank held of the old frame stays with the activation
until it commits; the new frame's state comes from what the activation left of it, or from memory. The PC and the
budget stay. -/
def switchWsp (s : State) (sl : Slot) (w : Nat) : Slot :=
  let kept := { sl with ctxs := (sl.ctxs.filter fun c => c.wsp != sl.wsp) ++ [ctxOf sl] }
  match kept.ctxs.find? fun c => c.wsp == w with
  | some c => withCtx kept c
  | none => { loadFrame s { kept with wsp := w, tstack := none } with pc := sl.pc, npc := sl.npc }

/-- The frame state of a frame written to memory: everything but the first word, the PC, TS, SID, the budget base and
the reserved words; the trap stack area where the bank holds it (R98, R101, R378). -/
def writeCtx (m : List Host.Cell) (flags : Word) (c : FrameCtx) : List Host.Cell :=
  let w := c.wsp
  let m := m.filter fun x => decide (x.1 < w + 8 ∨ w + 0x1220 ≤ x.1 ∨ (w + 0x180 ≤ x.1 ∧ x.1 < w + 0x200))
  let m := c.regs.foldl (fun m p => writeLE m (w + 8 * p.1) 8 p.2.toNat) m
  let m := c.vregs.foldl (fun m p => writeLE m (w + 0x200 + 128 * p.1) 128 p.2.toNat) m
  let m := c.masks.foldl (fun m p => writeLE m (w + 0x1200 + 4 * p.1) 4 p.2.toNat) m
  let m := writeLE m (w + 0x188) 8 flags.toNat
  let m := writeLE m (w + 0x1A8) 8 c.rmode.toNat
  let m := writeLE m (w + 0x1B0) 8 c.fflags.toNat
  let m := writeLE m (w + 0x1B8) 8 c.ldir.toNat
  let m := writeLE m (w + 0x1C0) 8 c.tensor.toNat
  let m := writeLE m (w + 0x1C8) 8 c.stepR.toNat
  let m := writeLE m (w + 0x1D0) 8 c.seedLo.toNat
  let m := writeLE m (w + 0x1D8) 8 c.seedHi.toNat
  match c.tstack with
  | some fs => storeTrapStack m w fs
  | none => m

/-- The frames as they are written when the activation commits: those it left by a write to WSP, then the bank, with
`pc` as the next PC (R98, R101). -/
def writeFrame (s : State) (sl : Slot) (pc : Word) : State :=
  let fl (c : FrameCtx) : Word := ({ sl with user := c.user }).flagsWord
  let m := (sl.ctxs.filter fun c => c.wsp != sl.wsp).foldl (fun m c => writeCtx m (fl c) c) s.mem
  let m := writeCtx m sl.flagsWord (ctxOf sl)
  let m := writeLE m (sl.wsp + 0x180) 8 pc.toNat
  let m := writeLE m (sl.wsp + 0x190) 8 sl.ts.toNat
  { s with mem := writeLE m (sl.wsp + 0x198) 8 sl.sid.toNat }

/-! Starting. -/

/-- The mode in which an activation starts (R372). -/
def startMode (t : Trigger) (firstMode : Bool) : Bool :=
  match t.kind with
  | .channel | .continuation => t.chn.toNat ≤ 7
  | .self => firstMode
  | .root => false

/-- A slot takes a strand's next activation: FILLING, STARTING (R92, R99, R102). A push record of another core is
dropped (R262). -/
def startFilling (s : State) (r : SlotRef) (a : Nat) (t : Trigger) (fresh : Bool) : State :=
  let st := s.strand a
  let cl := clusterOf r.core
  let first := if fresh then startMode t false else st.super
  let x := (s.cluster cl).part
  let kept : Trigger := if t.ranOn = r.core then t else { t with pushed := [], ranOn := r.core }
  let sl : Slot := { Slot.reset with
    st := .filling, act := .starting, strand := a, trig := kept, key := t.key, ts := t.key.ts, sid := st.sid,
    chn := if t.kind = .channel ∨ t.kind = .continuation then t.chn else 0, prio := st.prio, part := x,
    domain := st.domain, wsp := st.wsp, team := st.team, tidx := st.tidx, seqNo := s.seqNext, fresh := fresh,
    super := startMode t first, smode := first, xroot := (s.getPart x.toNat).xroot,
    tvb := BitVec.ofNat 64 (partDev s (dieOf r.core) x.toNat 0 / 64 * 64),
    chk := { expect := 0, run := 0xFFFF, isOpen := false, en := st.chk }, mc2 := 0,
    inbox := t.payload, inboxN := t.payload.length, irrevAsked := decide (8 ≤ t.conflicts) }
  let y := s.core r.core
  ((((leaveLists s a).setStrand a { st with st := .running, super := first }).setSlot r sl).setCore r.core
    { y with maxLog2 := 4 }) |> fun u => { u with seqNext := u.seqNext + 1 }

/-! Ending without effect. -/

/-- The push record kept with a trigger after an abort: what this run pushed, then what is left of the record of
earlier runs in each direction (R262). -/
def keptPushes (sl : Slot) : List (Nat × Word) :=
  sl.pushes ++ ((natsFrom 1 4).flatMap fun d =>
    ((sl.trig.pushed.filter fun p => p.1 == d).drop (sl.pushes.filter fun p => p.1 == d).length))

/-- The trigger as the NI still holds it after an abort. -/
def keptTrigger (sl : Slot) : Trigger := { sl.trig with pushed := keptPushes sl }

/-- The pool entries that `spawn` reserved. -/
def reservedPools (sl : Slot) : List Nat :=
  sl.outg.filterMap fun e => match e.what with
    | .spawn _ _ _ _ _ i => some i
    | _ => none

/-- A FREE slot after an activation: MC2 stays (R381). -/
def emptied (sl : Slot) : Slot := { Slot.reset with mc2 := sl.mc2 }

/-- A message as the management core receives it on channel 1: the header with its REASON, then the payload (R244). -/
def returnedWords (p : Packet) (reason : Nat) : List Word :=
  [BitVec.ofNat 64 (p.d0.toNat % 2 ^ 60 + reason * 2 ^ 60) ||| BitVec.ofNat 64 (2 ^ 53), p.d1, p.d2, p.d3] ++ p.payload

/-- Everything held at a fenced core goes to the management core with REASON 9. -/
def flushHeld (s : State) (c : Nat) : State :=
  let x := s.core c
  x.pendq.foldl (fun u p => u.fwTell (dieOf c) 1 (.returned 9 (returnedWords p.2 9))) (s.setCore c { x with pendq := [] })

/-- What a fence does to a core once it is in force. -/
def flushFenced (s : State) (c : Nat) : State := if fenced s c then flushHeld s c else s

/-- Every helper slot of a composition becomes FREE (R144, R146). -/
def freeHelpers (s : State) (r : SlotRef) : State :=
  { s with slots := s.slots.map fun p => if p.2.helperOf = some r then (p.1, emptied p.2) else p }

/-- The members of the composition that a slot leads. -/
def memberCores (sl : Slot) (core : Nat) : List Nat := natsFrom (core / sl.members * sl.members) sl.members

/-- Fences that waited for a composition to dissolve take effect at its members (R145). -/
def flushMembers (s : State) (cs : List Nat) : State := cs.foldl flushFenced s

/-- Far atomics of a slot's activation have nobody to return to. -/
def dropFar (s : State) (r : SlotRef) : State :=
  { s with cores := s.cores.map fun p => (p.1, { p.2 with
      far := p.2.far.map fun q => if q.slot = r then { q with live := false } else q }) }

/-- An activation's slot gives up everything: popped doublewords go back ahead of their buffers' contents, pool
reservations and helper slots are released, and the slot is FREE (R98, R125, R144, R262); fences that waited for its
composition take effect (R145). -/
def clearSlot (s : State) (r : SlotRef) : State :=
  let sl := s.slot r
  let x := s.core r.core
  let s1 := if sl.pops.isEmpty then s else s.setCore r.core { x with linkbuf := sl.pops ++ x.linkbuf }
  let s2 := (reservedPools sl).foldl (fun u i => returnEntry u (clusterOf r.core) i) s1
  let s3 := if sl.curLog2 = 0 then s2 else freeHelpers s2 r
  let s4 := (dropFar s3 r).setSlot r (emptied sl)
  if sl.curLog2 = 0 then s4 else flushMembers s4 (memberCores sl r.core)

/-- The strand of an aborted activation as it was before, with the trigger given up: nothing for a fresh channel
trigger, else READY or WAITING as it stood (R98). -/
def forgetStrand (s : State) (a : Nat) (t : Trigger) (fresh : Bool) : State :=
  match t.kind with
  | .channel => strandDone s a
  | .continuation => joinWaiting s a
  | _ => if fresh then strandDone s a else joinWaiting s a

/-! Teams (R108 to R110). -/

/-- The team-scratch accesses of a team activation are undone, newest first (R110, R207). -/
def undoScratch (s : State) (t : Nat) : State :=
  let tm := s.getTeam t
  let m := tm.undo.foldl (fun m c => smSet 0 m c.1 c.2) s.mem
  { s with mem := m, teams := rmSet s.teams t { tm with undo := [] } }

/-- Every member's slot of a team activation is cleared. -/
def clearTeamSlots (s : State) (t : Nat) : State := (s.getTeam t).slots.foldl clearSlot s

/-- Members' strands created for this activation go back to the pool. -/
def dropFreshMembers (s : State) (t : Nat) : State :=
  let tm := s.getTeam t
  let s1 := tm.members.foldl strandDone s
  s1.setTeam t { s1.getTeam t with members := [], live := [] }

/-- A member that stood READY in its team does so again, and its record is written as it leaves its slot (R95, R98). -/
def readyMember (s : State) (a : Nat) : State := writeRecord (s.setStrand a { s.strand a with st := .ready }) a

/-- A team activation is aborted: every member (R110). Fresh members are nothing again unless they are to be kept;
others are as they stood. -/
def abortTeam (s : State) (t : Nat) (keep : Bool) : State :=
  let tm := s.getTeam t
  let fresh := tm.slots.any fun r => (s.slot r).fresh
  let kept := tm.slots.map fun r => ((s.slot r).tidx, r.core, keptPushes (s.slot r))
  let s1 := undoScratch (clearTeamSlots s t) t
  let s2 := if fresh && !keep then dropFreshMembers s1 t else tm.members.foldl readyMember s1
  let tm2 := s2.getTeam t
  s2.setTeam t { tm2 with slots := [], running := false, bars := [], onces := [], irrev := false, pushed := kept }

/-- A team joins the FIFO of a cluster at its head or at its tail (R108, R110, R198). -/
def queueTeam (s : State) (t cl : Nat) (front : Bool) : State :=
  let x := s.cluster cl
  let w : WaitTeam := { team := t, at_ := s.now, cluster := cl }
  s.setCluster cl { x with waitTeams := if front then w :: x.waitTeams else x.waitTeams ++ [w] }

/-- The cluster in which a team runs or waits. -/
def teamCluster (s : State) (t : Nat) : Nat :=
  match (s.getTeam t).slots with
  | r :: _ => clusterOf r.core
  | [] => match (s.getTeam t).members with
    | a :: _ => (s.strand a).home
    | [] => 0

/-! Conflict aborts (R198). -/

/-- The trigger counts one more conflict abort where it counts (R203). -/
def countConflict (t : Trigger) (counted : Bool) : Trigger :=
  if counted then { t with conflicts := t.conflicts + 1 } else t

/-- A conflict abort of one slot's activation, or of its whole team: effects gone, the same trigger started again at
once, a team at the head of its FIFO (R198). -/
def conflictAbort (s : State) (r : SlotRef) (counted : Bool) : State :=
  let sl := s.slot r
  let s0 := traceEv (countCore (countCore s r.core 4 1) r.core 3 1) r 8 sl.sid.toNat
  match sl.team with
  | some t =>
    let cl := clusterOf r.core
    let tm := s0.getTeam t
    let s1 := abortTeam (s0.setTeam t { tm with trig := countConflict tm.trig counted }) t false
    queueTeam s1 t cl true
  | none =>
    startFilling (clearSlot s0 r) r sl.strand (countConflict (keptTrigger sl) counted) sl.fresh

/-- Whether an activation can be conflict-aborted: RUNNING or ENDED and not yet publishing (R198). -/
def Slot.abortable (sl : Slot) : Bool :=
  (sl.act == .running || sl.act == .ended) && sl.phase == 0

/-- The slots that hold an uncommitted activation that has read one of the lines, other than `self` (a slot or the
slots of its team) (R197, R200, R202, R203). -/
def readersOf (s : State) (lines : List Nat) (self : List SlotRef) : List SlotRef :=
  (s.slots.filter fun p =>
    p.2.abortable && p.2.readset.any (fun l => lines.contains l) && !self.contains (slotRefOf p.1)).map
      fun p => slotRefOf p.1

/-- A write to lines is published: the readers are conflict-aborted. Within an ORDERED domain the aborts of R200 are
not counted toward the eight of R203. -/
def publishLines (s : State) (lines : List Nat) (self : List SlotRef) (dom : Option (BitVec 32)) : State :=
  (readersOf s lines self).foldl (fun u r =>
    let sl := u.slot r
    if !sl.abortable then u
    else
      let same := dom == some sl.domain && (u.dom sl.domain.toNat).ordered
      conflictAbort u r (!same)) s

/-! Machine-check records and containment notices (R384, R385). -/

/-- The four doublewords of a record (R384). -/
def recordWords (m : McInfo) : List Word :=
  [BitVec.ofNat 64 (m.type + m.sev * 2 ^ 8 + m.unit * 2 ^ 16 + m.agent.toNat * 2 ^ 32),
   BitVec.ofNat 64 (m.lane + m.major * 2 ^ 8 + m.func * 2 ^ 16 + m.res * 2 ^ 24), m.pc, m.info]

/-- D2 of the trigger in the notice: that of its message, the key's fields for a root or spawned strand, 0 for a
self continuation (R385). -/
def noticeD2 (t : Trigger) : Word :=
  match t.kind with
  | .self => 0
  | _ => match t.msg with
    | some p => p.d2
    | none => BitVec.ofNat 64 (t.key.idx.toNat * 2 ^ 40 + t.key.sid.toNat)

/-- MCCOUNT of a die goes up by one (R389). -/
def countRecord (s : State) (die : Nat) : State :=
  let a := dieDev die 1 0x8A0
  s.devSet a (BitVec.ofNat 64 (((s.devGet a).toNat + 1) % 2 ^ 32))

/-- The containment notice of an aborted activation (R385). -/
def containmentWords (m : McInfo) (sl : Slot) (redone : Bool) (k : Nat) : List Word :=
  recordWords m ++
    [sl.trig.key.ts, noticeD2 sl.trig,
     BitVec.ofNat 64 (sl.domain.toNat + k % 16 * 2 ^ 32 + redone.toNat * 2 ^ 36 + (if m.sev = 2 then 2 ^ 37 else 0)),
     if sl.fresh && sl.trig.kind == .channel then 0 else BitVec.ofNat 64 sl.strand]

def sendContainment (s : State) (die : Nat) (m : McInfo) (sl : Slot) (redone : Bool) (k : Nat) : State :=
  (countRecord s die).fwTell die 2 (.containment (containmentWords m sl redone k))

/-! Launches: what cancelling one does (R114, R115, R121). -/

/-- Whether the launch of a domain has been cancelled. -/
def domCancelled (s : State) (d : BitVec 32) : Bool :=
  s.launches.any fun l => l.domain == d && l.st == .live && l.cancelled.isSome

/-- Fields of a launch record (R112). -/
def recLid (b : BitVec 512) : Nat := natBits b.toNat 31 0
def recKind (b : BitVec 512) : Nat := natBits b.toNat 39 32
def recMode (b : BitVec 512) : Nat := natBits b.toNat 47 40
def recTeam (b : BitVec 512) : Nat := natBits b.toNat 55 48
def recPrio (b : BitVec 512) : Nat := natBits b.toNat 63 56
def recEntry (b : BitVec 512) : Nat := natBits b.toNat 127 64
def recTs (b : BitVec 512) : Nat := natBits b.toNat 191 128
def recArg (b : BitVec 512) : Nat := natBits b.toNat 255 192
def recCset (b : BitVec 512) : Nat := natBits b.toNat 287 256
def recBudget (b : BitVec 512) : Nat := natBits b.toNat 319 288
def recCtaddr (b : BitVec 512) : Nat := natBits b.toNat 383 320
def recCtval (b : BitVec 512) : Nat := natBits b.toNat 415 384
def recCtchan (b : BitVec 512) : Nat := natBits b.toNat 423 416
def recSidbase (b : BitVec 512) : Nat := natBits b.toNat 443 432
def recDep0 (b : BitVec 512) : Nat := natBits b.toNat 479 448
def recDep1 (b : BitVec 512) : Nat := natBits b.toNat 511 480

/-- The launch of a domain, if it is live. -/
def launchOfDomain (s : State) (d : BitVec 32) : Option Launch := s.launches.find? fun l => l.domain == d && l.st == .live

/-- The slots that hold an activation of a domain. -/
def slotsOfDomain (s : State) (d : BitVec 32) : List SlotRef :=
  (s.slots.filter fun p => p.2.act != .none && p.2.helperOf == none && p.2.domain == d).map fun p => slotRefOf p.1

/-- The strands of a domain in a state. -/
def strandsOfDomain (s : State) (d : BitVec 32) (p : Strand → Bool) : List Nat :=
  (s.strands.filter fun q => q.2.domain == d && p q.2).map (·.1)

/-- An activation ended by the cancellation of its launch: no redelivery, no notice; an irrevocable one or one that is
publishing runs to its end (R121). -/
def cancelSlot (s : State) (r : SlotRef) : State :=
  let sl := s.slot r
  if sl.act == .none || sl.irrev || sl.phase != 0 then s
  else
    let s0 := traceEv (countCore s r.core 3 1) r 7 sl.sid.toNat
    match sl.team with
    | some t => if (s0.getTeam t).irrev then s else abortTeam s0 t false
    | none => strandDone (clearSlot s0 r) sl.strand

/-- Everything of a cancelled launch's domain that has not committed goes: activations, READY and WAITING strands,
waiting teams (R121; assumption log 12). -/
def cancelDomain (s : State) (d : BitVec 32) : State :=
  let s1 := (slotsOfDomain s d).foldl cancelSlot s
  let s2 := (strandsOfDomain s1 d fun x => x.st == .ready || x.st == .waiting).foldl strandDone s1
  let mine (t : Nat) : Bool := (s2.getTeam t).domain == d
  let cs := s2.clusters.map fun c =>
    (c.1, { c.2 with waitTeams := c.2.waitTeams.filter (fun w => !mine w.team), drain := c.2.drain.filter fun t => !mine t })
  { s2 with clusters := cs }

/-- Whether a launch goes when launch `lid` of its partition is cancelled: it depends on it, or was started by it
(R115, R121). -/
def launchFollows (part lid : Nat) (l : Launch) : Bool :=
  l.part == part && l.cancelled == none &&
    (l.parent == some lid || (l.st == .waiting && (recDep0 l.record == lid || recDep1 l.record == lid)))

/-- Cancel the launches of a worklist with everything that follows from them; `fuel` bounds the chain by the number of
live launches (R121). -/
def cancelLaunches (part : Nat) : Nat → List (Nat × Nat) → State → State
  | 0, _, s => s
  | _, [], s => s
  | fuel + 1, (lid, status) :: todo, s =>
    match s.launches.find? fun l => l.part == part && recLid l.record == lid && l.cancelled == none with
    | none => cancelLaunches part fuel todo s
    | some l =>
      let ls := updFirst (fun x => x.part == part && x.lid == lid) (fun x => { x with cancelled := some status })
        s.launches
      let s1 := { s with launches := ls }
      let s2 := if l.st == .live || l.st == .placing then cancelDomain s1 l.domain else s1
      let s3 := s2.fwTell 0 0 (.launchCancelled lid)
      let more := (s3.launches.filter (launchFollows part lid)).map fun x => (x.lid, 2)
      cancelLaunches part fuel (todo ++ more) s3

/-- Cancel one launch with a status, and what follows. -/
def cancelLaunch (s : State) (part lid status : Nat) : State :=
  cancelLaunches part (2 * s.launches.length + 1) [(lid, status)] s

/-- Cancel the launch of a domain with status FAULT (R386, R388). -/
def faultLaunch (s : State) (d : BitVec 32) : State :=
  match launchOfDomain s d with
  | some l => cancelLaunch s l.part l.lid 6
  | none => s

/-- Mark the launch of an ATOMIC domain faulted (R387). -/
def markFaulted (s : State) (d : BitVec 32) : State :=
  let dm := s.dom d.toNat
  let s1 := s.setDom d.toNat { dm with faulted := true }
  let ls := updFirst (fun x => x.domain == d && x.st == .live) (fun x => { x with faulted := true }) s1.launches
  { s1 with launches := ls }

/-! Aborts by the policy of R386, and domain faults (R388). -/

/-- The commit token is given up by an activation that held it. -/
def dropToken (s : State) (sl : Slot) : State :=
  let d := s.dom sl.domain.toNat
  if d.holder = some sl.seqNo then s.setDom sl.domain.toNat { d with holder := none } else s

/-- A strand whose trigger is given up is left WAITING with WMASK 0x01, in its record too (R95, R386). -/
def giveUpStrand (s : State) (a : Nat) : State :=
  joinWaiting (writeRecord (s.setStrand a { s.strand a with wmask := 1, dropped := true }) a) a

/-- The launch of an activation that is not run again: cancelled with FAULT in an ORDERED domain, marked faulted in an
ATOMIC one (R386, R387). -/
def faultDomain (s : State) (d : BitVec 32) : State := if (s.dom d.toNat).ordered then faultLaunch s d else markFaulted s d

/-- The trigger of an activation that is not run again (R386): a message goes to the management core with REASON 9, a
strand that has one is left WAITING with WMASK 0x01. -/
def disposeTrigger (s : State) (r : SlotRef) (sl : Slot) : State :=
  let die := dieOf r.core
  match sl.trig.kind, sl.trig.msg with
  | .channel, some p => (strandDone s sl.strand).fwTell die 1 (.returned 9 (returnedWords p 9))
  | .continuation, some p =>
    (joinWaiting (writeRecord s sl.strand) sl.strand).fwTell die 1 (.returned 9 (returnedWords p 9))
  | _, _ => giveUpStrand s sl.strand

/-- A team whose trigger is not run again: a message trigger goes to the management core; the strands of any other team
are left WAITING with WMASK 0x01, each on its own (assumption log 167). -/
def disposeTeam (s : State) (die t : Nat) : State :=
  let tm := s.getTeam t
  let s1 := match tm.trig.kind, tm.trig.msg with
    | .channel, some p => s.fwTell die 1 (.returned 9 (returnedWords p 9))
    | _, _ => tm.members.foldl (fun u a => giveUpStrand (u.setStrand a { u.strand a with team := none, tidx := 0 }) a) s
  { s1 with teams := smDel s1.teams t }

/-- R386 for an activation outside a team, with the slot already cleared. -/
def policyRest (s : State) (r : SlotRef) (sl : Slot) (m : McInfo) : State :=
  let die := dieOf r.core
  let c := cpol s die sl.part.toNat
  let k := sl.trig.redeliveries
  if c.testBit 0 && decide (k < natBits c 7 4) && !fenced s r.core then
    let t := { keptTrigger sl with redeliveries := k + 1 }
    let s1 := match (if (s.slot r).st == .free then some r else freeSlot s r.core) with
      | some q => startFilling s q sl.strand t sl.fresh
      | none => joinReady (writeRecord (s.setStrand sl.strand { s.strand sl.strand with trig := some t }) sl.strand) sl.strand
    sendContainment s1 die m sl true (k + 1)
  else sendContainment (faultDomain (disposeTrigger s r sl) sl.domain) die m sl false k

/-- R386 for a team. -/
def policyTeam (s : State) (r : SlotRef) (sl : Slot) (t : Nat) (m : McInfo) : State :=
  let die := dieOf r.core
  let c := cpol s die sl.part.toNat
  let tm := s.getTeam t
  let k := tm.trig.redeliveries
  if c.testBit 0 && decide (k < natBits c 7 4) && !fenced s r.core then
    let s1 := abortTeam (s.setTeam t { tm with trig := { tm.trig with redeliveries := k + 1 } }) t false
    sendContainment (queueTeam s1 t (clusterOf r.core) true) die m sl true (k + 1)
  else
    let s1 := disposeTeam (abortTeam s t (tm.trig.kind != .channel)) die t
    sendContainment (faultDomain s1 sl.domain) die m sl false k

/-- A domain fault (R388): the activation stops, its direct effects stay, what it popped among them (R262), its strand
is DONE, its launch is cancelled with FAULT, and the notice carries SEV 2. -/
def domainFault (s : State) (r : SlotRef) (m : McInfo) : State :=
  let sl := s.slot r
  let die := dieOf r.core
  let mem := match sl.team with
    | some t => (s.getTeam t).slots
    | none => [r]
  let s1 := mem.foldl (fun u q =>
    let x := u.slot q
    strandDone (dropToken (clearSlot (u.setSlot q { x with pops := [] }) q) x) x.strand) s
  let s2 := match sl.team with
    | some t => { s1 with teams := smDel s1.teams t }
    | none => s1
  sendContainment (faultLaunch s2 sl.domain) die { m with sev := 2 } sl false sl.trig.redeliveries

/-- An activation ends by an error: a domain fault where it is irrevocable or its drain has begun to publish (R195,
R205), otherwise an abort under R17 with the policy of R386. -/
def errorAbort (s : State) (r : SlotRef) (m : McInfo) : State :=
  let sl := s.slot r
  let s0 := traceEv (countCore s r.core 3 1) r 7 sl.sid.toNat
  if sl.irrev || sl.phase != 0 then domainFault s0 r m
  else
    match sl.team with
    | some t => policyTeam s0 r sl t m
    | none => policyRest (clearSlot s0 r) r sl m

/-- The record of an abort that is no machine check: the watchdog, DOMAIN and `mchk.abort` (R384). -/
def abortRecord (s : State) (r : SlotRef) (func : Nat) : McInfo :=
  let sl := s.slot r
  { type := 7, sev := 1, unit := 0, agent := coreAgent s r.core, lane := 63, major := 0, func := func, res := 0,
    pc := sl.lastPc, info := sl.trapc }

/-- An abort with the code BUDGET (5), DOMAIN (0x12) or 0 for `mchk.abort` (R101, R373, R393). -/
def codeAbort (s : State) (r : SlotRef) (func : Nat) : State := errorAbort s r (abortRecord s r func)

end Sys2Proof.Machine
end

