-- ==== Sys2Proof/Machine/Signature.lean ====
section
/-! DEFINITION. Block signatures (R84 to R91): the CRC, what the checker does as an instruction completes, and the
machine check it raises. -/

namespace Sys2Proof.Machine

/-- One bit of `crc_step` (R86). -/
def crcBit (c : BitVec 16) : BitVec 16 :=
  if c.getLsbD 15 then (c <<< 1) ^^^ 0x1021 else c <<< 1

/-- `n` bits of `crc_step`. -/
def crcBits : Nat → BitVec 16 → BitVec 16
  | 0, c => c
  | n + 1, c => crcBits n (crcBit c)

/-- `crc_step` of R86: one halfword, most significant bit first. -/
def crcStep (c hw : BitVec 16) : BitVec 16 := crcBits 16 (c ^^^ hw)

/-- The halfwords of an instruction in the order in which the CRC takes them: the head, then the tail from its least
significant halfword (R86). -/
def encHalves (e : Enc) : List (BitVec 16) :=
  e.head :: (natsFrom 0 (hdTl e.head)).map fun k => e.tail.extractLsb' (16 * k) 16

/-- The running CRC after an instruction (R86, R88). -/
def crcFeed (c : BitVec 16) (i : Instr) : BitVec 16 :=
  match encode i with
  | some e => (encHalves e).foldl crcStep c
  | none => c

/-- Whether an instruction is a terminator in the sense of R85. -/
def isTerminator : Instr → Bool
  | .br .. | .jal .. | .bcc .. | .bz .. | .bnz .. | .jalr .. | .ret .. | .loop .. | .loopGtz ..
  | .yield _ | .endAct _ | .wait .. | .tret .. => true
  | _ => false

/-- What the checker finds as an instruction completes: its new state, or a failure with the function code of R89
(1 a mismatch, 2 a landing failure). -/
inductive ChkRes where
  | ok (c : ChkMode)
  | fail (func : Nat) (run expect : BitVec 16)
deriving DecidableEq, Repr

/-- The table of R88; without EN nothing happens. -/
def chkComplete (c : ChkMode) (i : Instr) : ChkRes :=
  if !c.en then .ok c
  else
    match i with
    | .sig _ crc =>
      if c.isOpen && c.run != c.expect then .fail 1 c.run c.expect
      else .ok { c with expect := crc, run := 0xFFFF, isOpen := true }
    | _ =>
      if !c.isOpen then .fail 2 c.run c.expect
      else
        let run := crcFeed c.run i
        if isTerminator i then
          if run = c.expect then .ok { c with run := run, isOpen := false } else .fail 1 run c.expect
        else .ok { c with run := run }

/-- Major opcode and function code of an instruction, for records and TRAPV. -/
def majorOf (i : Instr) : Nat :=
  match encode i with
  | some e => hdOpc e.head
  | none => 0

def funcOfInstr (i : Instr) : Nat :=
  match encode i with
  | some e => funcOf e
  | none => 0

/-- `fold` of R130. -/
def foldHash (a s : Nat) : Nat :=
  (natsFrom 0 (12 / s)).foldl (fun h k => h ^^^ natBits (natBits a 17 6) (s * k + s - 1) (s * k)) 0

/-- The core that owns a line for a slot: the member that `fold` selects in a composition, else the slot's core
(R131). -/
def ownerCore (sl : Slot) (core : Nat) (a : Nat) : Nat :=
  if sl.curLog2 = 0 then core
  else core / sl.members * sl.members + foldHash a sl.curLog2.toNat

/-- The agent that a check of the scalar pipeline names (R62, R144). -/
def checkAgent (s : State) (r : SlotRef) : BitVec 32 :=
  coreAgent s (ownerCore (s.slot r) r.core (s.slot r).pc.toNat)

/-- The SIGNATURE machine check of R89. -/
def signatureRecord (s : State) (r : SlotRef) (i : Instr) (func : Nat) (run expect : BitVec 16) : McInfo :=
  { type := 3, sev := 1, unit := 4, agent := checkAgent s r, lane := 63, major := majorOf i, func := func, res := 0,
    pc := (s.slot r).pc, info := BitVec.ofNat 64 (run.toNat + expect.toNat * 2 ^ 16) }

end Sys2Proof.Machine
end

