-- ==== Sys2Proof/Machine/Ops.lean ====
section
/-! DEFINITION. The operations every instruction shares: parking (R37), taking a trap (R377 to R380), what an
instruction's own rules answer, and the frame around them that issues, completes, traps, stalls or aborts. -/

namespace Sys2Proof.Machine

/-! Parking (R37, R305). -/

/-- Whether nothing a park waits for is left: long-latency results and dispatched vector instructions. -/
def Slot.quiet (sl : Slot) : Bool := sl.outst.isEmpty && sl.vq.isEmpty

/-- A parked slot with what it does at the end of the park. -/
def Slot.parkAs (sl : Slot) (c : ParkCont) : Slot := { sl with st := .parked, stall := .none, cont := c }

/-- A slot parks. -/
def parkSlot (s : State) (r : SlotRef) (c : ParkCont) : State := s.setSlot r ((s.slot r).parkAs c)

/-- LEAD while the slot leads a composition, READY otherwise (R139). -/
def Slot.readySt (sl : Slot) : SlotSt := if sl.curLog2 = 0 then .ready else .lead

/-- The slot at the end of a park as such: it can issue and no register is pending (R38). -/
def Slot.unparked (sl : Slot) : Slot := { sl with st := sl.readySt, pend := [], cont := .resume }

def unpark (s : State) (r : SlotRef) : State := s.setSlot r (s.slot r).unparked

/-! Hand-back (R146). -/

/-- The state of a composition goes back to its caller: helper slots FREE, CURLOG2 0. -/
def handBackAll (s : State) (r : SlotRef) : State :=
  let sl := s.slot r
  if sl.curLog2 = 0 then s
  else
    let s1 := freeHelpers s r
    flushMembers (s1.setSlot r { s1.slot r with curLog2 := 0, st := if sl.st = .lead then .ready else sl.st })
      (memberCores sl r.core)

/-! Taking a trap (R377 to R380). -/

/-- TRAPV of a trap (R375). -/
def TrapInfo.trapvWord (t : TrapInfo) : Word :=
  BitVec.ofNat 64 (t.cause % 256 + t.lane % 256 * 2 ^ 8 + t.vseq % 256 * 2 ^ 16 + t.fpflags % 64 * 2 ^ 24 +
    t.major % 256 * 2 ^ 32 + t.func % 256 * 2 ^ 40)

/-- TRAPC after entry (R377). -/
def trapcWord (code depth : Nat) (mode : Bool) : Word :=
  BitVec.ofNat 64 (code + (depth + 1) * 2 ^ 8 + mode.toNat * 2 ^ 12)

/-- The trap stack area as the bank fills it, or nothing where its frame cannot be accessed (R378). -/
def fillTrapStack (s : State) (w : Nat) : Option (List TrapFrame) :=
  if (regionOf w == 2 && spaceOf w == 0 && !regionOk s (w + 5119)) || readAborts s (w + 0x1220) 480 then none
  else some (loadTrapStack s w)

/-- The trap frame that entry writes (R378). -/
def savedFrame (sl : Slot) : TrapFrame :=
  { trapc := sl.trapc, trapa := sl.trapa, trapv := sl.trapv, trapp := sl.trapp, chk := sl.chk.word,
    modew := BitVec.ofNat 64 sl.super.toNat, g1 := sl.g 1, g2 := sl.g 2, g3 := sl.g 3, g4 := sl.g 4, g5 := sl.g 5,
    g6 := sl.g 6 }

/-- MC2 of a double trap (R381). -/
def mc2Word (why code : Nat) : Word := BitVec.ofNat 64 (2 ^ 63 + why * 2 ^ 16 + code)

/-- The address of the fault that `t` is: the vector instruction's of a late fault, the own one of `trap` and `brk`, and
otherwise where the handler would resume (R384). -/
def secondAt (sl : Slot) (t : TrapInfo) : Word :=
  if t.code = 9 then t.trapp else if t.code = 0x0B ∨ t.code = 0x0C then sl.pc else t.resume

/-- The DOUBLE record of R384. -/
def doubleRecord (s : State) (r : SlotRef) (t : TrapInfo) : McInfo :=
  let sl := s.slot r
  let first := sl.depth != 0
  { type := 6, sev := 4, unit := 0, agent := coreAgent s r.core, lane := 63,
    major := if first then natBits sl.trapv.toNat 39 32 else t.major,
    func := if first then natBits sl.trapv.toNat 47 40 else t.func,
    res := 0, pc := secondAt sl t, info := if first then sl.trapa else t.resume }

/-- A slot HALTED by a double trap: it keeps its trap registers and MC2 (R380). -/
def haltedSlot (sl : Slot) (mc2 : Word) : Slot :=
  { Slot.reset with st := .halted, pc := sl.pc, trapc := sl.trapc, trapa := sl.trapa, trapv := sl.trapv,
                    trapp := sl.trapp, mc2 := mc2 }

/-- The DOUBLE path of R380. -/
def doubleTrap (s : State) (r : SlotRef) (why : Nat) (t : TrapInfo) : State :=
  let sl := s.slot r
  let h := haltedSlot sl (mc2Word why t.code)
  let m := doubleRecord s r t
  if sl.irrev || sl.phase != 0 then (domainFault s r m).setSlot r h
  else
    match sl.team with
    | some k => (policyTeam s r sl k m).setSlot r h
    | none => policyRest ((clearSlot s r).setSlot r h) r sl m

/-- The slot in the handler of a trap: the frame of its DEPTH saved in the trap stack `fs`, the trap registers loaded,
supervisor mode, no block open, the PC at TVB (R377, R378). -/
def Slot.trapped (sl : Slot) (t : TrapInfo) (fs : List TrapFrame) : Slot :=
  { sl with
    tstack := some (fs.set sl.depth (savedFrame sl)),
    trapc := trapcWord t.code sl.depth sl.super, trapa := t.resume, trapv := t.trapvWord, trapp := t.trapp,
    chk := { sl.chk with isOpen := false }, super := true, pc := sl.tvb, npc := sl.tvb, vecFetch := true,
    st := .ready, stall := .none, cont := .resume, pend := [] }

/-- The trap stack of a slot: as its bank holds it, or as its frame fills it. -/
def trapStack (s : State) (sl : Slot) : Option (List TrapFrame) :=
  match sl.tstack with
  | some fs => some fs
  | none => fillTrapStack s sl.wsp

/-- Trap entry (R377) once the park before it, and the hand-back of a composition, have ended. -/
def enterTrap (s : State) (r : SlotRef) (t : TrapInfo) : State :=
  let sl := s.slot r
  if sl.doubleRisk then doubleTrap s r (if sl.vecFetch then 1 else 4) t
  else if sl.depth = 5 then doubleTrap s r 3 t
  else
    match trapStack s sl with
    | none => doubleTrap s r 2 t
    | some fs =>
      let s1 := if sl.tstack.isNone then softFix s (sl.wsp + 0x1220) 480 else s
      traceEv (s1.setSlot r (sl.trapped t fs)) r 9 (t.code + (sl.depth + 1) * 2 ^ 8)

/-- A slot that leads a composition begins its hand-back, after which it does what `c` says (R139, R143, R146). -/
def beginRelease (s : State) (r : SlotRef) (c : ParkCont) : State :=
  s.setSlot r { s.slot r with st := .releasing, stall := .none, cont := c }

/-- Trap entry after a park: a composed core hands back first (R143). -/
def toHandler (s : State) (r : SlotRef) (t : TrapInfo) : State :=
  if (s.slot r).curLog2 = 0 then enterTrap s r t else beginRelease s r (.trap t)

/-- The trap that a late vector fault takes at a park; every park that finds one resumes at the slot's PC, which a
completed instruction has advanced (R308). -/
def lateTrap (sl : Slot) (l : LateFault) : TrapInfo :=
  { code := 9, resume := sl.pc, cause := 0x0A, lane := l.lane, vseq := l.vseq.toNat, fpflags := l.flags,
    major := l.major, func := l.func, trapp := l.pc }

/-- FFLAGS with flags set. -/
def Slot.raise (sl : Slot) (fl : Nat) : Slot := { sl with fflags := sl.fflags ||| BitVec.ofNat 64 (fl % 64) }

/-- The flags that a scalar FPX raised are set as its trap is taken (R283); an instruction whose trap a late fault takes
the place of has raised none (R308). -/
def raiseFpx (s : State) (r : SlotRef) (t : TrapInfo) : State :=
  if t.code = 0x0A then s.setSlot r ((s.slot r).raise t.fpflags) else s

/-- Trap entry with a late fault found at its park taken in its place (R308, R377). -/
def enterTrapLate (s : State) (r : SlotRef) (t : TrapInfo) : State :=
  let sl := s.slot r
  match sl.late with
  | some l => toHandler (s.setSlot r { sl with late := none }) r (lateTrap sl l)
  | none => toHandler (raiseFpx s r t) r t

/-- Taking a trap: the slot parks first (R37), and enters the handler at the end of the park; where nothing is
outstanding that is at once. -/
def takeTrap (s : State) (r : SlotRef) (t : TrapInfo) : State :=
  if (s.slot r).quiet then enterTrapLate s r t else parkSlot s r (.trap t)

/-! What an instruction's own rules answer. -/

/-- The answer of an instruction's own rules: it completes and falls through; it completes and transfers; it raises a
trap of R373, or one after a walk whose A and D bits stay set (R187); a checker or a read fails; it waits at issue; the
activation is aborted with a code that enters no handler; or it is conflict-aborted (R192). -/
inductive Res where
  | done (s : State)
  | jump (s : State) (target : Word)
  | trap (t : TrapInfo)
  | trapIn (s : State) (t : TrapInfo)
  | error (s : State) (m : McInfo)
  | stall (s : State) (w : StallWhy)
  | abort (s : State) (func : Nat)
  | conflict (s : State)

/-- A trap raised by an instruction at its own PC. -/
def faultOf (s : State) (i : Instr) (code cause : Nat) (trapp : Word) : TrapInfo :=
  { code := code, resume := s.me.pc, cause := cause, lane := 63, vseq := 0, fpflags := 0, major := majorOf i,
    func := funcOfInstr i, trapp := trapp }

def Res.illegal (s : State) (i : Instr) : Res := .trap (faultOf s i 1 0 0)
def Res.align (s : State) (i : Instr) (a : Word) : Res := .trap (faultOf s i 2 0 a)
def Res.access (s : State) (i : Instr) (cause : Nat) (p : Word) : Res := .trap (faultOf s i 4 cause p)
def Res.depend (s : State) (i : Instr) (r : Nat) : Res := .trap (faultOf s i 6 0 (BitVec.ofNat 64 r))

/-- The trap that a failed translation raises at an instruction (R186). -/
def Res.xlate (s : State) (i : Instr) (code cause va : Nat) : Res := .trap (faultOf s i code cause (BitVec.ofNat 64 va))

/-- The MEMORY-ABORT record of an access (R162, R384); in a composed core the member whose queue held it (R144). -/
def memAbortRecord (s : State) (r : SlotRef) (major func lane addr : Nat) (info : Word) : McInfo :=
  { type := 4, sev := 1, unit := 6, agent := coreAgent s (ownerCore (s.slot r) r.core addr), lane := lane,
    major := major, func := func, res := 0, pc := (s.slot r).pc, info := info }

/-- The first of an instruction's registers that is pending, sources before the destination (R39). -/
def firstPending (sl : Slot) (rs : List Nat) : Option Nat := rs.find? fun r => sl.pend.contains r

/-! Completing. -/

/-- The slot at another PC. -/
def Slot.goTo (sl : Slot) (pc : Word) : Slot := { sl with pc := pc, npc := pc }

/-- What S asks for after an instruction: a park, which ends at once where nothing is outstanding (R37). -/
def switchAfter (s : State) (sw : Bool) : State :=
  if !sw then s
  else if !s.me.quiet then parkSlot s s.cur .resume
  else
    match s.me.late with
    | some l => toHandler (s.setMe { s.me with late := none }) s.cur (lateTrap s.me l)
    | none => unpark s s.cur

/-- The slot moves to its next PC, and parks where S is set (R37). -/
def advance (s : State) (pc : Word) (sw : Bool) : State := switchAfter (s.setMe (s.me.goTo pc)) sw

/-- CHKMODE after a completed instruction: what the checker makes of it, and EN and a cleared OPEN where the instruction
wrote them (R87, R88). -/
def chkAfter (old new c : ChkMode) : ChkMode := if new = old then c else { c with en := new.en, isOpen := new.isOpen }

/-- The slot `new` once the checker has come to `c` and a `once` before the instruction is over. -/
def Slot.passed (old new : Slot) (c : ChkMode) : Slot :=
  { new with chk := chkAfter old.chk new.chk c, onceArm := if old.onceArm = some old.pc then none else new.onceArm }

/-- Completion under the checker of R88: a failing check takes the place of the instruction's effects. -/
def completeWith (i : Instr) (old new : State) (k : State → State) : State :=
  match chkComplete old.me.chk i with
  | .ok c => k (new.setMe (Slot.passed old.me new.me c))
  | .fail f run e => errorAbort old old.cur (signatureRecord old old.cur i f run e)

/-- Whether what an instruction waits for is an effect that others see before it completes: its arrival at a barrier,
and the drain that makes its activation irrevocable. -/
def StallWhy.shows : StallWhy → Bool
  | .commitToken | .barrier _ => true
  | _ => false

/-- An effect that becomes visible before its instruction completes comes after the check of that instruction (R88). -/
def guardEffects (i : Instr) (s s1 : State) : State :=
  match chkComplete s.me.chk i with
  | .ok _ => s1
  | .fail f run e => errorAbort s s.cur (signatureRecord s s.cur i f run e)

/-- What follows an instruction's answer. -/
def settle (i : Instr) (sw : Bool) (s : State) : Res → State
  | .done s1 => completeWith i s s1 fun u => advance u s.me.npc sw
  | .jump s1 pc => completeWith i s s1 fun u => advance (traceEv u s.cur 1 pc.toNat) pc sw
  | .trap t => takeTrap s s.cur t
  | .trapIn s1 t => takeTrap s1 s.cur t
  | .error s1 m => errorAbort s1 s.cur m
  | .stall s1 w =>
    let u := s1.setMe { s1.me with st := .stalled, stall := w }
    if w.shows then guardEffects i s u else u
  | .abort s1 f => codeAbort s1 s.cur f
  | .conflict s1 => conflictAbort s1 s.cur true

/-- Whether an atomic of an irrevocable activation has still to be performed, so that later accesses wait (R196). -/
def atomsBusy (sl : Slot) : Bool :=
  (sl.irrev && !sl.buf.isEmpty) ||
    sl.outst.any fun o => match o.what with | .far .. => true | .own _ => true | _ => false

/-- The slot once its instruction counts as issued: the activation runs and its budget counts from its first instruction
on (R102, R141). -/
def Slot.started (sl : Slot) (now : Nat) : Slot :=
  { sl with lastPc := sl.pc, act := if sl.act = .starting then .running else sl.act,
            budAt := if sl.act = .starting then now else sl.budAt }

/-- Bookkeeping of an issue. -/
def issueMark (s : State) : State := s.setMe (s.me.started s.now)

/-- The issue of the instruction at the PC is counted by the core that executes it (R145, R406). -/
def countIssue (s : State) : State := countCore s (ownerCore s.me s.cur.core s.me.pc.toNat) 1 1

/-- What follows the answer of an instruction at its issue; one that waits has not issued. -/
def settleIssue (i : Instr) (sw : Bool) (s : State) (r : Res) : State :=
  match r with
  | .stall s1 w => settle i sw s (.stall s1 w)
  | r => countCore (settle i sw s r) (ownerCore s.me s.cur.core s.me.pc.toNat) 1 1

/-- The registers `once` replays: destination and whether a pair (R127). -/
def onceDest (i : Instr) : Option (Nat × Bool) :=
  match i with
  | .alu _ _ a _ _ | .aluw _ _ a _ _ | .muldiv _ _ a _ _ | .alui _ _ a _ _ | .aluiw _ _ a _ _ | .liImm16 _ a _
  | .liImm32 _ a _ | .liImm48 _ a _ | .bit _ _ a _ _ | .sel _ _ a _ _ _ | .addr _ _ a _ _ _ _ _
  | .movaPcl _ a _ | .movaNext _ a | .ld _ _ a _ | .ldu _ _ a _ => some (a.toNat, false)
  | .amof _ _ w a _ _ _ | .cas _ w a _ _ _ _ => some (a.toNat, w == .q)
  | _ => none

/-- The `once` instance that an instruction is prefixed with, in a team (R127). -/
def onceInst? (s : State) : Option (Nat × OnceInst) :=
  let sl := s.me
  match sl.team with
  | none => none
  | some t =>
    if sl.onceArm = some sl.pc then ((s.getTeam t).onces.find? fun o => o.k == sl.onceN).map fun o => (t, o) else none

/-- Record the value that a performing member's prefixed instruction gave (R127). -/
def recordOnce (s : State) (t k : Nat) (v v2 : Word) : State :=
  let tm := s.getTeam t
  s.setTeam t { tm with onces := updFirst (fun o => o.k == k) (fun o => { o with done := true, value := v, value2 := v2 })
                                  tm.onces }

/-- A member that does not perform takes the value of the one that did, and nothing else (R127). -/
def takeOnce (s : State) (i : Instr) (o : OnceInst) : Res :=
  if !o.done then .stall s .once
  else
    match onceDest i with
    | some (d, pair) =>
      if d ≤ 47 then
        let sl := s.me.setG d o.value
        .done (s.setMe (if pair then sl.setG (d + 1) o.value2 else sl))
      else .done s
    | none => .done s

/-- After the performing member has completed a prefixed instruction that is not long-latency, its result stands
(R127). A long-latency one records its value when it returns. -/
def afterOnce (i : Instr) (t : Nat) (o : OnceInst) (s : State) : State :=
  let long := s.me.outst.any fun e => e.once == o.k
  if long then s
  else
    match onceDest i with
    | some (d, _) => recordOnce s t o.k (s.me.g d) (s.me.g (d + 1))
    | none => recordOnce s t o.k 0 0

/-! Link ports (R261). -/

/-- The direction that LDIR gives port `p` (0 to 3): 0 none, 1 N, 2 E, 3 S, 4 W. -/
def portDir (sl : Slot) (p : Nat) : Nat := natBits sl.ldir.toNat (3 * p + 2) (3 * p)

/-- The core next to a core in a direction, within its cluster's 4 x 4 grid. -/
def neighbour (core dir : Nat) : Option Nat :=
  let c := core % 16
  match dir with
  | 1 => if 4 ≤ c then some (core - 4) else none
  | 2 => if c % 4 < 3 then some (core + 1) else none
  | 3 => if c < 12 then some (core + 4) else none
  | 4 => if 0 < c % 4 then some (core - 1) else none
  | _ => none

/-- The direction in which the neighbour sees the sender: its receive buffer for what comes that way. -/
def opposite : Nat → Nat
  | 1 => 3 | 2 => 4 | 3 => 1 | 4 => 2 | d => d

/-- Whether a register number is a link port that maps to no neighbour, so that using it is ILLEGAL (R32, R261). -/
def portIllegal (sl : Slot) (core r : Nat) : Bool :=
  decide (48 ≤ r ∧ r ≤ 51) && (neighbour core (portDir sl (r - 48))).isNone

/-- The checks that come before an instruction's own rules: its encoding, its link ports and what its entry makes
ILLEGAL without reading a register (`pre`), then pending registers (R33, R39, R42, R261, R383). -/
def issueChecks (i : Instr) (pre : State → Bool) (deps : List Nat) (s : State) : Option Res :=
  if !i.wf || deps.any (portIllegal s.me s.cur.core) || pre s then some (Res.illegal s i)
  else (firstPending s.me deps).map (Res.depend s i)

/-- Issue an instruction: its checks, then its own rules, under `once` where it is prefixed (R127). -/
def runChecked (i : Instr) (sw : Bool) (pre : State → Bool) (deps : List Nat) (body : State → Res) (s : State) : State :=
  let s0 := issueMark s
  match issueChecks i pre deps s0 with
  | some r => settleIssue i sw s0 r
  | none =>
    match onceInst? s0 with
    | none => settleIssue i sw s0 (body s0)
    | some (t, o) =>
      if o.performer = slotKey s0.cur then
        match body s0 with
        | .done s1 => settleIssue i sw s0 (.done (afterOnce i t o s1))
        | r => settleIssue i sw s0 r
      else settleIssue i sw s0 (takeOnce s0 i o)

/-- Issue an instruction whose entry has no ILLEGAL beyond its encoding. -/
def runInstr (i : Instr) (sw : Bool) (deps : List Nat) (body : State → Res) (s : State) : State :=
  runChecked i sw (fun _ => false) deps body s

/-- Whether a parking instruction hands a composition back before it acts (R145, R148). -/
def handsBack : Instr → Bool
  | .yield _ | .endAct _ | .wait .. | .release _ | .srWr .. | .srSet .. | .srClr .. => true
  | _ => false

/-- Whether a late fault found at the park of an instruction is taken once it has completed: the parking instructions
that R308 does not list with those that are not performed. -/
def lateLast : Instr → Bool
  | .tret .. | .mchkAbort _ => true
  | _ => false

/-- What a slot does at the end of the park that instruction `i` asked for: a late fault found there takes its place
(R308); a composed core hands back where `i` says so; else the instruction acts. -/
def afterPark (i : Instr) (fin : State → State) (s : State) : State :=
  match (if lateLast i then none else s.me.late) with
  | some l => toHandler (s.setMe { s.me with late := none }) s.cur (lateTrap s.me l)
  | none =>
    if handsBack i && s.me.curLog2 != 0 then guardEffects i s (beginRelease s s.cur (.after i)) else fin (unpark s s.cur)

/-- Whether `compose` leaves things as they are: composed already, in a team, or in a handler (R145, R382). -/
def Slot.composeVoid (sl : Slot) : Bool := sl.curLog2 != 0 || sl.team.isSome || decide (1 ≤ sl.depth)

/-- The state of a slot as R92 and R139 name it: one that leads a composition is LEAD whether it issues or waits,
RELEASING from the instruction or trap on that hands back, and a caller is COMPOSING from its park on. -/
def Slot.shown (sl : Slot) : SlotSt :=
  match sl.st with
  | .parked =>
    if sl.curLog2 = 0 then
      (match sl.cont with
       | .after (.compose ..) => if sl.composeVoid then .parked else .composing
       | _ => .parked)
    else
      (match sl.cont with
       | .trap _ => .releasing
       | .after i => if handsBack i then .releasing else .lead
       | .resume => .lead)
  | .stalled => if sl.curLog2 = 0 then .stalled else .lead
  | st => st

/-- Issue an instruction that parks its slot and acts at the end of the park (R37): `check` gives what is found at
issue, `fin` the effect. -/
def runParking (i : Instr) (pre : State → Bool) (deps : List Nat) (check : State → Option Res) (fin : State → State)
    (s : State) : State :=
  let s0 := issueMark s
  match issueChecks i pre deps s0 with
  | some r => settleIssue i false s0 r
  | none =>
    match check s0 with
    | some r => settleIssue i false s0 r
    | none =>
      let s1 := countIssue s0
      if s1.me.quiet then afterPark i fin s1 else parkSlot s1 s1.cur (.after i)

/-- The next state as a step answers it. -/
def next (s : State) : Host.Outcome State Fault Refusal := .next s

end Sys2Proof.Machine
end

