-- ==== Sys2Proof/Machine/Cards.lean ====
section
/-! DEFINITION. Command blocks as the engines read them: job cards (R257), matrix command blocks (R330, R331) and
collective descriptors (R360), with the footprints each declares (R206). -/

namespace Sys2Proof.Machine

/-- `n` bytes of a block at an offset, as a number. -/
def cardNum (b : List Byte) (o n : Nat) : Nat := leOf ((b.drop o).take n)

/-- A signed field of `n` bytes. -/
def cardInt (b : List Byte) (o n : Nat) : Int := sxInt (cardNum b o n) (8 * n)

/-- Whether the bytes of a range are zero. -/
def cardZero (b : List Byte) (o n : Nat) : Bool := cardNum b o n == 0

/-! Regions (R257). -/

/-- The address of row `r`. -/
def Region.row (g : Region) (r : Nat) : Nat := (((g.base : Int) + g.stride * r) % (2 ^ 64 : Nat)).toNat

/-- The rows of a region. -/
def Region.rowList (g : Region) : List Nat := (natsFrom 0 g.rows).map g.row

/-- The addresses of the bytes of a region in row-major order, as (start, length) pieces. -/
def Region.pieces (g : Region) : List (Nat × Nat) := g.rowList.map fun a => (a, g.rowBytes)

/-- The total size of a region. -/
def Region.size (g : Region) : Nat := g.rowBytes * g.rows

/-- Whether a row of a region touches a line. -/
def Region.hasLine (g : Region) (l : Nat) : Bool :=
  decide (0 < g.rowBytes) && g.rowList.any fun a => decide (lineOf a ≤ l ∧ l ≤ lineOf (a + g.rowBytes - 1))

/-- Whether two regions touch a common line (R206). -/
def Region.meets (g h : Region) : Bool :=
  decide (0 < g.rowBytes ∧ 0 < h.rowBytes) && g.rowList.any fun a => h.rowList.any fun b =>
    decide (lineOf a ≤ lineOf (b + h.rowBytes - 1) ∧ lineOf b ≤ lineOf (a + g.rowBytes - 1))

/-- Whether two regions share a byte. -/
def Region.overlaps (g h : Region) : Bool :=
  decide (0 < g.rowBytes ∧ 0 < h.rowBytes) && g.rowList.any fun a => h.rowList.any fun b =>
    decide (a < b + h.rowBytes ∧ b < a + g.rowBytes)

def anyMeets (xs ys : List Region) : Bool := xs.any fun g => ys.any g.meets

def anyOverlaps (xs ys : List Region) : Bool := xs.any fun g => ys.any g.overlaps

/-- The lines of a region, row by row. -/
def Region.lines (g : Region) : List Nat :=
  if g.rowBytes = 0 then []
  else g.rowList.flatMap fun a => natsFrom (lineOf a) (lineOf (a + g.rowBytes - 1) - lineOf a + 1)

/-! Job cards (R257, R258). -/

def jcOp (b : List Byte) : Nat := cardNum b 0 1
def jcShape (b : List Byte) : Nat := cardNum b 1 1
def jcLen (b : List Byte) : Nat := 64 * (jcShape b % 4 + 1)
def jcNr (b : List Byte) : Nat := jcShape b / 4 % 8
def jcNw (b : List Byte) : Nat := jcShape b / 32 % 4
def jcMm (b : List Byte) : Bool := (jcShape b).testBit 7
def jcRagent (b : List Byte) : Nat := cardNum b 8 4
def jcRchan (b : List Byte) : Nat := cardNum b 0xC 1
def jcRclass (b : List Byte) : Nat := cardNum b 0xD 1
def jcParam (b : List Byte) : Nat := cardNum b 0x10 16

/-- Region `k` of a card, read regions first. -/
def jcRegion (b : List Byte) (k : Nat) : Region :=
  let o := 0x20 + 24 * k
  { base := cardNum b o 8, rowBytes := cardNum b (o + 8) 4, rows := cardNum b (o + 12) 4, stride := cardInt b (o + 16) 8 }

def jcReads (b : List Byte) : List Region := (natsFrom 0 (jcNr b)).map (jcRegion b)

def jcWrites (b : List Byte) : List Region := (natsFrom (jcNr b) (jcNw b)).map (jcRegion b)

/-- Where the embedded matrix command stands: the next multiple of 64 after the regions. -/
def jcMmOffset (b : List Byte) : Nat := (0x20 + 24 * (jcNr b + jcNw b) + 63) / 64 * 64

/-- The embedded matrix command. -/
def jcMmBlock (b : List Byte) : List Byte := (b.drop (jcMmOffset b)).take 64

/-- The bytes that the header says the card needs. -/
def jcNeeds (b : List Byte) : Nat :=
  if jcMm b then jcMmOffset b + 64 else 0x20 + 24 * (jcNr b + jcNw b)

/-- The sizes and counts of R257. -/
def regionInRange (g : Region) : Bool :=
  decide (1 ≤ g.rowBytes ∧ g.rowBytes ≤ 2 ^ 24 ∧ 1 ≤ g.rows ∧ g.rows ≤ 65536)

/-- Whether an operation belongs to an engine (17 the copy engine, 18 the atomic unit), with its region counts
(R258). -/
def jcShapeOk (unit : Nat) (b : List Byte) : Bool :=
  match jcOp b with
  | 0 | 2 => unit == 17 && jcNr b == 1 && jcNw b == 1
  | 1 => unit == 17 && jcNr b == 0 && jcNw b == 1
  | 3 => unit == 17 && decide (1 ≤ jcNr b ∧ jcNr b ≤ 4) && jcNw b == 0
  | 8 | 9 => unit == 18 && jcNr b == 1 && jcNw b == 1
  | _ => false

/-- The size rules of R258 for an operation. -/
def jcSizesOk (b : List Byte) : Bool :=
  let r := jcRegion b 0
  let w := jcRegion b (jcNr b)
  match jcOp b with
  | 0 | 2 => r.size == w.size
  | 8 => r.size == w.size && r.size % 16 == 0
  | 9 => r.size == w.size && r.size % 8 == 0
  | 3 => decide (jcParam b % 8 ≤ 6)
  | _ => true

/-- The read regions of a job, as footprints: those of a card whose operation reads. -/
def jobReads (b : List Byte) : List Region := jcReads b

/-- The write footprints of a job: RPUT's write region is none (R258). -/
def jobWrites (b : List Byte) : List Region := if jcOp b = 2 then [] else jcWrites b

/-- The BADCARD conditions of R258 for an engine. -/
def jobCardOk (unit : Nat) (b : List Byte) : Bool :=
  jcShapeOk unit b && cardZero b 2 6 && cardZero b 0xE 2 && jcSizesOk b &&
  decide (jcNeeds b ≤ jcLen b) && decide (jcNr b ≤ 4 ∧ jcNw b ≤ 2) &&
  (jcRchan b == 0 || decide (8 ≤ jcRchan b ∧ jcRchan b ≤ 63)) && decide (jcRclass b ≤ 2) &&
  (jcReads b).all regionInRange && (jcWrites b).all regionInRange &&
  !anyOverlaps (jcReads b) (jobWrites b)

/-! Matrix command blocks (R330, R331). -/

def mcOp (b : List Byte) : Nat := cardNum b 0 1
def mcAcc (b : List Byte) : Nat := cardNum b 1 1 % 4
def mcClr (b : List Byte) : Bool := (cardNum b 1 1).testBit 2
def mcSpn (b : List Byte) : Nat := cardNum b 1 1 / 8 % 4
def mcFa (b : List Byte) : Nat := cardNum b 2 1 % 16
def mcFb (b : List Byte) : Nat := cardNum b 2 1 / 16
def mcRnd (b : List Byte) : Nat := cardNum b 3 1 % 8
def mcRagent (b : List Byte) : Nat := cardNum b 4 4
def mcBa (b : List Byte) : Int := cardInt b 8 2
def mcBb (b : List Byte) : Int := cardInt b 10 2
def mcFl (b : List Byte) : Int := cardInt b 12 2
def mcCorg (b : List Byte) : Nat := cardNum b 0x10 8
def mcRchan (b : List Byte) : Nat := cardNum b 0x18 1
def mcRclass (b : List Byte) : Nat := cardNum b 0x19 1
def mcM (b : List Byte) : Nat := cardNum b 0x1A 1
def mcN (b : List Byte) : Nat := cardNum b 0x1B 1
def mcLw (b : List Byte) : Nat := cardNum b 0x1C 4
def mcA (b : List Byte) : Nat := cardNum b 0x20 8
def mcB (b : List Byte) : Nat := cardNum b 0x28 8
def mcAp (b : List Byte) : Nat := cardNum b 0x30 4
def mcBp (b : List Byte) : Nat := cardNum b 0x34 4
def mcK (b : List Byte) : Nat := cardNum b 0x38 4
def mcDp (b : List Byte) : Nat := cardNum b 0x28 4
def mcTaddr (b : List Byte) : Nat := cardNum b 0x30 8
def mcMp (b : List Byte) : Nat := cardNum b 0x38 4

/-- The width in bits of an element of format code `f` (R271). -/
def codeWidth : Nat → Nat
  | 0 | 1 | 5 | 6 => 8
  | 2 | 3 => 6
  | 4 => 4
  | 7 | 8 => 16
  | 9 | 11 => 32
  | 10 | 12 => 64
  | _ => 128

/-- The bytes of the element area of an MX tile. -/
def mxElemBytes (rows cols f : Nat) : Nat := rows * cols * codeWidth f / 8

/-- The bytes of an MX tile (R280): elements, then the delta nibbles padded to a multiple of 16. -/
def mxTileBytes (rows cols f : Nat) : Nat := mxElemBytes rows cols f + ((rows * cols / 32 + 1) / 2 + 15) / 16 * 16

/-- The number of K-tiles of a panel (R333). -/
def kTiles (k : Nat) : Nat := (k + 127) / 128

/-- The columns of K-tile `t`. -/
def kCols (k t : Nat) : Nat := min 128 (k - 128 * t)

/-- The bytes of K-tile `t` of an operand with `rows` rows in format `f`. -/
def kTileBytes (rows f k t : Nat) : Nat :=
  if f = 7 then rows * kCols k t * 2 else mxTileBytes rows (kCols k t) f

/-- The footprint of a dense panel (R335): whole K-tiles, and the last one by its own size. -/
def panelRegions (a rows f k pitch : Nat) : List Region :=
  let n := kTiles k
  let full : Region := { base := a, rowBytes := kTileBytes rows f k 0, rows := n - 1, stride := pitch }
  let last : Region :=
    { base := a + (n - 1) * pitch, rowBytes := kTileBytes rows f k (n - 1), rows := 1, stride := 0 }
  if n ≤ 1 then [last] else [full, last]

/-- The packed count P of `mms` (R330, R340). -/
def spnCount : Nat → Nat
  | 1 => 16
  | 2 => 32
  | 3 => 64
  | _ => 0

/-- The size S of a group record (R340). -/
def recordBytes (p b : Nat) : Nat := (16 + (p * b + 7) / 8 + 2 + 15) / 16 * 16

/-- The read footprints of a matrix command (R335). -/
def mcReads (b : List Byte) : List Region :=
  match mcOp b with
  | 0x78 => panelRegions (mcA b) (mcM b) (mcFa b) (mcK b) (mcAp b) ++ panelRegions (mcB b) (mcN b) (mcFb b) (mcK b) (mcBp b)
  | 0x79 =>
    { base := mcA b, rowBytes := mcM b * (mcK b / 128) * recordBytes (spnCount (mcSpn b)) (codeWidth (mcFa b)),
      rows := 1, stride := 0 } :: panelRegions (mcB b) (mcN b) (mcFb b) (mcK b) (mcBp b)
  | 0x7A =>
    [{ base := mcA b, rowBytes := 2 * mcK b, rows := mcM b, stride := mcAp b },
     { base := mcB b, rowBytes := 2 * mcK b, rows := mcN b, stride := mcBp b }]
  | 0x7D => [{ base := mcA b, rowBytes := 4 * mcN b, rows := mcM b, stride := mcMp b }]
  | _ => []

/-- The write footprints of a matrix command (R335). -/
def mcWrites (b : List Byte) : List Region :=
  match mcOp b with
  | 0x7C =>
    if mcFa b ≤ 5 then [{ base := mcA b, rowBytes := mxTileBytes (mcM b) (mcN b) (mcFa b), rows := 1, stride := 0 }]
    else [{ base := mcA b, rowBytes := mcN b * codeWidth (mcFa b) / 8, rows := mcM b, stride := mcDp b }]
  | 0x7D =>
    [{ base := mcB b, rowBytes := mxTileBytes (mcM b) (mcN b) (mcFa b), rows := 1, stride := 0 },
     { base := mcTaddr b, rowBytes := mxTileBytes (mcN b) (mcM b) (mcFa b), rows := 1, stride := 0 }]
  | _ => []

/-- A block as a matrix instruction's command holds it: ACC, CLR and the exponent word of the instruction in place of
the block's (R348). -/
def mcPatch (b : List Byte) (acc clr useExp exp : Nat) : List Byte :=
  let ctl := cardNum b 1 1 / 8 * 8 + clr * 4 + acc
  b.take 1 ++ [BitVec.ofNat 8 ctl] ++ (b.drop 2).take 6 ++
    (if useExp = 1 then leBytes exp 8 else (b.drop 8).take 8) ++ b.drop 16

/-- The block that stands for `mzero`, which has none (R348). -/
def mzeroBlock (acc exp : Nat) : List Byte :=
  [0x7B, BitVec.ofNat 8 acc] ++ List.replicate 6 0 ++ leBytes exp 8 ++ List.replicate 48 0

/-! Collective descriptors (R360). -/

def cdOp (b : List Byte) : Nat := cardNum b 0 1
def cdGid (b : List Byte) : Nat := cardNum b 1 1
def cdRank (b : List Byte) : Nat := cardNum b 4 4
def cdCseq (b : List Byte) : Word := BitVec.ofNat 64 (cardNum b 8 8)
def cdSrc (b : List Byte) : Nat := cardNum b 0x10 8
def cdDst (b : List Byte) : Nat := cardNum b 0x18 8
def cdCount (b : List Byte) : Nat := cardNum b 0x20 4
def cdRoot (b : List Byte) : Nat := cardNum b 0x24 4
def cdX (b : List Byte) : Nat := cardNum b 0x28 2
def cdRagent (b : List Byte) : Nat := cardNum b 0x2C 4
def cdRchan (b : List Byte) : Nat := cardNum b 0x30 1
def cdRclass (b : List Byte) : Nat := cardNum b 0x31 1
def cdOut (b : List Byte) : Nat := cardNum b 0x38 8

/-- The bytes of one contribution. -/
def cdBytes (b : List Byte) : Nat :=
  match cdOp b with
  | 0 => 8 * cdCount b
  | 1 => 16 * cdCount b
  | _ => cdCount b

/-- One contiguous region. -/
def flatRegion (a n : Nat) : Region := { base := a, rowBytes := n, rows := 1, stride := 0 }

/-- The footprints of a collective command (R361); `nrank` is the group's NRANK. SRC is no footprint of a BCAST rank
other than the root, which ignores it. -/
def cdReads (b : List Byte) : List Region :=
  if cdOp b = 2 ∧ cdRank b ≠ cdRoot b then [] else [flatRegion (cdSrc b) (cdBytes b)]

def cdWrites (b : List Byte) (nrank : Nat) : List Region :=
  [flatRegion (cdDst b) (if cdOp b = 3 then cdCount b * nrank else cdBytes b), flatRegion (cdOut b) 32]

/-- The footprints of a command's block by the unit of its engine: 16 the matrix array, 17 and 18 the copy engine and
the atomic unit, 0 the collective engine. -/
def blockReads (unit : Nat) (b : List Byte) : List Region :=
  match unit with
  | 16 => mcReads b
  | 0 => cdReads b
  | _ => if jcMm b then jobReads b ++ mcReads (jcMmBlock b) else jobReads b

def blockWrites (unit nrank : Nat) (b : List Byte) : List Region :=
  match unit with
  | 16 => mcWrites b
  | 0 => cdWrites b nrank
  | _ => if jcMm b then jobWrites b ++ mcWrites (jcMmBlock b) else jobWrites b

end Sys2Proof.Machine
end

