-- ==== Sys2Proof/Machine/Number.lean ====
section
/-! DEFINITION. Numbers and rounding (R271 to R287): what a bit pattern of a format stands for, and the pattern to
which an exact real rounds, with its flags. Exact reals are fractions of naturals with a sign. -/

namespace Sys2Proof.Machine

/-- The value of a pattern: a signed exact fraction, an infinity, or a NaN that is signalling or quiet. -/
inductive Num where
  | fin (neg : Bool) (num den : Nat)
  | inf (neg : Bool)
  | nan (sig : Bool)
deriving DecidableEq, Repr

/-- The flag bits of FFLAGS (R283). -/
def fNX : Nat := 1
def fUF : Nat := 2
def fOF : Nat := 4
def fDZ : Nat := 8
def fNV : Nat := 16
def fSAT : Nat := 32

/-- The rounding modes in force (R282); RMODE.MODE 5 is SR. -/
inductive Rm where
  | rne | rtz | rdn | rup | rmm | sr
deriving DecidableEq, Repr

def rmOf : Nat → Rm
  | 0 => .rne | 1 => .rtz | 2 => .rdn | 3 => .rup | 4 => .rmm | _ => .sr

/-- 2^e as a numerator and a denominator. -/
def twoNum (e : Int) : Nat := 2 ^ e.toNat
def twoDen (e : Int) : Nat := 2 ^ (-e).toNat

/-- A binary floating-point layout: exponent bits, fraction bits, bias, and its largest finite magnitude pattern
(R272). -/
structure FpLayout where
  ebits : Nat
  p : Nat
  bias : Nat
  maxPat : Nat
deriving DecidableEq, Repr

/-- The layouts of R272; the formats that are not binary floating point have none. -/
def fpLayout : Fmt → Option FpLayout
  | .f64 => some ⟨11, 52, 1023, 0x7FEFFFFFFFFFFFFF⟩
  | .f32 => some ⟨8, 23, 127, 0x7F7FFFFF⟩
  | .f16 => some ⟨5, 10, 15, 0x7BFF⟩
  | .bf16 => some ⟨8, 7, 127, 0x7F7F⟩
  | .e4m3 => some ⟨4, 3, 7, 0x7E⟩
  | .e5m2 => some ⟨5, 2, 15, 0x7B⟩
  | .e3m2 => some ⟨3, 2, 3, 0x1F⟩
  | .e2m3 => some ⟨2, 3, 1, 0x1F⟩
  | .e2m1 => some ⟨2, 1, 1, 0x7⟩
  | _ => none

/-- The canonical NaN of a format (R273). -/
def canonNan : Fmt → Nat
  | .f64 => 0x7FF8000000000000
  | .f32 => 0x7FC00000
  | .f16 => 0x7E00
  | .bf16 => 0x7FC0
  | .e4m3 | .e5m2 => 0x7F
  | _ => 0

/-- Whether a format has infinities (R272). -/
def hasInf : Fmt → Bool
  | .f64 | .f32 | .f16 | .bf16 | .e5m2 => true
  | _ => false

/-- The exponent with which a layout reads a pattern's magnitude field, and the integer it scales. -/
def fpMag (l : FpLayout) (m : Nat) : Nat × Int :=
  let e := m / 2 ^ l.p
  let f := m % 2 ^ l.p
  if e = 0 then (f, 1 - (l.bias : Int) - l.p) else (2 ^ l.p + f, (e : Int) - l.bias - l.p)

/-- A signed dyadic value. -/
def dyadic (neg : Bool) (n : Nat) (e : Int) : Num := .fin neg (n * twoNum e) (twoDen e)

/-- The width in bits of a layout without its sign. -/
def FpLayout.magBits (l : FpLayout) : Nat := l.ebits + l.p

/-- The value of a pattern of a binary format. -/
def fpValue (f : Fmt) (l : FpLayout) (v : Nat) : Num :=
  let neg := v.testBit l.magBits
  let m := v % 2 ^ l.magBits
  let (n, e) := fpMag l m
  if hasInf f then
    if m = l.maxPat + 1 then .inf neg
    else if l.maxPat + 1 < m then .nan (f != .e5m2 && !(m.testBit (l.p - 1)))
    else dyadic neg n e
  else if f = .e4m3 ∧ m = 0x7F then .nan false
  else dyadic neg n e

/-- Term k of a DPOW8 pattern in units of 2^-6 (R274). -/
def dpowTerm (s : Bool) (a : Nat) : Int := if a = 7 then 0 else if s then -(2 ^ (6 - a) : Nat) else (2 ^ (6 - a) : Nat)

/-- The value of a DPOW8 pattern in units of 2^-6. -/
def dpowUnits (v : Nat) : Int := dpowTerm (v.testBit 7) (v / 16 % 8) + dpowTerm (v.testBit 3) (v % 8)

/-- A signed integer as a value. -/
def numOfInt (i : Int) : Num := .fin (decide (i < 0)) i.natAbs 1

/-- The value of the low bits of `v` in a format (R272 to R275). -/
def numOf (f : Fmt) (v : Nat) : Num :=
  match fpLayout f with
  | some l => fpValue f l v
  | none =>
    match f with
    | .dpow8 => let u := dpowUnits v; .fin (decide (u < 0)) u.natAbs 64
    | _ => numOfInt (sxInt v f.width)

/-! Rounding. -/

/-- Which of the two neighbours a mode takes: `r`/`d` is the position between them, `even` whether the lower has an
even last bit; the result is whether the upper one is chosen (R284, R285). -/
def takesHi (m : Rm) (neg even : Bool) (r d w : Nat) : Bool :=
  match m with
  | .rne => decide (d < 2 * r) || (decide (2 * r = d) && !even)
  | .rtz => false
  | .rdn => neg
  | .rup => !neg
  | .rmm => decide (d ≤ 2 * r)
  | .sr => decide (w < r * 2 ^ 16 / d)

/-- floor(log2(num/den)) for a positive fraction. -/
def log2Frac (num den : Nat) : Int :=
  let e : Int := (Nat.log2 num : Int) - Nat.log2 den
  if den * twoNum e ≤ num * twoDen e then e else e - 1

/-- |x| divided by 2^k: the integer part, the remainder and its divisor. -/
def scaleDiv (num den : Nat) (k : Int) : Nat × Nat × Nat :=
  let n := num * twoDen k
  let d := den * twoNum k
  (n / d, n % d, d)

/-- The magnitude pattern chosen for num/den on a layout's grid with exponents at least `emin`, unbounded above, and
whether it is inexact. -/
def gridRound (l : FpLayout) (m : Rm) (neg : Bool) (num den w : Nat) : Nat × Bool :=
  let emin : Int := 1 - (l.bias : Int)
  let e := max (log2Frac num den) emin
  let (q, r, d) := scaleDiv num den (e - l.p)
  let q2 := if r ≠ 0 ∧ takesHi m neg (q % 2 == 0) r d w then q + 1 else q
  ((e - emin).toNat * 2 ^ l.p + q2, r != 0)

/-- Whether a nonzero value is tiny (R287): its rounding on a grid unbounded in exponent lies below the smallest
normal value. -/
def isTiny (l : FpLayout) (m : Rm) (neg : Bool) (num den w : Nat) : Bool :=
  let emin : Int := 1 - (l.bias : Int)
  let e := log2Frac num den
  if emin ≤ e then false
  else if e + 1 < emin then true
  else
    let (q, r, d) := scaleDiv num den (e - l.p)
    let q2 := if r ≠ 0 ∧ takesHi m neg (q % 2 == 0) r d w then q + 1 else q
    decide (q2 < 2 ^ (l.p + 1))

/-- A signed pattern of a layout. -/
def fpPat (l : FpLayout) (neg : Bool) (mag : Nat) : Nat := neg.toNat * 2 ^ l.magBits + mag

/-- Whether finite overflow under a mode gives the largest finite value (R286). -/
def overflowFinite (m : Rm) (neg : Bool) : Bool :=
  match m with
  | .rtz => true
  | .rdn => !neg
  | .rup => neg
  | _ => false

/-- What saturates: nothing but the formats that always do; E4M3 too (SAT of R282); finite overflow of any element
format (`vmxio`, R286); that and infinite inputs (`vquant`, `mread`, `mstw`, R296). -/
inductive SatMode where
  | off | sat | clampFin | clampAll
deriving DecidableEq, Repr

def satOf (b : Bool) : SatMode := if b then .sat else .off

/-- Finite overflow into a binary format (R286). -/
def fpOverflow (f : Fmt) (l : FpLayout) (m : Rm) (sat : SatMode) (neg : Bool) : Nat × Nat :=
  match f with
  | .e4m3 => if sat ≠ .off then (fpPat l neg 0x7E, fOF + fNX + fSAT) else (0x7F, fOF + fNX)
  | .e3m2 | .e2m3 | .e2m1 => (fpPat l neg l.maxPat, fOF + fNX + fSAT)
  | _ =>
    if f = .e5m2 ∧ (sat = .clampFin ∨ sat = .clampAll) then (fpPat l neg l.maxPat, fOF + fNX + fSAT)
    else if overflowFinite m neg then (fpPat l neg l.maxPat, fOF + fNX)
    else (fpPat l neg (l.maxPat + 1), fOF + fNX)

/-- A finite value rounded to a binary format: pattern and flags (R284 to R287). -/
def fpRound (f : Fmt) (l : FpLayout) (m : Rm) (sat : SatMode) (w : Nat) (neg : Bool) (num den : Nat) : Nat × Nat :=
  if num = 0 then (fpPat l neg 0, 0)
  else
    let (mag, inexact) := gridRound l m neg num den w
    if l.maxPat < mag then fpOverflow f l m sat neg
    else
      (fpPat l neg mag,
       if inexact then (if isTiny l m neg num den w then fNX + fUF else fNX) else 0)

/-- Magnitudes of DPOW8 in units of 2^-6, in ascending order. -/
def dpowMags : List Nat :=
  (natsUpTo 128).filter fun n => (natsUpTo 255).any fun v => dpowUnits v == (n : Int)
where
  natsUpTo : Nat → List Nat
    | 0 => [0]
    | n + 1 => natsUpTo n ++ [n + 1]

/-- The canonical encoding of a nonzero DPOW8 value in units of 2^-6 (R274). -/
def dpowEncode (u : Int) : Nat :=
  let neg := decide (u < 0)
  let ok (a2 a1 : Nat) : Option Nat :=
    let s := neg.toNat * 128 + a1 * 16
    if dpowUnits (s + a2) = u then some (s + a2)
    else if dpowUnits (s + 8 + a2) = u then some (s + 8 + a2) else none
  if u = 0 then 0x77
  else
    match [7, 6, 5, 4, 3, 2, 1, 0].findSome? fun a2 => [7, 6, 5, 4, 3, 2, 1, 0].findSome? fun a1 => ok a2 a1 with
    | some v => v
    | none => 0x77

/-- A finite value rounded to DPOW8 (R284, R286). -/
def dpowRound (m : Rm) (w : Nat) (neg : Bool) (num den : Nat) : Nat × Nat :=
  let below := dpowMags.filter fun k => decide (k * den ≤ 64 * num)
  let beyond := decide (128 * den < 64 * num)
  let lo := if beyond then 128 + (64 * num - 128 * den) / (32 * den) * 32 else below.getLastD 0
  let hi := if lo < 128 then (dpowMags.find? fun k => decide (lo < k)).getD 128 else lo + 32
  let r := 64 * num - lo * den
  let d := (hi - lo) * den
  let c := if r ≠ 0 ∧ takesHi m neg true r d w then hi else lo
  if 128 < c then (dpowEncode (if neg then -128 else 128), fOF + fNX + fSAT)
  else (dpowEncode (if neg then -(c : Int) else c), if r = 0 then 0 else fNX)

/-- A finite value rounded to an integer format of `b` bits (R284, R286). -/
def intRound (b : Nat) (m : Rm) (w : Nat) (neg : Bool) (num den : Nat) : Nat × Nat :=
  let q := num / den
  let r := num % den
  let c := if r ≠ 0 ∧ takesHi m neg (q % 2 == 0) r den w then q + 1 else q
  if neg then
    if 2 ^ (b - 1) < c then (2 ^ (b - 1), fNV + fSAT) else ((2 ^ b - c) % 2 ^ b, if r = 0 then 0 else fNX)
  else if 2 ^ (b - 1) ≤ c then (2 ^ (b - 1) - 1, fNV + fSAT) else (c, if r = 0 then 0 else fNX)

/-- A value rounded to a format: the pattern and the flags it sets (R284 to R287). -/
def roundTo (f : Fmt) (m : Rm) (sat : SatMode) (w : Nat) (x : Num) : Nat × Nat :=
  match fpLayout f with
  | some l =>
    match x with
    | .fin neg num den => fpRound f l m sat w neg num den
    | .inf neg =>
      if f = .e5m2 ∧ sat = .clampAll then (fpPat l neg l.maxPat, fNV + fSAT)
      else if hasInf f then (fpPat l neg (l.maxPat + 1), 0)
      else if f = .e4m3 then (if sat ≠ .off then (fpPat l neg 0x7E, fNV + fSAT) else (0x7F, fNV))
      else (fpPat l neg l.maxPat, fNV + fSAT)
    | .nan sig =>
      if hasInf f ∨ f = .e4m3 then (canonNan f, if sig then fNV else 0) else (0, fNV)
  | none =>
    match f with
    | .dpow8 =>
      match x with
      | .fin neg num den => dpowRound m w neg num den
      | .inf neg => (dpowEncode (if neg then -128 else 128), fNV + fSAT)
      | .nan _ => (0x77, fNV)
    | _ =>
      match x with
      | .fin neg num den => intRound f.width m w neg num den
      | .inf neg => (if neg then 2 ^ (f.width - 1) else 2 ^ (f.width - 1) - 1, fNV + fSAT)
      | .nan _ => (0, fNV)

/-! Exact arithmetic on values. -/

/-- A finite value as a signed numerator above its denominator. -/
def sgn (neg : Bool) (n : Nat) : Int := if neg then -(n : Int) else n

/-- The value of a signed numerator above a denominator; `z` is the sign of a zero. -/
def numOfFrac (z : Bool) (n : Int) (d : Nat) : Num :=
  .fin (if n = 0 then z else decide (n < 0)) n.natAbs d

def Num.isNan : Num → Bool
  | .nan _ => true
  | _ => false

def Num.isSig : Num → Bool
  | .nan b => b
  | _ => false

def Num.neg : Num → Bool
  | .fin n _ _ => n
  | .inf n => n
  | .nan _ => false

def Num.isZero : Num → Bool
  | .fin _ n _ => n == 0
  | _ => false

def Num.negate : Num → Num
  | .fin s n d => .fin (!s) n d
  | .inf s => .inf (!s)
  | x => x

/-- A value times 2^k. -/
def Num.scale (x : Num) (k : Int) : Num :=
  match x with
  | .fin s n d => .fin s (n * twoNum k) (d * twoDen k)
  | y => y

/-- The sign of an exact zero sum of operands that are not both zero of one sign: − under RDN (IEEE 754). -/
def zeroSign (m : Rm) (s t : Bool) : Bool := if s = t then s else m == .rdn

/-- Exact sum with the flags of an invalid operation. -/
def addNum (m : Rm) (x y : Num) : Num × Nat :=
  let sig := if x.isSig || y.isSig then fNV else 0
  match x, y with
  | .nan _, _ | _, .nan _ => (.nan false, sig)
  | .inf s, .inf t => if s = t then (.inf s, 0) else (.nan false, fNV)
  | .inf s, _ => (.inf s, 0)
  | _, .inf t => (.inf t, 0)
  | .fin s a b, .fin t c d => (numOfFrac (zeroSign m s t) (sgn s a * d + sgn t c * b) (b * d), 0)

/-- Exact product with the flags of an invalid operation. -/
def mulNum (x y : Num) : Num × Nat :=
  let sig := if x.isSig || y.isSig then fNV else 0
  match x, y with
  | .nan _, _ | _, .nan _ => (.nan false, sig)
  | .inf s, y => if y.isZero then (.nan false, fNV) else (.inf (s != y.neg), 0)
  | x, .inf t => if x.isZero then (.nan false, fNV) else (.inf (x.neg != t), 0)
  | .fin s a b, .fin t c d => (.fin (s != t) (a * c) (b * d), 0)

/-- Exact quotient (R313). -/
def divNum (x y : Num) : Num × Nat :=
  let sig := if x.isSig || y.isSig then fNV else 0
  match x, y with
  | .nan _, _ | _, .nan _ => (.nan false, sig)
  | .inf _, .inf _ => (.nan false, fNV)
  | .inf s, .fin t _ _ => (.inf (s != t), 0)
  | .fin s _ _, .inf t => (.fin (s != t) 0 1, 0)
  | .fin s a b, .fin t c d =>
    if c = 0 then (if a = 0 then (.nan false, fNV) else (.inf (s != t), fDZ))
    else (.fin (s != t) (a * d) (b * c), 0)

/-- x < y for values that are not NaN; −0 and +0 are equal. -/
def ltNum (x y : Num) : Bool :=
  match x, y with
  | .inf s, .inf t => s && !t
  | .inf s, .fin .. => s
  | .fin .., .inf t => !t
  | .fin s a b, .fin t c d => decide (sgn s a * d < sgn t c * b)
  | _, _ => false

/-- x = y for values that are not NaN. -/
def eqNum (x y : Num) : Bool := !x.isNan && !y.isNan && !ltNum x y && !ltNum y x

/-! Fondant (R288, R289). -/

/-- The four words of the cipher's state. -/
structure Fon where
  s0 : BitVec 32
  s1 : BitVec 32
  s2 : BitVec 32
  s3 : BitVec 32
deriving DecidableEq, Repr

/-- One round of R288. -/
def fonRound (s : Fon) : Fon :=
  let a := s.s0 + s.s1
  let d := (s.s3 ^^^ a).rotateLeft 16
  let c := s.s2 + d
  let b := (s.s1 ^^^ c).rotateLeft 12
  { s0 := a, s1 := b, s2 := c, s3 := d }

def fonRounds : Nat → Fon → Fon
  | 0, s => s
  | n + 1, s => fonRounds n (fonRound s)

/-- What draws Fondant words: the key, the tensor identifier and the step (R289). -/
structure FonKey where
  lo : Word
  hi : Word
  tensor : Word
  step : Word
deriving DecidableEq, Repr

/-- The 128-bit output for group `g`. -/
def fondant (k : FonKey) (g : Nat) : Nat :=
  let key (i : Nat) : BitVec 32 := BitVec.ofNat 32 (if i < 2 then k.lo.toNat / 2 ^ (32 * i) else k.hi.toNat / 2 ^ (32 * (i - 2)))
  let s : Fon :=
    { s0 := BitVec.ofNat 32 g ^^^ key 0, s1 := BitVec.ofNat 32 (g / 2 ^ 32) ^^^ key 1,
      s2 := BitVec.ofNat 32 k.step.toNat ^^^ key 2,
      s3 := BitVec.ofNat 32 k.tensor.toNat ^^^ key 3 ^^^ 0x9E3779B9 }
  let r := fonRounds 10 s
  (r.s0 + key 0).toNat + (r.s1 + key 1).toNat * 2 ^ 32 + (r.s2 + key 2).toNat * 2 ^ 64 +
    (r.s3 + key 3).toNat * 2 ^ 96

/-- The word w(c) of R289. -/
def fonWord (k : FonKey) (c : Nat) : Nat :=
  let c := c % 2 ^ 64
  fondant k (c / 8) / 2 ^ (16 * (c % 8)) % 2 ^ 16

end Sys2Proof.Machine
end

