-- ==== Sys2Proof/Machine/Views.lean ====
section
/-! DEFINITION. View pages (R164 to R166): the elements of a view's source and the bytes that a view delivers. -/

namespace Sys2Proof.Machine

/-- The element of a view's source: its stored bits and the delta of its block, with its base exponent. -/
structure ViewElem where
  bits : Nat
  d : Nat
  b : Int

/-- Bit string `b` wide at element `k` of an element area. -/
def packedElem (s : State) (area b k : Nat) : Nat :=
  s.load (area + b * k / 8) 2 / 2 ^ (b * k % 8) % 2 ^ b

/-- Source element (r, c) of a view (R165, R280). -/
def viewElem (s : State) (d : ViewDesc) (r c : Nat) : ViewElem :=
  let tr := r / d.trows
  let tc := c / d.tcols
  let t := tr * d.ntc + tc
  let base := d.src + t * d.tpitch
  let k := r % d.trows * d.tcols + c % d.tcols
  let w := codeWidth d.fmt
  let area := mxElemBytes d.trows d.tcols d.fmt
  { bits := packedElem s base w k,
    d := s.load (base + area + k / 64) 1 / 2 ^ (4 * (k / 32 % 2)) % 16,
    b := sxInt (s.load (d.btab + 2 * t) 2) 16 }

/-- The format with a code of R271. -/
def fmtOfCode (n : Nat) : Fmt := fmts.getD n .e4m3

/-- An MX element times 2^(B − d) as bfloat16 with RNE; a block with d = 15 gives +0 (R165, R278). -/
def dequant16 (f : Fmt) (bits d : Nat) (b : Int) : Nat :=
  if d = 15 then 0 else (roundTo .bf16 .rne .off 0 ((numOf f bits).scale (b - d))).1

/-- The halfword number `k` of a view page (R165): view 1 the transpose, 2 the dequantise view. -/
def viewHalf (s : State) (view p k : Nat) : Nat :=
  let d := viewDesc s p
  let m := d.ntr * d.trows
  let n := d.ntc * d.tcols
  if view = 1 then
    let e := viewElem s d (k % m) (k / m)
    d.fmt * 2 ^ 12 + e.d * 2 ^ 8 + e.bits
  else
    let e := viewElem s d (k / n) (k % n)
    dequant16 (fmtOfCode d.fmt) e.bits e.d e.b

/-- Bytes of a view page from an offset. -/
def viewBytesAt (s : State) (view p off n : Nat) : List Byte :=
  (natsFrom off n).map fun o => BitVec.ofNat 8 (viewHalf s view p (o / 2) / 2 ^ (8 * (o % 2)))

/-- Whether the descriptor's line, or a source line of the elements that a view range covers, ends in an abort
completion. -/
def viewAborts (s : State) (view p off n : Nat) : Bool :=
  let d := viewDesc s p
  let m := d.ntr * d.trows
  let c := d.ntc * d.tcols
  lineAborts s p || (natsFrom (off / 2) ((off + n - 1) / 2 - off / 2 + 1)).any fun k =>
    let r := if view = 1 then k % m else k / c
    let q := if view = 1 then k / m else k % c
    let t := r / d.trows * d.ntc + q / d.tcols
    let i := r % d.trows * d.tcols + q % d.tcols
    let base := d.src + t * d.tpitch
    readAborts s (base + codeWidth d.fmt * i / 8) 2 || lineAborts s (d.btab + 2 * t) ||
      lineAborts s (base + mxElemBytes d.trows d.tcols d.fmt + i / 64)

/-- The source lines of the 32 x 32 sub-tile that holds element (r, c) of a view's source (R166, R197). -/
def subTileLines (d : ViewDesc) (r c : Nat) : List Nat :=
  let t := r / d.trows * d.ntc + c / d.tcols
  let base := d.src + t * d.tpitch
  let w := codeWidth d.fmt
  let area := mxElemBytes d.trows d.tcols d.fmt
  let r0 := r % d.trows / 32 * 32
  let c0 := c % d.tcols / 32 * 32
  (natsFrom r0 (min 32 (d.trows - r0))).flatMap (fun q =>
    let k := q * d.tcols + c0
    [lineOf (base + w * k / 8), lineOf (base + (w * (k + 32) - 1) / 8), lineOf (base + area + k / 64)]) ++
      [lineOf (d.btab + 2 * t)]

/-- The elements of a view's source, as (row, column), behind `n` bytes from an offset of a view page. -/
def viewElems (d : ViewDesc) (view off n : Nat) : List (Nat × Nat) :=
  let rows := d.ntr * d.trows
  let cols := d.ntc * d.tcols
  (natsFrom (off / 2) ((off + n - 1) / 2 - off / 2 + 1)).map fun k =>
    if view = 1 then (k % rows, k / rows) else (k / cols, k % cols)

/-- The source lines of a range of a view page. -/
def viewLinesAt (s : State) (view p off n : Nat) : List Nat :=
  (viewElems (viewDesc s p) view off n).flatMap fun e => subTileLines (viewDesc s p) e.1 e.2

/-- The wafer-store tiles that a range of a view page covers: its 32 x 32 sub-tiles, by number, with their source lines
(R166). -/
def viewTilesAt (s : State) (view p off n : Nat) : List WaferTag :=
  let d := viewDesc s p
  ((viewElems d view off n).map fun e =>
    .tile p view ((e.1 / d.trows * d.ntc + e.2 / d.tcols) * 16 + e.1 % d.trows / 32 * 4 + e.2 % d.tcols / 32)
      (subTileLines d e.1 e.2)).eraseDups

end Sys2Proof.Machine
end

