-- ==== Sys2Proof/Machine/Issue.lean ====
section
/-! DEFINITION. Messages and outgoing entries: the header (R237), bounces (R243), the entries an activation issues at
commit or, when it is irrevocable, at retirement (R106, R195, R204, R205). -/

namespace Sys2Proof

/-! The header (R237). -/

def Packet.dest (p : Packet) : BitVec 32 := BitVec.ofNat 32 p.d0.toNat
def Packet.chan (p : Packet) : Nat := natBits p.d0.toNat 37 32
def Packet.xform (p : Packet) : Nat := natBits p.d0.toNat 43 38
def Packet.cls (p : Packet) : Nat := natBits p.d0.toNat 45 44
def Packet.len (p : Packet) : Nat := natBits p.d0.toNat 51 46
def Packet.wantsReply (p : Packet) : Bool := p.d0.toNat.testBit 52
def Packet.bounced (p : Packet) : Bool := p.d0.toNat.testBit 53
def Packet.trigger (p : Packet) : Bool := p.d0.toNat.testBit 54
def Packet.rmo (p : Packet) : Bool := p.d0.toNat.testBit 55
def Packet.resume (p : Packet) : Bool := p.d0.toNat.testBit 56
def Packet.first (p : Packet) : Bool := p.d0.toNat.testBit 57
def Packet.moved (p : Packet) : Bool := p.d0.toNat.testBit 58
def Packet.zd (p : Packet) : Bool := p.d0.toNat.testBit 59
def Packet.reason (p : Packet) : Nat := natBits p.d0.toNat 63 60
def Packet.osid (p : Packet) : BitVec 40 := BitVec.ofNat 40 p.d2.toNat
def Packet.sidx (p : Packet) : Nat := natBits p.d2.toNat 55 40
def Packet.retry (p : Packet) : Nat := natBits p.d2.toNat 63 56

end Sys2Proof

namespace Sys2Proof.Machine

/-- Whether an identifier names an engine, or the dispatcher, and not a core (R13). -/
def engineAgent? (a : BitVec 32) : Bool :=
  if agentCluster a < 80 then decide (16 ≤ agentUnit a ∧ agentUnit a ≤ 18) else agentUnit a == 0 || agentUnit a == 3

end Sys2Proof.Machine

namespace Sys2Proof

open Machine in
/-- The virtual network of a message: its class, or 3, the reply network, for bounced messages, for far-atomic replies
and NACKs, and for completions that an engine or the dispatcher sends to an engine (R238). -/
def Packet.vnet (p : Packet) : Nat :=
  if p.bounced || (p.rmo && (p.chan == 2 || p.chan == 3)) || (!p.rmo && engineAgent? p.src && engineAgent? p.dest) then 3
  else p.cls

end Sys2Proof

namespace Sys2Proof.Machine

/-- The key of a message (R106, R237). -/
def msgKey (p : Packet) : Key := { ts := p.d1, sid := p.osid, idx := BitVec.ofNat 16 p.sidx }

/-- D0 from its fields: destination, channel, class, payload length and flag bits [63:52]. -/
def mkD0 (dest : BitVec 32) (chan cls len flags : Nat) : Word :=
  BitVec.ofNat 64 (dest.toNat + chan % 64 * 2 ^ 32 + cls % 4 * 2 ^ 44 + len % 64 * 2 ^ 46 + flags * 2 ^ 52)

/-- D2 from its fields. -/
def mkD2 (osid : BitVec 40) (sidx retry : Nat) : Word :=
  BitVec.ofNat 64 (osid.toNat + sidx % 2 ^ 16 * 2 ^ 40 + retry % 256 * 2 ^ 56)

/-- A message enters the fabric. -/
def post (s : State) (i : NetItem) : State := { s with net := s.net ++ [i] }

def sendMsg (s : State) (p : Packet) : State := post s (.msg p)

/-- A message returned to its sender with a reason (R243). -/
def bouncePacket (p : Packet) (reason : Nat) : Packet :=
  { p with d0 := BitVec.ofNat 64 (p.d0.toNat % 2 ^ 60 + reason * 2 ^ 60) ||| BitVec.ofNat 64 (2 ^ 53), at_ := none }

/-- A message bounces (R243): it travels back; the receiving cluster counts it (R406). -/
def bounce (s : State) (p : Packet) (reason : Nat) : State := sendMsg s (bouncePacket p reason)

/-- A reply message of an engine or a launch with one key, class and payload. -/
def replyMsg (s : State) (src dest : BitVec 32) (chan cls : Nat) (k : Key) (payload : List Word) : State :=
  sendMsg s { src := src, d0 := mkD0 dest chan cls payload.length 0, d1 := k.ts, d2 := mkD2 k.sid k.idx.toNat 0,
              d3 := 0, payload := payload }

/-- Whether a core's return buffer has no room, so that its NI issues no new message (R244). -/
def retFull (s : State) (core : Nat) : Bool := decide (32 ≤ (s.core core).retbuf.length)

/-- The number of an agent's NI: a core's own, then the units 16 to 18 of the clusters, then the dies. -/
def niOf (a : BitVec 32) : Nat :=
  if agentCluster a < 80 then
    if agentUnit a < 16 then 1280 * agentDie a + 16 * agentCluster a + agentUnit a
    else 5120 + 4 * agentModCluster a + (agentUnit a - 16)
  else 6400 + agentDie a

/-- Whether the NI of an agent issues no new message (R244). -/
def niFull (s : State) (a : BitVec 32) : Bool := retFull s (niOf a)

/-- Whether an outgoing entry is a message that its core's NI issues (R244). -/
def OutWhat.sends : OutWhat → Bool
  | .send .. => true
  | .engine .. => true
  | .job .. => true
  | .launch .. => true
  | _ => false

/-! Strand identifiers (R105). -/

/-- The SID with a counter value in a domain. -/
def sidOf (d : Domain) (n : Nat) : BitVec 40 := BitVec.ofNat 40 (d.sidBase.toNat * 2 ^ 28 + n)

/-- Whether a domain's counter has `n` values left. -/
def sidsLeft (s : State) (dom : BitVec 32) (n : Nat) : Bool := decide ((s.dom dom.toNat).counter + n < 2 ^ 28)

/-- The domain's next counter value is taken. -/
def takeSid (s : State) (dom : BitVec 32) : State × BitVec 40 :=
  let d := s.dom dom.toNat
  (s.setDom dom.toNat { d with counter := d.counter + 1 }, sidOf d (d.counter + 1))

/-- A fresh strand has no SID until its first activation obtains the token (R105): its SID reads 0. Root and spawned
strands have theirs from the start. -/
def needsSid (sl : Slot) : Bool := sl.fresh && sl.trig.kind == .channel && sl.sid == 0

/-! Reading command blocks ahead of their engines. -/

/-- The physical address behind a virtual one by a walk alone, filling nothing. -/
def peekPa (s : State) (root : Word) (va : Nat) : Option Nat :=
  match walkRoot s root va with
  | .leaf pte _ size _ => some ((entryOf root va pte size).pa (va % 2 ^ 57))
  | _ => none

/-- The bytes behind a range of virtual addresses, 0 where nothing is mapped. -/
def peekBytes (s : State) (root : Word) (va n : Nat) : List Byte :=
  (natsFrom va n).map fun a => match peekPa s root a with
    | some pa => s.byte pa
    | none => 0

/-- The size in bytes of a command's block for an engine's unit. -/
def blockSize (s : State) (root : Word) (unit va : Nat) : Nat :=
  if unit = 17 ∨ unit = 18 then jcLen (peekBytes s root va 64) else 64

/-- NRANK of a group at the collective engine of a die (R351). -/
def groupNrank (s : State) (die g : Nat) : Nat := natBits (s.devGet (dieDev die 0 (0x100 + 64 * g))).toNat 23 0

/-- A block as its command has it: patched for a matrix instruction (R348). -/
def capturedBlock (cap : List Nat) (b : List Byte) : List Byte :=
  if cap.length < 9 then b
  else if cap.getD 4 0 = 0x7B then mzeroBlock (cap.getD 5 0) (cap.getD 8 0)
  else mcPatch b (cap.getD 5 0) (cap.getD 6 0) (cap.getD 7 0) (cap.getD 8 0)

/-! Issuing an outgoing entry (R204, R205). -/

/-- The agent that serves an engine queue of a core (R255). -/
def engineAgent (s : State) (core q : Nat) : BitVec 32 :=
  match q with
  | 0 => clusterAgent s (clusterOf core) 17
  | 1 => clusterAgent s (clusterOf core) 16
  | 2 => clusterAgent s (clusterOf core) 18
  | _ => dieAgent s (dieOf core) 0

/-- The unit that decides how a block is read, from the engine's agent identifier: 0 for a collective engine. -/
def engineUnit (a : BitVec 32) : Nat := if agentCluster a = 127 then 0 else agentUnit a

/-- The physical lines behind the lines of some regions, by a walk alone. -/
def footLines (s : State) (root : Word) (gs : List Region) : List Nat :=
  gs.flatMap fun g => g.lines.filterMap fun l => (peekPa s root (64 * l)).map lineOf

/-- Publishing a job command counts as a write of its write footprints within its domain (R206): activations of the
domain that have read one of the lines, by virtual address or through a view, are conflict-aborted. -/
def publishJob (s : State) (dom : BitVec 32) (root : Word) (wr : List Region) (self : SlotRef) : State :=
  let pl := footLines s root wr
  let rs := (s.slots.filter fun p =>
    p.2.abortable && p.2.domain == dom && slotRefOf p.1 != self &&
      (p.2.readva.any (fun l => wr.any fun g => g.hasLine l) || p.2.readset.any fun l => pl.contains l)).map
        fun p => slotRefOf p.1
  rs.foldl (fun u q => if (u.slot q).abortable then conflictAbort u q (!(u.dom dom.toNat).ordered) else u) s

/-- A new engine command with its footprints as the block stands now; the engine reads the block when the command
reaches its inbox (R206, R259). -/
def newJob (s : State) (agent : BitVec 32) (cmd : Word) (iss : Issuer) (cap : List Nat) : Job :=
  let u := engineUnit agent
  let va := cmd.toNat / 64 * 64
  let b := capturedBlock cap (peekBytes s iss.xroot va (blockSize s iss.xroot u va))
  { id := s.jobNext, agent := agent, cmd := cmd, iss := iss, st := .issued, card := [], rd := blockReads u b,
    wr := blockWrites u (groupNrank s (agentDie agent) (cdGid b % 64)) b, status := 0, cause := 0, record := [],
    parent := none, captured := cap }

/-- An engine command is issued (R255, R260): it joins the incomplete jobs and travels to its engine. -/
def issueJob (s : State) (r : SlotRef) (agent : BitVec 32) (cmd : Word) (iss : Issuer) (cap : List Nat) : State :=
  let j := newJob s agent cmd iss cap
  let s1 := { s with jobs := s.jobs ++ [j], jobNext := s.jobNext + 1 }
  publishJob (post s1 (.cmd iss.agent j.id)) iss.domain iss.xroot j.wr r

/-- Who issues, for an entry with send index `idx` of a slot. -/
def issuerOf (s : State) (r : SlotRef) (idx queue qseq : Nat) : Issuer :=
  let sl := s.slot r
  { part := sl.part, xroot := sl.xroot, super := sl.super, domain := sl.domain, ts := sl.ts, sid := sl.sid, idx := idx,
    strand := sl.strand, queue := queue, qseq := qseq, agent := coreAgent s r.core, launch := (s.dom sl.domain.toNat).lid }

/-- The command message of a job sent to an agent that runs none (R260): what comes back with NOAGENT. -/
def strayCommand (agent : BitVec 32) (card : Word) (iss : Issuer) : Packet :=
  { src := iss.agent, d0 := mkD0 agent 0 1 1 0, d1 := iss.ts, d2 := mkD2 iss.sid iss.idx 0, d3 := 0,
    payload := [card] }

/-- A spawned strand (R125): its frame and record, and READY in the home cluster; in a cancelled launch it does not start
(R121). -/
def createSpawn (s : State) (r : SlotRef) (idx : Nat) (pc g1 g2 ts : Word) (prio : BitVec 3) (pool : Nat) : State :=
  let sl := s.slot r
  let cl := clusterOf r.core
  let (s1, sid) := takeSid s sl.domain
  let a := poolRecord s1 cl pool
  let w := poolFrame s1 cl pool
  let t : Trigger := { Trigger.none with
    kind := .root, key := { ts := ts, sid := sl.sid, idx := BitVec.ofNat 16 idx }, accBy := r.core, acc := s.seqNext,
    accAt := s.now }
  let st : Strand := { Strand.reset with
    st := .ready, pc := pc, wsp := w, ts := ts, sid := sid, domain := sl.domain, prio := prio,
    chk := (s.strand sl.strand).chk, home := cl, pool := pool, trig := some t, super := false }
  let s2 := (createFrame { s1 with seqNext := s1.seqNext + 1 } w a pc ts sid sl.budBase 0 g1 g2).setStrand a st
  if domCancelled s sl.domain then strandDone s2 a else joinReady (writeRecord s2 a) a

/-- The cores whose handler tables a `bind` or `unbind` changes (R252). -/
def bindCores (core : Nat) (cl : Bool) : List Nat := if cl then coresOf (clusterOf core) else [core]

/-- Bind or unbind a channel in the tables of some cores, for arrivals from the next cycle on (R242). -/
def setBinding (s : State) (cores : List Nat) (ch : Nat) (b : Option Binding) : State :=
  cores.foldl (fun u c =>
    let x := (u.core c).keepTables u.now
    u.setCore c { x with handlers := match b with | some v => rmSet x.handlers ch v | none => smDel x.handlers ch }) s

/-- The 80 clusters of a die. -/
def clustersOfDie (die : Nat) : List Nat := natsFrom (80 * die) 80

/-- A `launch` is delivered: the record is copied now (R126), through its view where its page is one. -/
def deliverLaunch (s : State) (r : SlotRef) (idx pa : Nat) (reply : Word) (view ptr : Nat) : State :=
  let sl := s.slot r
  let bytes := if view = 0 then s.load pa 64 else leOf (viewBytesAt s view ptr (pa - ptr) 64)
  let bad := if view = 0 then readAborts s pa 64 else viewAborts s view ptr (pa - ptr) 64
  post s (.delivery
    { part := sl.part.toNat, record := BitVec.ofNat 512 bytes, readable := !bad, reply := reply,
      parent := (s.dom sl.domain.toNat).lid, key := { ts := sl.ts + 1, sid := sl.sid, idx := BitVec.ofNat 16 idx },
      src := coreAgent s r.core })

/-- The strand's command number on a queue after one more command, and its token (R255, R256). -/
def addToken (s : State) (a q qseq : Nat) : State :=
  let st := s.strand a
  s.setStrand a { st with
    qseqs := smSet 0 st.qseqs q (smGet 0 st.qseqs q + 1),
    toks := st.toks ++ [{ queue := q, qseq := qseq, done := none }] }

/-- One outgoing entry of a slot's activation is issued (R204 step 5, R205). -/
def issueEntry (s : State) (r : SlotRef) (e : OutEntry) : State :=
  let sl := s.slot r
  match e.what with
  | .send d0 d1 d3 payload =>
    sendMsg s { src := coreAgent s r.core, d0 := d0, d1 := d1, d2 := mkD2 sl.sid e.idx 0, d3 := d3, payload := payload }
  | .spawn pc g1 g2 ts prio pool => createSpawn s r e.idx pc g1 g2 ts prio pool
  | .launch pa reply view ptr => deliverLaunch s r e.idx pa reply view ptr
  | .engine q word qseq cap =>
    issueJob (addToken s sl.strand q qseq) r (engineAgent s r.core q) word (issuerOf s r e.idx q qseq) cap
  | .job card agent cap =>
    let iss := issuerOf s r e.idx 4 0
    if agentModule agent = s.modNo ∧ agentCluster agent < 80 ∧ agentUnit agent = 17 then
      issueJob s r agent card iss cap
    else bounce s (strayCommand agent card iss) 4
  | .bind ch cl b => setBinding s (bindCores r.core cl) ch (some b)
  | .unbind ch cl => setBinding s (bindCores r.core cl) ch none
  | .keep n lo hi die =>
    (clustersOfDie die).foldl (fun u c => (u.devSet (clDev c 0 (0x10 + 16 * n)) lo).devSet (clDev c 0 (0x18 + 16 * n)) hi) s
  | .unkeep n die =>
    (clustersOfDie die).foldl (fun u c =>
      let a := clDev c 0 (0x10 + 16 * n)
      u.devSet a (u.devGet a &&& 0x7FFFFFFFFFFFFFFF)) s
  | .amot => s

/-- The slot takes an outgoing index for an entry: buffered until commit, or issued at once when it is irrevocable
(R106, R205). -/
def addOut (s : State) (what : OutWhat) : State :=
  let sl := s.me
  let e : OutEntry := { idx := sl.nextIdx, what := what }
  if sl.irrev then issueEntry (s.setMe { sl with nextIdx := sl.nextIdx + 1 }) s.cur e
  else s.setMe { sl with outg := sl.outg ++ [e], nextIdx := sl.nextIdx + 1 }

/-- Whether one more outgoing entry must first turn the activation irrevocable (R102). -/
def outFull (sl : Slot) : Bool := !sl.irrev && decide (64 ≤ sl.nextIdx)

/-- Whether an outstanding `muldiv` has still to get its operand, so that its check is to come: direct effects of
younger instructions wait for it (R62). -/
def Outst.unchecked (o : Outst) : Bool := match o.what with | .pop (.muldiv ..) _ _ _ => true | _ => false

def mulPending (sl : Slot) : Bool := sl.outst.any Outst.unchecked

/-- Why an outgoing entry waits at issue: it must first turn the activation irrevocable (R102), or it is direct and an
older check is to come (R62). -/
def outWait (sl : Slot) : Option StallWhy :=
  if outFull sl then some .commitToken else if sl.irrev && mulPending sl then some .outbOrder else none

/-- Whether `n` more store entries must first turn the activation irrevocable (R102). -/
def bufFull (sl : Slot) (n : Nat) : Bool := !sl.irrev && decide (512 < sl.buf.length + sl.reserved + n)

/-- What a command captures when it is sent (R329). -/
def captures (sl : Slot) : List Nat := [sl.seedLo.toNat, sl.seedHi.toNat, sl.tensor.toNat, sl.stepR.toNat]

/-- Commands of a slot's strand on a queue that are outstanding: committed and not popped by a committed pop, and
pushed in this activation, those whose word is still to come among them (R255). -/
def outstanding (s : State) (sl : Slot) (q : Nat) : Nat :=
  ((s.strand sl.strand).toks.filter fun t => t.queue == q).length +
    (sl.outg.filter fun e => match e.what with | .engine k _ _ _ => k == q | _ => false).length +
    (sl.outst.filter fun o => o.ticket.isSome && o.dest == 52 + q).length

/-- The number that the next command of a slot on a queue takes (R256). -/
def nextQseq (s : State) (sl : Slot) (q : Nat) : Nat :=
  (smGet 0 (s.strand sl.strand).qseqs q +
    (sl.outg.filter fun e => match e.what with | .engine k _ _ _ => k == q | _ => false).length +
    (sl.outst.filter fun o => o.ticket.isSome && o.dest == 52 + q).length + 1) % 2 ^ 16

end Sys2Proof.Machine
end

