-- ==== Sys2Proof/Machine/Flags.lean ====
section
/-! DEFINITION. The flags and checks of results: residues and parities of the integer units (R57 to R63), FFLAGS and
the rounding mode in force (R282, R283, R293, R307). An undisturbed unit produces the right result, and a right
result passes its check (Laws/Checks); so a check is made here of a disturbed one. -/

namespace Sys2Proof.Machine

/-! Residues (R58, R59). -/

/-- res(v) of R58. -/
def res (v : Nat) : Nat := v % 15

/-- A predicted residue from signed terms. -/
def resOfInt (i : Int) : Nat := (i % 15).toNat

/-- The prediction for an addition mod 2^w (R59). -/
def predAdd (w a b : Nat) : Nat :=
  resOfInt ((res a : Int) + res b - (((a + b) / 2 ^ w % 2 * (2 ^ w % 15) : Nat) : Int))

/-- The prediction for a subtraction mod 2^w (R59). -/
def predSub (w a b : Nat) : Nat := resOfInt ((res a : Int) - res b + ((if a < b then 2 ^ w % 15 else 0 : Nat) : Int))

/-- The prediction for the shifted index of an address (R59). -/
def predShift (x s : Nat) : Nat := resOfInt (((res x * 2 ^ s : Nat) : Int) - ((res (x * 2 ^ s / 2 ^ 64) : Nat) : Int))

/-- The prediction for base - (index << s) + displacement. -/
def predAguDec (base index s disp : Nat) : Nat :=
  let sh := index * 2 ^ s % 2 ^ 64
  let x := (2 ^ 64 + base - sh) % 2 ^ 64
  resOfInt ((res base : Int) - predShift index s + (if base < sh then 1 else 0) + res disp -
    (((x + disp) / 2 ^ 64 : Nat) : Int))

/-- The prediction for base + (index << s) + second addend + displacement. -/
def predAdd3 (base index s d disp : Nat) : Nat :=
  let sh := index * 2 ^ s % 2 ^ 64
  let x := (base + sh) % 2 ^ 64
  let y := (x + d) % 2 ^ 64
  resOfInt (((res base + predShift index s + res d + res disp : Nat) : Int) -
    (((base + sh) / 2 ^ 64 + (x + d) / 2 ^ 64 + (y + disp) / 2 ^ 64 : Nat) : Int))

/-- The prediction for base + (index << s) + displacement (R59): the carries of the two additions are taken off. -/
def predAgu (base index s disp : Nat) : Nat :=
  let sh := index * 2 ^ s % 2 ^ 64
  let c1 := (base + sh) / 2 ^ 64
  let c2 := ((base + sh) % 2 ^ 64 + disp) / 2 ^ 64
  resOfInt (((res base + predShift index s + res disp : Nat) : Int) - ((c1 + c2 : Nat) : Int))

/-- Byte 0x0B of a RESIDUE record (R62). -/
def resByte (observed predicted : Nat) : Nat := observed % 16 * 16 + predicted % 16

/-! Parity (R60). -/

/-- The number of set bits of a natural number below 2^64. -/
def popcount (v : Nat) : Nat := ((natsFrom 0 64).filter fun i => v.testBit i).length

/-- The bytes of two 64-bit patterns whose parities differ, as a mask. -/
def parityMask (a b : Nat) : Nat :=
  (natsFrom 0 8).foldl (fun m i =>
    if popcount (a / 2 ^ (8 * i) % 256) % 2 = popcount (b / 2 ^ (8 * i) % 256) % 2 then m else m + 2 ^ i) 0

/-- The bytes in which two counts differ, as a mask. -/
def bytesDiffer (a b : Nat) : Nat :=
  (natsFrom 0 8).foldl (fun m i => if a / 2 ^ (8 * i) % 256 = b / 2 ^ (8 * i) % 256 then m else m + 2 ^ i) 0

/-! What checks a result (R57). -/

/-- One stage of a datapath (R310): what it rightly produces, its width, the residues observed and predicted for what it
does produce, and the result that follows from that. -/
structure Stage where
  right : Nat
  width : Nat
  check : Nat → Nat × Nat
  fin : Nat → Nat

/-- How a result is checked: against a predicted residue; by byte parity against the right result; by counting
twice; the product and division relations of R59, whose observed and predicted residues come from the disturbed
half, quotient or remainder; or stage by stage. -/
inductive Check where
  | residue (pred : Nat)
  | parity
  | count
  | product (res : Nat → Nat × Nat)
  | stages (l : List Stage)

/-- The unit that makes a result: 1 int, 2 addr, 3 fpmant, 4 logic (R384). -/
structure UnitOf where
  unit : Nat
  check : Check

/-- Type and byte 0x0B of the record where a produced value fails its check; `right` is the unit's right result
(R59, R60, R62). -/
def checkFails (c : Check) (right produced : Nat) : Option (Nat × Nat) :=
  match c with
  | .residue p => if res produced = p then none else some (1, resByte (res produced) p)
  | .parity => if parityMask right produced = 0 then none else some (2, parityMask right produced)
  | .count => if right = produced then none else some (2, bytesDiffer right produced)
  | .product f => let (o, p) := f produced; if o = p then none else some (1, resByte o p)
  | .stages _ => none

/-- What a unit makes of its right result `v` of `w` bits under an error, or the record's type and byte 0x0B. In a unit
of several stages the error hits the one that `after` counts to, the last one at most. -/
def disturb (c : Check) (w v : Nat) (g : Glitch) : Except (Nat × Nat) Nat :=
  match c with
  | .stages l =>
    (match l[min g.after (l.length - 1)]? with
     | none => .ok v
     | some st =>
       let p := (st.right ^^^ g.flip.toNat) % 2 ^ st.width
       let (o, q) := st.check p
       if o = q then .ok (st.fin p) else .error (1, resByte o q))
  | c =>
    let p := (v ^^^ g.flip.toNat) % 2 ^ w
    match checkFails c v p with
    | none => .ok p
    | some b => .error b

/-- What a unit hands on: a value, or a record of the failed check. -/
inductive UnitOut where
  | ok (s : State) (v : Word)
  | bad (s : State) (type res : Nat)

/-- The first error armed for a unit of a core. -/
def glitchAt (s : State) (core unit lane : Nat) : Option Glitch :=
  s.glitches.find? fun g => g.core == core && g.unit == unit && g.lane == lane

/-- The armed errors without the first one for a unit. -/
def useGlitch (s : State) (g : Glitch) : State := { s with glitches := s.glitches.erase g }

/-- A unit of a core produces `v`: right where nothing disturbs it, and otherwise checked. -/
def runUnit (s : State) (core : Nat) (u : UnitOf) (v : Word) : UnitOut :=
  match glitchAt s core u.unit 63 with
  | none => .ok s v
  | some g =>
    let s1 := useGlitch s g
    match disturb u.check 64 v.toNat g with
    | .ok p => .ok s1 (BitVec.ofNat 64 p)
    | .error (t, b) => .bad s1 t b

/-- The function code in the record of an integer or address check: the W code alone for an atomic (R62, R225). -/
def checkFunc (i : Instr) : Nat :=
  match i with
  | .amo .. | .amof .. | .cas .. | .amot .. => funcOfInstr i / 16 % 4
  | _ => funcOfInstr i

/-- The record of an integer or address check (R62, R144). -/
def unitRecord (s : State) (r : SlotRef) (i : Instr) (unit type b : Nat) (pc : Word) : McInfo :=
  { type := type, sev := 1, unit := unit, agent := coreAgent s (ownerCore (s.slot r) r.core pc.toNat), lane := 63,
    major := majorOf i, func := checkFunc i, res := b, pc := pc, info := 0 }

/-- Run a unit for an instruction of the slot `cur` at a PC, in the core whose scalar pipeline executes it: the owner
of its line in a composition (R131, R135). Then go on with its value. -/
def withUnitAt (s : State) (i : Instr) (pc : Word) (u : UnitOf) (v : Word) (k : State → Word → Res) : Res :=
  match runUnit s (ownerCore s.me s.cur.core pc.toNat) u v with
  | .ok s1 w => k s1 w
  | .bad s1 t b => .error s1 (unitRecord s1 s1.cur i u.unit t b pc)

/-- Run a unit for the issuing instruction, then go on with its value. -/
def withUnit (s : State) (i : Instr) (u : UnitOf) (v : Word) (k : State → Word → Res) : Res :=
  withUnitAt s i s.me.pc u v k

/-- base + (index << s) + displacement in the AGU, under its check (R59, R63, R167). -/
def withAgu (s : State) (i : Instr) (base index : Word) (sh : Nat) (disp : Word) (k : State → Word → Res) : Res :=
  withUnit s i ⟨2, .residue (predAgu base.toNat index.toNat sh disp.toNat)⟩
    (base + (index <<< sh) + disp) k

/-! FFLAGS and rounding (R282, R283, R293, R307). -/

/-- EN of FFLAGS as a flag mask. -/
def Slot.flagEn (sl : Slot) : Nat := natBits sl.fflags.toNat 13 8

/-- RMODE.MODE and RMODE.SAT. -/
def Slot.rmMode (sl : Slot) : Nat := natBits sl.rmode.toNat 2 0
def Slot.rmSat (sl : Slot) : Bool := sl.rmode.toNat.testBit 3

/-- Whether a rounding field is DYN while RMODE.MODE is reserved (R282). -/
def dynBad (sl : Slot) (rm : BitVec 3) : Bool := rm.toNat == 7 && decide (6 ≤ sl.rmMode)

/-- Whether an instruction with a coordinate register is ILLEGAL for what RMODE makes of DYN: a reserved MODE, or SR with
a coordinate field that names no general register (R282, R293). -/
def coordBad (sl : Slot) (rm : BitVec 3) (r : Reg) : Bool :=
  dynBad sl rm || (rm.toNat == 7 && sl.rmMode == 5 && !gprOk r)

/-- The effective mode of a field that allows SR (R293). -/
def effMode (sl : Slot) (rm : BitVec 3) : Rm := rmOf (if rm.toNat = 7 then sl.rmMode else rm.toNat)

/-- The effective mode of a field that does not: DYN with SR rounds as RNE (R293, R307). -/
def effModeNoSr (sl : Slot) (rm : BitVec 3) : Rm :=
  match effMode sl rm with
  | .sr => .rne
  | m => m

/-- SAT in force: the field's, or RMODE's under DYN (R293). -/
def effSat (sl : Slot) (rm : BitVec 3) (sat : Bool) : Bool := if rm.toNat = 7 then sl.rmSat else sat

/-- The Fondant key that a slot's registers give (R289). -/
def Slot.fonKey (sl : Slot) : FonKey := { lo := sl.seedLo, hi := sl.seedHi, tensor := sl.tensor, step := sl.stepR }

end Sys2Proof.Machine
end

