-- ==== Sys2Proof/Machine/Bsi.lean ====
section
/-! DEFINITION. BSI96 containers (R276) and their exact addition (R226). -/

namespace Sys2Proof.Machine

/-- A container: I, E and the flags [5:0]. -/
structure Bsi where
  i : Int
  e : Int
  fl : Nat
deriving DecidableEq, Repr

/-- The fields of a container's 128 bits. -/
def bsiOf (v : Nat) : Bsi := { i := sxInt (natBits v 127 32) 96, e := sxInt (natBits v 31 16) 16, fl := v % 2 ^ 16 }

/-- The 128 bits of a container. -/
def Bsi.bits (b : Bsi) : Nat :=
  (b.i % (2 ^ 96 : Nat)).toNat * 2 ^ 32 + (b.e % (2 ^ 16 : Nat)).toNat * 2 ^ 16 + b.fl % 2 ^ 16

def bsiNan (fl : Nat) : Bool := fl.testBit 0
def bsiPos (fl : Nat) : Bool := fl.testBit 1
def bsiNeg (fl : Nat) : Bool := fl.testBit 2

/-- The limits of I. -/
def bsiMax : Int := (2 ^ 95 : Nat) - 1
def bsiMin : Int := -(2 ^ 95 : Nat)

/-- The exponent of the sum in `bsi_add`. -/
def bsiExp (m v : Bsi) : Int :=
  if m.i = 0 ∧ v.i ≠ 0 then v.e else if v.i = 0 ∧ m.i ≠ 0 then m.e else min m.e v.e

/-- Cut a sum to 96 bits, setting SAT where it is cut (R226). -/
def bsiClamp (s e : Int) (keep : Nat) : Bsi :=
  if bsiMax < s then { i := bsiMax, e := e, fl := keep ||| 8 }
  else if s < bsiMin then { i := bsiMin, e := e, fl := keep ||| 8 }
  else { i := s, e := e, fl := keep }

/-- `bsi_add` of R226 on containers. The sum is formed exactly at the smaller exponent: an operand with I = 0
contributes 0 whatever its exponent. -/
def bsiAdd (m v : Bsi) : Bsi :=
  let keep := (m.fl ||| v.fl) &&& 0x38
  let pos := bsiPos m.fl || bsiPos v.fl
  let neg := bsiNeg m.fl || bsiNeg v.fl
  if bsiNan m.fl || bsiNan v.fl || (pos && neg) then { i := 0, e := 0, fl := keep + 1 }
  else if pos then { i := 0, e := 0, fl := keep + 2 }
  else if neg then { i := 0, e := 0, fl := keep + 4 }
  else
    let e := bsiExp m v
    bsiClamp (m.i * twoNum (m.e - e) + v.i * twoNum (v.e - e)) e keep

/-- `bsi_add` on 128-bit patterns. -/
def bsiAddBits (m v : Nat) : Nat := (bsiAdd (bsiOf m) (bsiOf v)).bits

end Sys2Proof.Machine
end

