-- ==== Sys2Proof/Machine/Cache.lean ====
section
/-! DEFINITION. Caches as tags (R151 to R159): which lines the L1 caches, the home slices, the RDCs, the retention
ways and the wafer store hold. Values are coherent everywhere, so a tag changes what the event counters count
(R406) and where a lost line is found (R162), and never a value. -/

namespace Sys2Proof.Machine

/-- Where an eviction priority puts a line (R156). -/
inductive Place where
  | mru | sticky | lru | none
deriving DecidableEq, Repr

/-- The columns of R156. -/
def evpL1 (evp : Nat) : Place :=
  match evp with
  | 1 => .lru
  | 2 => .sticky
  | 3 | 5 => .none
  | _ => .mru

def evpCm (evp : Nat) : Place :=
  match evp with
  | 1 => .lru
  | 2 => .sticky
  | 4 | 5 => .none
  | _ => .mru

/-- A plain line, clean and shared. -/
def CLine.plain (line : Nat) : CLine :=
  { line := line, dirty := false, sticky := false, excl := false, thru := false, blk := false, frames := 1 }

/-- Whether an entry holds a line: a compressed block holds four (R159). -/
def CLine.holds (c : CLine) (line : Nat) : Bool := if c.blk then c.line == line / 4 * 4 else c.line == line

/-- Whether two entries stand for the same line or the same block. -/
def CLine.same (c d : CLine) : Bool := c.line == d.line && c.blk == d.blk

/-- Whether some entry of a list holds a line. -/
def holdsLine (ls : List CLine) (line : Nat) : Bool := ls.any fun c => c.holds line

/-- A list of lines without what holds a line. -/
def dropLine (ls : List CLine) (line : Nat) : List CLine := ls.filter fun c => !c.holds line

/-- A line put into a list ordered from most to least recently used. -/
def placeLine (p : Place) (c : CLine) (ls : List CLine) : List CLine :=
  match p with
  | .mru => c :: ls
  | .sticky => { c with sticky := true } :: ls
  | .lru => ls ++ [{ c with sticky := false }]
  | .none => ls

/-- The victim of a set: the least recently used line that is not sticky, else the least recently used (R156). -/
def victimOf (ls : List CLine) : Option CLine :=
  match ls.reverse.find? fun c => !c.sticky with
  | some c => some c
  | none => ls.getLast?

/-- The victims that make room for `need` line frames in a set of `ways` (R156, R159). -/
def victimsOf (pick : List CLine → Option CLine) (ways need : Nat) : Nat → List CLine → List CLine
  | 0, _ => []
  | k + 1, set =>
    if (set.map fun c => c.frames).sum + need ≤ ways then []
    else
      match pick set with
      | some v => v :: victimsOf pick ways need k (set.filter fun c => !c.same v)
      | none => []

/-- What a touch finds: whether the line was held, the lines after it, and the lines evicted. -/
structure Touch where
  hit : Bool
  lines : List CLine
  victims : List CLine

/-- A touch of a line in a cache of `ways` ways whose sets `setOf` numbers; `c` is what a miss allocates, and `clr`
whether a hit clears the sticky mark. -/
def touchLine (pick : List CLine → Option CLine) (ways : Nat) (setOf : Nat → Nat) (ls : List CLine) (c : CLine)
    (p : Place) (clr : Bool) : Touch :=
  match ls.find? c.same with
  | some o =>
    let c2 := { o with dirty := o.dirty || c.dirty, excl := o.excl || c.dirty || c.excl, thru := c.thru,
                       sticky := o.sticky && !clr }
    if p = .none then { hit := true, lines := updFirst c.same (fun _ => c2) ls, victims := [] }
    else { hit := true, lines := placeLine p c2 (ls.filter fun x => !c.same x), victims := [] }
  | none =>
    if p = .none then { hit := false, lines := ls, victims := [] }
    else
      let vs := victimsOf pick ways c.frames 16 (ls.filter fun x => setOf x.line == setOf c.line)
      { hit := false, lines := placeLine p c (ls.filter fun x => !vs.any x.same), victims := vs }

/-- The set of a line in an L1 data cache of 32 KiB and 8 ways, which the manual does not number (assumption log 158),
in a home slice (R152) and in an RDC (assumption log 15). -/
def l1Set (line : Nat) : Nat := line % 64
def cmSet (line : Nat) : Nat := line % 2 ^ 40 / 80 % 4096
def rdcSet (line : Nat) : Nat := line % 4096

/-- The fields of CMSPLIT (R155). -/
def homeWays (s : State) (cl : Nat) : Nat := natBits (s.devGet (clDev cl 0 0)).toNat 4 0
def rdcWays (s : State) (cl : Nat) : Nat := natBits (s.devGet (clDev cl 0 0)).toNat 12 8
def retWays (s : State) (cl : Nat) : Nat := natBits (s.devGet (clDev cl 0 0)).toNat 28 24

/-- Whether a line lies in some enabled retention range of a controller (R157). -/
def rangeLine (s : State) (cl pa : Nat) : Bool :=
  (natsFrom 0 8).any fun n =>
    let lo := (s.devGet (clDev cl 0 (0x10 + 16 * n))).toNat
    let hi := (s.devGet (clDev cl 0 (0x18 + 16 * n))).toNat
    lo.testBit 63 && decide (natBits lo 47 6 ≤ natBits pa 47 6 ∧ natBits pa 47 6 ≤ natBits hi 47 6)

/-- Hits and misses counted for a cluster (R406). -/
def countCm (s : State) (cl : Nat) (hit : Bool) : State := countCluster s cl (if hit then 32 else 33) 1

/-- What an access allocates in cluster memory: its line, or, on a compressible page, its block of four, in 1 to 4 line
frames as the block's encoding takes, which the manual does not give (R159). -/
def cmLine (s : State) (pa : Nat) (t : LineAttr) (dirty : Bool) : CLine :=
  if t.cmp then
    { CLine.plain (lineOf pa / 4 * 4) with dirty := dirty, blk := true, frames := Config.freeNat s.free % 4 + 1 }
  else { CLine.plain (lineOf pa) with dirty := dirty }

/-- The next free value, once a block has been encoded. -/
def encoded (s : State) (t : LineAttr) : State := if t.cmp then { s with free := s.free + 1 } else s

/-- The cluster whose slice is the home of an access: that of its line (R152), or of the first line of its compressed
block (assumption log 159). -/
def homeOf (pa : Nat) (t : LineAttr) : Nat := homeCluster (if t.cmp then pa / 256 * 256 else pa)

/-- The line that goes first from the retention ways of a set: one whose range is no longer enabled, the least recently
used, else the least recently used (R157). -/
def retVictim (s : State) (cl : Nat) (ls : List CLine) : Option CLine :=
  match ls.reverse.find? fun c => !rangeLine s cl (64 * c.line) with
  | some c => some c
  | none => ls.getLast?

/-- A touch of a line in retention ways, to which it moves with what it holds (R157): a range line that must go for
another is an overflow. -/
def touchRet (s : State) (cl : Nat) (c : CLine) : State :=
  let x := s.cluster cl
  let was := (x.cmLines.find? c.same).getD c
  let k := touchLine (retVictim s cl) (retWays s cl) cmSet x.retLines { was with dirty := was.dirty || c.dirty } .mru false
  let s1 := s.setCluster cl { x with retLines := k.lines, cmLines := x.cmLines.filter fun d => !c.same d }
  if k.victims.any fun v => rangeLine s cl (64 * v.line) then countCluster s1 cl 35 1 else s1

/-- A touch of a line in its home slice (R152, R156, R157), and whether the slice held it. -/
def touchHomeHit (s : State) (pa : Nat) (t : LineAttr) (dirty : Bool) : State × Bool :=
  let cl := homeOf pa t
  let c := cmLine s pa t dirty
  let x := s.cluster cl
  if x.retLines.any c.same then (touchRet (countCluster (countCm s cl true) cl 34 1) cl c, true)
  else if t.evp = 6 ∧ 0 < retWays s cl ∧ rangeLine s cl pa then
    (touchRet (countCm (encoded s t) cl (x.cmLines.any c.same)) cl c, x.cmLines.any c.same)
  else
    let k := touchLine victimOf (homeWays s cl) cmSet x.cmLines c (evpCm t.evp) (decide (t.evp ≤ 1))
    let s1 := countCm (encoded s t) cl k.hit
    (s1.setCluster cl { s1.cluster cl with cmLines := k.lines }, k.hit)

def touchHome (s : State) (pa : Nat) (t : LineAttr) (dirty : Bool) : State := (touchHomeHit s pa t dirty).1

/-- What leaves an RDC leaves the L1 caches of its cluster too: their copies of such lines are in the RDC (R153). -/
def dropFromL1s (s : State) (cl : Nat) (vs : List CLine) : State :=
  if vs.isEmpty then s
  else { s with cores := s.cores.map fun p => (p.1, if clusterOf p.1 = cl then
           { p.2 with l1d := p.2.l1d.filter fun c => !vs.any fun v => v.holds c.line } else p.2) }

/-- A touch of a line in the RDC ways of a cluster, and whether it was there (R153). A line that an L1 takes is put
into the RDC whatever EVP says, since every L1 copy of it must be there too (assumption log 160). -/
def touchRdcHit (s : State) (cl pa : Nat) (t : LineAttr) : State × Bool :=
  let x := s.cluster cl
  let p := if evpCm t.evp = .none ∧ evpL1 t.evp ≠ .none then .mru else evpCm t.evp
  let k := touchLine victimOf (rdcWays s cl) rdcSet x.rdcLines (cmLine s pa t false) p (decide (t.evp ≤ 1))
  let s1 := countCm (encoded s t) cl k.hit
  (dropFromL1s (s1.setCluster cl { s1.cluster cl with rdcLines := k.lines }) cl k.victims, k.hit)

/-- Whether a line of memory may be held in caches: device memory or host memory (R150). -/
def cacheable (pa : Nat) : Bool := kindOf pa == .device || kindOf pa == .host

/-- Whether a line is homed on the die of a core. -/
def homedOn (pa die : Nat) : Bool := kindOf pa == .device && paDie pa == die

/-- The cluster-memory level of an access by a core: the home slice of a line of its own die, else the RDC of its
cluster. -/
def touchCm (s : State) (core pa : Nat) (t : LineAttr) (dirty : Bool) : State × Bool :=
  if homedOn pa (dieOf core) then touchHomeHit s pa t dirty else touchRdcHit s (clusterOf core) pa t

/-- The tag of an expanded block (R159). -/
def blockTag (pa : Nat) : WaferTag := .block (pa / 256)

/-- The wafer store of a cluster is touched: the most recent 256 stay (R159). -/
def touchWafer (s : State) (cl : Nat) (w : WaferTag) : State :=
  let x := s.cluster cl
  let s1 := if x.waferLines.contains w then countCluster s cl 37 1 else s
  s1.setCluster cl { s1.cluster cl with waferLines := (w :: x.waferLines.filter (· != w)).take 256 }

/-- A line leaves an L1 of a die: dirty, it goes to its home slice, or past it to HBM (R152, R156). -/
def writeBackVictim (s : State) (c : CLine) : State :=
  if c.dirty && !c.thru && kindOf (64 * c.line) == .device then touchHome s (64 * c.line) ⟨0, false⟩ true else s

/-- Whether some core's L1 other than a core's own holds a line; whether some holds it in M. -/
def othersHold (s : State) (core line : Nat) : Bool :=
  s.cores.any fun p => p.1 != core && p.2.l1d.any fun c => c.line == line

def someM (s : State) (line : Nat) : Bool := s.cores.any fun p => p.2.l1d.any fun c => c.line == line && c.dirty

/-- A line that another agent reads is shared: one held in M goes to its home, and no copy stays exclusive (R152). -/
def shareLine (s : State) (pa : Nat) : State :=
  let l := lineOf pa
  let s1 := if someM s l then touchHome s pa ⟨0, false⟩ true else s
  let clean (c : CLine) : CLine := if c.line = l then { c with dirty := false, excl := false } else c
  if s1.cores.any fun p => p.2.l1d.any fun c => c.line == l && c.excl then
    { s1 with cores := s1.cores.map fun p => (p.1, { p.2 with l1d := p.2.l1d.map clean }) }
  else s1

/-- What an access wants of a line: to read it, to own it, or to write it (R152, R174). -/
inductive Want where
  | read | own | write
deriving DecidableEq, Repr

/-- A data access of a core to a line (R150 to R157): tags, recency and counts. Only a line homed on the core's die is
ever held in M or E; a write to one that no level allocates goes to HBM, and of one that only L1 does not, to the home
slice. -/
def touchData (s : State) (core pa : Nat) (t : LineAttr) (w : Want) : State :=
  if !cacheable pa then s
  else
    let home := homedOn pa (dieOf core)
    let held := (s.core core).l1d.any fun c => c.line == lineOf pa
    let s0 := if held || w != .read then s else shareLine s pa
    let c : CLine := { CLine.plain (lineOf pa) with
      dirty := home && w == .write, excl := home && (w != .read || !othersHold s0 core (lineOf pa)),
      thru := decide (4 ≤ t.evp ∧ t.evp ≤ 5) }
    let c := if held && w == .read then { c with excl := false } else c
    let k := touchLine victimOf 8 l1Set (s0.core core).l1d c (evpL1 t.evp) (decide (t.evp ≤ 1))
    let s1 := s0.setCore core { s0.core core with l1d := k.lines }
    if k.hit then s1
    else
      let q := touchCm (k.victims.foldl writeBackVictim (countCore s1 core 5 1)) core pa t
        (home && w == .write && evpL1 t.evp == .none)
      if t.cmp && q.2 then touchWafer q.1 (clusterOf core) (blockTag pa) else q.1

/-- What a wafer tag was built from no longer stands once a line is written (R159, R166). -/
def WaferTag.uses (w : WaferTag) (line : Nat) : Bool :=
  match w with
  | .block b => b == line / 4
  | .tile _ _ _ src => src.contains line

/-- Every L1, RDC and wafer store but the writer's L1 drops a line that is written, or what was built from it (R152,
R153, R154, R166). -/
def invalidateOthers (s : State) (core line : Nat) : State :=
  { s with
    cores := s.cores.map fun p => (p.1, { p.2 with
      l1d := if p.1 = core then p.2.l1d else p.2.l1d.filter fun c => c.line != line,
      l1i := p.2.l1i.filter fun c => c.line != line }),
    clusters := s.clusters.map fun p => (p.1, { p.2 with
      rdcLines := dropLine p.2.rdcLines line, waferLines := p.2.waferLines.filter fun w => !w.uses line }) }

/-- A committed write of a core to a line (R152, R153): in M in its L1 where the line is homed on its die; else it is
written through to the home, and no L1 or RDC, the writer's own included, keeps a copy. -/
def writeLine (s : State) (core pa : Nat) (t : LineAttr) : State :=
  if homedOn pa (dieOf core) then touchData (invalidateOthers s core (lineOf pa)) core pa t .write
  else
    let s1 := invalidateOthers s 5120 (lineOf pa)
    if kindOf pa == .device then touchHome s1 pa t true else s1

/-- An instruction fetch of a line: an L1 instruction cache that keeps the 512 lines fetched last (assumption log 14). -/
def touchFetch (s : State) (core pa : Nat) (t : LineAttr) : State :=
  let x := s.core core
  let k := touchLine victimOf 512 (fun _ => 0) x.l1i (CLine.plain (lineOf pa)) .mru false
  let s1 := s.setCore core { x with l1i := k.lines }
  if k.hit then s1
  else
    let s2 := countCore s1 core 6 1
    if cacheable pa then (touchCm (shareLine s2 pa) core pa t false).1 else s2

/-- Whether a core holds a line in M. -/
def holdsM (s : State) (core line : Nat) : Bool := (s.core core).l1d.any fun c => c.line == line && c.dirty

/-- A line leaves the caller's L1 and its cluster's RDC, and with the RDC's copy the cluster's L1 caches; `home`
whether it leaves its home slice too (R175). -/
def flushLine (s : State) (core pa : Nat) (home : Bool) : State :=
  let l := lineOf pa
  let x := s.core core
  let s1 := s.setCore core { x with l1d := x.l1d.filter fun c => c.line != l }
  let cl := clusterOf core
  let y := s1.cluster cl
  let s2 := dropFromL1s (s1.setCluster cl { y with rdcLines := dropLine y.rdcLines l }) cl
    (y.rdcLines.filter fun c => c.holds l)
  if home && kindOf pa == .device then
    [homeCluster pa, homeOf pa ⟨0, true⟩].foldl (fun u h =>
      let z := u.cluster h
      u.setCluster h { z with cmLines := dropLine z.cmLines l, retLines := dropLine z.retLines l }) s2
  else s2

/-- Every copy of a line becomes clean (R175). -/
def cleanLine (s : State) (pa : Nat) : State :=
  let cl (c : CLine) : CLine := if c.holds (lineOf pa) then { c with dirty := false } else c
  { s with
    cores := s.cores.map fun p => (p.1, { p.2 with l1d := p.2.l1d.map cl }),
    clusters := s.clusters.map fun p => (p.1, { p.2 with cmLines := p.2.cmLines.map cl, retLines := p.2.retLines.map cl }) }

/-- A line becomes least recently used and not sticky in the caller's L1 and its home slice (R175). -/
def demoteLine (s : State) (core pa : Nat) : State :=
  let l := lineOf pa
  let dem (ls : List CLine) : List CLine :=
    dropLine ls l ++ (ls.filter fun c => c.holds l).map fun c => { c with sticky := false }
  let x := s.core core
  let s1 := s.setCore core { x with l1d := dem x.l1d }
  if kindOf pa == .device then
    [homeCluster pa, homeOf pa ⟨0, true⟩].foldl (fun u h =>
      let z := u.cluster h
      u.setCluster h { z with cmLines := dem z.cmLines }) s1
  else s1

end Sys2Proof.Machine
end

