-- ==== Sys2Proof/Machine/Publish.lean ====
section
/-! DEFINITION. Performing what an activation publishes (R195, R200 to R206): stores, cache-line operations and
atomics, where an atomic executes (R217 to R219), the requests of far atomics (R222, R246) and the trigger of `amot`
(R230). -/

namespace Sys2Proof.Machine

/-! Atomic operations (R225, R226). -/

/-- The width of an atomic in bytes. -/
def amoBytes : AmoW → Nat
  | .w => 4
  | .d => 8
  | .q => 16

/-- The operation table of R225 on `b`-bit patterns. -/
def amoNew (op : AmoOp) (b m v : Nat) : Nat :=
  let m := m % 2 ^ b
  let v := v % 2 ^ b
  match op with
  | .add => (m + v) % 2 ^ b
  | .and => m &&& v
  | .or => m ||| v
  | .xor => m ^^^ v
  | .min => if sxInt v b < sxInt m b then v else m
  | .max => if sxInt m b < sxInt v b then v else m
  | .minu => min m v
  | .maxu => max m v
  | .swap => v
  | .bsiadd => bsiAddBits m v

/-- Function codes of the atomics (R225). -/
def amoOpCode (op : AmoOp) : Nat := amoOps.idxOf op
def amoWCode (w : AmoW) : Nat := amoWs.idxOf w

/-- F[5:0] of R225. -/
def amoOpw (a : AtomReq) : Nat := amoWCode a.w * 16 + if a.cas.isSome then 0 else amoOpCode a.op

/-- Fields of a trigger descriptor (R230). -/
def trgCmp (d : BitVec 256) : Nat := natBits d.toNat 63 0
def trgAgent (d : BitVec 256) : BitVec 32 := BitVec.ofNat 32 (natBits d.toNat 95 64)
def trgChan (d : BitVec 256) : Nat := natBits d.toNat 103 96
def trgCtl (d : BitVec 256) : Nat := natBits d.toNat 111 104
def trgDelta (d : BitVec 256) : Nat := natBits d.toNat 127 112
def trgPayload (d : BitVec 256) : Word := BitVec.ofNat 64 (natBits d.toNat 191 128)
def trgRecaddr (d : BitVec 256) : Word := BitVec.ofNat 64 (natBits d.toNat 255 192)

/-- What the memory of an atomic's target becomes, from what it holds. -/
def atomNew (a : AtomReq) (m : Nat) : Nat :=
  match a.cas with
  | some n => if m = a.v.toNat % 2 ^ (8 * amoBytes a.w) then n.toNat % 2 ^ (8 * amoBytes a.w) else m
  | none => amoNew a.op (8 * amoBytes a.w) m a.v.toNat

/-- Whether an atomic writes: a `cas` whose comparison fails does not (R227). -/
def atomWrites (a : AtomReq) (m : Nat) : Bool := a.cas.isNone || m == a.v.toNat % 2 ^ (8 * amoBytes a.w)

/-- Whether an `amot` fires on a new value. -/
def atomFires (a : AtomReq) (n : Nat) : Bool :=
  match a.trig with
  | some d => n % 2 ^ (8 * amoBytes a.w) == trgCmp d % 2 ^ (8 * amoBytes a.w)
  | none => false

/-- The unit that sends the trigger of an `amot`: the atomic unit of the target's home (R230, R231). -/
def homeUnit (s : State) (pa : Nat) : BitVec 32 :=
  match kindOf pa with
  | .device => clusterAgent s (homeCluster pa) 18
  | .coreStore => agentId s.modNo (paDie pa) (natBits pa 26 20) 18
  | _ => agentId s.modNo (paDie pa) (natBits pa 28 22) 18

/-- Whether an `amot` must wait since the NI of the unit that sends its trigger issues no message (R244). -/
def trigWaits (s : State) (pa : Nat) (trig : Bool) : Bool := trig && niFull s (homeUnit s pa)

/-- The trigger message of R230 for an activation with TS `ts` and SID `sid`. -/
def triggerMsg (s : State) (a : AtomReq) (d : BitVec 256) (ts : Word) (sid : BitVec 40) : Packet :=
  let res := (trgCtl d).testBit 2
  { src := homeUnit s a.pa,
    d0 := mkD0 (trgAgent d) (trgChan d) (trgCtl d % 4) 2 (4 + res.toNat * 16),
    d1 := ts + BitVec.ofNat 64 (trgDelta d), d2 := mkD2 sid a.idx.toNat 0,
    d3 := if res then trgRecaddr d else 0, payload := [trgPayload d, BitVec.ofNat 64 a.pa] }

/-! Writes that are published. -/

/-- The slots that are one with a slot: its team's, or itself. -/
def selfSlots (s : State) (r : SlotRef) : List SlotRef :=
  match (s.slot r).team with
  | some t => (s.getTeam t).slots
  | none => [r]

/-- The member core whose load-store queue takes an access at a virtual address (R133). -/
def queueCore (s : State) (r : SlotRef) (va : Nat) : Nat := ownerCore (s.slot r) r.core va

/-- A write by a slot is published: memory, the caches, and the conflict aborts of R200, R202 and R203. -/
def publishWrite (s : State) (r : SlotRef) (va pa n v : Nat) (t : LineAttr) : State :=
  let k := queueCore s r va
  let s1 := if cacheable pa then writeLine (s.storeAt pa n v) k pa t else s.storeAt pa n v
  publishLines s1 [lineOf pa] (selfSlots s1 r) (some (s1.slot r).domain)

/-- A cache-line operation is performed (R175); `zero` is its stores. On a view page `demote` acts on the tags at the
physical address that the page's own PA gives (assumption log 164). -/
def performCop (s : State) (r : SlotRef) (f pa va : Nat) : State :=
  if !cacheable pa then s
  else
    match f with
    | 0 => flushLine (cleanLine s pa) (queueCore s r va) pa true
    | 1 => cleanLine s pa
    | 2 => flushLine (cleanLine s pa) (queueCore s r va) pa false
    | 4 => demoteLine s (queueCore s r va) pa
    | _ => s

/-- Whether the bytes of some pieces cover a whole line. -/
def coversLine (ps : List (Nat × Nat)) (l : Nat) : Bool :=
  (natsFrom (64 * l) 64).all fun b => ps.any fun p => decide (p.1 ≤ b ∧ b < p.1 + p.2)

/-- A store covering a whole lost line ends its blocking (R162). -/
def healLost (s : State) (ps : List (Nat × Nat)) : State :=
  ps.foldl (fun u p =>
    if lostLine u p.1 && coversLine ps (lineOf p.1) then
      (natsFrom 0 16).foldl (fun v i =>
        let a := clDev (homeCluster p.1) 0 (0x100 + 8 * i)
        let w := v.devGet a
        if w.toNat.testBit 63 && natBits w.toNat 47 6 == natBits p.1 47 6 then v.devSet a (w &&& 0x7FFFFFFFFFFFFFFF)
        else v) u
    else u) s

/-! Engine jobs and accesses (R206). -/

/-- Whether an incomplete job of a domain has a write footprint on a line of virtual addresses. -/
def jobWritesLine (s : State) (dom : BitVec 32) (l : Nat) : Bool :=
  s.jobs.any fun j => j.iss.domain == dom && j.wr.any fun g => g.hasLine l

/-- Whether an incomplete job of a domain has any footprint on a line. -/
def jobTouchesLine (s : State) (dom : BitVec 32) (l : Nat) : Bool :=
  s.jobs.any fun j => j.iss.domain == dom && (j.wr ++ j.rd).any fun g => g.hasLine l

/-! Where an atomic executes (R217, R218). -/

/-- The predictor's index and tag of a line. -/
def predIdx (pa : Nat) : Nat := natBits pa 13 6 ^^^ natBits pa 21 14
def predTag (pa : Nat) : Nat := natBits pa 29 22

/-- The predictor's counter for a line: 0 where the tag differs. -/
def predGet (x : CoreSt) (pa : Nat) : Nat :=
  let e := smGet (0, 0) x.predictor (predIdx pa)
  if e.1 = predTag pa then e.2 else 0

/-- A lookup replaces an entry of another tag (R218). -/
def predLook (s : State) (core pa : Nat) : State :=
  let x := s.core core
  if homedOn pa (dieOf core) then
    s.setCore core { x with predictor := smSet (0, 0) x.predictor (predIdx pa) (predTag pa, predGet x pa) }
  else s

/-- The predictor with a line's counter moved up or down, saturating; the entry is replaced where its tag differs. -/
def predBump (x : CoreSt) (pa : Nat) (up down : Bool) : CoreSt :=
  let c := predGet x pa
  let c2 := if up then min 3 (c + 1) else if down then c - 1 else c
  { x with predictor := smSet (0, 0) x.predictor (predIdx pa) (predTag pa, c2) }

/-- Whether an atomic of a core goes to its home (R217, R218). -/
def goesFar (s : State) (core pa : Nat) : Bool :=
  kindOf pa == .device &&
    (paDie pa != dieOf core || (!holdsM s core (lineOf pa) && decide (2 ≤ predGet (s.core core) pa)))

/-- The line of a local atomic in the requester's L1 in M, with the predictor's update (R218). -/
def ownLine (s : State) (core pa : Nat) (t : LineAttr) : State :=
  if kindOf pa == .device then
    let had := holdsM s core (lineOf pa)
    let s1 := s.setCore core (predBump (s.core core) pa (!had && othersHold s core (lineOf pa)) had)
    writeLine s1 core pa t
  else s

/-- Another source's atomic on a line within the last 256 cycles, and the note of this one (R218). -/
def contendedBit (s : State) (pa : Nat) (src : BitVec 32) : Bool :=
  (s.cluster (homeCluster pa)).recentAtomics.any fun e =>
    e.1 == lineOf pa && e.2.1 != src.toNat && decide (s.now < e.2.2 + 256)

def noteAtomic (s : State) (pa : Nat) (src : BitVec 32) : State :=
  let x := s.cluster (homeCluster pa)
  s.setCluster (homeCluster pa) { x with
    recentAtomics := (lineOf pa, src.toNat, s.now) :: x.recentAtomics.filter fun e =>
      decide (s.now < e.2.2 + 256) && !(e.1 == lineOf pa && e.2.1 == src.toNat) }

/-- The indivisible step of R227 at a performing point: the state after it and the old value. `ts` and `sid` are the
activation's, for the trigger; `self` its slots. -/
def atomStep (s : State) (a : AtomReq) (ts : Word) (sid : BitVec 40) (self : List SlotRef) (dom : Option (BitVec 32)) :
    State × Nat :=
  let b := amoBytes a.w
  let m := s.load a.pa b
  let n := atomNew a m
  let s1 := if atomWrites a m then publishLines (s.storeAt a.pa b n) [lineOf a.pa] self dom else s
  let s2 := match a.trig with
    | some d => if atomFires a n then sendMsg s1 (triggerMsg s1 a d ts sid) else s1
    | none => s1
  (s2, m)

/-- An atomic of a slot performed in its core or at a port next to it. -/
def atomLocal (s : State) (r : SlotRef) (a : AtomReq) : State × Nat :=
  let sl := s.slot r
  let s1 := ownLine (softFix s a.pa (amoBytes a.w)) (queueCore s r a.va) a.pa a.attr
  atomStep s1 a sl.ts sl.sid (selfSlots s1 r) (some sl.domain)

/-! Far atomics (R222, R246). -/

/-- The unit of the home slice of a line. -/
def homeSlice (s : State) (cl : Nat) : BitVec 32 := clusterAgent s cl 18

/-- The payload of a far-atomic request (R246). -/
def farPayload (a : AtomReq) (tidx ord : Nat) (fetch : Bool) : List Word :=
  let p1 := tidx % 16 * 2 ^ 48 + ord % 2 ^ 16 * 2 ^ 32 + a.idx.toNat * 2 ^ 16 + a.trig.isSome.toNat * 2 ^ 8 +
    fetch.toNat * 2 ^ 7 + a.cas.isSome.toNat * 2 ^ 6 + amoOpw a
  let w (v k : Nat) : Word := BitVec.ofNat 64 (v / 2 ^ (64 * k))
  [BitVec.ofNat 64 a.pa, BitVec.ofNat 64 p1, w a.v.toNat 0, w a.v.toNat 1] ++
    (match a.cas with
     | some n => [w n.toNat 0, w n.toNat 1]
     | none => []) ++
    (match a.trig with
     | some d => [w d.toNat 0, w d.toNat 1, w d.toNat 2, w d.toNat 3]
     | none => [])

/-- The request packet of R246; FIRST is set on the first request of a pair. -/
def farPacket (s : State) (core home seq : Nat) (a : AtomReq) (ts : Word) (sid : BitVec 40) (tidx ord : Nat)
    (fetch first : Bool) : Packet :=
  let pl := farPayload a tidx ord fetch
  { src := coreAgent s core, d0 := mkD0 (homeSlice s home) 1 1 pl.length (2 ^ 3 + first.toNat * 2 ^ 5), d1 := ts,
    d2 := mkD2 sid seq 0, d3 := 0, payload := pl }

/-- Whether a core may issue the request `seq` to a home: it holds the reply for `seq` - 32, and so for all before it
that are no longer in its window (R222). -/
def farRoom (x : CoreSt) (home seq : Nat) : Bool :=
  !x.far.any fun q => q.home == home && decide (32 ≤ (seq + 2 ^ 16 - q.seq) % 2 ^ 16)

/-- The next sequence number of a pair, and whether the pair is new. -/
def farSeq (x : CoreSt) (home : Nat) : Nat := smGet 0 x.farNext home

/-- A far atomic is sent and held until its reply (R222), where the window of its pair has room and the NI issues
(R244). -/
def sendFar (s : State) (r : SlotRef) (a : AtomReq) (fetch : Bool) : Option (State × Nat × Nat) :=
  let k := queueCore s r a.va
  let x := s.core k
  let home := homeCluster a.pa
  let seq := farSeq x home
  if !farRoom x home seq || retFull s k then none
  else
    let sl := s.slot r
    let first := !smHas x.farNext home
    let p := farPacket s k home seq a sl.ts sl.sid sl.tidx sl.ordN fetch first
    let q : FarReq := { home := home, seq := seq, pkt := p, sentAt := s.now, retry := 0, slot := r, live := true,
                        fetch := fetch, req := a }
    let s1 := s.setCore k { x with far := x.far ++ [q], farNext := rmSet x.farNext home ((seq + 1) % 2 ^ 16) }
    some (sendMsg (s1.setSlot r { sl with ordN := sl.ordN + 1 }) p, home, seq)

/-- Whether a slot waits for the reply of a posted far atomic. -/
def farWaits (s : State) (r : SlotRef) : Bool :=
  s.cores.any fun p => p.2.far.any fun q => q.slot == r && q.live && !q.fetch

/-! Failures of posted atomics (R229, R388). -/

/-- The record of a posted atomic that its home could not perform. -/
def postedRecord (s : State) (r : SlotRef) (a : AtomReq) : McInfo :=
  { type := 4, sev := 2, unit := 6, agent := coreAgent s (queueCore s r a.va), lane := 63,
    major := if a.trig.isSome then 0x4B else 0x48, func := amoOpw a, res := 0, pc := (s.slot r).lastPc, info := 0 }

/-- Whether what a slot's activation publishes is its commit: every slot of it has ended. -/
def committing (s : State) (r : SlotRef) : Bool := (selfSlots s r).all fun q => (s.slot q).term.isSome

/-- A posted atomic that ends in an abort completion is not performed (R229). Where the activation has ended, its launch
is cancelled with FAULT and the notice carries SEV 2; else the error is the running activation's own. -/
def postedFault (s : State) (r : SlotRef) (a : AtomReq) : State :=
  let sl := s.slot r
  let s1 := s.fwTell (paDie a.pa) 2 (.atomicAbort a.pa)
  if !committing s r then errorAbort s1 r { postedRecord s r a with sev := 1 }
  else sendContainment (faultLaunch s1 sl.domain) (dieOf r.core) (postedRecord s r a) sl false sl.trig.redeliveries

/-! The buffer (R204 step 3). -/

/-- What starting a posted atomic gives: it is done; it waits for its line or its reply; or its abort completion has
ended the activation, which has not ended itself. -/
inductive AtomStart where
  | done (s : State)
  | waits (s : State)
  | fault (s : State)

/-- A posted atomic at the head of what is published (R217, R218). -/
def startPosted (s0 : State) (r : SlotRef) (a : AtomReq) : AtomStart :=
  let k := queueCore s0 r a.va
  let s := predLook s0 k a.pa
  if goesFar s k a.pa then
    match sendFar s r a false with
    | some (s1, _, _) => .waits s1
    | none => .waits s
  else if lineAborts s a.pa then
    if committing s r then .done (postedFault s r a) else .fault (postedFault s r a)
  else if (kindOf a.pa == .device && !holdsM s k (lineOf a.pa)) || trigWaits s a.pa a.trig.isSome then .waits s
  else .done (atomLocal s r a).1

/-- The buffer is sent to the homes in order, up to an atomic that is not performed at once; what is left, or nothing
where an error has ended the activation. -/
def pubLoop (r : SlotRef) : List BufEntry → State → State × Option (List BufEntry)
  | [], s => (s, some [])
  | .await h k :: rest, s => (s, some (.await h k :: rest))
  | .store pa va n v t :: rest, s => pubLoop r rest (publishWrite s r va pa n v t)
  | .cop f pa va :: rest, s => pubLoop r rest (performCop s r f pa va)
  | .amo a :: rest, s =>
    match startPosted s r a with
    | .done s1 => pubLoop r rest s1
    | .waits s1 => (s1, some (.amo a :: rest))
    | .fault s1 => (s1, none)

/-- The lines that a buffer writes. -/
def bufLines (b : List BufEntry) : List Nat :=
  b.filterMap fun e => match e with
    | .store pa .. => some (lineOf pa)
    | .amo a => some (lineOf a.pa)
    | .cop .. | .await .. => none

/-- The stored pieces of a buffer. -/
def bufPieces (b : List BufEntry) : List (Nat × Nat) :=
  b.filterMap fun e => match e with
    | .store pa _ n .. => some (pa, n)
    | _ => none

/-- Whether a job footprint would be disturbed by an entry of a buffer (R204 step 2). -/
def bufDisturbs (s : State) (dom : BitVec 32) (b : List BufEntry) : Bool :=
  b.any fun e => match e with
    | .store _ va .. => jobTouchesLine s dom (lineOf va)
    | .amo a => jobTouchesLine s dom (lineOf a.va)
    | .cop .. | .await .. => false

/-- A slot's buffer is published as far as it goes. -/
def pubBuffer (s : State) (r : SlotRef) : State :=
  let b := (s.slot r).buf
  match pubLoop r b (publishLines s (bufLines b) (selfSlots s r) (some (s.slot r).domain)) with
  | (s1, none) => s1
  | (s1, some left) =>
    let s2 := healLost s1 (bufPieces b)
    s2.setSlot r { s2.slot r with buf := left }

/-- The head atomic of a slot's buffer has been performed; the rest goes on (R204 step 3). -/
def pubNext (s : State) (r : SlotRef) : State :=
  let sl := s.slot r
  pubBuffer (s.setSlot r { sl with buf := sl.buf.drop 1 }) r

/-- Whether a line is part of a publication that is under way, so that a revocable load of another activation
waits for it (R195). -/
def publishing (s : State) (line : Nat) : Bool :=
  s.slots.any fun p => p.2.phase == 1 && (bufLines p.2.buf).contains line

end Sys2Proof.Machine
end

