-- ==== Sys2Proof/Machine/Engine.lean ====
section
/-! DEFINITION. What the engines share (R186, R206, R255 to R259): the order of jobs, the translation of footprints,
reading and writing memory, and completion. -/

namespace Sys2Proof.Machine

/-! The jobs of the module. -/

def jobById (s : State) (id : Nat) : Option Job := s.jobs.find? fun j => j.id == id

/-- Change one job. -/
def updJob (s : State) (id : Nat) (f : Job → Job) : State := { s with jobs := updFirst (fun j => j.id == id) f s.jobs }

/-- The place of a job in the order of issue: an embedded command has that of its job. -/
def issueNo (j : Job) : Nat := j.parent.getD j.id

/-- Whether a job must wait for another (R206): an earlier one of its domain, one of the two writing where they
overlap. A job waits for no command embedded in it, nor the command for its own job. -/
def precedes (k j : Job) : Bool :=
  decide (issueNo k < issueNo j) && k.iss.domain == j.iss.domain && (anyMeets k.wr (j.rd ++ j.wr) || anyMeets k.rd j.wr)

/-- Whether every footprint predecessor of a job has completed. -/
def jobFree (s : State) (j : Job) : Bool := !s.jobs.any fun k => precedes k j

/-- A job has ended and waits to be reported. -/
def endJob (s : State) (id status cause : Nat) (record : List Word) : State :=
  updJob s id fun j => { j with st := .finished, status := status, cause := cause, record := record }

/-! Translation (R186, R259 step 3). -/

/-- How an engine translates for a job: its die's TLB, in the issuer's address space and mode. -/
def engCtx (j : Job) : TrCtx :=
  { core := none, die := agentDie j.agent, fetch := false, root := j.iss.xroot, super := j.iss.super }

/-- A range of virtual addresses cut at 4 KiB boundaries; `fuel` bounds the number of pieces. -/
def pageChunks : Nat → Nat → Nat → List (Nat × Nat)
  | 0, _, _ => []
  | fuel + 1, va, n =>
    if n = 0 then []
    else
      let k := min n (4096 - va % 4096)
      (va, k) :: pageChunks fuel (va + k) (n - k)

/-- The pieces of a region. -/
def regionChunks (g : Region) : List (Nat × Nat) := g.rowList.flatMap fun a => pageChunks (g.rowBytes / 4096 + 2) a g.rowBytes

/-- A piece with the physical address behind it, its page's view and pointer, and how caches treat its lines. -/
structure Piece where
  va : Nat
  pa : Nat
  n : Nat
  view : Nat
  ptr : Nat
  attr : LineAttr

/-- What translating a list of pieces gives: the pieces, a status with its cause, or a page that is moving. -/
inductive PiecesRes where
  | ok (ps : List Piece)
  | fail (status cause : Nat)
  | moving

/-- Translate pieces in order, the first failure standing; firmware hears of a table read that could not be corrected
(R162). -/
def pieces (c : TrCtx) (acc : Access) : List (Nat × Nat) → State → State × PiecesRes
  | [], s => (s, .ok [])
  | (va, n) :: rest, s =>
    match translate s c acc va n with
    | (s1, .fault code cause) => (s1, .fail (if code = 3 then 1 else 2) cause)
    | (s1, .moving) => (s1, .moving)
    | (s1, .abort a) => (s1.fwTell (paDie a) 2 (.memoryAbort (lineOf a)), .fail 3 0)
    | (s1, .ok e pa) =>
      match pieces c acc rest s1 with
      | (s2, .ok ps) =>
        (s2, .ok ({ va := va, pa := pa, n := n, view := pteView e.pte.toNat, ptr := ptePa e.pte.toNat,
                    attr := lineAttr e.pte.toNat 0 } :: ps))
      | r => r

/-- The pieces of several regions with one kind of access. -/
def regionPieces (s : State) (j : Job) (acc : Access) (gs : List Region) : State × PiecesRes :=
  pieces (engCtx j) acc (gs.flatMap regionChunks) s

/-- Whether a physical range touches the frame of a running strand (R36, R434). -/
def inLiveFrame (s : State) (pa n : Nat) : Bool :=
  s.slots.any fun p => p.2.act != .none && p.2.helperOf == none && decide (pa < p.2.wsp + 5120 ∧ p.2.wsp < pa + n)

/-- Whether a job may start on its footprints: the pieces read and written, a status, or nothing yet. -/
inductive StartRes where
  | go (rd wr : List Piece)
  | fail (status cause : Nat)
  | wait

/-- Device registers are no memory to the copy engine and the atomic unit (R399). -/
def noDevice (p : Piece) : Option Nat := if p.view = 0 ∧ kindOf p.pa = .io then some 21 else none

/-- Translate the footprints of a job; `bad` gives the cause of a piece that the engine does not take. The frame of a
running strand goes before it, so that a frame in core store or scratch ends a matrix command with STATUS 6 (R335,
assumption log 171). -/
def startPieces (s : State) (j : Job) (rd wr : List Region) (bad : Piece → Option Nat) : State × StartRes :=
  match regionPieces s j .load rd with
  | (s1, .fail a b) => (s1, .fail a b)
  | (s1, .moving) => (s1, .wait)
  | (s1, .ok rp) =>
    match regionPieces s1 j .store wr with
    | (s2, .fail a b) => (s2, .fail a b)
    | (s2, .moving) => (s2, .wait)
    | (s2, .ok wp) =>
      if (rp ++ wp).any fun p => inLiveFrame s2 p.pa p.n then (s2, .fail 6 0)
      else
        match (rp ++ wp).findSome? bad with
        | some c => (s2, .fail 2 c)
        | none => (s2, .go rp wp)

/-! Engine reads and writes. -/

/-- The bytes of a piece. -/
def pieceBytes (s : State) (p : Piece) : List Byte :=
  if p.view = 0 then s.bytes p.pa p.n else viewBytesAt s p.view p.ptr (p.pa - p.ptr) p.n

/-- Whether a piece's read ends in an abort completion. -/
def pieceAborts (s : State) (p : Piece) : Bool :=
  if p.view = 0 then (natsFrom (lineOf p.pa) (lineOf (p.pa + p.n - 1) - lineOf p.pa + 1)).any fun l => lineAborts s (64 * l)
  else viewAborts s p.view p.ptr (p.pa - p.ptr) p.n

/-- The bytes of pieces in order, or nothing where one ends in an abort completion. -/
def readPieces (s : State) (ps : List Piece) : Option (List Byte) :=
  if ps.any (pieceAborts s) then none else some (ps.flatMap (pieceBytes s))

/-- Single-bit errors of what a piece reads are corrected: its lines, or a view's descriptor and source lines (R161). -/
def softPiece (s : State) (p : Piece) : State :=
  if p.view = 0 then softFix s p.pa p.n
  else (viewLinesAt s p.view p.ptr (p.pa - p.ptr) p.n).foldl (fun u l => softFix u (64 * l) 64) (softFix s p.ptr 64)

def softPieces (s : State) (ps : List Piece) : State := if s.soft.isEmpty then s else ps.foldl softPiece s

/-- Lines lose their copies in every core's L1 and RDC when another agent writes them (R152, R153). -/
def dropCopies (s : State) (pa n : Nat) : State :=
  (natsFrom (lineOf pa) (lineOf (pa + n - 1) - lineOf pa + 1)).foldl (fun u l => invalidateOthers u 5120 l) s

/-- An engine writes bytes at a physical address. -/
def engStore (s : State) (pa : Nat) (bs : List Byte) : State :=
  if bs.isEmpty then s
  else healLost ((dropCopies s pa bs.length).storeBytes pa bs) [(pa, bs.length)]

/-- Bytes from a physical address on, cut into aligned 64-byte blocks; `fuel` bounds their number. -/
def cutBlocks : Nat → Nat → List Byte → List (Nat × List Byte)
  | 0, _, _ => []
  | k + 1, pa, bs =>
    if bs.isEmpty then [] else (pa, bs.take (64 - pa % 64)) :: cutBlocks k (pa + (64 - pa % 64)) (bs.drop (64 - pa % 64))

/-- What a list of bytes writes to pieces in order, block by block (R206). -/
def pieceWrites : List Piece → List Byte → List (Nat × List Byte)
  | [], _ => []
  | p :: r, bs => cutBlocks (p.n / 64 + 2) p.pa (bs.take p.n) ++ pieceWrites r (bs.drop p.n)

/-- Blocks written in order. -/
def writeBlocks (s : State) (ws : List (Nat × List Byte)) : State := ws.foldl (fun u w => engStore u w.1 w.2) s

/-- Write a list of bytes to pieces in order. -/
def writePieces (s : State) (ps : List Piece) (bs : List Byte) : State := writeBlocks s (pieceWrites ps bs)

/-- A job's next `n` blocks become visible; what is left waits (R206). -/
def showBlocks (s : State) (id n : Nat) (w : JobWork) : State :=
  updJob (writeBlocks s (w.writes.take n)) id fun j => { j with todo := some { w with writes := w.writes.drop n } }

/-- The firmware of a die hears of a read that could not be corrected (R162). -/
def tellAbort (s : State) (ps : List Piece) : State :=
  match ps.find? (pieceAborts s) with
  | some p => s.fwTell (paDie p.pa) 2 (.memoryAbort (lineOf p.pa))
  | none => s

/-! Completion (R256, R259). -/

/-- The completion word of R256. -/
def completionWord (j : Job) (status cause : Nat) : Word :=
  BitVec.ofNat 64 (natBits j.cmd.toNat 37 6 * 2 ^ 32 + cause % 256 * 2 ^ 24 + status % 256 * 2 ^ 16 + j.iss.qseq % 2 ^ 16)

/-- The completion word reaches the token store of the strand that issued the command (R255). -/
def giveToken (s : State) (j : Job) (w : Word) : State :=
  if 4 ≤ j.iss.queue then s
  else
    let st := s.strand j.iss.strand
    s.setStrand j.iss.strand { st with toks := updFirst (fun t => t.queue == j.iss.queue && t.qseq == j.iss.qseq)
                                        (fun t => { t with done := some w }) st.toks }

/-- The reply channel, class and agent of a command's block, where they lie in their ranges. -/
def replyOf (unit : Nat) (b : List Byte) : Option (Nat × Nat × Nat) :=
  let (c, k, a) := match unit with
    | 16 => (mcRchan b, mcRclass b, mcRagent b)
    | 0 => (cdRchan b, cdRclass b, cdRagent b)
    | _ => (jcRchan b, jcRclass b, jcRagent b)
  if decide (8 ≤ c ∧ c ≤ 63) && decide (k ≤ 2) then some (c, k, a) else none

/-- The reply message of a command (R259, R329). -/
def sendReply (s : State) (j : Job) (w : Word) : State :=
  match replyOf (engineUnit j.agent) j.card with
  | some (c, k, a) =>
    replyMsg s j.agent (BitVec.ofNat 32 a) c k
      { ts := j.iss.ts + 1, sid := j.iss.sid, idx := BitVec.ofNat 16 j.iss.idx } (w :: j.record)
  | none => s

/-- Whether a command is the job card of a launch of kind 2, issued by the dispatcher (R115). -/
def launchJob (j : Job) : Bool := agentCluster j.iss.agent == 127 && agentUnit j.iss.agent == 3

/-- A command that has ended is reported; the launch of a failed job card ends with FAULT (R114). It is no longer
incomplete. One embedded in a job card reports to its job alone, whose completion carries the first status other than
DONE (R328). -/
def reportJob (s : State) (j : Job) : State :=
  let s1 := { s with jobs := s.jobs.filter fun k => k.id != j.id }
  match j.parent with
  | some p =>
    let s2 := updJob s1 p fun k => if k.status = 0 then { k with status := j.status, cause := j.cause, record := j.record }
                                   else k
    sendReply (updJob s2 p fun k => { k with st := .joined }) j (completionWord j j.status j.cause)
  | none =>
    let w := completionWord j j.status j.cause
    let s2 := if launchJob j && j.status != 0 then markFaulted s1 j.iss.domain else s1
    sendReply (giveToken s2 j w) j w

/-- Whether the report of a command would be a message while its engine's NI issues none (R244). -/
def reportWaits (s : State) (j : Job) : Bool := (replyOf (engineUnit j.agent) j.card).isSome && niFull s j.agent

/-! Errors of an engine's adders (R256, R361, R346). -/

/-- An error armed for an engine: engines are numbered from 10000 by the low 14 bits of their agent identifier. -/
def engGlitch (s : State) (agent : BitVec 32) : Option Glitch :=
  s.glitches.find? fun g => g.core == 10000 + agent.toNat % 2 ^ 14

/-- The record of an engine's check; `b` is its byte 0x0B (R346, R361, R384). -/
def engineRecord (agent : BitVec 32) (unit lane major func b : Nat) (info : Word) : McInfo :=
  { type := 1, sev := 3, unit := unit, agent := agent, lane := lane, major := major, func := func, res := b, pc := 0,
    info := info }

/-- An armed error has seen `n` right results go by. -/
def passGlitch (s : State) (g : Glitch) (n : Nat) : State :=
  { s with glitches := { g with after := g.after - n } :: s.glitches.erase g }

/-- A value of `n` bytes with an armed error's bits flipped. -/
def flipBytes (g : Glitch) (bs : List Byte) : List Byte :=
  leBytes (leOf bs ^^^ g.flip.toNat % 2 ^ (8 * bs.length)) bs.length

/-- What an engine's checked path hands on of the values it makes in order (R346, R361): all of them, a wrong one with
the residue of the right one among them, or those before the one that fails its check, with the error and byte 0x0B of
the record. -/
def checkedUnits (s : State) (agent : BitVec 32) (us : List (List Byte)) : State × List (List Byte) × Option (Glitch × Nat) :=
  match engGlitch s agent with
  | none => (s, us, none)
  | some g =>
    if us.length ≤ g.after then (passGlitch s g us.length, us, none)
    else
      let u := us.getD g.after []
      let v := flipBytes g u
      if res (leOf v) = res (leOf u) then (useGlitch s g, us.set g.after v, none)
      else (useGlitch s g, us.take g.after, some (g, resByte (res (leOf v)) (res (leOf u))))

/-- Firmware of the die learns of an engine check (R384, R385): the record, and zeros in the other doublewords. -/
def engineNotice (s : State) (agent : BitVec 32) (m : McInfo) : State :=
  (countRecord s (agentDie agent)).fwTell (agentDie agent) 2 (.engineCheck (recordWords m ++ [0, 0, 0, 0]))

/-! The inbox (R255, R259). -/

/-- Commands that an engine holds in its inbox. -/
def inboxCount (s : State) (agent : BitVec 32) : Nat :=
  (s.jobs.filter fun j => j.agent == agent && j.st != .issued && j.st != .finished).length

/-- A command of an engine of this kind that the fabric carries at position `k`. -/
def commandAt (s : State) (k : Nat) (want : Nat → Bool) : Option Job :=
  match s.net[k]? with
  | some (.cmd _ id) =>
    match jobById s id with
    | some j => if want (engineUnit j.agent) then some j else none
    | none => none
  | _ => none

/-- The item at a position has left the fabric. -/
def takeNet (s : State) (k : Nat) : State := { s with net := dropAt s.net k }

/-- Whether an earlier command of one sender to one engine is still on its way (R239). -/
def cmdBehind (s : State) (k : Nat) (j : Job) (src : BitVec 32) : Bool :=
  (s.net.take k).any fun n => match n with
    | .cmd a id => a == src && (match jobById s id with | some q => q.agent == j.agent | none => false)
    | _ => false

/-- The sender of the command at a position. -/
def cmdSrc (s : State) (k : Nat) : BitVec 32 :=
  match s.net[k]? with
  | some (.cmd a _) => a
  | _ => 0

/-- A command finds the inbox of its engine full and bounces with FULL (R243, R255). -/
def commandFull (s : State) (k : Nat) : State :=
  match s.net[k]? with
  | some (.cmd a id) => post (takeNet s k) (.cmdBack a id)
  | _ => s

/-- What happens to the command of a job at position `k` of the fabric: it waits behind an earlier one, bounces off a
full inbox, or is taken by `f`. -/
def commandArrives (s : State) (k : Nat) (j : Job) (f : State → Job → State) : State :=
  if cmdBehind s k j (cmdSrc s k) then s
  else if 64 ≤ inboxCount s j.agent then commandFull s k
  else f (takeNet s k) j

/-- The block of a command as its engine reads it once: the bytes, or a status and cause (R186, R259 step 1). -/
inductive BlockRes where
  | ok (b : List Byte)
  | fail (status cause : Nat)

def readBlock (s : State) (j : Job) (n : Nat) : State × BlockRes :=
  match pieces (engCtx j) .load (pageChunks 3 (j.cmd.toNat / 64 * 64) n) s with
  | (s1, .fail a b) => (s1, .fail a b)
  | (s1, .moving) => (s1, .fail 3 0)
  | (s1, .ok ps) =>
    match ps.findSome? noDevice, readPieces s1 ps with
    | some c, _ => (s1, .fail 2 c)
    | none, some b => (softPieces s1 ps, .ok b)
    | none, none => (tellAbort s1 ps, .fail 3 0)

end Sys2Proof.Machine
end

