-- ==== Sys2Proof/Machine/Coll.lean ====
section
/-! DEFINITION. Collectives (R351 to R362): groups and their membership, contributions at their leaf and at the
coordinator, results, outcome records and completion notices. -/

namespace Sys2Proof.Machine

/-! Groups (R351, R352). -/

/-- Register `k` of group `g` at the collective engine of a die. -/
def grpReg (die g k : Nat) : Nat := dieDev die 0 (0x100 + 64 * g + 8 * k)

def gctl (s : State) (die g : Nat) : Nat := (s.devGet (grpReg die g 0)).toNat
def gValid (s : State) (die g : Nat) : Bool := (gctl s die g).testBit 63
def gIsCoord (s : State) (die g : Nat) : Bool := (gctl s die g).testBit 62
def ggen (s : State) (die g : Nat) : Nat := natBits (s.devGet (grpReg die g 1)).toNat 31 0
def gmapAddr (s : State) (die g : Nat) : Nat := natBits (s.devGet (grpReg die g 2)).toNat 47 3 * 8
def gcoord (s : State) (die g : Nat) : BitVec 32 := BitVec.ofNat 32 (s.devGet (grpReg die g 3)).toNat
def ggrow (s : State) (die g : Nat) : Nat := (s.devGet (grpReg die g 4)).toNat
def gtime (s : State) (die g : Nat) : Nat := natBits (s.devGet (grpReg die g 5)).toNat 31 0

/-- The membership bitmap in force at a collective engine. -/
def bitmapOf (s : State) (die g : Nat) : Nat := smGet 0 (s.die die).maps g

/-- Whether a rank was added by a grow that keeps it out of an instance (R353). -/
def grownOut (s : State) (die g : Nat) (cseq : Word) (r : Nat) : Bool :=
  (s.die die).grows.any fun w => w.1 == g && w.2.1.testBit r && decide (cseq.toNat < w.2.2)

/-- The open set of an instance that opens now. -/
def openSetNow (s : State) (die g : Nat) (cseq : Word) : List Nat :=
  (natsFrom 0 (groupNrank s die g)).filter fun r => (bitmapOf s die g).testBit r && !grownOut s die g cseq r

/-- The awaited set of an instance (R353): a grow adds no rank to an open instance, nor one to an instance below GGROW.
-/
def awaited (s : State) (die : Nat) (i : Inst) : List Nat :=
  i.openSet.filter fun r => (bitmapOf s die i.group).testBit r && !i.gone.contains r && !grownOut s die i.group i.cseq r

/-! Outcome records (R362). -/

/-- The words of an outcome record. -/
def outcomeWords (genOpen genEnd n flags : Nat) (cseq : Word) : List Word :=
  [BitVec.ofNat 64 (genOpen % 2 ^ 32 + genEnd % 2 ^ 32 * 2 ^ 32), BitVec.ofNat 64 (n % 2 ^ 32 + flags * 2 ^ 32), cseq, 0]

/-! Results (R357, R358). -/

/-- A contribution's container aligned to X: the integer, clamped, and the flags that this sets. -/
def alignBsi (b : Bsi) (x : Int) : Int × Nat :=
  let (a, fl) : Int × Nat :=
    if x ≤ b.e then (b.i * twoNum (b.e - x), 0)
    else
      let q := b.i.fdiv (twoNum (x - b.e))
      (q, if q * twoNum (x - b.e) = b.i then 0 else 16)
  let m : Int := (2 ^ 127 : Nat)
  if m - 1 < a then (m - 1, fl ||| 8) else if a < -m then (-m, fl ||| 8) else (a, fl)

/-- One container of a SUM (R358). -/
def sumBsi (bs : List Bsi) (x : Int) (partialSet : Bool) : Bsi :=
  let keep := bs.foldl (fun f b => f ||| (b.fl &&& 0x38)) (if partialSet then 0x20 else 0)
  let pos := bs.any fun b => bsiPos b.fl
  let neg := bs.any fun b => bsiNeg b.fl
  let al := bs.map fun b => alignBsi b x
  let z := bsiClamp (al.foldl (fun t p => t + p.1) 0) x (al.foldl (fun f p => f ||| p.2) keep)
  if (bs.any fun b => bsiNan b.fl) || (pos && neg) then { i := 0, e := x, fl := z.fl ||| 1 }
  else if pos then { i := 0, e := x, fl := z.fl ||| 2 }
  else if neg then { i := 0, e := x, fl := z.fl ||| 4 }
  else z

/-- The number at position `k` of a contribution, `n` bytes wide. -/
def contribNum (c : Contrib) (n k : Nat) : Nat := leOf ((c.data.drop (n * k)).take n)

/-- The signed maximum of doubleword `k`. -/
def maxWord (cs : List Contrib) (k : Nat) : Int :=
  cs.foldl (fun m c => max m (sxInt (contribNum c 8 k) 64)) (-(2 ^ 63 : Nat))

/-- The pieces of the result, as (offset in DST, bytes). -/
def resultPieces (i : Inst) (cs : List Contrib) (partialSet : Bool) : List (Nat × List Byte) :=
  match i.op with
  | 0 => [(0, (natsFrom 0 i.count).flatMap fun k => leBytes (wordOfInt (maxWord cs k)).toNat 8)]
  | 1 => [(0, (natsFrom 0 i.count).flatMap fun k =>
      leBytes (sumBsi (cs.map fun c => bsiOf (contribNum c 16 k)) (sxInt i.x.toNat 16) partialSet).bits 16)]
  | 2 => match cs.find? fun c => c.rank == i.root with
    | some c => [(0, c.data)]
    | none => []
  | _ => cs.map fun c => (c.rank * i.count, c.data)

/-! Writing a member's results. -/

/-- Bytes written at a virtual address into the frames that a command's footprint was translated to as it started
(R192). -/
def writeFrames (s : State) (fs : List (Nat × Nat × Nat)) (va : Nat) (bs : List Byte) : State :=
  fs.foldl (fun u f =>
    let lo := max va f.1
    let hi := min (va + bs.length) (f.1 + f.2.1)
    if lo < hi then engStore u (f.2.2 + (lo - f.1)) ((bs.drop (lo - va)).take (hi - lo)) else u) s

/-- DST and OUTADDR of a command of this module. -/
def writeResults (s : State) (j : Job) (dst : Option (List (Nat × List Byte))) (out : List Word) : State :=
  let s1 := match dst with
    | some ps => ps.foldl (fun u p => writeFrames u j.frames (cdDst j.card + p.1) p.2) s
    | none => s
  if out.isEmpty then s1 else writeFrames s1 j.frames (cdOut j.card) (bytesOfWords out)

/-- Whether the leaf of a notice is in this module. -/
def leafHere (s : State) (leaf : Nat) : Bool := agentModule (BitVec.ofNat 32 leaf) == s.modNo

/-- The coordinator writes a member's results where the member is of this module, and sends its leaf the notice; the
notice to another module carries them (R357). -/
def sendNotice (s : State) (n : CollNotice) : State :=
  if leafHere s n.leaf then
    match jobById s n.job with
    | some j => post (writeResults s j n.dst n.outcome) (.notice { n with dst := none, outcome := [] })
    | none => post s (.notice n)
  else post s (.notice n)

/-- The notice of one contribution. -/
def noticeFor (c : Contrib) (status : Nat) (dst : Option (List (Nat × List Byte))) (out : List Word) : CollNotice :=
  { group := c.group, cseq := c.cseq, rank := c.rank, leaf := c.leaf, job := c.job, status := status, dst := dst,
    outcome := out }

/-! Completion (R354, R357, R361). -/

/-- A list of contributions in ascending rank order. -/
def byRank (cs : List Contrib) : List Contrib :=
  cs.foldl (fun l c => insBefore (fun d => decide (c.rank < d.rank)) c l) []

/-- Whether an instance is complete: every rank awaited has been accepted or refused. -/
def instDone (s : State) (die : Nat) (i : Inst) : Bool :=
  (awaited s die i).all fun r => i.accepted.any (fun c => c.rank == r) || i.refused.any (fun c => c.1.rank == r)

/-- The outcome is remembered: the last 256 of each group (R355), with the contributions that are answered now (R356). -/
def remember (x : DieSt) (g : Nat) (cseq : Word) (cs : List Contrib) : DieSt :=
  let mine := (x.outcomes.filter fun o => o.1 == g).take 255
  let out := (g, cseq) :: mine ++ x.outcomes.filter fun o => o.1 != g
  { x with outcomes := out,
           served := cs.map (fun c => (g, cseq, c.leaf, c.job)) ++ x.served.filter fun v => out.contains (v.1, v.2.1) }

/-- An instance without its entry at the coordinator. -/
def dropInst (x : DieSt) (g : Nat) (cseq : Word) : DieSt :=
  { x with insts := x.insts.filter fun i => !(i.group == g && i.cseq == cseq) }

/-- A mismatch in the adder of a collective engine is counted and recorded with byte 0x0B (R351, R361). -/
def cleError (s : State) (die b : Nat) : State :=
  let a := dieDev die 0 8
  engineNotice (s.devSet a (BitVec.ofNat 64 (((s.devGet a).toNat + 1) % 2 ^ 32))) (dieAgent s die 0)
    (engineRecord (dieAgent s die 0) 1 63 0x55 0 b 0)

/-- Bytes in values of `n` bytes. -/
def unitsOf (n : Nat) (bs : List Byte) : List (List Byte) := (natsFrom 0 (bs.length / n)).map fun k => (bs.drop (n * k)).take n

/-- The result of an instance under the check of the engine's adder, which makes that of MAX and SUM value by value
(R361): the pieces, or byte 0x0B of a record. -/
def checkedResult (s : State) (die : Nat) (i : Inst) (ps : List (Nat × List Byte)) : State × List (Nat × List Byte) × Option Nat :=
  match decide (i.op ≤ 1), ps with
  | true, [(0, bs)] =>
    let (s1, us, bad) := checkedUnits s (dieAgent s die 0) (unitsOf (if i.op = 0 then 8 else 16) bs)
    (s1, [(0, us.flatMap id)], bad.map (·.2))
  | _, _ => (s, ps, none)

/-- An instance completes: results, outcome records and notices (R357, R362). -/
def completeInst (s : State) (die : Nat) (i : Inst) : State :=
  let cs := byRank i.accepted
  let part := decide (cs.map (·.rank) ≠ i.openSet)
  let lost := i.op == 2 && !cs.any fun c => c.rank == i.root
  let (s0, ps, err) := checkedResult s die i (resultPieces i cs part)
  let flags := part.toNat + lost.toNat * 4 + err.isSome.toNat * 32
  let out (f : Nat) : List Word := outcomeWords i.genOpen (ggen s die i.group) cs.length (flags + f) i.cseq
  let dst := if lost || err.isSome then none else some ps
  let s1 := match err with
    | some b => cleError s0 die b
    | none => s0
  let s2 := s1.setDie die (remember (dropInst (s1.die die) i.group i.cseq) i.group i.cseq
    (i.accepted ++ i.refused.map (·.1)))
  let s3 := cs.foldl (fun u c => sendNotice u
    { noticeFor c (if err.isSome then 4 else 0) dst (out 0) with res := err.getD 0 }) s2
  i.refused.foldl (fun u c => sendNotice u (noticeFor c.1 c.2 none (out 8))) s3

/-- The instance of a call at a coordinator. -/
def findInst (s : State) (die g : Nat) (cseq : Word) : Option Inst :=
  (s.die die).insts.find? fun i => i.group == g && i.cseq == cseq

/-- An instance is kept with what has reached it, or completes. -/
def settleInst (s : State) (die : Nat) (i : Inst) : State :=
  let s1 := s.setDie die { s.die die with insts := (dropInst (s.die die) i.group i.cseq).insts ++ [i] }
  if instDone s1 die i then completeInst s1 die i else s1

/-- An instance that its first contribution opens (R353). -/
def newInst (s : State) (die : Nat) (c : Contrib) : Inst :=
  { group := c.group, cseq := c.cseq, openedAt := s.now, genOpen := ggen s die c.group,
    openSet := openSetNow s die c.group c.cseq, op := 0, count := 0, x := 0, root := 0, fixed := false, accepted := [],
    refused := [], notified := false }

/-- Whether a contribution disagrees with what the first accepted one fixed (R361). -/
def disagrees (i : Inst) (c : Contrib) : Bool :=
  i.fixed && (i.op != c.op || i.count != c.count || i.x != c.x || i.root != c.root)

/-- A rank that is not a member, or a duplicate, receives only its outcome record (R354, R362). -/
def lonelyNotice (s : State) (die : Nat) (c : Contrib) (flag : Nat) : State :=
  sendNotice s (noticeFor c 0 none (outcomeWords (ggen s die c.group) (ggen s die c.group) 0 flag c.cseq))

/-- Whether a contribution is one that the instance already has, sent again by its leaf. -/
def sameContrib (a b : Contrib) : Bool := a.leaf == b.leaf && a.job == b.job

/-- A contribution joins its instance. -/
def joinInst (s : State) (die : Nat) (i : Inst) (c : Contrib) : State :=
  if i.accepted.any (sameContrib c) || i.refused.any (fun p => sameContrib c p.1) then s
  else if i.accepted.any (fun a => a.rank == c.rank) || i.refused.any (fun a => a.1.rank == c.rank) then
    lonelyNotice s die c 16
  else if !(awaited s die i).contains c.rank then lonelyNotice (settleInst s die i) die c 2
  else if c.aborted then settleInst s die { i with refused := i.refused ++ [(c, 3)] }
  else if disagrees i c then settleInst s die { i with refused := i.refused ++ [(c, 5)] }
  else settleInst s die { i with
    fixed := true, op := c.op, count := c.count, x := c.x, root := c.root, accepted := i.accepted ++ [c] }

/-- A contribution reaches a collective engine (R354, R355); one that is not its group's coordinator drops it, since
the leaf sends it again to the new one. One of a completed instance whose notice is on its way has only been sent again
(R356). -/
def onContribution (s : State) (die : Nat) (c : Contrib) : State :=
  if !gIsCoord s die c.group || (s.die die).served.contains (c.group, c.cseq, c.leaf, c.job) then s
  else if (s.die die).outcomes.contains (c.group, c.cseq) then lonelyNotice s die c 2
  else
    match findInst s die c.group c.cseq with
    | some i => joinInst s die i c
    | none => joinInst s die (newInst s die c) c

/-! Changing a membership (R352, R356). -/

/-- The contributions that a leaf keeps for a group go to its coordinator. -/
def resendKept (s : State) (die g : Nat) : State :=
  ((s.die die).leaf.filter fun c => c.group == g).foldl (fun u c => post u (.contrib (gcoord s die g).toNat c)) s

/-- The open instances and outcomes of a group move to the die whose engine is its coordinator now, where that is in
this module (R355, assumption log 172). -/
def moveCoord (s : State) (g fromDie : Nat) (to_ : BitVec 32) : State :=
  let d := agentDie to_
  if agentModule to_ ≠ s.modNo ∨ d = fromDie then s
  else
    let x := s.die fromDie
    let s1 := s.setDie fromDie { x with insts := x.insts.filter fun i => i.group != g,
                                        outcomes := x.outcomes.filter fun o => o.1 != g,
                                        served := x.served.filter fun v => v.1 != g }
    let y := s1.die d
    s1.setDie d { y with insts := y.insts ++ x.insts.filter fun i => i.group == g,
                         outcomes := x.outcomes.filter (fun o => o.1 == g) ++ y.outcomes.filter fun o => o.1 != g,
                         served := x.served.filter (fun v => v.1 == g) ++ y.served.filter fun v => v.1 != g }

/-- A GCOORD that was written takes effect with the new generation. -/
def applyCoord (s : State) (die g : Nat) : State :=
  match (s.die die).pendingCoord.find? fun p => p.1 == g with
  | none => s
  | some (_, v) =>
    let old := gcoord s die g
    let s1 := (s.devSet (grpReg die g 3) v).setDie die { s.die die with
      pendingCoord := (s.die die).pendingCoord.filter fun p => p.1 != g }
    if old = dieAgent s die 0 then moveCoord s1 g die (BitVec.ofNat 32 v.toNat) else s1

/-- The bitmap in HBM comes into force; the ranks it adds are a grow with the GGROW of this moment, and those it takes
away are gone from the open instances. -/
def applyBitmap (s : State) (die g : Nat) : State :=
  let x := s.die die
  let n := groupNrank s die g
  let new := s.load (gmapAddr s die g) ((n + 7) / 8) % 2 ^ n
  let added := new &&& (new ^^^ bitmapOf s die g)
  let kept := x.grows.map fun w => if w.1 = g then (g, w.2.1 &&& (w.2.1 ^^^ added), w.2.2) else w
  s.setDie die { x with
    maps := smSet 0 x.maps g new,
    insts := x.insts.map fun i =>
      if i.group = g then { i with gone := i.gone ++ i.openSet.filter fun r => !new.testBit r && !i.gone.contains r } else i,
    grows := if added = 0 then kept else kept ++ [(g, added, ggrow s die g)] }

/-- A write of GGEN (R352): the next generation, or nothing. -/
def writeGgen (s : State) (die g : Nat) (v : Word) : State :=
  if v.toNat % 2 ^ 32 ≠ (ggen s die g + 1) % 2 ^ 32 then s
  else
    let s1 := s.devSet (grpReg die g 1) (BitVec.ofNat 64 (v.toNat % 2 ^ 32))
    let s2 := resendKept (applyBitmap (applyCoord s1 die g) die g) die g
    ((s2.die die).insts.filter fun i => i.group == g).foldl (fun u i =>
      match findInst u die g i.cseq with
      | some k => if gIsCoord u die g && instDone u die k then completeInst u die k else u
      | none => u) s2

/-! The leaf (R356, R359 to R361). -/

/-- The alignment that SRC and DST need. -/
def collAlign (op : Nat) : Nat := if op = 0 then 8 else if op = 1 then 16 else 64

/-- COUNT in its range (R360). -/
def collCountOk (op count nrank : Nat) : Bool :=
  match op with
  | 0 => decide (1 ≤ count ∧ count ≤ 8192)
  | 1 => decide (1 ≤ count ∧ count ≤ 65536)
  | 2 => decide (64 ≤ count ∧ count ≤ 2 ^ 20) && count % 64 == 0
  | _ => decide (64 ≤ count ∧ count ≤ 2 ^ 20) && count % 64 == 0 && decide (count * nrank ≤ 2 ^ 28)

/-- Whether a rank's SRC counts: not for a BCAST rank other than the root. -/
def usesSrc (b : List Byte) : Bool := cdOp b != 2 || cdRank b == cdRoot b

/-- The BADCARD conditions of R361 at the engine of a die; `op` is that of the instruction, where one gave it. -/
def descOk (s : State) (die : Nat) (b : List Byte) (op : Option Nat) : Bool :=
  let o := cdOp b
  let n := groupNrank s die (cdGid b)
  decide (o ≤ 3) && (match op with | some k => k == o | none => true) && decide (cdGid b ≤ 63) &&
  cardZero b 2 2 && cardZero b 0x2A 2 && cardZero b 0x32 6 &&
  gValid s die (cdGid b) && decide (cdRank b < n) &&
  (!usesSrc b || cdSrc b % collAlign o == 0) && cdDst b % collAlign o == 0 && collCountOk o (cdCount b) n &&
  (o == 2 || cdRoot b == 0) && (o == 1 || cdX b == 0) &&
  (cdRchan b == 0 || decide (8 ≤ cdRchan b ∧ cdRchan b ≤ 63)) && decide (cdRclass b ≤ 2) && cdOut b % 32 == 0

/-- A piece that does not lie in device memory of the module (R361). -/
def notDevice (p : Piece) : Option Nat := if kindOf p.pa = .device ∧ p.view = 0 then none else some 28

/-- The checks of a descriptor: the status and cause with which the command ends at once. -/
def collCheck (s : State) (die : Nat) (j : Job) (op : Option Nat) : Option (Nat × Nat) :=
  if !descOk s die j.card op then some (5, 0)
  else if !j.iss.super && cdGid j.card == 63 then some (2, 30)
  else none

/-- The contribution of a command with its data. -/
def contribOf (j : Job) (data : Option (List Byte)) : Contrib :=
  let b := j.card
  { group := cdGid b, cseq := cdCseq b, rank := cdRank b, op := cdOp b, count := cdCount b,
    x := BitVec.ofNat 16 (cdX b), root := cdRoot b, data := data.getD [], aborted := data.isNone,
    leaf := j.agent.toNat, job := j.id }

/-- A command's contribution, or its refusal, leaves for the coordinator, and the leaf keeps it (R356, R361); its
results will go to the pieces `wp` (R192). -/
def sendContribution (s : State) (j : Job) (rp wp : List Piece) : State :=
  let die := agentDie j.agent
  let data := readPieces s rp
  let c := contribOf j data
  let s1 := if data.isNone then tellAbort s rp else softPieces s rp
  let s2 := updJob s1 j.id fun k => { k with st := .running, frames := wp.map fun p => (p.va, p.n, p.pa) }
  post (s2.setDie die { s2.die die with leaf := (s2.die die).leaf ++ [c] }) (.contrib (gcoord s2 die c.group).toNat c)

/-- A collective command whose predecessors have completed starts (R206). -/
def startColl (s : State) (j : Job) : State :=
  if !jobFree s j then s
  else
    match startPieces s j j.rd j.wr notDevice with
    | (s1, .go rp wp) => sendContribution s1 j rp wp
    | (s1, .fail a b) =>
      if reportWaits s j then s else reportJob (endJob s1 j.id a b []) { j with status := a, cause := b }
    | (s1, .wait) => s1

/-- Collective commands that wait for their predecessors start where these have completed. -/
def startColls (s : State) : State :=
  (s.jobs.filter fun j => engineUnit j.agent == 0 && j.st == .ready).foldl startColl s

/-- A command ends and those behind it may start. -/
def finishJob (s : State) (j : Job) : State := startColls (reportJob s j)

/-- The instance timeout of R351. -/
def collTimeout (s : State) (die g : Nat) (cseq : Word) : State :=
  match findInst s die g cseq with
  | some i =>
    if gtime s die g ≠ 0 && !i.notified && decide (i.openedAt + 3300 * gtime s die g < s.now) then
      (s.setDie die { s.die die with
        insts := updFirst (fun k => k.group == g && k.cseq == cseq) (fun k => { k with notified := true }) (s.die die).insts }).fwTell
          die 0 (.collTimeout g cseq)
    else s
  | none => s

/-- CLESTAT (R351). -/
def clestat (s : State) (die : Nat) : Word :=
  BitVec.ofNat 64 (min 255 (s.die die).insts.length + (s.die die).replay.toNat * 256)

end Sys2Proof.Machine
end

