-- ==== Sys2Proof/Machine/Links.lean ====
section
/-! DEFINITION. The link layer of a die link or Gletos link instance (R264 to R269): flits, CRC-32, sequence numbers,
replay, degrade and takedown. -/

namespace Sys2Proof.Machine

/-! CRC-32 (R266). -/

def crc32Bit (c : BitVec 32) : BitVec 32 := if c.getLsbD 0 then (c >>> 1) ^^^ 0xEDB88320 else c >>> 1

def crc32Bits : Nat → BitVec 32 → BitVec 32
  | 0, c => c
  | n + 1, c => crc32Bits n (crc32Bit c)

def crc32Step (c : BitVec 32) (b : Byte) : BitVec 32 := crc32Bits 8 (c ^^^ b.setWidth 32)

/-- The CRC of a list of bytes. -/
def crc32 (bs : List Byte) : BitVec 32 := (bs.foldl crc32Step 0xFFFFFFFF) ^^^ 0xFFFFFFFF

/-! Flits (R265). -/

def flCrc (f : BitVec 512) : BitVec 32 := f.extractLsb' 480 32
def flValid (f : BitVec 512) : Nat := (f.extractLsb' 56 8).toNat
def flVn (f : BitVec 512) : Nat := (f.extractLsb' 48 3).toNat
def flType (f : BitVec 512) : Nat := (f.extractLsb' 40 8).toNat
def flStop (f : BitVec 512) : BitVec 8 := f.extractLsb' 32 8
def flAck (f : BitVec 512) : BitVec 16 := f.extractLsb' 16 16
def flSeq (f : BitVec 512) : BitVec 16 := f.extractLsb' 0 16

/-- The data bytes in use. -/
def flData (f : BitVec 512) : List Byte := leBytes (f.toNat / 2 ^ 64) (min 52 (flValid f))

/-- Whether a flit's CRC is good: bytes 0 to 59 against the last four. -/
def flGood (f : BitVec 512) : Bool := crc32 (leBytes f.toNat 60) == flCrc f

/-- A flit with its CRC. -/
def mkFlit (data : List Byte) (vn type : Nat) (ack seq : BitVec 16) : BitVec 512 :=
  let body := leOf (data.take 52) * 2 ^ 64 + data.length % 256 * 2 ^ 56 + vn % 8 * 2 ^ 48 + type * 2 ^ 40 +
    ack.toNat * 2 ^ 16 + seq.toNat
  BitVec.ofNat 512 (body + (crc32 (leBytes body 60)).toNat * 2 ^ 480)

/-! Registers of an instance (R269). -/

def linkReg (die inst off : Nat) : Nat := dieDev die 3 (0x40 * inst + off)

def lerr (s : State) (die inst : Nat) : Nat := natBits (s.devGet (linkReg die inst 8)).toNat 31 0
def lthr (s : State) (die inst : Nat) : Nat := natBits (s.devGet (linkReg die inst 0x10)).toNat 31 0
def lwin (s : State) (die inst : Nat) : Nat := natBits (s.devGet (linkReg die inst 0x18)).toNat 31 0

def setLerr (s : State) (die inst n : Nat) : State := s.devSet (linkReg die inst 8) (BitVec.ofNat 64 (n % 2 ^ 32))

/-- LREPLAY counts the flits resent, wrapping. -/
def countReplay (s : State) (die inst n : Nat) : State :=
  let a := linkReg die inst 0x20
  s.devSet a (BitVec.ofNat 64 (((s.devGet a).toNat + n) % 2 ^ 32))

/-- LSTAT of an instance. -/
def lstat (x : LinkInst) : Word :=
  BitVec.ofNat 64 (x.up.toNat + x.degraded.toNat * 2 + x.half.toNat * 4 + x.nextSeq.toNat * 2 ^ 16 +
    x.expSeq.toNat * 2 ^ 32)

/-- A microsecond in cycles of the arithmetic clock. -/
def usCycles : Nat := 3300

/-! Sending. -/

/-- The ACK that an instance sends: the SEQ of the last data flit received in order. -/
def LinkInst.ack (x : LinkInst) : BitVec 16 := x.expSeq - 1

/-- A flit without data. -/
def ctlFlit (x : LinkInst) (type : Nat) (seq : BitVec 16) : BitVec 512 := mkFlit [] 0 type x.ack seq

/-- Whether an instance may send data flits. -/
def LinkInst.sends (x : LinkInst) : Bool := x.up && x.dstate == .none

/-- The virtual network of a VN field: a class, or 3 for the reply network. -/
def netOfVn (vn : Nat) : Nat := if 4 ≤ vn then 3 else vn

/-- The oldest queued piece of a virtual network, where the peer has not stopped it. -/
def headOf (x : LinkInst) (net : Nat) : Option Nat :=
  (x.queued.findIdx? fun q => netOfVn q.1 == net).filter fun k =>
    match x.queued[k]? with
    | some q => !x.stopped.toNat.testBit q.1
    | none => false

/-- The queued piece that goes next: class 0 ahead of class 1 ahead of class 2, and the reply network ahead of them every
fourth time (R238). -/
def nextPiece (x : LinkInst) : Option Nat :=
  (if x.turn = 3 then [3, 0, 1, 2] else [0, 1, 2, 3]).findSome? (headOf x)

/-- Queued data goes out while the replay buffer has room, each virtual network in order (R265, R267). `fuel` is the
length of the queue. -/
def drainQueue (now : Nat) : Nat → LinkInst → LinkInst
  | 0, x => x
  | n + 1, x =>
    if !x.sends || decide (128 ≤ x.replay.length) then x
    else
      match nextPiece x with
      | none => x
      | some k =>
        match x.queued[k]? with
        | none => x
        | some (vn, ty, d) =>
          let f := mkFlit d vn ty x.ack x.nextSeq
          drainQueue now n { x with
            queued := x.queued.eraseIdx k, replay := x.replay ++ [f], wire := x.wire ++ [f], nextSeq := x.nextSeq + 1,
            turn := (x.turn + 1) % 4, lastProgress := if x.replay.isEmpty then now else x.lastProgress }

/-- An idle flit, which carries ACK, and the SEQ to be sent next (R265). -/
def idleFlit (x : LinkInst) : BitVec 512 := ctlFlit x 5 x.nextSeq

/-- An instance sends an idle flit where its replay buffer keeps queued data back (R267). -/
def idleWhenFull (x : LinkInst) : LinkInst :=
  if x.sends && decide (128 ≤ x.replay.length) && !x.queued.isEmpty then { x with wire := x.wire ++ [idleFlit x] } else x

/-- The data of a stream in pieces of 52 bytes. -/
def chunks : Nat → List Byte → List (List Byte)
  | 0, _ => []
  | n + 1, bs => if bs.isEmpty then [] else bs.take 52 :: chunks n (bs.drop 52)

/-- The pieces of a stream with their flit types: 4 only, or 1 first, 2 middle, 3 last. -/
def typedChunks (vn : Nat) (bs : List Byte) : List (Nat × Nat × List Byte) :=
  let cs := chunks (bs.length / 52 + 1) bs
  let n := cs.length
  cs.zipIdx.map fun p =>
    (vn, if n = 1 then 4 else if p.2 = 0 then 1 else if p.2 + 1 = n then 3 else 2, p.1)

/-- The virtual network field of a flit for a message: its class, or the reply network in bit 2 (R265). -/
def vnField (p : Packet) : Nat := if p.vnet = 3 then 4 + p.cls else p.cls

/-- The message stream of a packet (R265). -/
def streamOf (p : Packet) : List Byte :=
  bytesOfWords ([BitVec.ofNat 64 (p.src.toNat + p.dest.toNat * 2 ^ 32), p.d0, p.d1, p.d2, p.d3] ++ p.payload)

/-- The packet of a complete stream. -/
def packetOf (bs : List Byte) : Option Packet :=
  match wordsOfBytes bs with
  | r :: d0 :: d1 :: d2 :: d3 :: pl => some { src := BitVec.ofNat 32 r.toNat, d0 := d0, d1 := d1, d2 := d2, d3 := d3, payload := pl }
  | _ => none

/-- A packet enters an instance. -/
def linkEnqueue (now : Nat) (x : LinkInst) (p : Packet) : LinkInst :=
  let q := x.queued ++ typedChunks (vnField p) (streamOf p)
  idleWhenFull (drainQueue now q.length { x with queued := q })

/-- Every unacknowledged flit goes out again, oldest first (R267). -/
def goBack (s : State) (die inst : Nat) : State :=
  let x := s.link die inst
  if x.sends then
    (countReplay s die inst x.replay.length).setLink die inst { x with wire := x.wire ++ x.replay, lastProgress := s.now }
  else s

/-! Edges. -/

/-- The instances of the edge that an instance belongs to (R398). -/
def edgeOf (inst : Nat) : List Nat :=
  if inst < 4 then [0, 1, 2, 3] else if inst < 8 then [4, 5, 6, 7] else natsFrom 8 8

/-- The record of a LINK machine check (R268, R384). -/
def linkRecord (s : State) (die major seq : Nat) : McInfo :=
  { type := 5, sev := 3, unit := 7, agent := dieAgent s die 1, lane := 63, major := major, func := 0, res := 0, pc := 0,
    info := BitVec.ofNat 64 (seq % 2 ^ 16) }

/-- Whether an instance taken down still holds flits that its peer may not have. -/
def LinkInst.holdsFlits (x : LinkInst) : Bool := !x.replay.isEmpty || !x.queued.isEmpty

/-- The first instance of a list that carries new messages: one that is up, or one taken down whose flits have not yet
moved, behind which they wait. -/
def carrier (s : State) (die : Nat) (is : List Nat) : Option Nat :=
  is.find? fun i => (s.link die i).up || (s.link die i).holdsFlits

/-- The instances of an edge in the order in which number `h` of it is replaced. -/
def edgeFrom (edge : List Nat) (h : Nat) : List Nat := edge.drop (h % edge.length) ++ edge.take (h % edge.length)

/-- The instance of an edge that a pair of agents uses: the hash of the pair picks one, and where that has been taken
down the next of the edge takes its place (R239, R264, R268). -/
def edgeInst (s : State) (die : Nat) (edge : List Nat) (p : Packet) : Option Nat :=
  carrier s die (edgeFrom edge (p.src.toNat ^^^ p.dest.toNat))

/-- The two neighbours of a die, in ascending order (R10). -/
def dieNeighbours (die : Nat) : List Nat := if die = 0 ∨ die = 3 then [1, 2] else [0, 3]

/-- The instances of a die that face a neighbour (R398). -/
def edgeTo (die nb : Nat) : List Nat := if (dieNeighbours die).head? = some nb then [0, 1, 2, 3] else [4, 5, 6, 7]

/-- The other end of a die link. -/
def peerOf (die inst : Nat) : Option (Nat × Nat) :=
  if 8 ≤ inst then none
  else
    let nb := (dieNeighbours die).getD (inst / 4) 0
    some (nb, (edgeTo nb die).getD (inst % 4) 0)

/-- One end of an instance is taken down (R268): firmware is told, and gets a LINK machine check where no instance of
the edge remains. -/
def endDown (s : State) (die inst : Nat) : State :=
  let x := s.link die inst
  let s1 := (s.setLink die inst { x with up := false, dstate := .down }).fwTell die 2 (.linkDown die inst)
  if (edgeOf inst).any fun k => (s1.link die k).up then s1
  else (countRecord s1 die).fwTell die 2 (.linkCheck (recordWords (linkRecord s die 0 x.expSeq.toNat) ++ [0, 0, 0, 0]))

/-- An instance is taken down, with the other end of a die link. -/
def takeDown (s : State) (die inst : Nat) : State :=
  let s1 := endDown s die inst
  match peerOf die inst with
  | some (d, i) => if (s1.link d i).up then endDown s1 d i else s1
  | none => s1

/-- The unacknowledged flits from the SEQ that the peer expects on. -/
def unseen (fs : List (BitVec 512)) (seq : BitVec 16) : List (BitVec 512) :=
  match fs.findIdx? fun f => flSeq f == seq with
  | some k => fs.drop k
  | none => []

/-- The end of an instance taken down learns what its peer expects (R268): what the peer has not received moves with the
queue to the instance that takes its place, and so do messages received in part. The peer's end of a die link is of this
module. -/
def movePending (s : State) (die inst : Nat) (seq : BitVec 16) : State :=
  let x := s.link die inst
  let exp := match peerOf die inst with
    | some (d, i) => (s.link d i).expSeq
    | none => seq
  match ((edgeFrom (edgeOf inst) (if 8 ≤ inst then inst - 8 else inst % 4)).find? fun k => (s.link die k).up),
      x.dstate with
  | some k, .down =>
    let y := s.link die k
    let moved := ((unseen x.replay exp).map fun f => (flVn f, flType f, flData f)) ++ x.queued
    let q := y.queued ++ moved
    (s.setLink die inst { x with replay := [], queued := [], partials := [] }).setLink die k
      (idleWhenFull (drainQueue s.now q.length { y with queued := q, partials := y.partials ++ x.partials }))
  | _, _ => s

/-- An instance begins to degrade (R268 step 1); one that already runs degraded is taken down. -/
def startDegrade (s : State) (die inst : Nat) : State :=
  let x := s.link die inst
  if !x.up || x.dstate != .none then s
  else if x.degraded then takeDown s die inst
  else
    s.setLink die inst { x with dstate := .asked, toFull := false, wire := x.wire ++ [ctlFlit x 7 x.nextSeq] }

/-! Receiving. -/

/-- A flit with a bad CRC adds 1 to LERR, and a count above LTHR degrades the instance (R267 to R269). -/
def countBad (s : State) (die inst : Nat) : State :=
  let n := lerr s die inst + 1
  let s1 := setLerr s die inst n
  if lthr s die inst ≠ 0 ∧ lthr s die inst < n then startDegrade s1 die inst else s1

/-- A discard: one NACK after an accepted flit (R267). -/
def discardFlit (s : State) (die inst : Nat) : State :=
  let x := s.link die inst
  if x.nackSent then s
  else s.setLink die inst { x with nackSent := true, wire := x.wire ++ [ctlFlit x 6 x.expSeq] }

/-- The replay buffer without the flits that an ACK covers. -/
def ackDrop (ack : BitVec 16) (fs : List (BitVec 512)) : List (BitVec 512) :=
  match fs.findIdx? fun f => flSeq f == ack with
  | some k => fs.drop (k + 1)
  | none => fs

/-- ACK and STOP of any good flit (R265, R267). -/
def takeAck (s : State) (die inst : Nat) (f : BitVec 512) : State :=
  let x := s.link die inst
  let r := ackDrop (flAck f) x.replay
  let y := { x with replay := r, stopped := flStop f,
                    lastProgress := if r.length < x.replay.length then s.now else x.lastProgress }
  s.setLink die inst (drainQueue s.now y.queued.length y)

/-- The bytes of a virtual network's message so far: the one begun last on this instance, ahead of those that moved
here. -/
def partialOf (x : LinkInst) (vn : Nat) : List Byte :=
  match x.partials.find? fun p => p.1 == vn with
  | some p => p.2
  | none => []

/-- The messages in part without the one that a flit of a virtual network continues. -/
def otherPartials (x : LinkInst) (f : BitVec 512) : List (Nat × List Byte) :=
  if flType f = 1 ∨ flType f = 4 then x.partials
  else
    match x.partials.findIdx? fun p => p.1 == flVn f with
    | some k => x.partials.eraseIdx k
    | none => x.partials

/-- A message complete at a die: it enters the fabric there. -/
def deliverAt (s : State) (die : Nat) (bs : List Byte) : State :=
  match packetOf bs with
  | some p => sendMsg s { p with at_ := some die }
  | none => s

/-- A data flit accepted in order: the message grows, and is delivered once complete. Where no data carries the ACK
back, an idle flit does. -/
def acceptFlit (s : State) (die inst : Nat) (f : BitVec 512) : State :=
  let x := s.link die inst
  let bs := (if flType f = 1 ∨ flType f = 4 then [] else partialOf x (flVn f)) ++ flData f
  let rest := otherPartials x f
  let y := { x with expSeq := x.expSeq + 1, nackSent := false }
  let z := if x.sends then { y with wire := x.wire ++ [idleFlit y] } else y
  if flType f = 3 ∨ flType f = 4 then deliverAt (s.setLink die inst { z with partials := rest }) die bs
  else s.setLink die inst { z with partials := (flVn f, bs) :: rest }

/-- A data flit is received (R267). -/
def recvData (s : State) (die inst : Nat) (f : BitVec 512) : State :=
  if !(s.link die inst).up then s
  else if !flGood f then discardFlit (countBad s die inst) die inst
  else
    let s1 := takeAck s die inst f
    if flSeq f != (s1.link die inst).expSeq || decide (4 < flType f ∨ flType f = 0) then discardFlit s1 die inst
    else acceptFlit s1 die inst f

/-- A flit of another kind is received: with a good CRC its ACK and STOP count and `k` follows; with a bad one it is
discarded. -/
def recvOther (s : State) (die inst : Nat) (f : BitVec 512) (type : Nat) (k : State → State) : State :=
  if !(s.link die inst).up then s
  else if !flGood f then discardFlit (countBad s die inst) die inst
  else
    let s1 := takeAck s die inst f
    if flType f = type then k s1 else s1

/-- The peer of a degrade request answers and retrains (R268 step 2). -/
def onDegradeRequest (s : State) (die inst : Nat) : State :=
  let x := s.link die inst
  if x.degraded && !x.toFull then takeDown s die inst
  else s.setLink die inst { x with dstate := .training, wire := x.wire ++ [ctlFlit x 8 x.nextSeq] }

/-- The detecting side receives the acknowledge (R268 step 3). -/
def onDegradeAck (s : State) (die inst : Nat) : State :=
  let x := s.link die inst
  if x.dstate = .asked then s.setLink die inst { x with dstate := .training } else s

/-- LCMD[1]: retraining to 64 lanes begins (R268). -/
def startRetrain (s : State) (die inst : Nat) : State :=
  let x := s.link die inst
  if x.up && x.dstate == .none then s.setLink die inst { x with dstate := .training, toFull := true } else s

/-- Retraining ends (R268 steps 3 and 4). -/
def retrainDone (s : State) (die inst errLo errHi : Nat) (ok : Bool) : State :=
  let x := s.link die inst
  if x.dstate != .training then s
  else if !ok then takeDown s die inst
  else if x.toFull then
    goBack (s.setLink die inst { x with dstate := .none, toFull := false, degraded := false, half := false }) die inst
  else
    goBack ((s.setLink die inst { x with dstate := .none, degraded := true, half := decide (errHi < errLo) }).fwTell die 2
      (.linkDegrade die inst)) die inst

end Sys2Proof.Machine
end

