-- ==== Sys2Proof/Machine/Manage.lean ====
section
/-! DEFINITION. Device registers (R155, R269, R347, R351, R389, R398 to R406): reading and writing each under its
access rules, and what a write starts: CMSPLIT, LOSTi, FENCE, MC2, PSWAP, TRCCTL and LCMD. -/

namespace Sys2Proof.Machine

/-- The bits of `v` from `hi` to `lo`, in their places. -/
def maskBits (v : Word) (hi lo : Nat) : Word := BitVec.ofNat 64 (natBits v.toNat hi lo * 2 ^ lo)

/-! Cluster memory (R155, R162). -/

/-- Whether CMSPLIT would accept a value. -/
def splitOk (v : Nat) : Bool :=
  natBits v 4 0 + natBits v 12 8 + natBits v 20 16 + natBits v 28 24 == 16 && decide (4 ≤ natBits v 4 0 ∧ 1 ≤ natBits v 12 8)

/-- A write of CMSPLIT: accepted, it waits for the write-backs. -/
def writeSplit (s : State) (cl : Nat) (v : Word) : State :=
  if splitOk v.toNat then s.setCluster cl { s.cluster cl with pendingSplit := some (v &&& 0x1F1F1F1F) } else s

/-- The first byte of a cluster's scratch (R178). -/
def scratchBase (cl : Nat) : Nat := dieOfCluster cl * 2 ^ 46 + 2 * 2 ^ 44 + cl % 80 * 2 ^ 22

/-- The bytes of scratch that keep their value across a change of roles. -/
def splitKeeps (old new : Nat) : Nat :=
  if natBits old 4 0 + natBits old 12 8 = natBits new 4 0 + natBits new 12 8 then
    min (natBits old 20 16) (natBits new 20 16) * 0x40000
  else 0

/-- The new roles take effect: the ways written back, and every scratch byte that does not stay in its way zero. -/
def applySplit (s : State) (cl : Nat) : State :=
  match (s.cluster cl).pendingSplit with
  | none => s
  | some v =>
    let a := clDev cl 0 0
    let k := splitKeeps (s.devGet a).toNat v.toNat
    let s0 := dropFromL1s s cl (s.cluster cl).rdcLines
    let s1 := (s0.zeroRange (scratchBase cl + k) (2 ^ 22 - k)).devSet a v
    s1.setCluster cl { s1.cluster cl with pendingSplit := none, cmLines := [], rdcLines := [], retLines := [] }

/-- LOSTi.V cleared (R162). -/
def clearLost (s : State) (cl i : Nat) : State :=
  let a := clDev cl 0 (0x100 + 8 * i)
  s.devSet a (s.devGet a &&& 0x7FFFFFFFFFFFFFFF)

/-- A write of LOSTi: the address as written, V by writing 1. -/
def writeLost (s : State) (cl i : Nat) (v : Word) : State :=
  let a := clDev cl 0 (0x100 + 8 * i)
  let keep := (s.devGet a).toNat.testBit 63 && !v.toNat.testBit 63
  s.devSet a (maskBits v 47 6 ||| (if keep then 0x8000000000000000 else 0))

/-! The frame pool (R400). -/

/-- Whether the strand of a pool entry is not DONE. -/
def poolBusy (s : State) (cl i : Nat) : Bool :=
  (s.cluster cl).taken.contains i || s.strands.any fun p => p.2.home == cl && p.2.pool == i && p.2.st != .done

def writePool (s : State) (cl off : Nat) (v : Word) : State :=
  if poolBusy s cl (off / 16) then s
  else s.devSet (clDev cl 2 off) (if off % 16 = 0 then maskBits v 63 63 ||| maskBits v 47 8 else maskBits v 47 6)

/-! The matrix array (R347). -/

/-- The command that a matrix array is running. -/
def runningMatrix (s : State) (cl : Nat) : Option Job :=
  s.jobs.find? fun j => j.agent == clusterAgent s cl 16 && j.st == .running

/-- MSTAT. -/
def mstat (s : State) (cl : Nat) : Word :=
  let x := s.cluster cl
  let v (t : Nat) : Nat := (smGet Tile.reset x.tiles t).valid.toNat
  let (p, b) := match runningMatrix s cl with
    | some j => (j.iss.part.toNat, 1)
    | none => (0, 0)
  BitVec.ofNat 64 (v 0 + 2 * v 1 + 4 * v 2 + 8 * v 3 + x.maSlot % 16 * 16 + p * 256 + b * 65536)

/-! Counters (R406, R409). -/

/-- A counter written: its count, and OVF cleared by writing 1. -/
def ctrWritten (old : Nat) (v : Word) : Nat :=
  natBits v.toNat 47 0 + (if decide (2 ^ 48 ≤ old) && !v.toNat.testBit 63 then 2 ^ 48 else 0)

def coreTotal (s : State) (c n : Nat) : Nat := ctrTotal s.now (s.core c).ctrSel (s.core c).ctrs n true
def clusterTotal (s : State) (cl n : Nat) : Nat := ctrTotal s.now (s.cluster cl).ccSel (s.cluster cl).cctrs n false

def setCoreCtr (s : State) (c n v : Nat) : State :=
  let x := s.core c
  s.setCore c { x with ctrs := smSet (0, 0) x.ctrs n (v, s.now) }

def setClusterCtr (s : State) (cl n v : Nat) : State :=
  let x := s.cluster cl
  s.setCluster cl { x with cctrs := smSet (0, 0) x.cctrs n (v, s.now) }

def setCoreSel (s : State) (c n : Nat) (v : Word) : State :=
  let x := s.core c
  s.setCore c { x with ctrs := settleCtr s.now x.ctrSel x.ctrs n true, ctrSel := smSet 0 x.ctrSel n (v &&& 0x13F) }

def setClusterSel (s : State) (cl n : Nat) (v : Word) : State :=
  let x := s.cluster cl
  s.setCluster cl { x with ccSel := smSet 0 x.ccSel n (v &&& 0x13F) }

/-! Trace (R406). -/

/-- A write of TRCCTL: EN set anew clears FROZEN. -/
def writeTrcctl (s : State) (c : Nat) (v : Word) : State :=
  let x := s.core c
  let anew := v.toNat.testBit 0 && !trcOnBit x
  let frozen := trcFrozenBit x && !anew
  s.setCore c { x with
    trcctl := maskBits v 11 0 ||| maskBits v 19 16 ||| maskBits v 41 32 ||| (if frozen then 0x1000000 else 0),
    trcPost := if anew then none else x.trcPost }

/-- One doubleword of the trace buffer. -/
def traceDword (x : CoreSt) (off : Nat) : Word :=
  ((smGet 0 x.trace (off / 16)).extractLsb' (64 * (off / 8 % 2)) 64)

/-! The debug window (R403). -/

def slotCode : SlotSt → Nat
  | .free => 0 | .filling => 1 | .ready => 2 | .parked => 3 | .stalled => 4 | .closing => 5 | .composing => 6
  | .lead => 7 | .helper => 8 | .releasing => 9 | .halted => 10

/-- MC2.V written with 1 (R380, R403). -/
def clearMc2 (s : State) (r : SlotRef) : State :=
  let sl := s.slot r
  let v := sl.mc2 &&& 0x7FFFFFFFFFFFFFFF
  if sl.st = .halted then s.setSlot r { Slot.reset with mc2 := v } else s.setSlot r { sl with mc2 := v }

def readDebug (s : State) (c off : Nat) : Option Word :=
  let x := s.core c
  if off < 0x200 then
    let sl := s.slot { core := c, slot := off / 0x40 }
    match off % 0x40 with
    | 0x00 => some (BitVec.ofNat 64 (slotCode sl.shown))
    | 0x08 => some sl.pc
    | 0x10 => some sl.trapc
    | 0x18 => some sl.trapa
    | 0x20 => some sl.trapv
    | 0x28 => some sl.trapp
    | 0x30 => some sl.mc2
    | _ => none
  else if off = 0x200 then some x.trcctl
  else if off = 0x208 then some x.trctrig
  else if off = 0x210 then some (BitVec.ofNat 64 (x.trcpos + x.trcWrapped.toNat * 1024))
  else if 0x300 ≤ off ∧ off < 0x320 then some (ctrWord (coreTotal s c ((off - 0x300) / 8)))
  else if 0x320 ≤ off ∧ off < 0x340 then some (smGet 0 x.ctrSel ((off - 0x320) / 8))
  else if 0x4000 ≤ off ∧ off < 0x8000 then some (traceDword x (off - 0x4000))
  else none

def writeDebug (s : State) (c off : Nat) (v : Word) : Option State :=
  if off < 0x200 then
    if off % 0x40 = 0x30 then
      some (if v.toNat.testBit 63 then clearMc2 s { core := c, slot := off / 0x40 } else s)
    else if off % 0x40 = 0x38 then none
    else some s
  else if off = 0x200 then some (writeTrcctl s c v)
  else if off = 0x208 then
    some (s.setCore c { s.core c with trctrig := maskBits v 63 63 ||| maskBits v 61 56 ||| maskBits v 54 0 })
  else if off = 0x210 then some s
  else if 0x300 ≤ off ∧ off < 0x320 then
    some (setCoreCtr s c ((off - 0x300) / 8) (ctrWritten (coreTotal s c ((off - 0x300) / 8)) v))
  else if 0x320 ≤ off ∧ off < 0x340 then some (setCoreSel s c ((off - 0x320) / 8) v)
  else if 0x4000 ≤ off ∧ off < 0x8000 then some s
  else none

/-! Containment (R389, R390). -/

/-- A write of FENCEi on a die: a core that is in no composition gives up what it holds at once (R145, R390). -/
def writeFence (s : State) (die i : Nat) (v : Word) : State :=
  let a := dieDev die 1 (0x800 + 8 * i)
  let new := (natsFrom 0 64).filter fun j => v.toNat.testBit j && !(s.devGet a).toNat.testBit j
  new.foldl (fun u j => flushFenced u (1280 * die + 64 * i + j)) (s.devSet a v)

/-! Partitions (R402, R404). -/

/-- The clusters of a partition on a die. -/
def partClusters (s : State) (die p : Nat) : List Nat :=
  (clustersOfDie die).filter fun c => (s.cluster c).owned && (s.cluster c).part.toNat == p

/-- PSWAP of a partition on a die. -/
def pswapReg (die p : Nat) : Nat := dieDev die 2 (64 * p + 0x18)

/-- PSWAP.OUT is set: admission stops and the die is BUSY until the context has moved. -/
def swapOut (s : State) (die p : Nat) : State :=
  let v := s.devGet (pswapReg die p)
  if v.toNat.testBit 3 then s
  else
    (partClusters s die p).foldl (fun u c => u.setCluster c { u.cluster c with noAdmit := true })
      (s.devSet (pswapReg die p) ((v &&& 3) ||| 4))

/-- Whether every core of a cluster is at an activation boundary. -/
def atBoundary (s : State) (cl : Nat) : Bool :=
  !s.slots.any fun p => clusterOf (p.1 / 8) == cl && p.2.act != .none

/-- The control context of a cluster moves into its shadow storage. -/
def shadowOut (s : State) (p cl : Nat) : State :=
  let x := s.cluster cl
  let cs := coresOf cl
  let pool := (natsFrom 0 512).filterMap fun k =>
    let v := s.devGet (clDev cl 2 (8 * k))
    if v = 0 then none else some (k, v)
  let sh : Shadow := {
    part := p, handlers := cs.map fun c => (c, (s.core c).handlers), pendqs := cs.map fun c => (c, (s.core c).pendq),
    retbufs := cs.map fun c => (c, (s.core c).retbuf), ready := x.ready, taken := x.taken, pool := pool }
  let s1 := cs.foldl (fun u c => u.setCore c { u.core c with handlers := [], tabOld := none, pendq := [], retbuf := [] }) s
  let s2 := (natsFrom 0 512).foldl (fun u k => u.devSet (clDev cl 2 (8 * k)) 0) s1
  s2.setCluster cl { s2.cluster cl with ready := [], taken := [], shadow := (s2.cluster cl).shadow ++ [sh] }

/-- A context comes back from the shadow storage of a cluster. -/
def shadowIn (s : State) (cl : Nat) (sh : Shadow) : State :=
  let s1 := (coresOf cl).foldl (fun u c => u.setCore c { u.core c with
    handlers := smGet [] sh.handlers c, tabOld := none, pendq := smGet [] sh.pendqs c, retbuf := smGet [] sh.retbufs c }) s
  let s2 := sh.pool.foldl (fun u p => u.devSet (clDev cl 2 (8 * p.1)) p.2) s1
  s2.setCluster cl { s2.cluster cl with
    part := BitVec.ofNat 8 sh.part, owned := true, ready := sh.ready, taken := sh.taken, noAdmit := false,
    shadow := (s2.cluster cl).shadow.filter fun h => h.part != sh.part }

/-- The move of R404 once every activation of the partition on the die is at a boundary. -/
def swapMove (s : State) (die p : Nat) : State :=
  let cls := partClusters s die p
  let v := s.devGet (pswapReg die p)
  if v.toNat.testBit 2 && cls.all (fun c => atBoundary s c && decide ((s.cluster c).shadow.length < 2)) then
    (cls.foldl (fun u c => shadowOut u p c) s).devSet (pswapReg die p) ((v &&& 3) ||| 8)
  else s

/-- PSWAP.IN is set: the context moves back. -/
def swapIn (s : State) (die p : Nat) : State :=
  let v := s.devGet (pswapReg die p)
  if v.toNat.testBit 3 then
    ((clustersOfDie die).foldl (fun u c =>
      match (u.cluster c).shadow.find? fun h => h.part == p with
      | some sh => shadowIn u c sh
      | none => u) s).devSet (pswapReg die p) (v &&& 3)
  else s

/-- A write of PSWAP: OUT and IN hold what was written (R5), and one that is set begins its move. -/
def writePswap (s : State) (die p : Nat) (v : Word) : State :=
  let s1 := s.devSet (pswapReg die p) ((s.devGet (pswapReg die p) &&& 0xC) ||| (v &&& 3))
  if v.toNat.testBit 1 then swapIn s1 die p else if v.toNat.testBit 0 then swapOut s1 die p else s1

/-- A value kept within bounds, 0 standing for itself. -/
def boundOr0 (v lo hi : Nat) : Nat := if v = 0 then 0 else max lo (min v hi)

def writePart (s : State) (die off : Nat) (v : Word) : State :=
  let a := dieDev die 2 off
  match off % 64 with
  | 0x00 => s.devSet a v
  | 0x08 => s.devSet a (BitVec.ofNat 64 (boundOr0 (natBits v.toNat 26 0) 1 (2 ^ 26)))
  | 0x10 => s.devSet a (BitVec.ofNat 64 (boundOr0 (natBits v.toNat 4 0) 12 26))
  | 0x18 => writePswap s die (off / 64) v
  | 0x20 => s.devSet a (maskBits v 63 63 ||| maskBits v 47 13)
  | _ => s

/-! Collective groups (R351, R352). -/

def readGroup (s : State) (die g k : Nat) : Word :=
  if k = 3 then
    match (s.die die).pendingCoord.find? fun p => p.1 == g with
    | some p => p.2
    | none => s.devGet (grpReg die g 3)
  else s.devGet (grpReg die g k)

def writeGroup (s : State) (die g k : Nat) (v : Word) : State :=
  match k with
  | 0 => s.devSet (grpReg die g 0) (maskBits v 63 62 ||| maskBits v 23 0)
  | 1 => writeGgen s die g v
  | 2 => s.devSet (grpReg die g 2) (maskBits v 47 3)
  | 3 => s.setDie die { s.die die with
      pendingCoord := (g, maskBits v 31 0) :: (s.die die).pendingCoord.filter fun p => p.1 != g }
  | 4 => s.devSet (grpReg die g 4) v
  | _ => s.devSet (grpReg die g 5) (maskBits v 31 0)

/-! Links (R269). -/

def readLink (s : State) (die inst off : Nat) : Option Word :=
  match off with
  | 0x00 => some (lstat (s.link die inst))
  | 0x28 => some 0
  | 0x08 | 0x10 | 0x18 | 0x20 => some (s.devGet (linkReg die inst off))
  | _ => none

def writeLink (s : State) (die inst off : Nat) (v : Word) : Option State :=
  match off with
  | 0x00 | 0x20 => some s
  | 0x08 | 0x10 | 0x18 => some (s.devSet (linkReg die inst off) (maskBits v 31 0))
  | 0x28 =>
    let s1 := if v.toNat.testBit 0 then startDegrade s die inst else s
    some (if v.toNat.testBit 1 then startRetrain s1 die inst else s1)
  | _ => none

/-! Every register (R398, R399). -/

/-- Die, cluster, block and offset of a device address. -/
def devDie (a : Nat) : Nat := natBits a 47 46
def devCl (a : Nat) : Nat := natBits a 28 22
def devBlock (a : Nat) : Nat := natBits a 21 16
def devOff (a : Nat) : Nat := natBits a 15 0

/-- A register of a cluster's blocks (R155, R347, R400, R401, R403, R406). -/
def readCluster (s : State) (cl block off : Nat) : Option Word :=
  let plain : Option Word := some (s.devGet (clDev cl block off))
  match block with
  | 0 =>
    if off = 0 then some ((s.cluster cl).pendingSplit.getD (s.devGet (clDev cl 0 0)))
    else if off < 0x90 ∨ (0x100 ≤ off ∧ off < 0x180) then plain else none
  | 1 => if off = 0x88 then some (mstat s cl) else if off < 0x98 then plain else none
  | 2 => if off < 0x1000 then plain else none
  | 3 => if off < 0x40 then plain else none
  | 4 =>
    if off < 0x40 then some (ctrWord (clusterTotal s cl (off / 8)))
    else if off < 0x80 then some (smGet 0 (s.cluster cl).ccSel ((off - 0x40) / 8)) else none
  | b => if 16 ≤ b ∧ b < 32 then readDebug s (16 * cl + (b - 16)) off else none

/-- A die-level register (R269, R351, R389, R398, R402). -/
def readDie (s : State) (die block off : Nat) : Option Word :=
  let plain : Option Word := some (s.devGet (dieDev die block off))
  match block with
  | 0 =>
    if off = 0 then some (clestat s die)
    else if off = 8 then plain
    else if 0x100 ≤ off ∧ off < 0x1100 ∧ (off - 0x100) % 64 < 0x30 then
      some (readGroup s die ((off - 0x100) / 64) ((off - 0x100) % 64 / 8))
    else none
  | 1 => if off < 0x8A0 then plain else if off < 0x8B0 then plain else none
  | 2 => if off < 0x4000 then (if 0x28 ≤ off % 64 then some 0 else plain) else none
  | 3 => if off < 0x400 then readLink s die (off / 0x40) (off % 0x40) else none
  | 4 => if off = 0 then plain else none
  | _ => none

/-- A device register as a read finds it; nothing where the block or offset is unlisted. -/
def devRead (s : State) (a : Nat) : Option Word :=
  let cl := devCl a
  if cl < 80 then readCluster s (80 * devDie a + cl) (devBlock a) (devOff a)
  else if cl = 127 then readDie s (devDie a) (devBlock a) (devOff a)
  else none

def writeCm (s : State) (cl off : Nat) (v : Word) : Option State :=
  if off = 0 then some (writeSplit s cl v)
  else if off = 8 then some (s.devSet (clDev cl 0 8) (maskBits v 7 0))
  else if off < 0x90 then
    some (s.devSet (clDev cl 0 off) (if off % 16 = 0 then maskBits v 63 63 ||| maskBits v 47 6 else maskBits v 47 6))
  else if 0x100 ≤ off ∧ off < 0x180 then some (writeLost s cl ((off - 0x100) / 8) v)
  else none

def writeMa (s : State) (cl off : Nat) (v : Word) : Option State :=
  if off < 0x80 then some (s.devSet (clDev cl 1 off) (maskBits v 8 0))
  else if off = 0x80 then some (s.devSet (clDev cl 1 off) (maskBits v 35 0))
  else if off = 0x88 then some s
  else if off = 0x90 then some (s.devSet (clDev cl 1 off) (maskBits v 31 0))
  else none

def writeCluster (s : State) (cl block off : Nat) (v : Word) : Option State :=
  match block with
  | 0 => writeCm s cl off v
  | 1 => writeMa s cl off v
  | 2 => if off < 0x1000 then some (writePool s cl off v) else none
  | 3 =>
    if off < 0x40 then
      some (s.devSet (clDev cl 3 off) (if off % 16 = 0 then maskBits v 63 63 ||| maskBits v 47 0 else maskBits v 47 0))
    else none
  | 4 =>
    if off < 0x40 then some (setClusterCtr s cl (off / 8) (ctrWritten (clusterTotal s cl (off / 8)) v))
    else if off < 0x80 then some (setClusterSel s cl ((off - 0x40) / 8) v) else none
  | b => if 16 ≤ b ∧ b < 32 then writeDebug s (16 * cl + (b - 16)) off v else none

def writeDie (s : State) (die block off : Nat) (v : Word) : Option State :=
  match block with
  | 0 =>
    if off = 0 then some s
    else if off = 8 then some (s.devSet (dieDev die 0 8) (maskBits v 31 0))
    else if 0x100 ≤ off ∧ off < 0x1100 ∧ (off - 0x100) % 64 < 0x30 then
      some (writeGroup s die ((off - 0x100) / 64) ((off - 0x100) % 64 / 8) v)
    else none
  | 1 =>
    if off < 0x800 then some (s.devSet (dieDev die 1 off) (v &&& 0xF1))
    else if off < 0x8A0 then some (writeFence s die ((off - 0x800) / 8) v)
    else if off < 0x8B0 then some (s.devSet (dieDev die 1 off) (maskBits v 31 0))
    else none
  | 2 => if off < 0x4000 then some (writePart s die off v) else none
  | 3 => if off < 0x400 then writeLink s die (off / 0x40) (off % 0x40) v else none
  | 4 => if off = 0 then some (s.devSet (dieDev die 4 0) (maskBits v 63 63 ||| maskBits v 47 34)) else none
  | _ => none

/-- A write of a device register under its access rules; nothing where the block or offset is unlisted. -/
def devWrite (s : State) (a : Nat) (v : Word) : Option State :=
  let cl := devCl a
  if cl < 80 then writeCluster s (80 * devDie a + cl) (devBlock a) (devOff a) v
  else if cl = 127 then writeDie s (devDie a) (devBlock a) (devOff a) v
  else none

end Sys2Proof.Machine
end

