-- ==== Sys2Proof/Machine/Operands.lean ====
section
/-! DEFINITION. Operand forms: port registers (R32, R33, R255, R261, R262), scalar sources and destinations (R31, R38,
R64), long-latency results, and the effective address of a memory operand (R167). -/

namespace Sys2Proof.Machine

/-! Link ports (R261). -/

/-- Doublewords of a receive buffer for a direction, and those on their way to it. -/
def linkCount (x : CoreSt) (dir : Nat) : Nat :=
  (x.linkbuf.filter fun p => p.1 == dir).length + (x.linkfly.filter fun p => p.1 == dir).length

/-- The doublewords in a slot's pop and push records, those to come from outstanding instructions among them
(R262). -/
def recordCount (sl : Slot) : Nat :=
  sl.pops.length + sl.pushes.length +
    (sl.outst.filter fun o => match o.what with | .pop _ _ p _ => p < 52 | _ => false).length +
    (sl.outst.filter fun o => decide (48 ≤ o.dest ∧ o.dest ≤ 51)).length

/-- The first doubleword of a buffer for a direction, and the buffer without it. -/
def takeFirst (dir : Nat) : List (Nat × Word) → Option (Word × List (Nat × Word))
  | [] => none
  | (d, v) :: r => if d = dir then some (v, r) else (takeFirst dir r).map fun q => (q.1, (d, v) :: q.2)

/-! Engine tokens (R255). -/

/-- The tokens of a slot's strand on a queue that no pop of this activation has taken: the command numbers taken by
pops that still wait are passed over too. -/
def freeTokens (s : State) (sl : Slot) (q : Nat) : List Token :=
  let claimed := sl.outst.filterMap fun o => match o.what with
    | .pop _ _ p c => if p = 52 + q then some c else none
    | _ => none
  (s.strand sl.strand).toks.filter fun t => t.queue == q && !sl.tokPops.contains (q, t.qseq) && !claimed.contains t.qseq

/-! Pops (R32, R33). -/

/-- The trap that a pop of a port register raises. `acc` gives the ACCESS causes, which come before QDEAD (R383). -/
def popAccess (s : State) (i : Instr) (r : Nat) : Option TrapInfo :=
  let sl := s.me
  if r = 56 then (if sl.inbox.isEmpty then some (faultOf s i 4 32 (BitVec.ofNat 64 sl.inboxN)) else none)
  else if 48 ≤ r ∧ r ≤ 51 then
    (if 64 ≤ recordCount sl then some (faultOf s i 4 27 (BitVec.ofNat 64 (r - 48))) else none)
  else none

/-- QDEAD at a pop of an engine queue with no committed command (R255). -/
def popQdead (s : State) (i : Instr) (r : Nat) : Option TrapInfo :=
  if 52 ≤ r ∧ r ≤ 55 ∧ (freeTokens s s.me (r - 52)).isEmpty then some (faultOf s i 7 0 (BitVec.ofNat 64 (r - 52)))
  else none

/-- The command number that a pop of an engine queue takes: the oldest. -/
def popClaim (s : State) (r : Nat) : Nat :=
  if 52 ≤ r ∧ r ≤ 55 then
    match freeTokens s s.me (r - 52) with
    | t :: _ => t.qseq
    | [] => 0
  else 0

/-- Whether an outstanding instruction still waits for a pop of the port, so that later pops of it wait behind, or a
check is to come before any pop (R62). -/
def popWaiting (sl : Slot) (r : Nat) : Bool :=
  mulPending sl || sl.outst.any fun o => match o.what with | .pop _ _ p _ => p == r | _ => false

/-- A pop of a port register by the issuing slot, where a doubleword is there: the state after it and its value. For
an engine queue, `claim` is the number of the command whose completion word it takes. -/
def popNow (s : State) (r claim : Nat) : Option (State × Word) :=
  let sl := s.me
  if r = 56 then
    match sl.inbox with
    | v :: rest => some (s.setMe { sl with inbox := rest }, v)
    | [] => none
  else if r ≤ 51 then
    let dir := portDir sl (r - 48)
    let x := s.core s.cur.core
    match takeFirst dir x.linkbuf with
    | some (v, rest) =>
      let s1 := s.setCore s.cur.core { x with linkbuf := rest }
      some (s1.setMe { sl with pops := sl.pops ++ [(dir, v)] }, v)
    | none => none
  else
    match (s.strand sl.strand).toks.find? fun t => t.queue == r - 52 && t.qseq == claim with
    | some t => t.done.map fun v => (s.setMe { sl with tokPops := sl.tokPops ++ [(r - 52, claim)] }, v)
    | none => none

/-! Pushes (R32, R33, R255, R262). -/

/-- Doublewords appended to outb, those to come among them. -/
def outbCount (sl : Slot) : Nat := sl.outb.length + (sl.outst.filter fun o => o.dest == 57).length

/-- The trap that a push to a port register raises. -/
def pushAccess (s : State) (i : Instr) (r : Nat) : Option TrapInfo :=
  let sl := s.me
  if r = 57 then (if 32 ≤ outbCount sl then some (faultOf s i 4 38 32) else none)
  else if 52 ≤ r ∧ r ≤ 55 then
    (if 16 ≤ outstanding s sl (r - 52) then some (faultOf s i 4 26 (BitVec.ofNat 64 (r - 52))) else none)
  else if 48 ≤ r ∧ r ≤ 51 then
    (if 64 ≤ recordCount sl then some (faultOf s i 4 27 (BitVec.ofNat 64 (r - 48))) else none)
  else none

/-- The push record that the trigger keeps for a direction from an aborted run, from this run's next push on
(R262). -/
def recordLeft (sl : Slot) (dir : Nat) : List Word :=
  ((sl.trig.pushed.filter fun p => p.1 == dir).drop (sl.pushes.filter fun p => p.1 == dir).length).map (·.2)

/-- Why a push waits at issue: an earlier instruction has still to push to the same register or to pass its check
(R62), the neighbour's buffer is full, a 65th entry must first turn the activation irrevocable, or the NI issues no
message. A write of a general register never waits. -/
def pushWait (s : State) (r : Nat) : Option StallWhy :=
  let sl := s.me
  if r ≤ 47 then none
  else if mulPending sl || sl.outst.any fun o => o.dest == r then some .outbOrder
  else if 48 ≤ r ∧ r ≤ 51 then
    let dir := portDir sl (r - 48)
    match neighbour s.cur.core dir with
    | some c => if (recordLeft sl dir).isEmpty && decide (16 ≤ linkCount (s.core c) (opposite dir)) then some .linkFull
                else none
    | none => none
  else if 52 ≤ r ∧ r ≤ 55 then
    if outFull sl then some .commitToken
    else if sl.irrev && retFull s s.cur.core then some .retRoom else none
  else none

/-- A doubleword sent through a link port: on its way to the neighbour, and in the push record; one that repeats the
record of an earlier run is not sent again, and one that differs from it is refused (R262). -/
def pushLink (s : State) (p : Nat) (v : Word) : Option State :=
  let sl := s.me
  let dir := portDir sl p
  let s1 := s.setMe { sl with pushes := sl.pushes ++ [(dir, v)] }
  match recordLeft sl dir with
  | w :: _ => if w = v then some s1 else none
  | [] =>
    match neighbour s.cur.core dir with
    | some c =>
      let x := s1.core c
      some (s1.setCore c { x with linkfly := x.linkfly ++ [(opposite dir, v)] })
    | none => some s1

/-- A command word pushed to an engine queue (R255). -/
def pushEngine (s : State) (q : Nat) (v : Word) : State :=
  addOut s (.engine q v (nextQseq s s.me q) (captures s.me))

/-- A push to a port register (R32); nothing where a link push differs from its record. -/
def pushTo (s : State) (r : Nat) (v : Word) : Option State :=
  if r = 57 then some (s.setMe { s.me with outb := s.me.outb ++ [v] })
  else if r ≤ 51 then pushLink s (r - 48) v
  else some (pushEngine s (r - 52) v)

/-! Sources. -/

/-- A source register that does not pop (R31, R32): a general register or tsr. -/
def srcVal (sl : Slot) (r : Reg) : Word := if r.toNat = 58 then sl.ts else sl.g r.toNat

/-- What reading a list of sources gives: the values, or the values without the popped one where its doubleword is not
there yet. -/
inductive SrcOut where
  | ok (s : State) (v : List Word)
  | wait (v : List (Nat × Word)) (port claim : Nat)

/-- The values of sources that do not pop, by position. -/
def plainVals (sl : Slot) (rs : List Reg) : List (Nat × Word) :=
  (rs.zipIdx.filter fun p => !isPop p.1).map fun p => (p.2, srcVal sl p.1)

/-- Values by position, with `v` in the place of the popped one. -/
def fillVals (n : Nat) (vals : List (Nat × Word)) (v : Word) : List Word :=
  (natsFrom 0 n).map fun k => match vals.find? fun p => p.1 == k with
    | some p => p.2
    | none => v

/-- Read the sources of an instruction that may name one pop-capable register. -/
def readSrcs (s : State) (rs : List Reg) : SrcOut :=
  match rs.find? isPop with
  | none => .ok s (rs.map (srcVal s.me))
  | some p =>
    let c := popClaim s p.toNat
    if popWaiting s.me p.toNat then .wait (plainVals s.me rs) p.toNat c
    else
      match popNow s p.toNat c with
      | some (s1, v) => .ok s1 (fillVals rs.length (plainVals s.me rs) v)
      | none => .wait (plainVals s.me rs) p.toNat c

/-- The traps of an instruction's ports: ACCESS of the source, then of the destination, then QDEAD. -/
def portTrap (s : State) (i : Instr) (srcs : List Reg) (dest : Option Reg) : Option TrapInfo :=
  match srcs.find? isPop with
  | some p =>
    match popAccess s i p.toNat with
    | some t => some t
    | none =>
      match dest.bind fun d => pushAccess s i d.toNat with
      | some t => some t
      | none => popQdead s i p.toNat
  | none => dest.bind fun d => pushAccess s i d.toNat

/-! Destinations. -/

/-- The `once` instance that the instruction at the PC belongs to; 0 outside one (R127). -/
def onceNo (sl : Slot) : Nat := if sl.team.isSome ∧ sl.onceArm = some sl.pc then sl.onceN else 0

/-- Write a result to a general register, or push it. -/
def putResult (s : State) (d : Nat) (v : Word) : Res :=
  if d ≤ 47 then .done (s.setMe (s.me.setG d v))
  else
    match pushTo s d v with
    | some s1 => .done s1
    | none => .abort s 0x12

/-- Registers that are pending for a destination: none for g0 or a port register (R38). -/
def pendsFor (d : Nat) (pair : Bool) : List Nat :=
  if d = 0 ∨ 47 < d then [] else if pair then [d, d + 1] else [d]

/-- The index and the command number that an instruction takes at issue whose result is pushed to an engine queue
(R33). -/
def ticketFor (s : State) (d : Nat) : Option (Nat × Nat) :=
  if 52 ≤ d ∧ d ≤ 55 then some (s.me.nextIdx, nextQseq s s.me (d - 52)) else none

/-- The entry of an outstanding instruction that issues now. -/
def outstOf (s : State) (i : Instr) (d : Nat) (pair : Bool) (what : LongWhat) : Outst :=
  { dest := d, pair := pair, what := what, major := majorOf i, func := funcOfInstr i, pc := s.me.pc, once := onceNo s.me,
    ticket := ticketFor s d }

/-- An instruction is outstanding, and its registers are pending until the next park (R38). -/
def addOutst (s : State) (o : Outst) : State :=
  let sl := s.me
  s.setMe { sl with outst := sl.outst ++ [o], pend := sl.pend ++ pendsFor o.dest o.pair,
                    nextIdx := if (ticketFor s o.dest).isSome then sl.nextIdx + 1 else sl.nextIdx }

/-- A long-latency result whose value is known is outstanding until it returns (R38). -/
def putLong (s : State) (i : Instr) (d : Nat) (pair : Bool) (v hi : Word) : Res :=
  .done (addOutst s (outstOf s i d pair (.value v hi)))

/-- An instruction whose popped operand has not arrived is outstanding with the operands it has (R32, R38). A push to
an engine queue takes its index and its number now (R33). -/
def deferPop (s : State) (i : Instr) (d : Nat) (vals : List (Nat × Word)) (port claim : Nat) : Res :=
  .done (addOutst s (outstOf s i d false (.pop i vals port claim)))

/-- The vector-to-scalar moves, long-latency instructions that the ring holds (R38, R306). -/
def isScalarMove : Instr → Bool
  | .vred .. | .vbexp .. => true
  | .vmov _ f _ _ _ _ _ => f == .ext32 || f == .ext64
  | .vmsk _ f _ _ _ => f == .tog || f == .popc || f == .ffs
  | _ => false

/-- The long-latency results of a slot that are outstanding. -/
def longCount (sl : Slot) : Nat := sl.outst.length + (sl.vq.filter fun o => isScalarMove o.instr).length

/-- Whether 16 results are outstanding, so that one more waits at issue (R40). -/
def outLimit (sl : Slot) : Bool := decide (16 ≤ longCount sl)

/-! Memory operands (R167). -/

/-- sx(D9, 9) x 2^k as a doubleword. -/
def dispOf (m : MemOp) (k : Nat) : Word := (m.d9.signExtend 64) <<< k

/-- A memory operand with access size 2^k: its effective address under the AGU's check. -/
def withEa (s : State) (i : Instr) (m : MemOp) (k : Nat) (f : State → Word → Res) : Res :=
  withAgu s i (s.me.g m.b.toNat) (s.me.g m.x.toNat) k (dispOf m k) f

end Sys2Proof.Machine
end

