-- ==== Sys2Proof/Machine/Integer.lean ====
section
/-! DEFINITION. Integer and address instructions (R64 to R73). A popping source makes any of them long-latency
(R32, R38). -/

namespace Sys2Proof.Machine

/-! Values (R65 to R72). -/

/-- A 0/1 result. -/
def boolVal {w : Nat} (b : Bool) : BitVec w := if b then 1 else 0

/-- The function table of R65 on `w` bits; `n` is the shift amount. -/
def aluOp {w : Nat} (f : AluFn) (a b : BitVec w) (n : Nat) : BitVec w :=
  match f with
  | .add => a + b
  | .sub => a - b
  | .and => a &&& b
  | .or => a ||| b
  | .xor => a ^^^ b
  | .andn => a &&& ~~~b
  | .sll => a <<< n
  | .srl => a >>> n
  | .sra => a.sshiftRight n
  | .rol => a.rotateLeft n
  | .ror => a.rotateRight n
  | .slt => boolVal (a.slt b)
  | .sltu => boolVal (a.ult b)
  | .seq => boolVal (a == b)
  | .min => if b.slt a then b else a
  | .max => if a.slt b then b else a

/-- `alu` (R65): the amount of a shift is gC[5:0]. -/
def aluVal (f : AluFn) (a b : Word) : Word := aluOp f a b (b.toNat % 64)

/-- `aluw` (R65): bits [31:0] of the sources, the 32-bit result sign-extended. -/
def aluwVal (f : AluFn) (a b : Word) : Word :=
  (aluOp f (a.setWidth 32) (b.setWidth 32) (b.toNat % 32)).signExtend 64

/-- The number of zero bits above the highest set bit (R70). -/
def clz64 (v : Nat) : Nat := if v = 0 then 64 else 63 - Nat.log2 v

/-- The number of zero bits below the lowest set bit (R70). -/
def ctz64 (v : Nat) : Nat := ((natsFrom 0 64).find? fun i => v.testBit i).getD 64

/-- Bit `i` of `v` at place `63 - i` (R70). -/
def brev64 (v : Nat) : Nat := (natsFrom 0 64).foldl (fun r i => if v.testBit i then r + 2 ^ (63 - i) else r) 0

/-- Byte `i` of `v` at place `7 - i` (R70). -/
def bswap64 (v : Nat) : Nat := (natsFrom 0 8).foldl (fun r i => r + v / 2 ^ (8 * i) % 256 * 2 ^ (8 * (7 - i))) 0

/-- The places of the set bits of a mask, in ascending order. -/
def setBits (m : Nat) : List Nat := (natsFrom 0 64).filter fun i => m.testBit i

/-- `bext` (R70): the bits of `v` at the places set in `m`, packed from bit 0. -/
def bext64 (v m : Nat) : Nat := (setBits m).zipIdx.foldl (fun r p => if v.testBit p.1 then r + 2 ^ p.2 else r) 0

/-- `bdep` (R70): the low bits of `v` at the places set in `m`. -/
def bdep64 (v m : Nat) : Nat := (setBits m).zipIdx.foldl (fun r p => if v.testBit p.2 then r + 2 ^ p.1 else r) 0

/-- `bit` (R70). -/
def bitVal (f : BitFn) (b c : Word) : Word :=
  match f with
  | .clz => BitVec.ofNat 64 (clz64 b.toNat)
  | .ctz => BitVec.ofNat 64 (ctz64 b.toNat)
  | .popc => BitVec.ofNat 64 (popcount b.toNat)
  | .brev => BitVec.ofNat 64 (brev64 b.toNat)
  | .bswap => BitVec.ofNat 64 (bswap64 b.toNat)
  | .sxb => (b.setWidth 8).signExtend 64
  | .sxh => (b.setWidth 16).signExtend 64
  | .sxw => (b.setWidth 32).signExtend 64
  | .zxb => (b.setWidth 8).setWidth 64
  | .zxh => (b.setWidth 16).setWidth 64
  | .zxw => (b.setWidth 32).setWidth 64
  | .bext => BitVec.ofNat 64 (bext64 b.toNat c.toNat)
  | .bdep => BitVec.ofNat 64 (bdep64 b.toNat c.toNat)

/-- The conditions of `sel` (R71). -/
def selHolds (c : SelCond) (v : Word) : Bool :=
  match c with
  | .nz => v != 0
  | .z => v == 0
  | .ltz => v.msb
  | .gez => !v.msb
  | .gtz => !v.msb && v != 0
  | .lez => v.msb || v == 0

/-- `addr` (R72). -/
def addrVal (f : AddrFn) (b c d : Word) (sh : BitVec 3) (x : BitVec 8) : Word :=
  match f with
  | .idx => b + (c <<< sh.toNat) + x.signExtend 64
  | .dec => b - (c <<< sh.toNat) + x.signExtend 64
  | .add3 => b + (c <<< sh.toNat) + d + x.signExtend 64

/-! Multiplication and division (R68, R69). -/

/-- A signed reading of `w` bits as sign and magnitude. -/
def magOf (w v : Nat) : Nat := (sxInt v w).natAbs

/-- The magnitudes that a division works on. -/
def divMag (signed : Bool) (w v : Nat) : Nat := if signed then magOf w (v % 2 ^ w) else v % 2 ^ w

/-- The quotient of magnitudes; a divisor of 0 gives all ones (R69). -/
def divQuo (n d : Nat) : Nat := if d = 0 then 2 ^ 64 - 1 else n / d

/-- The remainder of magnitudes; a divisor of 0 leaves the dividend. -/
def divRem (n d : Nat) : Nat := if d = 0 then n else n % d

/-- A magnitude with a sign, as a `w`-bit pattern sign-extended. -/
def signedVal (w : Nat) (neg : Bool) (m : Nat) : Word :=
  let v : Int := if neg then -(m : Int) else m
  BitVec.ofInt 64 (sxInt ((v % (2 ^ w : Nat)).toNat) w)

/-- Whether the quotient is negative: signs differ and the divisor is not 0. -/
def quoNeg (signed : Bool) (w a b : Nat) : Bool :=
  signed && (a.testBit (w - 1) != b.testBit (w - 1)) && b % 2 ^ w != 0

/-- Whether the remainder is negative: the dividend is. -/
def remNeg (signed : Bool) (w a : Nat) : Bool := signed && a.testBit (w - 1)

/-- A step of the multiplier or divider: what it produces, its relation of R59 as the residues observed and predicted
(assumption log 37), the addition that corrects the high half of a product, and the result. -/
structure MulStep where
  raw : Word
  check : Nat → Nat × Nat
  fix : Option Word
  post : Word → Word

/-- The quotient forms. The relation holds also of a quotient that is wrong by a multiple of 15 / gcd(15, d), which
R61 would have it find (assumption log 166). -/
def quoStep (signed : Bool) (w a b : Nat) : MulStep :=
  let n := divMag signed w a
  let d := divMag signed w b
  { raw := BitVec.ofNat 64 (divQuo n d),
    check := fun q => ((res q * res d + res (divRem n d)) % 15, res n), fix := none,
    post := fun q => signedVal w (quoNeg signed w a b) q.toNat }

/-- The remainder forms. -/
def remStep (signed : Bool) (w a b : Nat) : MulStep :=
  let n := divMag signed w a
  let d := divMag signed w b
  { raw := BitVec.ofNat 64 (divRem n d),
    check := fun m => ((res (divQuo n d) * res d + res m) % 15, res n), fix := none,
    post := fun m => signedVal w (remNeg signed w a) m.toNat }

/-- The low half of a product. -/
def mulLoStep (a b : Nat) : MulStep :=
  { raw := BitVec.ofNat 64 (a * b),
    check := fun lo => ((res (a * b / 2 ^ 64) + res lo) % 15, res a * res b % 15), fix := none, post := id }

/-- The high half of a product; the signed forms correct the high half of the unsigned one by
an addition. -/
def mulHiStep (sa sb : Bool) (a b : Nat) : MulStep :=
  let fix := (if sa && a.testBit 63 then b else 0) + (if sb && b.testBit 63 then a else 0)
  { raw := BitVec.ofNat 64 (a * b / 2 ^ 64),
    check := fun hi => ((res hi + res (a * b % 2 ^ 64)) % 15, res a * res b % 15),
    fix := if sa then some (-(BitVec.ofNat 64 fix)) else none, post := id }

/-- The product of two 32-bit operands. -/
def mulwStep (a b : Nat) : MulStep :=
  let x := a % 2 ^ 32
  let y := b % 2 ^ 32
  { raw := BitVec.ofNat 64 (x * y), check := fun p => (res p, res x * res y % 15), fix := none,
    post := fun p => (p.setWidth 32).signExtend 64 }

/-- The function table of R68. -/
def mulStep (f : MulFn) (a b : Nat) : MulStep :=
  match f with
  | .mul => mulLoStep a b
  | .mulh => mulHiStep true true a b
  | .mulhu => mulHiStep false false a b
  | .mulhsu => mulHiStep true false a b
  | .div => quoStep true 64 a b
  | .divu => quoStep false 64 a b
  | .rem => remStep true 64 a b
  | .remu => remStep false 64 a b
  | .mulw => mulwStep a b
  | .divw => quoStep true 32 a b
  | .divuw => quoStep false 32 a b
  | .remw => remStep true 32 a b
  | .remuw => remStep false 32 a b

/-- `muldiv` (R68, R69). -/
def mulVal (f : MulFn) (a b : Word) : Word :=
  let m := mulStep f a.toNat b.toNat
  m.post (m.raw + m.fix.getD 0)

/-! Units (R57). -/

/-- The adder, and the logic and shift units whose results parity checks. -/
def unitAdd (w a b : Nat) : UnitOf := ⟨1, .residue (predAdd w (a % 2 ^ w) (b % 2 ^ w))⟩
def unitSub (w a b : Nat) : UnitOf := ⟨1, .residue (predSub w (a % 2 ^ w) (b % 2 ^ w))⟩
def unitLogic : UnitOf := ⟨4, .parity⟩
def unitCount : UnitOf := ⟨4, .count⟩

/-- The functions that compare (R59). -/
def aluCompares : AluFn → Bool
  | .slt | .sltu | .seq | .min | .max => true
  | _ => false

/-- a - b of R65's compares as the adder forms it. -/
def diffVal (w : Nat) (a b : Word) : Word := if w = 32 then aluwVal .sub a b else a - b

/-- Whether a is below b, read from a difference of `w` bits: by the difference's sign where the operands' top bits
agree, else by those bits. -/
def ltOfDiff (w : Nat) (signed : Bool) (a b d : Nat) : Bool :=
  if a.testBit (w - 1) = b.testBit (w - 1) then d.testBit (w - 1)
  else if signed then a.testBit (w - 1) else b.testBit (w - 1)

/-- A compare's result from the difference. -/
def cmpOfDiff (w : Nat) (f : AluFn) (a b d : Word) : Word :=
  let keep (v : Word) : Word := if w = 32 then (v.setWidth 32).signExtend 64 else v
  match f with
  | .slt => boolVal (ltOfDiff w true a.toNat b.toNat d.toNat)
  | .sltu => boolVal (ltOfDiff w false a.toNat b.toNat d.toNat)
  | .min => if ltOfDiff w true a.toNat b.toNat d.toNat then keep a else keep b
  | .max => if ltOfDiff w true a.toNat b.toNat d.toNat then keep b else keep a
  | _ => boolVal (d == 0)

/-- The result of `alu` or `aluw` by width. -/
def aluOf (w : Nat) (f : AluFn) (a b : Word) : Word := if w = 32 then aluwVal f a b else aluVal f a b

/-- An ALU function in its units (R57, R59). A compare forms the difference in the adder, and its result passes the
logic unit. -/
def withAlu (s : State) (i : Instr) (pc : Word) (w : Nat) (f : AluFn) (a b : Word) (k : State → Word → Res) : Res :=
  if f = .add then withUnitAt s i pc (unitAdd w a.toNat b.toNat) (aluOf w f a b) k
  else if f = .sub then withUnitAt s i pc (unitSub w a.toNat b.toNat) (aluOf w f a b) k
  else if aluCompares f then
    withUnitAt s i pc (unitSub w a.toNat b.toNat) (diffVal w a b) fun s1 d =>
      withUnitAt s1 i pc unitLogic (if d = diffVal w a b then aluOf w f a b else cmpOfDiff w f a b d) k
  else withUnitAt s i pc unitLogic (aluOf w f a b) k

/-- Multiplication and division under the relations of R59; a correction is an addition and is checked as one. -/
def withMul (s : State) (i : Instr) (pc : Word) (f : MulFn) (a b : Word) (k : State → Word → Res) : Res :=
  let m := mulStep f a.toNat b.toNat
  withUnitAt s i pc ⟨1, .product m.check⟩ m.raw fun s1 v =>
    match m.fix with
    | none => k s1 (m.post v)
    | some c => withUnitAt s1 i pc (unitAdd 64 v.toNat c.toNat) (v + c) fun s2 w => k s2 (m.post w)

/-- `bit` in the counter or the logic unit. -/
def withBit (s : State) (i : Instr) (pc : Word) (f : BitFn) (b c : Word) (k : State → Word → Res) : Res :=
  match f with
  | .clz | .ctz | .popc => withUnitAt s i pc unitCount (bitVal f b c) k
  | _ => withUnitAt s i pc unitLogic (bitVal f b c) k

/-- `sel` (R71): the test in the adder, then the selection. -/
def withSel (s : State) (i : Instr) (pc : Word) (c : SelCond) (x y t : Word) (k : State → Word → Res) : Res :=
  withUnitAt s i pc (unitSub 64 t.toNat 0) t fun s1 d =>
    withUnitAt s1 i pc unitLogic (if selHolds c d then x else y) k

/-- The residue that the AGU predicts for `addr`. -/
def addrPred (f : AddrFn) (b c d : Nat) (sh : BitVec 3) (x : BitVec 8) : Nat :=
  let disp := (x.signExtend 64).toNat
  match f with
  | .idx => predAgu b c sh.toNat disp
  | .dec => predAguDec b c sh.toNat disp
  | .add3 => predAdd3 b c sh.toNat d disp

def withAddr (s : State) (i : Instr) (pc : Word) (f : AddrFn) (b c d : Word) (sh : BitVec 3) (x : BitVec 8)
    (k : State → Word → Res) : Res :=
  withUnitAt s i pc ⟨2, .residue (addrPred f b.toNat c.toNat d.toNat sh x)⟩ (addrVal f b c d sh x) k

/-! Issue and late completion. -/

/-- The sources of an integer instruction that may pop. -/
def intSrcs : Instr → List Reg
  | .alu _ _ _ b c | .aluw _ _ _ b c | .muldiv _ _ _ b c => [b, c]
  | .alui _ _ _ b _ | .aluiw _ _ _ b _ => [b]
  | .bit _ f _ b c => if f.isBinary then [b, c] else [b]
  | .sel _ _ _ b c d => [b, c, d]
  | .addr _ f _ b c d _ _ => if f = .add3 then [b, c, d] else [b, c]
  | _ => []

/-- The result of an integer instruction from its source values, through its units. -/
def withInt (s : State) (i : Instr) (pc : Word) (vals : List Word) (k : State → Word → Res) : Res :=
  let v (n : Nat) : Word := vals.getD n 0
  match i with
  | .alu _ f _ _ _ => withAlu s i pc 64 f (v 0) (v 1) k
  | .aluw _ f _ _ _ => withAlu s i pc 32 f (v 0) (v 1) k
  | .alui _ f _ _ imm => withAlu s i pc 64 f (v 0) (imm.signExtend 64) k
  | .aluiw _ f _ _ imm => withAlu s i pc 32 f (v 0) (imm.signExtend 64) k
  | .muldiv _ f _ _ _ => withMul s i pc f (v 0) (v 1) k
  | .bit _ f _ _ _ => withBit s i pc f (v 0) (v 1) k
  | .sel _ c _ _ _ _ => withSel s i pc c (v 0) (v 1) (v 2) k
  | .addr _ f _ _ _ _ sh x => withAddr s i pc f (v 0) (v 1) (v 2) sh x k
  | _ => k s 0

/-- Issue of an integer instruction (R32, R33, R38, R40, R64): its ports, its sources, its units, its destination. One
whose operand has not arrived stays outstanding. -/
def intBody (i : Instr) (d : Reg) (long : Bool) (s : State) : Res :=
  let srcs := intSrcs i
  let pops := srcs.any isPop
  match portTrap s i srcs (some d) with
  | some t => .trap t
  | none =>
    if (long || pops) && outLimit s.me then .stall s .outLimit
    else
      match pushWait s d.toNat with
      | some w => .stall s w
      | none =>
        match readSrcs s srcs with
        | .wait vals p c => deferPop s i d.toNat vals p c
        | .ok s1 vals => withInt s1 i s1.me.pc vals fun s2 v =>
            if long || pops then putLong s2 i d.toNat false v 0 else putResult s2 d.toNat v

/-- Issue of an instruction without sources that writes a value through the logic unit. -/
def constBody (i : Instr) (d : Reg) (v : Word) (s : State) : Res :=
  match portTrap s i [] (some d) with
  | some t => .trap t
  | none =>
    match pushWait s d.toNat with
    | some w => .stall s w
    | none => withUnit s i unitLogic v fun s1 x => putResult s1 d.toNat x

/-! The instructions. -/

/-- `alu` (R65). -/
def execAlu (sw : Bool) (f : AluFn) (a b c : Reg) (s : State) : Host.Outcome State Fault Refusal :=
  next (runInstr (.alu sw f a b c) sw [b.toNat, c.toNat, a.toNat] (intBody (.alu sw f a b c) a false) s)

/-- `aluw` (R65). -/
def execAluw (sw : Bool) (f : AluFn) (a b c : Reg) (s : State) : Host.Outcome State Fault Refusal :=
  next (runInstr (.aluw sw f a b c) sw [b.toNat, c.toNat, a.toNat] (intBody (.aluw sw f a b c) a false) s)

/-- `muldiv` (R68, R69). -/
def execMuldiv (sw : Bool) (f : MulFn) (a b c : Reg) (s : State) : Host.Outcome State Fault Refusal :=
  next (runInstr (.muldiv sw f a b c) sw [b.toNat, c.toNat, a.toNat] (intBody (.muldiv sw f a b c) a true) s)

/-- `alui` (R66). -/
def execAlui (sw : Bool) (f : AluFn) (a b : Reg) (imm : BitVec 16) (s : State) : Host.Outcome State Fault Refusal :=
  next (runInstr (.alui sw f a b imm) sw [b.toNat, a.toNat] (intBody (.alui sw f a b imm) a false) s)

/-- `aluiw` (R66). -/
def execAluiw (sw : Bool) (f : AluFn) (a b : Reg) (imm : BitVec 16) (s : State) : Host.Outcome State Fault Refusal :=
  next (runInstr (.aluiw sw f a b imm) sw [b.toNat, a.toNat] (intBody (.aluiw sw f a b imm) a false) s)

/-- `li` with a 16-bit tail (R67). -/
def execLiImm16 (sw : Bool) (a : Reg) (imm : BitVec 16) (s : State) : Host.Outcome State Fault Refusal :=
  next (runInstr (.liImm16 sw a imm) sw [a.toNat] (constBody (.liImm16 sw a imm) a (imm.signExtend 64)) s)

/-- `li` with a 32-bit tail (R67). -/
def execLiImm32 (sw : Bool) (a : Reg) (imm : BitVec 32) (s : State) : Host.Outcome State Fault Refusal :=
  next (runInstr (.liImm32 sw a imm) sw [a.toNat] (constBody (.liImm32 sw a imm) a (imm.signExtend 64)) s)

/-- `li` with a 48-bit tail (R67). -/
def execLiImm48 (sw : Bool) (a : Reg) (imm : BitVec 48) (s : State) : Host.Outcome State Fault Refusal :=
  next (runInstr (.liImm48 sw a imm) sw [a.toNat] (constBody (.liImm48 sw a imm) a (imm.signExtend 64)) s)

/-- The registers of `bit`, for R39. -/
def bitDeps (f : BitFn) (a b c : Reg) : List Nat :=
  if f.isBinary then [b.toNat, c.toNat, a.toNat] else [b.toNat, a.toNat]

/-- `bit` (R70). -/
def execBit (sw : Bool) (f : BitFn) (a b c : Reg) (s : State) : Host.Outcome State Fault Refusal :=
  next (runInstr (.bit sw f a b c) sw (bitDeps f a b c) (intBody (.bit sw f a b c) a false) s)

/-- `sel` (R71). -/
def execSel (sw : Bool) (c : SelCond) (a b cc d : Reg) (s : State) : Host.Outcome State Fault Refusal :=
  next (runInstr (.sel sw c a b cc d) sw [b.toNat, cc.toNat, d.toNat, a.toNat] (intBody (.sel sw c a b cc d) a false) s)

/-- `addr` (R72). -/
def execAddr (sw : Bool) (f : AddrFn) (a b c d : Reg) (sh : BitVec 3) (x : BitVec 8) (s : State) :
    Host.Outcome State Fault Refusal :=
  next (runInstr (.addr sw f a b c d sh x) sw ((intSrcs (.addr sw f a b c d sh x)).map (·.toNat) ++ [a.toNat])
    (intBody (.addr sw f a b c d sh x) a false) s)

/-- The address that `mova.pcl` gives: its own line plus a line offset (R73). -/
def pclVal (pc : Word) (off : BitVec 12) : Word := (pc &&& ~~~(63 : Word)) + (off.signExtend 64 <<< 6)

/-- `mova.pcl` (R73). -/
def execMovaPcl (sw : Bool) (a : Reg) (off : BitVec 12) (s : State) : Host.Outcome State Fault Refusal :=
  next (runInstr (.movaPcl sw a off) sw [a.toNat] (constBody (.movaPcl sw a off) a (pclVal s.me.pc off)) s)

/-- `mova.next` (R73): the PC that follows in sequence. -/
def execMovaNext (sw : Bool) (a : Reg) (s : State) : Host.Outcome State Fault Refusal :=
  next (runInstr (.movaNext sw a) sw [a.toNat] (constBody (.movaNext sw a) a s.me.npc) s)

end Sys2Proof.Machine
end

