-- ==== Sys2Proof/Machine/Fetch.lean ====
section
/-! DEFINITION. Fetching an instruction (R20 to R28, R154, R185): the line's translation, its halfwords, the head and
tail at the PC, and what a failed fetch raises. -/

namespace Sys2Proof.Machine

/-- What a fetch finds: an instruction, with the slot's sequence successor noted; a trap; or a read that ends in an
abort completion. -/
inductive FetchRes where
  | ok (s : State) (i : Instr)
  | trap (s : State) (t : TrapInfo)
  | error (s : State) (m : McInfo)

/-- The 32 halfwords of the line at a physical address (R20). -/
def lineHalves (s : State) (pa : Nat) : List (BitVec 16) := (natsFrom 0 32).map fun n => halfAt s pa n

/-- A fault of the fetch itself: MAJOR and FUNC are 0 (R375). -/
def fetchFault (pc : Word) (code cause : Nat) (trapp : Word) : TrapInfo :=
  { code := code, resume := pc, cause := cause, lane := 63, vseq := 0, fpflags := 0, major := 0, func := 0,
    trapp := trapp }

/-- The ILLEGAL of a head that issues: its major, and its function code where it has a tail to hold one (R23, R41,
R42). -/
def headFault (pc : Word) (hd : BitVec 16) (func : Nat) : TrapInfo :=
  { fetchFault pc 1 0 0 with major := hdOpc hd, func := func }

/-- The head in the head region at `h` whose tail collides with the heads (R23), if that is why `decodeLine` finds
nothing. -/
def collidingHead (line : List (BitVec 16)) (h : Nat) : Option (BitVec 16) :=
  if half line 0 = 0 then none
  else match tailSum line h with
    | none => none
    | some t => if 32 - t ≤ h ∨ half line h = 0 then none else some (half line h)

/-- What the halfwords of the fetched line give at the PC. -/
def decodeAt (s : State) (r : SlotRef) (line : List (BitVec 16)) : FetchRes :=
  let sl := s.slot r
  let pc := sl.pc
  let h := natBits pc.toNat 5 1
  let s1 := s.setSlot r { sl with npc := seqPc (pc &&& ~~~(63 : Word)) line h, vecFetch := false }
  match decodeLine line h with
  | none =>
    match collidingHead line h with
    | some hd => .trap s1 (headFault pc hd 0)
    | none => .trap s (fetchFault pc 1 0 0)
  | some e =>
    match decode e with
    | .ok i => .ok s1 i
    | .error _ => .trap s1 (headFault pc e.head (funcOf e))

/-- A fetch whose read of `pa` ends in an abort completion: firmware's interrupt, and the record of the member that
fetches the line (R144, R162). -/
def fetchAbort (s : State) (r : SlotRef) (pa : Nat) : FetchRes :=
  let pc := (s.slot r).pc
  .error (s.fwTell (paDie pa) 2 (.memoryAbort (lineOf pa))) (memAbortRecord s r 0 0 63 pc.toNat pc)

/-- Fetch at a slot's PC. The fetch at a TVB of 0 fails (R380). -/
def fetchSlot (s : State) (r : SlotRef) : FetchRes :=
  let sl := s.slot r
  let pc := sl.pc
  match translate s (slotCtx s r true) .fetch (pc.toNat / 64 * 64) 64 with
  | (s1, .fault code cause) => .trap s1 (fetchFault pc code cause pc)
  | (s1, .moving) => .trap s1 (fetchFault pc 1 0 0)
  | (s1, .abort a) => fetchAbort s1 r a
  | (s1, .ok e pa) =>
    if sl.vecFetch && sl.tvb == 0 then .trap s1 (fetchFault pc 1 0 0)
    else if lineAborts s1 pa then fetchAbort s1 r pa
    else decodeAt (touchFetch (softFix s1 pa 64) (ownerCore sl r.core pc.toNat) pa ⟨pteCattr e.pte.toNat, pteCmp e.pte.toNat⟩) r
      (lineHalves s1 pa)

end Sys2Proof.Machine
end

