-- ==== Sys2Proof/Machine/Tick.lean ====
section
/-! DEFINITION. The passing of cycles: the cycle count, the time base (R418) and the counters that count cycles of a
condition (R406). -/

namespace Sys2Proof.Machine

/-- The time base after `n` cycles: 10^10 units a cycle, corrected by the rate, and slewed by at most 200 ppm until the
offset has been absorbed (R418). -/
def TimeBase.advance (t : TimeBase) (n : Nat) : TimeBase :=
  let most : Int := 2000000 * n
  let step := if t.slew > most then most else if t.slew < -most then -most else t.slew
  { t with units := t.units + ((10000000000 + 10 * t.rate) * n + step).toNat, slew := t.slew - step }

/-- The slots of a core that are listed. -/
def coreSlots (s : State) (c : Nat) : List Slot :=
  (s.slots.filter fun p => p.1 / 8 == c).map (·.2)

/-- Counter events 7 (parked or stalled) and 8 (composed) of a core over `n` cycles. -/
def tickCore (s : State) (n c : Nat) (x : CoreSt) : CoreSt :=
  if x.ctrSel.isEmpty then x
  else
    let ss := coreSlots s c
    let a := if ss.any fun k => k.st == .parked || k.st == .stalled then bumpCtrs x.ctrSel 7 n x.ctrs else x.ctrs
    { x with ctrs := if ss.any fun k => k.curLog2 != 0 || k.helperOf.isSome then bumpCtrs x.ctrSel 8 n a else a }

/-- `n` cycles pass. -/
def tick (n : Nat) (s : State) : State :=
  { s with now := s.now + n, time := s.time.advance n,
           cores := s.cores.map fun p => (p.1, tickCore s n p.1 p.2) }

end Sys2Proof.Machine
end

