-- ==== Sys2Proof/Machine/Sched.lean ====
section
/-! DEFINITION. What a slot does when its turn comes: it issues, or the event that its state waits for happens
(R92). Which slot has its turn, and how many cycles pass, is what the agenda says (assumption log 2). -/

namespace Sys2Proof.Machine

/-- What the slot `cur` does in its turn. -/
inductive Plan where
  | issue
  | event (e : Instr)
  | turnIrrevocable
  | idle
deriving DecidableEq, Repr

/-- Whether an outstanding result is there already. -/
def isHere (o : Outst) : Bool := match o.what with | .value .. => true | _ => false

/-- The turn of a slot that waits for a result: the oldest that is there, or what brings the oldest of all. -/
def resultPlan (s : State) (r : SlotRef) (sl : Slot) : Plan :=
  match sl.outst.findIdx? isHere, sl.outst.head? with
  | some k, _ => .event (.longLatencyResult r k)
  | none, some o =>
    (match o.what with
     | .own _ => .event (.localAtomicPerform r)
     | .pop _ _ p _ =>
       let d := portDir sl (p - 48)
       let x := s.core r.core
       if p < 52 && !(x.linkbuf.any fun e => e.1 == d) && x.linkfly.any fun e => e.1 == d then
         .event (.linkPortArrival r.core (BitVec.ofNat 3 d))
       else .event (.longLatencyResult r 0)
     | _ => .event (.longLatencyResult r 0))
  | none, none => .event (.stallEnd r)

/-- What a parked slot's turn brings: a result, else its oldest vector instruction, else the end of the park (R37,
R305). -/
def parkPlan (s : State) (r : SlotRef) (sl : Slot) : Plan :=
  if !sl.outst.isEmpty then resultPlan s r sl
  else if !sl.vq.isEmpty then .event (.vectorCompletion r)
  else
    match sl.cont with
    | .trap _ => .event (.trapEntry r)
    | _ => .event (.parkEnd r)

/-- What a stalled slot's turn brings. -/
def stallPlan (s : State) (r : SlotRef) (sl : Slot) : Plan :=
  match sl.stall with
  | .commitToken => if sl.vq.isEmpty then .event (.irrevocableDrain r) else .event (.vectorCompletion r)
  | .tlbInval => .event (.tlbInvalidationComplete r)
  | .vectorBusy | .srVector => if sl.vq.isEmpty then .event (.stallEnd r) else .event (.vectorCompletion r)
  | .outbOrder => resultPlan s r sl
  | .outLimit =>
    if !outLimit sl then .event (.stallEnd r)
    else if sl.outst.isEmpty then .event (.vectorCompletion r) else resultPlan s r sl
  | .popEmpty =>
    if (sl.irrev && !sl.buf.isEmpty) then .event (.localAtomicPerform r) else resultPlan s r sl
  | .publishing =>
    if sl.irrev && !sl.buf.isEmpty then .event (.localAtomicPerform r)
    else if atomsBusy sl then resultPlan s r sl
    else .event (.stallEnd r)
  | _ => .event (.stallEnd r)

/-- Whether the watchdog watches a slot: it holds an activation that has not ended and is not being published
(R101). -/
def watched (sl : Slot) : Bool := sl.act != .none && sl.act != .starting && sl.st != .filling && sl.term.isNone && sl.phase == 0

/-- Whether the watchdog of a slot fires (R101). -/
def budgetDue (s : State) (r : SlotRef) : Bool := !s.tripped && watched (s.slot r) && s.bud (s.slot r) == 0

/-- The turn of a slot but for its watchdog (R92, R102, R139). While a drain publishes, every slot of the activation
stays between two of its instructions (R215). -/
def planOf (s : State) (r : SlotRef) : Plan :=
  let sl := s.slot r
  if s.tripped then .idle
  else if sl.phase == 1 && sl.st != .closing then
    (if sl.buf.isEmpty then .event (.irrevocableDrain r) else .event (.localAtomicPerform r))
  else
    match sl.st with
    | .free => .event (.readyRecordPickup r)
    | .filling => .event (.fillingComplete r)
    | .ready | .lead => if sl.irrevAsked && sl.act != .irrevocable then .turnIrrevocable else .issue
    | .parked => parkPlan s r sl
    | .stalled => stallPlan s r sl
    | .closing => if sl.phase = 2 then .event (.commitEntryIssue r)
                  else if sl.phase = 1 then .event (.localAtomicPerform r) else .event (.commit r)
    | .composing => .event (.composeClaim r)
    | .releasing => .event (.handBack r none)
    | .helper | .halted => .idle

/-- The turn of a slot, or its watchdog, which fires unless the turn brings what goes before it (R383). -/
def plan (s : State) (r : SlotRef) : Plan := if budgetDue s r then .event (.budgetExpiry r) else planOf s r

/-- The slot waits for its domain's commit token as though it began with `irrev` (R203, R205): it runs, and its budget
counts. -/
def askToken (s : State) : State :=
  s.setMe { s.me.started s.now with st := .stalled, stall := .commitToken, lastPc := s.me.lastPc }

/-- Whether a constructor is one of the table's events, which the agenda may name. -/
def isEvent (i : Instr) : Bool := (encode i).isNone

/-- Whether an event can happen: a module that has tripped only resets (R422, R423). -/
def canHappen (s : State) (e : Instr) : Bool :=
  isEvent e && (!s.tripped || match e with
    | .coldReset .. => true
    | .hotReset .. => true
    | _ => false)

/-- Where `withFetchWord` puts its instruction: the virtual page, and the HBM frame behind it. -/
def placePc : Nat := 0x10000

/-- The instruction line with one instruction at head 0: its head, EOL, and its tail at the top (R20 to R22). -/
def lineOfEnc (e : Enc) : List (BitVec 16) :=
  let k := hdTl e.head
  (e.head :: List.replicate (31 - k) 0) ++ (natsFrom 0 k).map fun n => e.tail.extractLsb' (16 * n) 16

/-- A list of halfwords written at a physical address. -/
def storeHalves (m : List Host.Cell) (pa : Nat) : List (BitVec 16) → List Host.Cell
  | [] => m
  | h :: r => storeHalves (writeLE m pa 2 h.toNat) (pa + 2) r

/-- A core with the translation of the placed page in its instruction TLB. -/
def placeTlb (x : CoreSt) : CoreSt :=
  { x with itlb := [{ asid := 0, vpage := placePc / 4096, size := 4096,
                      pte := BitVec.ofNat 64 (placePc + 0x5B), global := false }] }

/-- The slot that is to run the placed instruction: READY at its PC with the default budget (R101). -/
def placeSlot (s : State) (sl : Slot) : Slot :=
  { sl with st := .ready, stall := .none, act := .starting, pc := BitVec.ofNat 64 placePc,
            npc := BitVec.ofNat 64 placePc, budSet := 2 ^ 22, budAt := s.now, xroot := 0, irrevAsked := false,
            pend := [], outst := [], vq := [], late := none, vecFetch := false }

/-- The state that fetches and runs the instruction `e` next. -/
def placeEnc (s : State) (e : Enc) : State :=
  let s1 := { s with agenda := [], mem := storeHalves (s.zeroRange placePc 64).mem placePc (lineOfEnc e) }
  let s2 := s1.setCore s1.cur.core (placeTlb (s1.core s1.cur.core))
  s2.setMe (placeSlot s2 s2.me)

end Sys2Proof.Machine
end

