-- ==== Sys2Proof/Machine/Memory.lean ====
section
/-! DEFINITION. Scalar memory access (R150, R156, R158, R166 to R175, R185, R192, R196, R197, R206, R399, R434): loads,
stores, prefetches, cache-line operations, and retention ranges. -/

namespace Sys2Proof.Machine

/-! Parts and their translation (R169, R186). -/

def MPart.pte (p : MPart) : Nat := p.e.pte.toNat

def MPart.attr (p : MPart) (evp : Nat) : LineAttr := lineAttr p.pte evp
def MPart.view (p : MPart) : Nat := pteView p.pte

/-- The kind of memory of a part (R150). -/
def MPart.kind (p : MPart) : Kind := if p.view = 0 then kindOf p.pa else .view

/-- An access cut at the line boundary it crosses, lower part first (R168). -/
def splitLine (ea n : Nat) : List (Nat × Nat) :=
  if ea % 64 + n ≤ 64 then [(ea, n)]
  else
    let k := 64 - ea % 64
    [(ea, k), ((ea + k) % 2 ^ 64, n - k)]

/-- What meets a page that is moving (R192). -/
def movingRes (s : State) (va : Nat) : Res :=
  if !s.me.irrev && s.me.trans.any fun u => u.vpage == va % 2 ^ 57 / u.size then .conflict s else .stall s .moving

/-- A read that ends in an abort completion (R162): firmware's interrupt, and the machine check. -/
def memAbort (s : State) (i : Instr) (va pa lane : Nat) (info : Word) : Res :=
  .error (s.fwTell (paDie pa) 2 (.memoryAbort (lineOf pa)))
    (memAbortRecord s s.cur (majorOf i) (funcOfInstr i) lane va info)

/-- What translations have done stands even where the instruction then traps: A and D bits, fills and picks (R184,
R187). A crossing access whose upper part fails so leaves A and D of its lower page set (assumption log 163). -/
def Res.keeping (s : State) : Res → Res
  | .trap t => .trapIn s t
  | r => r

/-- Translate parts in order, the first failure standing; then go on with them. -/
def withTrans (i : Instr) (acc : Access) : List (Nat × Nat) → State → (State → List MPart → Res) → Res
  | [], s, k => k s []
  | (va, n) :: rest, s, k =>
    match translate s (slotCtx s s.cur false) acc va n with
    | (s1, .fault code cause) => (Res.xlate s1 i code cause va).keeping s1
    | (s1, .moving) => movingRes s1 va
    | (s1, .abort a) => memAbort s1 i va a 63 0
    | (s1, .ok e pa) =>
      (withTrans i acc rest s1 fun s2 ps => k s2 ({ va := va, pa := pa, n := n, e := e } :: ps)).keeping s1

/-- Whether two pages agree in what a crossing access may not mix (R169). -/
def samePage (p q : MPart) : Bool :=
  p.kind == q.kind && pteCattr p.pte == pteCattr q.pte && pteCmp p.pte == pteCmp q.pte && p.view == q.view

/-- The checks after translation: pages that differ, then the frames of running strands (R36, R169). -/
def withParts (s : State) (i : Instr) (acc : Access) (ea : Nat) (cuts : List (Nat × Nat))
    (k : State → List MPart → Res) : Res :=
  withTrans i acc cuts s fun s1 ps =>
    match ps with
    | [] => k s1 ps
    | p :: rest =>
      if !rest.all (samePage p) then Res.align s1 i (BitVec.ofNat 64 ea)
      else
        match ps.find? fun q => q.view == 0 && inLiveFrame s1 q.pa q.n with
        | some q => Res.access s1 i 34 (BitVec.ofNat 64 q.va)
        | none => k s1 ps

/-! Reading (R166, R196, R197, R206, R209). -/

/-- The byte at a physical address as the slot's own buffer has it, youngest store first (R196). -/
def forwarded (b : List BufEntry) (pa : Nat) : Option Byte :=
  b.reverse.findSome? fun e => match e with
    | .store q _ n v _ => if q ≤ pa ∧ pa < q + n then some (BitVec.ofNat 8 (v / 2 ^ (8 * (pa - q)))) else none
    | _ => none

/-- The bytes of a part: a view's conversion, else own stores over committed memory. -/
def partBytes (s : State) (p : MPart) : List Byte :=
  if p.view ≠ 0 then viewBytesAt s p.view (ptePa p.pte) (p.va % p.e.size) p.n
  else (natsFrom p.pa p.n).map fun a => (forwarded s.me.buf a).getD (s.byte a)

/-- The source lines of a part of a view. -/
def viewLines (s : State) (p : MPart) : List Nat := viewLinesAt s p.view (ptePa p.pte) (p.va % p.e.size) p.n

/-- The wafer-store tiles that a part of a view covers. -/
def viewTiles (s : State) (p : MPart) : List WaferTag := viewTilesAt s p.view (ptePa p.pte) (p.va % p.e.size) p.n

/-- The tiles of a part are in the wafer store of a cluster. -/
def touchTiles (s : State) (cl : Nat) (p : MPart) : State := (viewTiles s p).foldl (fun u w => touchWafer u cl w) s

/-- The lines that a part adds to the read set (R197). -/
def readLines (s : State) (p : MPart) : List Nat :=
  match p.kind with
  | .view => viewLines s p
  | .device | .host | .coreStore => [lineOf p.pa]
  | _ => []

/-- Add what is new to a list of lines. -/
def addLines (l new : List Nat) : List Nat := new.foldl (fun a x => if a.contains x then a else a ++ [x]) l

/-- Whether a read of a part ends in an abort completion: some byte of it comes from a line that does (R162). -/
def partAborts (s : State) (p : MPart) : Bool :=
  if p.view ≠ 0 then viewAborts s p.view (ptePa p.pte) (p.va % p.e.size) p.n
  else lineAborts s p.pa && (natsFrom p.pa p.n).any fun a => (forwarded s.me.buf a).isNone

/-- Whether a part of a load meets the write footprint of an incomplete job of its domain (R206). -/
def partMeetsJob (s : State) (p : MPart) : Bool :=
  let d := s.me.domain
  jobWritesLine s d (lineOf p.va) ||
    (p.view != 0 && s.jobs.any fun j => j.iss.domain == d && !j.wr.isEmpty &&
      (footLines s j.iss.xroot j.wr).any fun l => (viewLines s p).contains l)

/-- Whether a `vst` of the slot has still to fill its entries (R306). -/
def vstPending (sl : Slot) : Bool := sl.vq.any fun o => match o.instr with | .vst .. => true | _ => false

/-- Whether a part meets one that an outstanding store or atomic will access: they share a byte, a view reads its line,
or both are device registers. -/
def MPart.meets (s : State) (p q : MPart) : Bool :=
  (p.kind == .io && q.kind == .io) ||
    (if p.view = 0 then decide (p.pa < q.pa + q.n ∧ q.pa < p.pa + p.n) else (viewLines s p).contains (lineOf q.pa))

/-- Whether an access must wait for a store or an atomic before it whose operand has still to be popped (R32, R196). -/
def heldMeets (s : State) (ps : List MPart) : Bool :=
  s.me.outst.any fun o => o.parts.any fun q => ps.any fun p => MPart.meets s p q

/-- Why a load waits at issue: for a `vst` to fill its entries, an atomic or a store before it, a check before a direct
one (R62), a job, or a publication under way (R195, R196, R206, R306). -/
def loadWait (s : State) (ps : List MPart) : Option StallWhy :=
  if vstPending s.me then some .vectorBusy
  else if atomsBusy s.me then some .publishing
  else if heldMeets s ps then some .popEmpty
  else if s.me.irrev && mulPending s.me then some .outbOrder
  else if ps.any (partMeetsJob s) then some .job
  else if !s.me.irrev && ps.any fun p => (readLines s p).any (publishing s) then some .publishing
  else none

/-- Single-bit errors of what a part reads are corrected: its line, or a view's descriptor and source lines (R161). -/
def softPart (s : State) (p : MPart) : State :=
  if s.soft.isEmpty then s
  else if p.view = 0 then softFix s p.pa p.n
  else (viewLines s p).foldl (fun u l => softFix u (64 * l) 64) (softFix s (ptePa p.pte) 64)

/-- The read set and the caches after a load of a part. -/
def noteRead (s : State) (evp : Nat) (p : MPart) : State :=
  let k := queueCore s s.cur p.va
  let s1 := if p.kind = .view then touchTiles s (clusterOf k) p else touchData s k p.pa (p.attr evp) .read
  let s2 := traceAccess s1 s1.cur p.va
  if s2.me.irrev then s2
  else
    let ls := readLines s2 p
    s2.setMe { s2.me with readset := addLines s2.me.readset ls,
                          readva := if ls.isEmpty then s2.me.readva else addLines s2.me.readva [lineOf p.va] }

/-- A load of parts that have passed their checks: what it waits for, an abort completion, or its bytes. -/
def withLoad (s : State) (i : Instr) (evp : Nat) (ps : List MPart) (k : State → List Byte → Res) : Res :=
  match loadWait s ps with
  | some w => .stall s w
  | none =>
    match ps.find? (partAborts s) with
    | some p => memAbort s i p.va p.pa 63 0
    | none =>
      let bs := ps.flatMap (partBytes s)
      k (ps.foldl (fun u p => noteRead (softPart u p) evp p) s) bs

/-! Writing (R150, R170, R171, R195, R205, R207). -/

/-- The bytes of a team's scratch before a write, kept for its abort (R110, R207). -/
def noteUndo (s : State) (pa n : Nat) : State :=
  match s.me.team with
  | some t =>
    let tm := s.getTeam t
    s.setTeam t { tm with undo := ((natsFrom pa n).map fun a => (a, s.byte a)) ++ tm.undo }
  | none => s

/-- A store performed directly: scratch, and every kind when the activation is irrevocable. -/
def directStore (s : State) (evp : Nat) (p : MPart) (v : Nat) : State :=
  let s1 := traceAccess s s.cur p.va
  if p.kind = .scratch then (noteUndo s1 p.pa p.n).storeAt p.pa p.n v
  else publishWrite s1 s1.cur p.va p.pa p.n v (p.attr evp)

/-- A store entered in the buffer. -/
def bufferStore (s : State) (evp : Nat) (p : MPart) (v : Nat) : State :=
  let s1 := traceAccess s s.cur p.va
  s1.setMe { s1.me with buf := s1.me.buf ++ [.store p.pa p.va p.n (v % 2 ^ (8 * p.n)) (p.attr evp)],
                        trans := s1.me.trans ++ [usedOf p.e] }

/-- Values for parts in ascending address order. -/
def partVals : List MPart → Nat → List (MPart × Nat)
  | [], _ => []
  | p :: r, v => (p, v % 2 ^ (8 * p.n)) :: partVals r (v / 2 ^ (8 * p.n))

/-- Whether the stores of a slot to these parts are direct. -/
def storesDirect (s : State) (ps : List MPart) : Bool := s.me.irrev || ps.any fun p => p.kind == .scratch

/-- Why a store waits at issue: a `vst` before it has still to enter its entries, the buffer would overflow, or a
direct store meets a job's footprint, an access before it or a check to come (R62, R102, R196, R206, R306). -/
def storeWait (s : State) (ps : List MPart) (entries : Nat) : Option StallWhy :=
  if vstPending s.me then some .vectorBusy
  else if atomsBusy s.me then some .publishing
  else if storesDirect s ps then
    (if mulPending s.me then some .outbOrder
     else if heldMeets s ps then some .popEmpty
     else if ps.any fun p => jobTouchesLine s s.me.domain (lineOf p.va) then some .job else none)
  else if bufFull s.me entries then some .commitToken else none

/-! ORD and SCP (R211). -/

/-- Whether a link-port pop is outstanding, which counts among the loads (R212). -/
def linkPopPending (sl : Slot) : Bool :=
  sl.outst.any fun o => match o.what with | .pop _ _ p _ => p < 52 | _ => false

/-- Whether a doubleword pushed to a link port has not reached the neighbour's buffer. -/
def pushFlying (s : State) (core : Nat) : Bool :=
  [1, 2, 3, 4].any fun dir => match neighbour core dir with
    | some c => (s.core c).linkfly.any fun e => e.1 == opposite dir
    | none => false

/-- Whether an earlier direct load of the slot `cur` has not been performed: a link-port pop, or the load part of an
atomic (R212). -/
def loadsLeft (s : State) : Bool :=
  atomsBusy s.me || linkPopPending s.me || s.me.outst.any fun o => !o.parts.isEmpty && o.held.isNone

/-- Whether an earlier direct store of the slot `cur` has not been performed: a store or an atomic, a push to a link
port, or a direct command whose word is still to come (R212). -/
def storesLeft (s : State) : Bool :=
  atomsBusy s.me || pushFlying s s.cur.core ||
    s.me.outst.any fun o => (!o.parts.isEmpty && o.held.isNone) || decide (48 ≤ o.dest ∧ o.dest ≤ 51) ||
      (s.me.irrev && decide (52 ≤ o.dest ∧ o.dest ≤ 55))

/-- Whether a dispatched vector memory access has still to be performed. -/
def vecMemPending (sl : Slot) : Bool :=
  sl.vq.any fun o => match o.instr with | .vst .. => true | .vld .. => true | _ => false

/-- Why an arrival at a barrier waits, as a release of scope team: for every earlier direct access (R211, R234). -/
def releaseWait (s : State) : Option StallWhy :=
  if loadsLeft s || storesLeft s then some .popEmpty else if vecMemPending s.me then some .vectorBusy else none

/-- Why a direct access waits for its ordering: a release, for every earlier direct access (R211). Loads and stores are
performed in program order, so an acquire waits for nothing more. -/
def ordWait (s : State) (ord : BitVec 2) (scp : BitVec 3) (ps : List MPart) : Option StallWhy :=
  if ord.getLsbD 1 && scp != 0 && storesDirect s ps && (loadsLeft s || storesLeft s) then some .popEmpty else none

/-- A store of a value to parts that have passed their checks and wait for nothing; the parts of a split direct store
follow each other in one step (assumption log 179). -/
def putStore (s : State) (evp : Nat) (ps : List MPart) (v : Nat) : State :=
  let d := storesDirect s ps
  (partVals ps v).foldl (fun u q => if d then directStore u evp q.1 q.2 else bufferStore u evp q.1 q.2) s

/-- A load under the ordering of its operand. -/
def withOrdLoad (s : State) (i : Instr) (m : MemOp) (ps : List MPart) (k : State → List Byte → Res) : Res :=
  match ordWait s m.ord m.scp ps with
  | some w => .stall s w
  | none => withLoad s i m.evp.toNat ps k

/-! Device registers (R399). -/

/-- The checks of an access to a device register before it is made: supervisor mode, the width, irrevocability. -/
def ioCheck (s : State) (i : Instr) (p : MPart) (ea : Nat) : Option Res :=
  if !s.me.super then some (Res.access s i 31 (BitVec.ofNat 64 p.va))
  else if p.n ≠ 8 then some (Res.align s i (BitVec.ofNat 64 ea))
  else if !s.me.irrev then some (.stall s .commitToken)
  else if atomsBusy s.me then some (.stall s .publishing)
  else if mulPending s.me then some (.stall s .outbOrder)
  else if heldMeets s [p] then some (.stall s .popEmpty)
  else none

def isIo (ps : List MPart) : Bool := ps.any fun p => p.kind == .io

/-! Loads. -/

/-- Width of `ld`: the log2 of its size, and whether it extends the sign (R170). -/
def LdW.spec : LdW → Nat × Bool
  | .ub => (0, false) | .uh => (1, false) | .uw => (2, false) | .d => (3, false)
  | .sb => (0, true) | .sh => (1, true) | .sw => (2, true)

/-- A loaded value in its register. -/
def extendLoad (n : Nat) (signed : Bool) (v : Nat) : Word :=
  if signed then wordOfInt (sxInt v (8 * n)) else BitVec.ofNat 64 v

/-- Ports and limits of a long-latency instruction with one destination and no popped source: its traps, then what it
waits for, then itself. -/
def withDest (s : State) (i : Instr) (d : Nat) (k : State → Res) : Res :=
  match pushAccess s i d with
  | some t => .trap t
  | none =>
    if outLimit s.me then .stall s .outLimit
    else
      match pushWait s d with
      | some w => .stall s w
      | none => k s

/-- The result of a load across a line boundary, whose parts each read at a time of their own (R168). -/
def splitResult (s : State) (i : Instr) (d : Nat) (signed : Bool) (ps : List MPart) (v : Word) : Outst :=
  { outstOf s i d false (.value v 0) with split := some (signed, ps) }

/-- The value of a split load once a part has read again: the other part's bytes stay. -/
def rereadPart (s : State) (signed upper : Bool) (ps : List MPart) (v : Word) : Word :=
  let n := (ps.map (·.n)).foldl (· + ·) 0
  let old := leBytes v.toNat n
  let lo := match ps with | p :: _ => p.n | [] => 0
  let bs := match ps with
    | [p, q] => if upper then old.take lo ++ partBytes s q else partBytes s p ++ old.drop lo
    | _ => old
  extendLoad n signed (leOf bs)

/-- A part of the load that the slot `cur` has just issued reads now, later than the other part: until the slot issues
again (R168). -/
def laterPart (s : State) (upper : Bool) : State :=
  match s.me.outst.getLast? with
  | some o =>
    (match o.what, o.split with
     | .value v hi, some (signed, ps) =>
       if s.me.lastPc = o.pc then
         s.setMe { s.me with outst := s.me.outst.dropLast ++
                    [{ o with what := .value (rereadPart s signed upper ps v) hi, split := none }] }
       else s
     | _, _ => s)
  | none => s

/-- `ld` and `ldu` (R170, R171, R399). -/
def loadBody (i : Instr) (w : Nat × Bool) (unaligned : Bool) (a : Reg) (m : MemOp) (s : State) : Res :=
  let n := 2 ^ w.1
  withEa s i m w.1 fun s1 ea =>
    if !unaligned && ea.toNat % n != 0 then Res.align s1 i ea
    else
      withParts s1 i .load ea.toNat (splitLine ea.toNat n) fun s2 ps =>
        if isIo ps && ea.toNat % n != 0 then Res.align s2 i ea
        else
          withDest s2 i a.toNat fun s3 =>
            match ps with
            | [p] =>
              if p.kind = .io then
                match ioCheck s3 i p ea.toNat with
                | some r => r
                | none =>
                  match devRead s3 p.pa with
                  | some v => putLong s3 i a.toNat false v 0
                  | none => Res.access s3 i 21 ea
              else withOrdLoad s3 i m ps fun s4 bs => putLong s4 i a.toNat false (extendLoad n w.2 (leOf bs)) 0
            | _ => withOrdLoad s3 i m ps fun s4 bs =>
              .done (addOutst s4 (splitResult s4 i a.toNat w.2 ps (extendLoad n w.2 (leOf bs))))

def execLd (sw : Bool) (w : LdW) (a : Reg) (m : MemOp) (s : State) : Host.Outcome State Fault Refusal :=
  next (runInstr (.ld sw w a m) sw [m.b.toNat, m.x.toNat, a.toNat] (loadBody (.ld sw w a m) (LdW.spec w) false a m) s)

def execLdu (sw : Bool) (w : LdW) (a : Reg) (m : MemOp) (s : State) : Host.Outcome State Fault Refusal :=
  next (runInstr (.ldu sw w a m) sw [m.b.toNat, m.x.toNat, a.toNat] (loadBody (.ldu sw w a m) (LdW.spec w) true a m) s)

/-! Stores. -/

def StW.log2 : StW → Nat
  | .b => 0 | .h => 1 | .w => 2 | .d => 3

/-- The value of one source register that may pop: the trap its port raises, or the wait for its doubleword, or its
value. -/
def withSrc (s : State) (i : Instr) (r : Reg) (k : State → Word → Res) : Res :=
  match portTrap s i [r] none with
  | some t => .trap t
  | none =>
    match readSrcs s [r] with
    | .ok s1 v => k s1 (v.getD 0 0)
    | .wait .. => .stall s .popEmpty

/-- A store or an atomic whose popped operand has not arrived is outstanding with the parts it will access; one that is
buffered keeps its places in the store buffer (R32, R38). `idx` is the outgoing index of an `amot`. -/
def holdAccess (s : State) (o : Outst) (ps : List MPart) (buffered : Bool) : State :=
  let sl := s.me
  if buffered then
    let s1 := addOutst s { o with parts := ps, held := some sl.holdN }
    s1.setMe { s1.me with holdN := sl.holdN + 1, buf := sl.buf ++ (natsFrom 0 ps.length).map (.await sl.holdN),
                          trans := sl.trans ++ ps.map fun p => usedOf p.e }
  else addOutst s { o with parts := ps }

/-- The operands of a store or an atomic that has passed its checks: its value now, or once the popped one arrives. -/
def withHeld (s : State) (i : Instr) (o : Outst) (srcs : List Reg) (ps : List MPart) (buffered : Bool)
    (k : State → List Word → Res) : Res :=
  if srcs.any isPop && outLimit s.me then .stall s .outLimit
  else
    match readSrcs s srcs with
    | .ok s1 v => k s1 v
    | .wait vals p c => .done (holdAccess s { o with what := .pop i vals p c } ps buffered)

/-- A store to a device register. -/
def ioStore (i : Instr) (a : Reg) (n : Nat) (ea : Word) (p : MPart) (s : State) : Res :=
  if ea.toNat % n ≠ 0 then Res.align s i ea
  else
    match ioCheck s i p ea.toNat with
    | some r => r
    | none =>
      if (devRead s p.pa).isNone then Res.access s i 21 ea
      else
        match portTrap s i [a] none with
        | some t => .trap t
        | none =>
          withHeld s i (outstOf s i 0 false (.value 0 0)) [a] [p] false fun s1 v =>
            .done ((devWrite s1 p.pa (v.getD 0 0)).getD s1)

/-- `st` and `stu` (R170, R171, R399). -/
def storeBody (i : Instr) (lg : Nat) (unaligned : Bool) (a : Reg) (m : MemOp) (s : State) : Res :=
  let n := 2 ^ lg
  withEa s i m lg fun s1 ea =>
    if !unaligned && ea.toNat % n != 0 then Res.align s1 i ea
    else
      withParts s1 i .store ea.toNat (splitLine ea.toNat n) fun s2 ps =>
        if isIo ps then
          match ps with
          | [p] => ioStore i a n ea p s2
          | _ => Res.align s2 i ea
        else
          match portTrap s2 i [a] none with
          | some t => .trap t
          | none =>
            match (ordWait s2 m.ord m.scp ps).orElse fun _ => storeWait s2 ps ps.length with
            | some w => .stall s2 w
            | none =>
              withHeld s2 i (outstOf s2 i 0 false (.value 0 0)) [a] ps (!storesDirect s2 ps) fun s3 v =>
                .done (putStore s3 m.evp.toNat ps (v.getD 0 0).toNat)

def execSt (sw : Bool) (w : StW) (a : Reg) (m : MemOp) (s : State) : Host.Outcome State Fault Refusal :=
  next (runInstr (.st sw w a m) sw [m.b.toNat, m.x.toNat, a.toNat] (storeBody (.st sw w a m) (StW.log2 w) false a m) s)

def execStu (sw : Bool) (w : StW) (a : Reg) (m : MemOp) (s : State) : Host.Outcome State Fault Refusal :=
  next (runInstr (.stu sw w a m) sw [m.b.toNat, m.x.toNat, a.toNat] (storeBody (.stu sw w a m) (StW.log2 w) true a m) s)

/-! Prefetches (R174). -/

/-- One line brought to its level, and its part, or nothing where it must be dropped with those after it: a failed
translation, an I/O page, a page that R169 does not let follow `prev`, and an abort completion, which firmware hears of
(R162). -/
def prefLine (s : State) (f : PrefFn) (evp va : Nat) (prev : Option MPart) : State × Option MPart :=
  match translate s (slotCtx s s.cur false) .pref va 1 with
  | (s1, .ok e pa) =>
    let core := queueCore s1 s1.cur va
    let p : MPart := { va := va, pa := pa, n := 64, e := e }
    let t := p.attr evp
    if !prev.toList.all (samePage p) || p.kind = .io then (s1, none)
    else if p.view ≠ 0 then
      if f ≠ .ws then (s1, none)
      else if partAborts s1 p then (s1.fwTell (paDie pa) 2 (.memoryAbort (lineOf pa)), none)
      else (touchTiles s1 (clusterOf core) p, some p)
    else if lineAborts s1 pa then (s1.fwTell (paDie pa) 2 (.memoryAbort (lineOf pa)), none)
    else
      (match f with
       | .l1 => touchData s1 core pa t .read
       | .l1w => if homedOn pa (dieOf core) then touchData (invalidateOthers s1 core (lineOf pa)) core pa t .own
                 else touchData s1 core pa t .read
       | .cm => if cacheable pa then (touchCm s1 core pa t false).1 else s1
       | .ws => if t.cmp then touchWafer s1 (clusterOf core) (blockTag pa) else s1, some p)
  | (s1, .abort a) => (s1.fwTell (paDie a) 2 (.memoryAbort (lineOf a)), none)
  | (s1, _) => (s1, none)

/-- Lines from a first one on, until one is dropped. -/
def prefLines (f : PrefFn) (evp : Nat) : Nat → Nat → Option MPart → State → State
  | 0, _, _, s => s
  | k + 1, va, prev, s =>
    match prefLine s f evp va prev with
    | (s1, some p) => prefLines f evp k ((va + 64) % 2 ^ 64) (some p) s1
    | (s1, none) => s1

/-- `pref` (R174). -/
def execPref (sw : Bool) (f : PrefFn) (lgk : BitVec 3) (m : MemOp) (s : State) : Host.Outcome State Fault Refusal :=
  next (runInstr (.pref sw f lgk m) sw [m.b.toNat, m.x.toNat]
    (fun s => withEa s (.pref sw f lgk m) m 6 fun s1 ea =>
      .done (prefLines f m.evp.toNat (2 ^ lgk.toNat) (ea.toNat / 64 * 64) none s1)) s)

/-! Cache-line operations (R175). -/

/-- A line operation performed at once; the zeros of a whole line end the blocking of a lost one (R162). -/
def copNow (s : State) (f evp : Nat) (p : MPart) : State :=
  if f = 3 then
    healLost ((natsFrom 0 8).foldl
      (fun u k => directStore u evp { p with va := p.va + 8 * k, pa := p.pa + 8 * k, n := 8 } 0) s) [(p.pa, 64)]
  else performCop s s.cur f p.pa p.va

/-- A line operation entered in the buffer. -/
def copBuffer (s : State) (f evp : Nat) (p : MPart) : State :=
  if f = 3 then
    (natsFrom 0 8).foldl (fun u k => bufferStore u evp { p with va := p.va + 8 * k, pa := p.pa + 8 * k, n := 8 } 0) s
  else s.setMe { s.me with buf := s.me.buf ++ [.cop f p.pa p.va], trans := s.me.trans ++ [usedOf p.e] }

/-- `cop` (R175) with its function code. -/
def copBody (i : Instr) (f : Nat) (m : MemOp) (s : State) : Res :=
  withEa s i m 6 fun s1 ea =>
    withTrans i (if f = 3 then .zero else if f = 4 then .demote else .cop) [(ea.toNat, 1)] s1 fun s2 ps =>
      match ps with
      | [q] =>
        let p : MPart := { q with va := q.va / 64 * 64, pa := q.pa / 64 * 64, n := 64 }
        if p.kind = .io then Res.access s2 i 37 ea
        else if f = 3 && inLiveFrame s2 p.pa 64 then Res.access s2 i 34 ea
        else
          match storeWait s2 [p] (if f = 3 then 8 else 1) with
          | some .job => if f = 3 then .stall s2 .job else .done (copNow s2 f m.evp.toNat p)
          | some w => .stall s2 w
          | none => .done (if storesDirect s2 [p] then copNow s2 f m.evp.toNat p else copBuffer s2 f m.evp.toNat p)
      | _ => .done s2

def execCopFlush (sw : Bool) (m : MemOp) (s : State) : Host.Outcome State Fault Refusal :=
  next (runInstr (.copFlush sw m) sw [m.b.toNat, m.x.toNat] (copBody (.copFlush sw m) 0 m) s)

def execCopClean (sw : Bool) (m : MemOp) (s : State) : Host.Outcome State Fault Refusal :=
  next (runInstr (.copClean sw m) sw [m.b.toNat, m.x.toNat] (copBody (.copClean sw m) 1 m) s)

def execCopInv (sw : Bool) (m : MemOp) (s : State) : Host.Outcome State Fault Refusal :=
  next (runInstr (.copInv sw m) sw [m.b.toNat, m.x.toNat] (copBody (.copInv sw m) 2 m) s)

def execCopZero (sw : Bool) (m : MemOp) (s : State) : Host.Outcome State Fault Refusal :=
  next (runInstr (.copZero sw m) sw [m.b.toNat, m.x.toNat] (copBody (.copZero sw m) 3 m) s)

def execCopDemote (sw : Bool) (m : MemOp) (s : State) : Host.Outcome State Fault Refusal :=
  next (runInstr (.copDemote sw m) sw [m.b.toNat, m.x.toNat] (copBody (.copDemote sw m) 4 m) s)

/-! Retention ranges (R158). -/

/-- KEEPGRANT of the own cluster for an entry. -/
def keepGranted (s : State) (n : Nat) : Bool :=
  s.me.super || (s.devGet (clDev (clusterOf s.cur.core) 0 8)).toNat.testBit n

/-- An outgoing entry is taken, or the activation must first turn irrevocable (R102). -/
def takeOut (s : State) (w : OutWhat) : Res :=
  match outWait s.me with
  | some x => .stall s x
  | none => if w.sends && s.me.irrev && retFull s s.cur.core then .stall s .retRoom else .done (addOut s w)

/-- An outgoing entry that went through a translation, which an invalidation then waits for (R193). -/
def takeOutVia (s : State) (p : MPart) (w : OutWhat) : Res :=
  takeOut (s.setMe { s.me with trans := s.me.trans ++ [usedOf p.e] }) w

/-- `keep` (R158). -/
def keepBody (i : Instr) (n : BitVec 3) (b c : Reg) (s : State) : Res :=
  let gb := s.me.g b.toNat
  let gc := s.me.g c.toNat
  if !keepGranted s n.toNat then Res.access s i 35 (BitVec.ofNat 64 n.toNat)
  else if gb.toNat % 64 ≠ 0 ∨ gc.toNat % 64 ≠ 0 ∨ gc = 0 then Res.align s i gb
  else
    withTrans i .keep [(gb.toNat, 1)] s fun s1 ps =>
      match ps with
      | [p] =>
        if gb.toNat / p.e.size ≠ (gb.toNat + gc.toNat - 1) / p.e.size then Res.align s1 i gb
        else if p.kind ≠ .device then Res.access s1 i 36 gb
        else takeOutVia s1 p (.keep n.toNat (BitVec.ofNat 64 (2 ^ 63 + p.pa)) (BitVec.ofNat 64 (p.pa + gc.toNat - 64)) (paDie p.pa))
      | _ => .done s1

def execKeep (sw : Bool) (n : BitVec 3) (b c : Reg) (s : State) : Host.Outcome State Fault Refusal :=
  next (runInstr (.keep sw n b c) sw [b.toNat, c.toNat] (keepBody (.keep sw n b c) n b c) s)

/-- `unkeep` (R158). -/
def execUnkeep (sw : Bool) (n : BitVec 3) (s : State) : Host.Outcome State Fault Refusal :=
  next (runInstr (.unkeep sw n) sw []
    (fun s => if !keepGranted s n.toNat then Res.access s (.unkeep sw n) 35 (BitVec.ofNat 64 n.toNat)
              else takeOut s (.unkeep n.toNat (dieOf s.cur.core))) s)

end Sys2Proof.Machine
end

