-- ==== Sys2Proof/Machine/Atomic.lean ====
section
/-! DEFINITION. Atomic instructions and team barriers (R217 to R235). -/

namespace Sys2Proof.Machine

/-! Operands. -/

/-- The value of an operand register of an atomic: one register, or a pair (R226). -/
def amoOperand (sl : Slot) (w : AmoW) (r : Reg) (v : Word) : BitVec 128 :=
  if w = .q then (sl.g (r.toNat + 1)).append (sl.g r.toNat) else v.setWidth 128

/-- The sources of an atomic that may pop. -/
def amoSrcs (w : AmoW) (rs : List Reg) : List Reg := if w = .q then [] else rs

/-- Registers read or written, pairs with both halves, for R39. -/
def amoRegs (w : AmoW) (r : Reg) : List Nat := if w = .q then [r.toNat, r.toNat + 1] else [r.toNat]

/-- The address of an atomic, through the AGU (R227): no index and no displacement. -/
def withAtomEa (s : State) (i : Instr) (b : Reg) (k : State → Word → Res) : Res :=
  withAgu s i (s.me.g b.toNat) 0 0 0 k

/-- The checks of an atomic's target after its address (R229): alignment, translation with R and W, frames, and a
kind that has a performing point (R217). -/
def withTarget? (s : State) (i : Instr) (w : AmoW) (ea : Word) (k : State → MPart → Res) : Res :=
  if ea.toNat % amoBytes w ≠ 0 then Res.align s i ea
  else
    withParts s i .atomic ea.toNat [(ea.toNat, amoBytes w)] fun s1 ps =>
      match ps with
      | [p] => if p.kind = .host ∨ p.kind = .io then Res.access s1 i 22 ea else k s1 p
      | _ => .done s1

/-! Posted atomics (R220). -/

/-- A direct posted atomic: at its point next to the core, where an abort completion is a MEMORY-ABORT (R229), or
through the head of the buffer, where a far one waits for its reply. -/
def postDirect (s : State) (i : Instr) (p : MPart) (a : AtomReq) : Res :=
  if p.kind = .scratch then
    if lineAborts s p.pa then memAbort s i p.va p.pa 63 0 else .done (atomLocal (noteUndo s p.pa p.n) s.cur a).1
  else if !goesFar s (queueCore s s.cur p.va) p.pa && lineAborts s p.pa then memAbort s i p.va p.pa 63 0
  else .done (pubBuffer (s.setMe { s.me with buf := s.me.buf ++ [.amo a] }) s.cur)

/-- A posted atomic enters the buffer, or is performed. -/
def postAtomic (s : State) (i : Instr) (p : MPart) (a : AtomReq) : Res :=
  let s1 := traceAccess s s.cur p.va
  if storesDirect s1 [p] then postDirect s1 i p a
  else .done (s1.setMe { s1.me with buf := s1.me.buf ++ [.amo a], trans := s1.me.trans ++ [usedOf p.e] })

/-- The request of an atomic from its instruction: operation, width, operand registers and the values read for those that
may pop; `idx` is the outgoing index of an `amot`. -/
def atomReq (sl : Slot) (i : Instr) (p : MPart) (v : List Word) (trig : Option (BitVec 256)) (idx : Nat) : AtomReq :=
  let req (op : AmoOp) (w : AmoW) (c : Reg) (n : Option Reg) (o : AmoOrd) : AtomReq :=
    { pa := p.pa, va := p.va, op := op, w := w, v := amoOperand sl w c (v.getD 0 0),
      cas := n.map fun r => amoOperand sl w r (v.getD 1 0), trig := trig,
      idx := if trig.isSome then BitVec.ofNat 16 idx else 0, attr := p.attr o.evp.toNat }
  match i with
  | .amo _ op w _ c o => req op w c none o
  | .amot _ op w _ c _ o => req op w c none o
  | .amof _ op w _ _ c o => req op w c none o
  | .cas _ w _ _ c d o => req .add w c (some d) o
  | _ => req .add .d 0 none { scp := 0, ord := 0, evp := 0 }

/-- The sources of an atomic that may pop. -/
def atomSrcs (i : Instr) : List Reg :=
  match i with
  | .amo _ _ w _ c _ => amoSrcs w [c]
  | .amot _ _ w _ c _ _ => amoSrcs w [c]
  | .amof _ _ w _ _ c _ => amoSrcs w [c]
  | .cas _ w _ _ c d _ => amoSrcs w [c, d]
  | _ => []

/-- What is left of `amo` and `amot` once the target is checked: their waits, their operand, and the post. `trig` is the
descriptor of an `amot`, which takes an outgoing index at issue. -/
def postBody (i : Instr) (o : AmoOrd) (trig : Option (BitVec 256)) (p : MPart) (s : State) : Res :=
  match portTrap s i (atomSrcs i) none with
  | some t => .trap t
  | none =>
    match (ordWait s o.ord o.scp [p]).orElse fun _ => storeWait s [p] 1 with
    | some x => .stall s x
    | none =>
      match if trig.isSome then outWait s.me else none with
      | some x => .stall s x
      | none =>
        if (atomSrcs i).any isPop && outLimit s.me then .stall s .outLimit
        else if storesDirect s [p] && trigWaits s p.pa trig.isSome then .stall s .publishing
        else
        let idx := s.me.nextIdx
        let e := { outstOf s i 0 false (.value 0 0) with
          desc := trig, ticket := if trig.isSome then some (idx, 0) else none }
        withHeld (if trig.isSome then addOut s .amot else s) i e (atomSrcs i) [p] (!storesDirect s [p]) fun s1 v =>
          postAtomic s1 i p (atomReq s1.me i p v trig idx)

/-- `amo` (R220, R225, R227). -/
def execAmo (sw : Bool) (op : AmoOp) (w : AmoW) (b c : Reg) (o : AmoOrd) (s : State) : Host.Outcome State Fault Refusal :=
  next (runInstr (.amo sw op w b c o) sw (b.toNat :: amoRegs w c)
    (fun s => withAtomEa s (.amo sw op w b c o) b fun s1 ea =>
      withTarget? s1 (.amo sw op w b c o) w ea fun s2 p => postBody (.amo sw op w b c o) o none p s2) s)

/-- Whether a trigger descriptor is malformed (R232). -/
def descBad (s : State) (d : BitVec 256) : Bool :=
  decide (trgCtl d / 8 ≠ 0) || trgCtl d % 4 == 3 || decide (trgChan d < 8 ∨ 63 < trgChan d) ||
    ((s.dom s.me.domain.toNat).ordered && trgDelta d == 0) ||
    (if (trgCtl d).testBit 2 then decide ((trgRecaddr d).toNat % 64 ≠ 0) else trgRecaddr d != 0)

/-- The trigger descriptor that `amot` reads at issue (R230). -/
def withDesc (s : State) (i : Instr) (gd : Word) (k : State → BitVec 256 → Res) : Res :=
  withParts s i .load gd.toNat [(gd.toNat, 32)] fun s1 ps =>
    if isIo ps then (if s1.me.super then Res.align s1 i gd else Res.access s1 i 31 gd)
    else
      withLoad s1 i 0 ps fun s2 bs =>
        let d : BitVec 256 := BitVec.ofNat 256 (leOf bs)
        if descBad s2 d then Res.access s2 i 23 gd else k s2 d

/-- `amot` (R220, R230). -/
def execAmot (sw : Bool) (op : AmoOp) (w : AmoW) (b c d : Reg) (o : AmoOrd) (s : State) :
    Host.Outcome State Fault Refusal :=
  next (runInstr (.amot sw op w b c d o) sw (b.toNat :: amoRegs w c ++ [d.toNat])
    (fun s => withAtomEa s (.amot sw op w b c d o) b fun s1 ea =>
      let gd := s1.me.g d.toNat
      if ea.toNat % amoBytes w = 0 ∧ gd.toNat % 32 ≠ 0 then Res.align s1 (.amot sw op w b c d o) gd
      else
        withTarget? s1 (.amot sw op w b c d o) w ea fun s2 p =>
          withDesc s2 (.amot sw op w b c d o) gd fun s3 t => postBody (.amot sw op w b c d o) o (some t) p s3) s)

/-! Fetching atomics (R221). -/

/-- The old value of a target as it goes to its register (R227). -/
def oldValue (w : AmoW) (m : Nat) : Word := BitVec.ofNat 64 (m % 2 ^ (8 * min 8 (amoBytes w)))

/-- The high doubleword of a 128-bit old value. -/
def oldHigh (m : Nat) : Word := BitVec.ofNat 64 (m / 2 ^ 64)

/-- What a fetching atomic comes to: its entry while it is outstanding, a wait for room to be sent, or the machine check
of an abort completion. -/
inductive FetchAtom where
  | out (s : State) (what : LongWhat)
  | full
  | error (s : State) (va pa : Nat)

/-- A fetching atomic is performed, or sets out for its line or its home (R217, R218). -/
def fetchAtomic (s : State) (p : MPart) (a : AtomReq) : FetchAtom :=
  let k := queueCore s s.cur p.va
  let s0 := predLook (traceAccess s s.cur p.va) k p.pa
  if goesFar s0 k p.pa then
    match sendFar s0 s0.cur a true with
    | some (s1, home, seq) => .out s1 (.far seq home)
    | none => .full
  else if lineAborts s0 p.pa then .error s0 p.va p.pa
  else if p.kind = .device ∧ !holdsM s0 k (lineOf p.pa) then .out s0 (.own a)
  else
    let s1 := if p.kind = .scratch then noteUndo s0 p.pa p.n else s0
    let (s2, m) := atomLocal s1 s1.cur a
    .out s2 (.value (oldValue a.w m) (oldHigh m))

/-- The width of a fetching atomic. -/
def atomW : Instr → AmoW
  | .amof _ _ w _ _ _ _ => w
  | .cas _ w _ _ _ _ _ => w
  | _ => .d

/-- What `amof` and `cas` do once their target is checked; they are outstanding until their result returns (R38). -/
def fetchBody (i : Instr) (a : Reg) (o : AmoOrd) (p : MPart) (s : State) : Res :=
  match portTrap s i (atomSrcs i) (some a) with
  | some t => .trap t
  | none =>
    if outLimit s.me then .stall s .outLimit
    else
      match pushWait s a.toNat with
      | some x => .stall s x
      | none =>
        if !s.me.irrev then .stall s .commitToken
        else
          match (ordWait s o.ord o.scp [p]).orElse fun _ => storeWait s [p] 1 with
          | some x => .stall s x
          | none =>
            let e := outstOf s i a.toNat (atomW i == .q) (.value 0 0)
            withHeld s i e (atomSrcs i) [p] false fun s1 v =>
              match fetchAtomic s1 p (atomReq s1.me i p v none 0) with
              | .out s2 what => .done (addOutst s2 { e with what := what })
              | .full => .stall s .publishing
              | .error s2 va pa => memAbort s2 i va pa 63 0

/-- `amof` (R221, R225, R227). -/
def execAmof (sw : Bool) (op : AmoOp) (w : AmoW) (a b c : Reg) (o : AmoOrd) (s : State) :
    Host.Outcome State Fault Refusal :=
  next (runInstr (.amof sw op w a b c o) sw (b.toNat :: amoRegs w c ++ amoRegs w a)
    (fun s => withAtomEa s (.amof sw op w a b c o) b fun s1 ea =>
      withTarget? s1 (.amof sw op w a b c o) w ea fun s2 p =>
        fetchBody (.amof sw op w a b c o) a o p s2) s)

/-- `cas` (R221, R227): gC is compared, gD is the new value. -/
def execCas (sw : Bool) (w : AmoW) (a b c d : Reg) (o : AmoOrd) (s : State) : Host.Outcome State Fault Refusal :=
  next (runInstr (.cas sw w a b c d o) sw (b.toNat :: amoRegs w c ++ amoRegs w d ++ amoRegs w a)
    (fun s => withAtomEa s (.cas sw w a b c d o) b fun s1 ea =>
      withTarget? s1 (.cas sw w a b c d o) w ea fun s2 p =>
        fetchBody (.cas sw w a b c d o) a o p s2) s)

/-! Barriers (R233 to R235). -/

/-- The kind of a barrier use: 0 plain, else a combining function. -/
def barKind : BarFn → Nat
  | .max => 1 | .min => 2 | .sum => 3 | .or => 4

/-- A combining function on two values. -/
def barOp (k : Nat) (a b : Word) : Word :=
  match k with
  | 1 => if a.slt b then b else a
  | 2 => if b.slt a then b else a
  | 3 => a + b
  | 4 => a ||| b
  | _ => 0

/-- The identity of a combining function: what an ENDED member contributes. -/
def barUnit (k : Nat) : Word :=
  match k with
  | 1 => 0x8000000000000000
  | 2 => 0x7FFFFFFFFFFFFFFF
  | _ => 0

def barOf (tm : Team) (b : Nat) : Barrier := smGet Barrier.reset tm.bars b

/-- Whether every live member of a team has arrived at a barrier's phase or has ended, and one has arrived. -/
def barFull (s : State) (tm : Team) (x : Barrier) : Bool :=
  !x.arr.isEmpty && tm.slots.all fun r =>
    (s.slot r).term.isSome || x.arr.any fun e => e.1 == (s.slot r).tidx

/-- A phase completes: the combined value, whether the kinds were mixed, and the next phase (R233, R235). -/
def barNext (x : Barrier) : Barrier :=
  let k := match x.arr with | e :: _ => e.2.1 | [] => 0
  { phase := x.phase + 1, arr := [], result := x.arr.foldl (fun v e => barOp k v e.2.2) (barUnit k),
    mixed := x.arr.any fun e => e.2.1 != k }

/-- The barriers of a team whose phase is complete move on (BARRIER_PHASE_COMPLETE). -/
def barCheck (s : State) (t : Nat) : State :=
  let tm := s.getTeam t
  s.setTeam t { tm with bars := tm.bars.map fun p => if barFull s tm p.2 then (p.1, barNext p.2) else p }

/-- The outstanding arrival of a slot at a barrier: its phase. -/
def arrivalOf (sl : Slot) (b : Nat) : Option Nat := (sl.barArr.find? fun p => p.1 == b).map (·.2)

def noteArrival (s : State) (b ph : Nat) : State := s.setMe { s.me with barArr := s.me.barArr ++ [(b, ph)] }

def dropArrival (s : State) (b : Nat) : State := s.setMe { s.me with barArr := s.me.barArr.filter fun p => p.1 != b }

/-- A member arrives at a barrier with a kind and a value; its arrival is noted under `key`: the barrier's number for
`bar.arrive`, and 4 more while a `bar.sync` or combining form waits. -/
def arrive (s : State) (b key k : Nat) (v : Word) : State :=
  match s.me.team with
  | none => noteArrival s key 0
  | some t =>
    let tm := s.getTeam t
    let x := barOf tm b
    let s1 := noteArrival s key x.phase
    barCheck (s1.setTeam t { tm with bars := rmSet tm.bars b { x with arr := x.arr ++ [(s.me.tidx, k, v)] } }) t

/-- The end of a wait at a barrier, where the phase the member arrived at is complete: what it gives. A phase of mixed
kinds ends in ILLEGAL, and its arrival is outstanding no longer (R235). -/
def awaitBar (i : Instr) (b key ph : Nat) (s : State) (k : State → Word → Res) : Res :=
  match s.me.team with
  | none => k (dropArrival s key) 0
  | some t =>
    let x := barOf (s.getTeam t) b
    if ph < x.phase then (if x.mixed then (Res.illegal s i).keeping (dropArrival s key) else k (dropArrival s key) x.result)
    else .stall s (.barrier b)

/-- An arrival of a member that nothing before it holds back (R234). -/
def releaseThen (s : State) (k : State → Res) : Res :=
  match s.me.team, releaseWait s with
  | some _, some w => .stall s w
  | _, _ => k s

/-- `bar.arrive`. -/
def execBarArrive (sw : Bool) (bi : BitVec 2) (s : State) : Host.Outcome State Fault Refusal :=
  next (runInstr (.barArrive sw bi) sw []
    (fun s => if (arrivalOf s.me bi.toNat).isSome then Res.illegal s (.barArrive sw bi)
              else releaseThen s fun s => .done (arrive s bi.toNat bi.toNat 0 0)) s)

/-- `bar.wait`. -/
def execBarWait (sw : Bool) (bi : BitVec 2) (s : State) : Host.Outcome State Fault Refusal :=
  next (runInstr (.barWait sw bi) sw []
    (fun s => match arrivalOf s.me bi.toNat with
      | none => Res.illegal s (.barWait sw bi)
      | some ph => awaitBar (.barWait sw bi) bi.toNat bi.toNat ph s fun s1 _ => .done s1) s)

/-- `bar.sync`: an arrival followed by a wait. The member stalls, and the instruction ends when it issues again
(R233). -/
def execBarSync (sw : Bool) (bi : BitVec 2) (s : State) : Host.Outcome State Fault Refusal :=
  next (runInstr (.barSync sw bi) sw []
    (fun s => match arrivalOf s.me (bi.toNat + 4) with
      | some ph => awaitBar (.barSync sw bi) bi.toNat (bi.toNat + 4) ph s fun s1 _ => .done s1
      | none =>
        if (arrivalOf s.me bi.toNat).isSome then Res.illegal s (.barSync sw bi)
        else if s.me.team.isNone then .done s
        else releaseThen s fun s => .stall (arrive s bi.toNat (bi.toNat + 4) 0 0) (.barrier bi.toNat)) s)

/-- The result of a combining form goes to its register or port. -/
def combineEnd (i : Instr) (b : Nat) (ph : Nat) (a : Reg) (s : State) : Res :=
  match pushWait s a.toNat with
  | some w => .stall s w
  | none => awaitBar i b (b + 4) ph s fun s1 v => putResult s1 a.toNat v

/-- The first issue of a combining form: its ports, its value, and its arrival. -/
def combineStart (i : Instr) (f : BarFn) (b : Nat) (a c : Reg) (s : State) : Res :=
  match portTrap s i [c] (some a) with
  | some t => .trap t
  | none =>
    match pushWait s a.toNat with
    | some w => .stall s w
    | none =>
      releaseThen s fun s => withSrc s i c fun s1 v =>
        if s1.me.team.isNone then putResult s1 a.toNat v
        else .stall (arrive s1 b (b + 4) (barKind f) v) (.barrier b)

/-- `bar.max`, `bar.min`, `bar.sum` and `bar.or` (R233): gA receives the phase's result; outside a team, gB. -/
def execBarCombine (sw : Bool) (f : BarFn) (a b : Reg) (bi : BitVec 2) (s : State) : Host.Outcome State Fault Refusal :=
  next (runInstr (.barCombine sw f a b bi) sw [b.toNat, a.toNat]
    (fun s => match arrivalOf s.me (bi.toNat + 4) with
      | some ph => combineEnd (.barCombine sw f a b bi) bi.toNat ph a s
      | none =>
        if (arrivalOf s.me bi.toNat).isSome then Res.illegal s (.barCombine sw f a b bi)
        else combineStart (.barCombine sw f a b bi) f bi.toNat a b s) s)

end Sys2Proof.Machine
end

