-- ==== Sys2Proof/Machine/Strand.lean ====
section
/-! DEFINITION. Strand instructions (R105, R107, R110, R124 to R127, R382): the terminators, `spawn`, `launch` and
`once`. -/

namespace Sys2Proof.Machine

/-! Terminators (R124). -/

/-- The slot whose activation has ended with the terminator `i`, the `no`th to end (R102): it waits for its commit. -/
def Slot.closed (i : Instr) (wmask : Word) (no : Nat) (sl : Slot) : Slot :=
  { sl with
    st := .closing, stall := .none, act := if sl.irrev then .irrevocable else .ended, term := some i, wmask := wmask,
    pc := sl.npc, npc := sl.npc, outb := [], endNo := no, phase := 0 }

/-- One more activation has ended. -/
def State.countEnd (s : State) : State := { s with seqNext := s.seqNext + 1 }

/-- The activation of a slot has ended with the terminator `i`: barriers of its team no longer wait for it (R233). -/
def endSlot (i : Instr) (wmask : Word) (s : State) : State :=
  let s1 := (s.setMe (s.me.closed i wmask s.seqNext)).countEnd
  match s.me.team with
  | some t => barCheck s1 t
  | none => s1

/-- The value that a terminator keeps as the wait mask. -/
def termMask (s : State) : Instr → Word
  | .wait _ a => s.me.g a.toNat
  | _ => 0

/-- A terminator acts at the end of its park, after its block has been checked (R88). -/
def finTerm (i : Instr) (s : State) : State := completeWith i s s (endSlot i (termMask s i))

/-- `yield` and `wait` are ILLEGAL inside a handler (R382), and `wait` in a team (R110). -/
def inHandler (s : State) : Bool := decide (1 ≤ s.me.depth)

/-- `yield` (R107, R124). -/
def execYield (sw : Bool) (s : State) : Host.Outcome State Fault Refusal :=
  next (runParking (.yield sw) inHandler []
    (fun s => if s.me.ts = 0xFFFFFFFFFFFFFFFF then some (.abort s 0x12) else none) (finTerm (.yield sw)) s)

/-- `end` (R124, R382). -/
def execEndAct (sw : Bool) (s : State) : Host.Outcome State Fault Refusal :=
  next (runParking (.endAct sw) (fun _ => false) [] (fun _ => none) (finTerm (.endAct sw)) s)

/-- `wait` (R110, R124). -/
def execWait (sw : Bool) (a : Reg) (s : State) : Host.Outcome State Fault Refusal :=
  next (runParking (.wait sw a) (fun s => inHandler s || s.me.team.isSome) [a.toNat] (fun _ => none)
    (finTerm (.wait sw a)) s)

/-! `spawn` (R125). -/

/-- Whether the domain of the slot is ORDERED. -/
def inOrdered (s : State) : Bool := (s.dom s.me.domain.toNat).ordered

/-- A spawn's reservation and its outgoing entry. -/
def spawnEntryOut (s : State) (g gb gw : Word) (prio : BitVec 3) (ts : Word) (k : Nat) : State :=
  addOut (takeEntry s (clusterOf s.cur.core) k) (.spawn g gb gw ts prio k)

/-- `spawn`: the checks in the order of R125, then what it waits for, then its entry. -/
def spawnBody (i : Instr) (a b w : Reg) (prio : BitVec 3) (delta : BitVec 16) (s : State) : Res :=
  let ga := s.me.g a.toNat
  let ts := s.me.ts.toNat + delta.toNat
  if ga.toNat.testBit 0 then Res.align s i ga
  else if inOrdered s && delta == 0 then Res.illegal s i
  else if 2 ^ 64 ≤ ts then .abort s 0x12
  else
    match outWait s.me with
    | some x => .stall s x
    | none =>
    if s.me.irrev && !sidsLeft s s.me.domain 1 then .abort s 0x12
    else
    match spawnEntry s s.cur.core with
    | none => .stall s .pool
    | some k => .done (spawnEntryOut s ga (s.me.g b.toNat) (s.me.g w.toNat) prio (BitVec.ofNat 64 ts) k)

def execSpawn (sw : Bool) (a b w : Reg) (prio : BitVec 3) (delta : BitVec 16) (s : State) :
    Host.Outcome State Fault Refusal :=
  next (runInstr (.spawn sw a b w prio delta) sw [a.toNat, b.toNat, w.toNat]
    (spawnBody (.spawn sw a b w prio delta) a b w prio delta) s)

/-! `launch` (R126). -/

/-- `launch`: the reply channel, the alignment and the translation of the record, then its entry. -/
def launchBody (i : Instr) (a b : Reg) (s : State) : Res :=
  let ga := s.me.g a.toNat
  let gb := s.me.g b.toNat
  if gb ≠ 0 ∧ natBits gb.toNat 37 32 < 8 then Res.illegal s i
  else if ga.toNat % 64 ≠ 0 then Res.align s i ga
  else
    withParts s i .load ga.toNat [(ga.toNat, 64)] fun s1 ps =>
      match ps with
      | [p] =>
        if p.kind = .io then (if s1.me.super then Res.align s1 i ga else Res.access s1 i 31 ga)
        else takeOutVia s1 p (.launch p.pa gb p.view (ptePa p.pte))
      | _ => .done s1

def execLaunch (sw : Bool) (a b : Reg) (s : State) : Host.Outcome State Fault Refusal :=
  next (runInstr (.launch sw a b) sw [a.toNat, b.toNat] (launchBody (.launch sw a b) a b) s)

/-! `once` (R127). -/

/-- Whether `once` may prefix an instruction. -/
def onceAllowed : Instr → Bool
  | .alu .. | .aluw .. | .muldiv .. | .alui .. | .aluiw .. | .liImm16 .. | .liImm32 .. | .liImm48 .. | .bit .. | .sel ..
  | .addr .. | .movaPcl .. | .movaNext .. | .ld .. | .st .. | .ldu .. | .stu .. | .amo .. | .amof .. | .cas .. | .amot ..
  | .send .. | .job .. | .spawn .. | .launch .. => true
  | _ => false

/-- The instruction at a PC: nothing where it cannot be fetched, `none` inside where the halfwords hold no
instruction. -/
def peekInstr (s : State) (pc : Word) : Option (Option Instr) :=
  match (translate s (slotCtx s s.cur true) .fetch (pc.toNat / 64 * 64) 64).2 with
  | .ok _ pa =>
    if lineAborts s pa then none
    else
      match decodeLine (lineHalves s pa) (natBits pc.toNat 5 1) with
      | none => some none
      | some e =>
        match decode e with
        | .ok i => some (some i)
        | .error _ => some none
  | _ => none

/-- Whether `once` is ILLEGAL for what follows it. What cannot be fetched raises its own fault when its turn comes. -/
def onceBad (s : State) : Bool :=
  match peekInstr s s.me.npc with
  | some (some i) => !onceAllowed i
  | some none => true
  | none => false

/-- An instance that a member reaches first. -/
def newOnce (s : State) (k : Nat) : OnceInst :=
  { k := k, pc := s.me.npc, performer := slotKey s.cur, done := false, dest := 0, value := 0, value2 := 0 }

/-- The member's next instruction is instance `k`. -/
def armOnce (s : State) (k : Nat) : State := s.setMe { s.me with onceN := k, onceArm := some s.me.npc }

/-- `once` in a team. -/
def onceTeam (i : Instr) (t : Nat) (s : State) : Res :=
  let k := s.me.onceN + 1
  let tm := s.getTeam t
  match tm.onces.find? fun o => o.k == k with
  | some o => if o.pc = s.me.npc then .done (armOnce s k) else Res.illegal s i
  | none => .done (armOnce (s.setTeam t { tm with onces := tm.onces ++ [newOnce s k] }) k)

/-- `once` (R127): without effect outside a team. -/
def execOnce (sw : Bool) (s : State) : Host.Outcome State Fault Refusal :=
  next (runInstr (.once sw) sw []
    (fun s =>
      if onceBad s then Res.illegal s (.once sw)
      else
        match s.me.team with
        | some t => onceTeam (.once sw) t s
        | none => .done s) s)

end Sys2Proof.Machine
end

