-- ==== Sys2Proof/Machine/Commit.lean ====
section
/-! DEFINITION. Commit (R105, R110, R195, R199 to R205): the frontier and the commit token, publication, what follows
it, and turning irrevocable. -/

namespace Sys2Proof.Machine

/-! The frontier of an ORDERED domain (R199, R201). -/

/-- Where a key stands for its activation: the key, the core that accepted its trigger, the number of the acceptance. -/
structure Rank where
  key : Key
  core : Nat
  acc : Nat

/-- The order in which activations of equal keys commit (R201). -/
def Rank.before (a b : Rank) : Bool :=
  a.key.lt b.key || (a.key == b.key && (decide (a.core < b.core) || (a.core == b.core && decide (a.acc < b.acc))))

def trigRank (k : Key) (t : Trigger) : Rank := { key := k, core := t.accBy, acc := t.acc }

def slotRank (sl : Slot) : Rank := trigRank sl.key sl.trig

/-- The order in which triggers were accepted, a tie of one cycle going to the lower agent (R202). -/
def Trigger.sooner (t u : Trigger) : Bool :=
  decide (t.accAt < u.accAt) || (t.accAt == u.accAt &&
    (decide (t.accBy < u.accBy) || (t.accBy == u.accBy && decide (t.acc < u.acc))))

/-- Whether a slot holds an activation that has not committed (R102). -/
def Slot.uncommitted (sl : Slot) : Bool := sl.act != .none && sl.act != .committed && sl.helperOf.isNone

/-- The domain of the activation that a message would start or resume, if it names one (R199): that of the strand whose
record it names, else that of the binding of its channel. -/
def targetDomain (s : State) (p : Packet) : Option (BitVec 32) :=
  if p.rmo then none
  else
    match agentCore? s p.dest with
    | none => none
    | some c =>
      if p.resume then (if smHas s.strands p.d3.toNat then some (s.strand p.d3.toNat).domain else none)
      else (binding? (s.core c) p.chan).map (·.domain)

/-- Whether a message is a trigger that a domain sent to itself and that has not been accepted. -/
def ownTrigger (s : State) (d : BitVec 32) (p : Packet) : Bool :=
  natBits p.osid.toNat 39 28 == (s.dom d.toNat).sidBase.toNat && targetDomain s p == some d

/-- The messages in flight, in pending queues and in return buffers. -/
def liveMessages (s : State) : List Packet :=
  (s.net.filterMap fun n => match n with | .msg p => some p | _ => none) ++
    s.cores.flatMap fun c => c.2.pendq.map (·.2) ++ c.2.retbuf.map (·.pkt)

/-- Whether a command replies when it completes (R259), or the matrix command embedded in its card does (R328). -/
def jobReplies (s : State) (j : Job) : Bool :=
  let u := engineUnit j.agent
  let b := if j.st = .issued then
      capturedBlock j.captured (peekBytes s j.iss.xroot (j.cmd.toNat / 64 * 64) (blockSize s j.iss.xroot u (j.cmd.toNat / 64 * 64)))
    else j.card
  match u with
  | 16 => mcRchan b != 0
  | 0 => cdRchan b != 0
  | _ => jcRchan b != 0 || (jcMm b && mcRchan (jcMmBlock b) != 0)

/-- The key of a command's reply (R259). -/
def jobKey (j : Job) : Key := { ts := j.iss.ts + 1, sid := j.iss.sid, idx := BitVec.ofNat 16 j.iss.idx }

/-- Whether something of the domain that has no slot precedes an activation: a message that has not been accepted, a
READY strand or a waiting team, whose triggers have been (R102), or the reply of an incomplete command (R199, R201). -/
def triggersBefore (s : State) (d : BitVec 32) (k : Rank) : Bool :=
  ((liveMessages s).any fun p => (msgKey p).lt k.key && ownTrigger s d p) ||
  (s.strands.any fun q => q.2.domain == d && q.2.st == .ready &&
    match q.2.trig with | some t => (trigRank t.key t).before k | none => false) ||
  (s.clusters.any fun c => c.2.waitTeams.any fun w =>
    (s.getTeam w.team).domain == d && (trigRank (s.getTeam w.team).key (s.getTeam w.team).trig).before k) ||
  (s.jobs.any fun j => j.iss.domain == d && (jobKey j).lt k.key && jobReplies s j)

/-- Whether a slot's activation, or its team's, has the frontier key. -/
def atFrontier (s : State) (r : SlotRef) : Bool :=
  let sl := s.slot r
  let self := selfSlots s r
  !(s.slots.any fun p => p.2.uncommitted && p.2.domain == sl.domain && !self.contains (slotRefOf p.1) &&
      (slotRank p.2).before (slotRank sl)) &&
    !triggersBefore s sl.domain (slotRank sl)

/-! The token (R199, R202, R204, R205). -/

/-- The number under which an activation, or a team as one, holds the token. -/
def tokenNo (s : State) (r : SlotRef) : Nat :=
  match selfSlots s r with
  | q :: _ => (s.slot q).seqNo
  | [] => (s.slot r).seqNo

/-- Whether every slot of an activation has ended and none of it has been published. -/
def allEnded (s : State) (r : SlotRef) : Bool :=
  (selfSlots s r).all fun q => (s.slot q).st == .closing && (s.slot q).phase == 0

/-- When an activation, or the last member of a team, ended. -/
def endedAt (s : State) (r : SlotRef) : Nat := (selfSlots s r).foldl (fun m q => max m (s.slot q).endNo) 0

/-- Whether a slot waits for the token to turn irrevocable. -/
def waitsToken (sl : Slot) : Bool := sl.st == .stalled && sl.stall == .commitToken

/-- The slots of other activations of a domain. -/
def otherSlots (s : State) (r : SlotRef) : List (SlotRef × Slot) :=
  let self := selfSlots s r
  let d := (s.slot r).domain
  (s.slots.map fun p => (slotRefOf p.1, p.2)).filter fun p =>
    p.2.act != .none && p.2.helperOf.isNone && p.2.domain == d && !self.contains p.1

/-- The turn in an ATOMIC domain (R202): commits in the order of ending, and requests to turn irrevocable behind them,
the one that entered STARTING earliest first, a tie going to the lower core. -/
def atomicTurn (s : State) (r : SlotRef) : Bool :=
  if allEnded s r then
    !(otherSlots s r).any fun p => p.2.uncommitted && allEnded s p.1 && decide (endedAt s p.1 < endedAt s r)
  else
    !(otherSlots s r).any fun p => p.2.uncommitted &&
      (allEnded s p.1 || (waitsToken p.2 && p.2.trig.sooner (s.slot r).trig))

/-- Whether an activation has, or can have, its domain's commit token. While another activation of the domain issues its
outgoing entries no further one publishes (R126, R195). -/
def tokenFor (s : State) (r : SlotRef) : Bool :=
  let sl := s.slot r
  let d := s.dom sl.domain.toNat
  d.holder == some (tokenNo s r) ||
    (d.holder.isNone && !((otherSlots s r).any fun p => p.2.phase == 2) &&
      (if d.ordered then atFrontier s r else atomicTurn s r))

def setHolder (s : State) (dom : BitVec 32) (h : Option Nat) : State :=
  s.setDom dom.toNat { s.dom dom.toNat with holder := h }

/-! SIDs at the token (R105). -/

/-- The counter values that an activation takes with the token: its own new strands', and those of the strands it
spawns. -/
def sidsWanted (s : State) (r : SlotRef) : Nat :=
  (selfSlots s r).foldl (fun n q =>
    let sl := s.slot q
    n + (if needsSid sl then 1 else 0) + (reservedPools sl).length) 0

/-- A slot's new strand takes its SID. -/
def giveSid (s : State) (r : SlotRef) : State :=
  let sl := s.slot r
  if needsSid sl then
    let (s1, sid) := takeSid s sl.domain
    (s1.setStrand sl.strand { s1.strand sl.strand with sid := sid }).setSlot r { sl with sid := sid }
  else s

/-! Publishing (R204 steps 2 to 4). -/

/-- Whether some store or posted atomic of the activation would disturb a job's footprint. -/
def actDisturbs (s : State) (r : SlotRef) : Bool :=
  (selfSlots s r).any fun q => bufDisturbs s (s.slot q).domain (s.slot q).buf

/-- Whether some member has a dispatched `vst` that has still to fill its entries. -/
def vstWaits (s : State) (r : SlotRef) : Bool := (selfSlots s r).any fun q => vstPending (s.slot q)

/-- Whether some member has a store or a posted atomic that waits for a popped operand. -/
def heldWaits (s : State) (r : SlotRef) : Bool :=
  (selfSlots s r).any fun q => (s.slot q).buf.any fun e => match e with | .await .. => true | _ => false

/-- The buffers of an activation are published in ascending team index, as far as they go; one that waits for the reply
of a far atomic waits on. -/
def pubMembers : List SlotRef → State → State
  | [], s => s
  | q :: rest, s =>
    let s1 := if (s.slot q).buf.isEmpty || farWaits s q then s else pubBuffer s q
    if (s1.slot q).buf.isEmpty then pubMembers rest s1 else s1

/-- Whether every buffer of an activation has been published. -/
def allPublished (s : State) (r : SlotRef) : Bool := (selfSlots s r).all fun q => (s.slot q).buf.isEmpty

def mapSelf (s : State) (r : SlotRef) (f : Slot → Slot) : State :=
  (selfSlots s r).foldl (fun u q => u.setSlot q (f (u.slot q))) s

/-- Publication begins: the token is taken, and readers of every line written are aborted before the first entry
goes. -/
def beginPublish (s : State) (r : SlotRef) : State :=
  let dom := (s.slot r).domain
  let no := tokenNo s r
  let self := selfSlots s r
  let s1 := self.foldl giveSid s
  let s2 := mapSelf (setHolder s1 dom (some no)) r fun sl => { sl with phase := 1 }
  pubMembers self (publishLines s2 (self.flatMap fun q => bufLines (s2.slot q).buf) self (some dom))

/-! After publication (R204 steps 5 and 6, R110, R124). -/

/-- The record and the frame of a strand as its activation committed (R95, R98, R101). -/
def saveStrand (s : State) (r : SlotRef) : State :=
  let sl := s.slot r
  let a := sl.strand
  let st := s.strand a
  let s1 := s.setStrand a { st with
    pc := sl.pc, ts := sl.ts, sid := sl.sid, wsp := sl.wsp, prio := sl.prio,
    wmask := match sl.term with | some (.wait ..) => sl.wmask | _ => st.wmask,
    resume := resumeWord sl.trig, dropped := false,
    toks := st.toks.filter fun t => !sl.tokPops.contains (t.queue, t.qseq) }
  writeRecord (writeFrame s1 sl sl.pc) a

/-- The trigger of a self continuation (R99). -/
def selfTrigger (s : State) (core : Nat) (ts : Word) (sid : BitVec 40) : Trigger :=
  { Trigger.none with kind := .self, key := { ts := ts + 1, sid := sid, idx := 0xFFFF }, accBy := core, acc := s.seqNext,
                      ranOn := core, accAt := s.now }

/-- The strand of a committed activation outside a team goes where its terminator sends it (R124); in a cancelled
launch it is DONE (R121; assumption log 12). -/
def applyTerm (s : State) (r : SlotRef) : State :=
  let sl := s.slot r
  let a := sl.strand
  if domCancelled s sl.domain then strandDone s a else
  match sl.term with
  | some (.endAct _) => strandDone s a
  | some (.wait ..) => joinWaiting s a
  | _ => joinReady (s.setStrand a { s.strand a with trig := some (selfTrigger s r.core sl.ts sl.sid) }) a

/-- The team goes on as its live members, or is over (R110): it waits at the tail of its cluster's FIFO. -/
def endTeamRun (s : State) (t cl : Nat) (core : Nat) : State :=
  let tm := s.getTeam t
  let s1 := s.setTeam t { tm with slots := [], running := false, bars := [], onces := [], irrev := false, undo := [],
                                  pushed := [] }
  match tm.members with
  | [] => { s1 with teams := smDel s1.teams t }
  | a :: _ =>
    let tr := selfTrigger s1 core tm.ts (s1.strand a).sid
    queueTeam (s1.setTeam t { s1.getTeam t with trig := tr, key := tr.key, ts := tm.ts + 1 }) t cl false

/-- A member of a team has committed: DONE by `end`, or in a cancelled launch (R121), else READY with its team (R110). -/
def memberDone (s : State) (r : SlotRef) (t : Nat) : State :=
  let sl := s.slot r
  let a := sl.strand
  let ends := domCancelled s sl.domain || match sl.term with
    | some (.endAct _) => true
    | _ => false
  let s1 :=
    if ends then
      let u := strandDone s a
      let tm := u.getTeam t
      u.setTeam t { tm with members := tm.members.filter (· != a), live := tm.live.filter (· != a) }
    else s.setStrand a { s.strand a with st := .ready }
  let tm := s1.getTeam t
  let s2 := (s1.setTeam t { tm with slots := tm.slots.filter (· != r) }).setSlot r (emptied sl)
  if (tm.slots.filter (· != r)).isEmpty then endTeamRun s2 t (clusterOf r.core) r.core else s2

/-- A slot whose entries have all been issued writes its frame and applies its terminator's step; it is FREE. -/
def finishSlot (s : State) (r : SlotRef) : State :=
  let s1 := saveStrand s r
  match (s1.slot r).team with
  | some t => memberDone s1 r t
  | none => (applyTerm s1 r).setSlot r (emptied (s1.slot r))

/-- Slots of a committed activation finish in team-index order where nothing is left to issue. -/
def finishMembers : List SlotRef → State → State
  | [], s => s
  | q :: rest, s => if (s.slot q).outg.isEmpty then finishMembers rest (finishSlot s q) else s

/-- Publication is complete: the token passes on, the commit is counted and traced, and what needs no entry
finishes. -/
def endPublish (s : State) (r : SlotRef) : State :=
  let sl := s.slot r
  let d := s.dom sl.domain.toNat
  let self := selfSlots s r
  let s1 := s.setDom sl.domain.toNat { d with holder := none, lastKey := some sl.key }
  let s2 := self.foldl (fun u q =>
    let x := u.slot q
    traceEv (countCore (u.setSlot q { x with phase := 2, act := .committed }) q.core 2 1) q 6 x.sid.toNat) s1
  finishMembers self s2

/-! Irrevocable mode (R205, R215). -/

/-- Whether the entry at the head of a slot's list can be issued now: a message needs an NI that issues (R244). -/
def canIssue (s : State) (r : SlotRef) (e : OutEntry) : Bool := !(e.what.sends && retFull s r.core)

/-- The entry at the head of a slot's list is issued. -/
def issueHead (s : State) (r : SlotRef) : State :=
  let sl := s.slot r
  match sl.outg with
  | e :: rest => if canIssue s r e then issueEntry (s.setSlot r { sl with outg := rest }) r e else s
  | [] => s

/-- Entries of a slot issued in order while they can be; the list's length bounds them. -/
def issueAll : Nat → SlotRef → State → State
  | 0, _, s => s
  | n + 1, r, s =>
    let u := issueHead s r
    if (u.slot r).outg.length < (s.slot r).outg.length then issueAll n r u else u

/-- A slot of an activation that has turned irrevocable: the one that waited can issue again. -/
def irrevSlot (sl : Slot) : Slot :=
  let y := { sl with phase := 0, irrevAsked := false, trans := [], act := .irrevocable }
  if waitsToken sl then { y with st := sl.readySt, stall := .none } else y

/-- The drain is complete once every entry has been issued: the activation is IRREVOCABLE. -/
def endDrain (s : State) (r : SlotRef) : State :=
  let self := selfSlots s r
  let s1 := self.foldl (fun u q => issueAll (u.slot q).outg.length q u) s
  if self.all fun q => (s1.slot q).outg.isEmpty then
    let s2 := mapSelf s1 r irrevSlot
    match (s2.slot r).team with
    | some t => s2.setTeam t { s2.getTeam t with irrev := true, undo := [] }
    | none => s2
  else s1

/-- Whether a publication is a drain: some slot of it has not ended. -/
def isDrain (s : State) (r : SlotRef) : Bool := (selfSlots s r).any fun q => (s.slot q).st != .closing

/-- A publication under way goes on: the buffers that are left, then what follows. -/
def goOn (s : State) (r : SlotRef) : State :=
  let s1 := pubMembers (selfSlots s r) s
  if !allPublished s1 r then s1 else if isDrain s1 r then endDrain s1 r else endPublish s1 r

/-- Whether the glaze keeps a trigger with this TS from starting, or an activation from committing (R363). -/
def glazeHolds (s : State) (ts : Word) : Bool := s.glaze != .idle && decide (s.glazeG.toNat ≤ ts.toNat)

/-- The commit token is obtained and publication begins, where nothing stands against it. -/
def startCommit (s : State) (r : SlotRef) : State :=
  if !tokenFor s r || actDisturbs s r || glazeHolds s (s.slot r).key.ts then s
  else if !sidsLeft s (s.slot r).domain (sidsWanted s r) then codeAbort s r 0x12
  else goOn (beginPublish s r) r

/-- COMMIT: an activation, or a team, that has ended (R204). -/
def commitSlot (s : State) (r : SlotRef) : State := if allEnded s r then startCommit s r else s

/-- COMMIT_ENTRY_ISSUE: the next entry of a committed activation, members in ascending team index (R204). -/
def issueNext (s : State) (r : SlotRef) : State :=
  let before := (selfSlots s r).takeWhile (· != r)
  if (s.slot r).phase != 2 || before.any fun q => !(s.slot q).outg.isEmpty then s
  else
    let s1 := issueHead s r
    if (s1.slot r).outg.isEmpty then finishMembers (selfSlots s1 r) s1 else s1

/-- IRREVOCABLE_DRAIN (R205): a slot that waits for the token takes it once its turn comes and drains; a drain that
waits for room to issue goes on. -/
def drainSlot (s : State) (r : SlotRef) : State :=
  let sl := s.slot r
  if sl.phase = 1 then (if sl.st != .closing && allPublished s r then goOn s r else s)
  else if !waitsToken sl then s
  else if sl.irrev then s.setSlot r { sl with st := sl.readySt, stall := .none }
  else if vstWaits s r || heldWaits s r then s
  else startCommit s r

/-! Atomics on their way (R217 to R219, R229). -/

/-- After the head atomic of a buffer has been performed: the buffer and what follows it go on. An irrevocable
activation's direct atomic has nothing behind it. -/
def afterHead (s : State) (r : SlotRef) : State :=
  let s1 := pubNext s r
  if (s1.slot r).phase = 1 then goOn s1 r else s1

/-- The head of a buffer as a posted atomic that can be performed next to the core, now that its line is there. -/
def headPerform (s : State) (r : SlotRef) (a : AtomReq) : State :=
  if !lineAborts s a.pa then afterHead (atomLocal s r a).1 r
  else if !committing s r then postedFault s r a
  else afterHead (postedFault s r a) r

/-- A value for an outstanding fetching atomic. -/
def setFetched (s : State) (r : SlotRef) (p : Outst → Bool) (w : AmoW) (m : Nat) : State :=
  let sl := s.slot r
  s.setSlot r { sl with outst := updFirst p (fun o => { o with what := .value (oldValue w m) (oldHigh m) }) sl.outst }

/-- The MEMORY-ABORT of an outstanding instruction. -/
def outstAbort (s : State) (r : SlotRef) (o : Outst) (pa va : Nat) : State :=
  errorAbort (s.fwTell (paDie pa) 2 (.memoryAbort (lineOf pa))) r
    { memAbortRecord s r o.major o.func 63 va 0 with pc := o.pc }

def isOwn (o : Outst) : Bool := match o.what with | .own _ => true | _ => false

/-- A fetching atomic whose line has come is performed. -/
def ownPerform (s : State) (r : SlotRef) : State :=
  match (s.slot r).outst.find? isOwn with
  | some o =>
    match o.what with
    | .own a =>
      if lineAborts s a.pa then outstAbort s r o a.pa a.va
      else
        let (s1, m) := atomLocal s r a
        setFetched s1 r isOwn a.w m
    | _ => s
  | none => s

/-- LOCAL_ATOMIC_PERFORM (R218, R219): the posted atomic at the head of the buffer, else the fetching one. One that goes
to its home, and has found no room to be sent, is tried again. -/
def localPerform (s : State) (r : SlotRef) : State :=
  let sl := s.slot r
  match sl.buf with
  | .amo a :: _ =>
    if sl.phase != 1 && !sl.irrev then s
    else if farWaits s r then s
    else if goesFar s (queueCore s r a.va) a.pa then
      match startPosted s r a with
      | .waits s1 | .done s1 | .fault s1 => s1
    else if trigWaits s a.pa a.trig.isSome then s
    else headPerform s r a
  | _ => ownPerform s r

end Sys2Proof.Machine
end

