-- ==== Sys2Proof/Machine/Compose.lean ====
section
/-! DEFINITION. Composed cores (R129 to R148): `compose`, the claim of its members, `release`, and the hand-back with
its residue check. -/

namespace Sys2Proof.Machine

/-- Run `f` with a slot as the one that acts; the slot whose turn comes by default stays. Nothing happens for a slot
that the module does not have. -/
def asSlot (s : State) (r : SlotRef) (f : State → State) : State :=
  if r.core < 5120 ∧ r.slot < 8 then { f { s with cur := r } with cur := s.cur } else s

/-- The base of the shape of 2^k cores around a core (R129). -/
def shapeBase (core k : Nat) : Nat := core / 2 ^ k * 2 ^ k

/-- The members of the shape of 2^k cores around a core. -/
def shapeMembers (core k : Nat) : List Nat := natsFrom (shapeBase core k) (2 ^ k)

/-- Whether a slot keeps its core out of another composition. -/
def composes (st : SlotSt) : Bool := st == .composing || st == .lead || st == .helper || st == .releasing

/-- Whether a core can take part in a composition of 2^k cores led by slot `r` (R147). -/
def eligible (s : State) (r : SlotRef) (k m : Nat) : Bool :=
  !fenced s m && !(slotsOf m).any (fun q => q != r && composes (s.slot q).shown) &&
    decide (k ≤ (s.core m).maxLog2.toNat) && (m == r.core || (freeSlot s m).isSome)

/-- The largest shape of at most 2^k cores that slot `r` can obtain; 0 for none. -/
def obtainShape (s : State) (r : SlotRef) : Nat → Nat
  | 0 => 0
  | k + 1 => if (shapeMembers r.core (k + 1)).all (eligible s r (k + 1)) then k + 1 else obtainShape s r k

/-- A core's lowest FREE slot becomes a helper of slot `r`. -/
def claimHelper (r : SlotRef) (s : State) (m : Nat) : State :=
  if m = r.core then s
  else
    match freeSlot s m with
    | some q => s.setSlot q { emptied (s.slot q) with st := .helper, helperOf := some r }
    | none => s

/-- The claim of a shape of 2^k cores: helpers on the other members, CURLOG2 k, and the caller LEAD. -/
def claimShape (s : State) (r : SlotRef) (k : Nat) : State :=
  let s1 := (shapeMembers r.core k).foldl (claimHelper r) s
  s1.setSlot r { s1.slot r with curLog2 := BitVec.ofNat 3 k, st := .lead }

/-- `compose` at the end of its park (R147). -/
def finCompose (i : Instr) (s : State) : State :=
  if s.me.composeVoid then completeWith i s s fun u => advance u s.me.npc false
  else s.setMe { s.me with st := .composing, cont := .after i }

/-- `compose` (R147). -/
def execCompose (sw : Bool) (lg : BitVec 3) (s : State) : Host.Outcome State Fault Refusal :=
  next (runParking (.compose sw lg) (fun _ => false) [] (fun _ => none) (finCompose (.compose sw lg)) s)

/-! The moves of registers (R137). -/

/-- The bank that holds a general register in a composition (R132). -/
def bankOf (sl : Slot) (core j : Nat) : Nat := core / sl.members * sl.members + j % sl.members

/-- The RESIDUE record of a register that arrives at a member disturbed (R137). -/
def moveRecord (s : State) (receiver sender major : Nat) (pc : Word) (sent arrived : Nat) : McInfo :=
  { type := 1, sev := 1, unit := 1, agent := coreAgent s receiver, lane := 63, major := major, func := 0,
    res := resByte (res arrived) (res sent), pc := pc, info := BitVec.ofNat 64 (sender % 16) }

/-- The error armed for a register that `compose` moves from the caller to a member of its shape (R137, R147). -/
def moveGlitch (s : State) (r : SlotRef) : Option Glitch :=
  s.glitches.find? fun g => g.unit == 8 && g.core != r.core && decide (1 ≤ g.lane ∧ g.lane ≤ 47) &&
    g.core == bankOf (s.slot r) r.core g.lane

/-- The registers go to the banks of the members (R147): one that arrives wrong fails its member's check, where its
residue tells. -/
def distribute (s : State) (r : SlotRef) (pc : Word) (k : State → State) : State :=
  match moveGlitch s r with
  | none => k s
  | some g =>
    let v := (s.slot r).g g.lane
    let s1 := useGlitch s g
    if res (v ^^^ g.flip).toNat = res v.toNat then k (s1.setSlot r ((s1.slot r).setG g.lane (v ^^^ g.flip)))
    else errorAbort s1 r (moveRecord s1 g.core r.core 0x58 pc v.toNat (v ^^^ g.flip).toNat)

/-- The largest shape that a caller obtains now. -/
def shapeFor (s : State) (r : SlotRef) (lg : Nat) : Nat := obtainShape s r (min lg (s.core r.core).maxLog2.toNat)

/-- The end of `compose` for the slot that acts: its shape, its registers in their banks, and the next instruction (R147,
R405). -/
def claimAndGo (i : Instr) (lg : Nat) (s : State) : State :=
  let k := shapeFor s s.cur lg
  let go (u : State) : State := traceEv (advance (u.setMe { u.me with cont := .resume }) s.me.npc false) s.cur 10 k
  completeWith i s s fun u =>
    if k = 0 then go (u.setMe { u.me with st := .ready }) else distribute (claimShape u u.cur k) u.cur s.me.pc go

/-- A slot that has reached its claim, with the size it asks for. -/
def claims (s : State) (r : SlotRef) : Option (Instr × Nat) :=
  match (s.slot r).st, (s.slot r).cont with
  | .composing, .after (.compose sw lg) => some (.compose sw lg, lg.toNat)
  | _, _ => none

/-- The caller of a cluster whose claim is granted next: that on the lowest-numbered core (R147). -/
def claimant (s : State) (cl : Nat) : Option SlotRef :=
  ((coresOf cl).flatMap slotsOf).find? fun q => (claims s q).isSome

/-- Whether a cluster has granted a claim in this cycle. -/
def claimedNow (s : State) (cl : Nat) : Bool := (s.cluster cl).claimAt == s.now + 1

/-- A cluster grants a claim, one in a cycle. -/
def grantClaim (s : State) (cl : Nat) : State :=
  if claimedNow s cl then s
  else
    match claimant s cl with
    | some q =>
      match claims s q with
      | some (i, lg) => asSlot (s.setCluster cl { s.cluster cl with claimAt := s.now + 1 }) q (claimAndGo i lg)
      | none => s
    | none => s

/-- COMPOSE_CLAIM: the cluster of a COMPOSING slot grants the claim whose turn it is; each takes the largest shape it can
obtain. -/
def execComposeClaim (r : SlotRef) (s : State) : Host.Outcome State Fault Refusal :=
  next (asSlot s r fun s => if (claims s s.cur).isSome then grantClaim s (clusterOf s.cur.core) else s)

/-- Whether a trigger that reaches a core now loses its last FREE slot to the claim that is granted in this cycle (R140,
R147). -/
def losesToClaim (s : State) (core : Nat) : Bool :=
  !claimedNow s (clusterOf core) && ((slotsOf core).filter fun q => (s.slot q).st == .free).length == 1 &&
    match claimant s (clusterOf core) with
    | some q =>
      match claims s q with
      | some (_, lg) => q.core != core && shapeFor s q lg != 0 && (shapeMembers q.core (shapeFor s q lg)).contains core
      | none => false
    | none => false

/-- The slot of a core that a trigger takes. -/
def triggerSlot (s : State) (core : Nat) : Option SlotRef := if losesToClaim s core then none else freeSlot s core

/-- `release` at the end of its park, the composition handed back (R148). -/
def finRelease (i : Instr) (s : State) : State :=
  completeWith i s s fun u => traceEv (advance u s.me.npc false) s.cur 10 0

/-- `release` (R148). -/
def execRelease (sw : Bool) (s : State) : Host.Outcome State Fault Refusal :=
  next (runParking (.release sw) (fun _ => false) [] (fun _ => none) (finRelease (.release sw)) s)

/-! Hand-back (R137, R146). -/

/-- The major opcode and the PC of what caused a hand-back (R137). -/
def handBackCause (sl : Slot) : Nat × Word :=
  match sl.cont with
  | .after i => (majorOf i, sl.pc)
  | .trap t => (t.major, if t.code = 9 then t.trapp else sl.pc)
  | .resume => (0, sl.pc)

/-- What the moves of a hand-back do to a register that an error of the network disturbs: a failed check, or the value
as it arrived where its residue is unchanged. -/
def flipMove (s : State) (r : SlotRef) (sender j : Nat) (flip : Word) : Option McInfo × State :=
  let sl := s.slot r
  let v := sl.g j
  if j = 0 ∨ 47 < j ∨ sender = r.core ∨ bankOf sl r.core j ≠ sender then (none, s)
  else
    let (major, pc) := handBackCause sl
    if res (v ^^^ flip).toNat = res v.toNat then (none, s.setSlot r (sl.setG j (v ^^^ flip)))
    else (some (moveRecord s r.core sender major pc v.toNat (v ^^^ flip).toNat), s)

end Sys2Proof.Machine
end

