-- ==== Sys2Proof/Machine/Messages.lean ====
section
/-! DEFINITION. Message and engine instructions (R244, R250 to R254, R260, R263, R348, R359): `send`, `bind`, `unbind`,
`chan`, `job`, `ldir` and `coll`. -/

namespace Sys2Proof.Machine

/-- What an instruction that issues a message waits for: the token where its entry would be the 65th (R102), or, when
it is direct, room in the return buffer (R244). -/
def sendWait (s : State) : Option StallWhy :=
  match outWait s.me with
  | some w => some w
  | none => if s.me.irrev && retFull s s.cur.core then some (.bounceRoom s.now) else none

/-! `send` (R250). -/

/-- The ILLEGAL conditions on the value of gA. -/
def sendBad (ga : Nat) (rmo res : Bool) : Bool :=
  natBits ga 63 46 != 0 || natBits ga 45 44 == 3 || (rmo && (res || natBits ga 37 32 != 0)) ||
    (!rmo && decide (1 ≤ natBits ga 43 38 ∧ natBits ga 43 38 ≤ 5))

/-- D0 of a `send` (R250). -/
def sendD0 (ga count : Nat) (rep rmo res zd : Bool) : Word :=
  BitVec.ofNat 64 (natBits ga 45 0 + count * 2 ^ 46 + rep.toNat * 2 ^ 52 + rmo.toNat * 2 ^ 55 + res.toNat * 2 ^ 56 +
    zd.toNat * 2 ^ 59)

/-- A slot whose outb has been sent. -/
def Slot.outbSent (sl : Slot) : Slot := { sl with outb := [] }

/-- The entry of a `send`, which takes the doublewords of outb. -/
def sendOut (s : State) (ga gb : Word) (rep rmo res : Bool) (delta : BitVec 16) : State :=
  let sl := s.me
  let d0 := sendD0 ga.toNat sl.outb.length rep rmo res (inOrdered s && delta == 0)
  addOut (s.setMe sl.outbSent) (.send d0 (sl.ts + delta.setWidth 64) gb sl.outb)

/-- `send`: the checks in the order of R250, then what it waits for, then its entry. Doublewords that an earlier
instruction has still to append are waited for. -/
def sendBody (i : Instr) (a b : Reg) (rep rmo res : Bool) (delta : BitVec 16) (s : State) : Res :=
  let ga := s.me.g a.toNat
  let gb := s.me.g b.toNat
  if sendBad ga.toNat rmo res then Res.illegal s i
  else if !rmo && decide (natBits ga.toNat 37 32 < 8) && !s.me.super then
    Res.access s i 25 (BitVec.ofNat 64 (natBits ga.toNat 37 32))
  else if (res && gb.toNat % 64 != 0) || (rmo && gb.toNat % 8 != 0) then Res.align s i gb
  else if 2 ^ 64 ≤ s.me.ts.toNat + delta.toNat then .abort s 0x12
  else if s.me.outst.any fun o => o.dest == 57 then .stall s .outbOrder
  else
    match sendWait s with
    | some w => .stall s w
    | none => .done (sendOut s ga gb rep rmo res delta)

def execSend (sw : Bool) (a b : Reg) (rep rmo res : Bool) (delta : BitVec 16) (s : State) :
    Host.Outcome State Fault Refusal :=
  next (runInstr (.send sw a b rep rmo res delta) sw [a.toNat, b.toNat]
    (sendBody (.send sw a b rep rmo res delta) a b rep rmo res delta) s)

/-! `bind` and `unbind` (R251, R252). -/

/-- Whether a value is one that `ldir.set` takes: four directions, none named twice (R263). -/
def ldirOk (v : Nat) : Bool :=
  let p (k : Nat) : Nat := natBits v (3 * k + 2) (3 * k)
  decide (v < 2 ^ 12) && (natsFrom 0 4).all (fun k => decide (p k ≤ 4)) &&
    (natsFrom 0 4).all fun k => (natsFrom 0 4).all fun j => decide (k = j ∨ p k = 0 ∨ p k ≠ p j)

/-- The domain that a descriptor names: 0 the issuing activation's, else a live domain of its partition, in supervisor
mode. -/
def bindDomain (s : State) (d : Nat) : Option (BitVec 32) :=
  if d = 0 then some s.me.domain
  else if s.me.super && (s.dom d).live && (s.dom d).part == s.me.part then some (BitVec.ofNat 32 d)
  else none

/-- The binding that a descriptor's 32 bytes describe, where every field lies in its range. -/
def bindingOf (s : State) (v : Nat) : Option Binding :=
  let entry := natBits v 63 0
  let budget := natBits v 95 64
  let prio := natBits v 103 96
  let team := natBits v 119 112
  let ldir := natBits v 191 128
  if entry.testBit 0 || decide (budLimit s (dieOf s.cur.core) s.me.part.toNat < budget) || decide (7 < prio) ||
      decide (team < 1 ∨ 16 < team) || !ldirOk ldir then none
  else
    (bindDomain s (natBits v 223 192)).map fun d =>
      { entry := BitVec.ofNat 64 entry, prio := BitVec.ofNat 3 prio, budget := budget, domain := d,
        chk := v.testBit 104, ldir := BitVec.ofNat 64 ldir, team := team }

/-- Whether a channel belongs to firmware and the mode is program mode (R240). -/
def firmwareChannel (s : State) (ch : BitVec 6) : Bool := decide (ch.toNat < 8) && !s.me.super

/-- `bind` (R252): alignment, the read of the descriptor, its fields, the channel, the entry. -/
def bindBody (i : Instr) (ch : BitVec 6) (b : Reg) (cl : Bool) (s : State) : Res :=
  let gb := s.me.g b.toNat
  if gb.toNat % 32 ≠ 0 then Res.align s i gb
  else
    withParts s i .load gb.toNat [(gb.toNat, 32)] fun s1 ps =>
      if isIo ps then (if s1.me.super then Res.align s1 i gb else Res.access s1 i 31 gb)
      else
        withLoad s1 i 0 ps fun s2 bs =>
          match bindingOf s2 (leOf bs) with
          | none => Res.access s2 i 24 gb
          | some v =>
            if firmwareChannel s2 ch then Res.access s2 i 25 (ch.setWidth 64)
            else takeOut s2 (.bind ch.toNat cl v)

def execBind (sw : Bool) (ch : BitVec 6) (b : Reg) (cl : Bool) (s : State) : Host.Outcome State Fault Refusal :=
  next (runInstr (.bind sw ch b cl) sw [b.toNat] (bindBody (.bind sw ch b cl) ch b cl) s)

/-- `unbind` (R252). -/
def execUnbind (sw : Bool) (ch : BitVec 6) (cl : Bool) (s : State) : Host.Outcome State Fault Refusal :=
  next (runInstr (.unbind sw ch cl) sw []
    (fun s => if firmwareChannel s ch then Res.access s (.unbind sw ch cl) 25 (ch.setWidth 64)
              else takeOut s (.unbind ch.toNat cl)) s)

/-! `chan` (R253). -/

/-- A channel's mask on a core, for arrivals from the next cycle on (R242). -/
def setMask (s : State) (core : Nat) (ch : BitVec 6) (m : Bool) : State :=
  let x := (s.core core).keepTables s.now
  let bit : BitVec 64 := 1 <<< ch.toNat
  s.setCore core { x with masked := if m then x.masked ||| bit else x.masked &&& ~~~bit }

/-- The priority of a bound channel, for arrivals from the next cycle on (R242). -/
def setPrio (s : State) (core : Nat) (ch : BitVec 6) (p : BitVec 3) : State :=
  let x := (s.core core).keepTables s.now
  match binding? x ch.toNat with
  | some b => s.setCore core { x with handlers := rmSet x.handlers ch.toNat { b with prio := p } }
  | none => s

/-- What `chan` does unless program mode names a channel of firmware. -/
def chanBody (i : Instr) (ch : BitVec 6) (act : State → State) (s : State) : Res :=
  if firmwareChannel s ch then Res.access s i 25 (ch.setWidth 64) else .done (act s)

/-- A mask change with its trace record (R405). -/
def maskChan (ch : BitVec 6) (m : Bool) (s : State) : State :=
  traceEv (setMask s s.cur.core ch m) s.cur 2 (ch.toNat + m.toNat * 64)

/-- `chan.mask` (R253). -/
def execChanMask (sw : Bool) (ch : BitVec 6) (s : State) : Host.Outcome State Fault Refusal :=
  next (runInstr (.chanMask sw ch) sw [] (chanBody (.chanMask sw ch) ch (maskChan ch true)) s)

/-- `chan.unmask` (R253). -/
def execChanUnmask (sw : Bool) (ch : BitVec 6) (s : State) : Host.Outcome State Fault Refusal :=
  next (runInstr (.chanUnmask sw ch) sw [] (chanBody (.chanUnmask sw ch) ch (maskChan ch false)) s)

/-- `chan.prio` (R253). -/
def execChanPrio (sw : Bool) (ch : BitVec 6) (p : BitVec 3) (s : State) : Host.Outcome State Fault Refusal :=
  next (runInstr (.chanPrio sw ch p) sw [] (chanBody (.chanPrio sw ch p) ch fun s => setPrio s s.cur.core ch p) s)

/-! `job` (R260). -/

/-- The target of a job: gC, or the own cluster's copy engine. -/
def jobTarget (s : State) (gc : Word) : BitVec 32 :=
  if gc = 0 then clusterAgent s (clusterOf s.cur.core) 17 else BitVec.ofNat 32 gc.toNat

/-- `job`. -/
def jobBody (i : Instr) (b c : Reg) (s : State) : Res :=
  let gb := s.me.g b.toNat
  if gb.toNat % 64 ≠ 0 then Res.align s i gb
  else
    match sendWait s with
    | some w => .stall s w
    | none => .done (addOut s (.job gb (jobTarget s (s.me.g c.toNat)) (captures s.me)))

def execJob (sw : Bool) (b c : Reg) (s : State) : Host.Outcome State Fault Refusal :=
  next (runInstr (.job sw b c) sw [b.toNat, c.toNat] (jobBody (.job sw b c) b c) s)

/-! `ldir` (R263). -/

/-- LDIR with P0 and P1 exchanged. -/
def ldirSwapped (v : Nat) : Nat := natBits v 11 6 * 64 + natBits v 2 0 * 8 + natBits v 5 3

/-- LDIR with every direction reversed. -/
def ldirReversed (v : Nat) : Nat :=
  (natsFrom 0 4).foldl (fun n k => n + opposite (natBits v (3 * k + 2) (3 * k)) * 8 ^ k) 0

/-- `ldir.set`. -/
def execLdirSet (sw : Bool) (b : Reg) (s : State) : Host.Outcome State Fault Refusal :=
  next (runInstr (.ldirSet sw b) sw [b.toNat]
    (fun s =>
      let v := s.me.g b.toNat
      if ldirOk v.toNat then .done (s.setMe { s.me with ldir := v }) else Res.illegal s (.ldirSet sw b)) s)

/-- `ldir.swap`. -/
def execLdirSwap (sw : Bool) (s : State) : Host.Outcome State Fault Refusal :=
  next (runInstr (.ldirSwap sw) sw []
    (fun s => .done (s.setMe { s.me with ldir := BitVec.ofNat 64 (ldirSwapped s.me.ldir.toNat) })) s)

/-- `ldir.rev`. -/
def execLdirRev (sw : Bool) (s : State) : Host.Outcome State Fault Refusal :=
  next (runInstr (.ldirRev sw) sw []
    (fun s => .done (s.setMe { s.me with ldir := BitVec.ofNat 64 (ldirReversed s.me.ldir.toNat) })) s)

/-! Commands issued by an instruction (R255, R348, R359). -/

/-- A command on an engine queue taken at issue: the limit of 16, what it waits for (an earlier push to the queue
whose value is still to come among it), and its entry. -/
def takeCommand (s : State) (i : Instr) (q : Nat) (word : Word) (cap : List Nat) : Res :=
  if 16 ≤ outstanding s s.me q then Res.access s i 26 (BitVec.ofNat 64 q)
  else if s.me.outst.any fun o => o.dest == 52 + q then .stall s .outbOrder
  else
    match outWait s.me with
    | some w => .stall s w
    | none =>
      if s.me.irrev && retFull s s.cur.core then .stall s .retRoom
      else .done (addOut s (.engine q word (nextQseq s s.me q) (captures s.me ++ cap)))

/-- `coll` with its operation (R359). -/
def collBody (i : Instr) (op : Nat) (b : Reg) (s : State) : Res :=
  let gb := s.me.g b.toNat
  if gb.toNat % 64 ≠ 0 then Res.align s i gb else takeCommand s i 3 gb [op]

def execCollMax (sw : Bool) (b : Reg) (s : State) : Host.Outcome State Fault Refusal :=
  next (runInstr (.collMax sw b) sw [b.toNat] (collBody (.collMax sw b) 0 b) s)

def execCollReduceBsi (sw : Bool) (b : Reg) (s : State) : Host.Outcome State Fault Refusal :=
  next (runInstr (.collReduceBsi sw b) sw [b.toNat] (collBody (.collReduceBsi sw b) 1 b) s)

def execCollBcast (sw : Bool) (b : Reg) (s : State) : Host.Outcome State Fault Refusal :=
  next (runInstr (.collBcast sw b) sw [b.toNat] (collBody (.collBcast sw b) 2 b) s)

def execCollGather (sw : Bool) (b : Reg) (s : State) : Host.Outcome State Fault Refusal :=
  next (runInstr (.collGather sw b) sw [b.toNat] (collBody (.collGather sw b) 3 b) s)

end Sys2Proof.Machine
end

