-- ==== Sys2Proof/Machine/System.lean ====
section
/-! DEFINITION. State registers (R396, R397, R407), trace control (R408), counters (R409) and TLB maintenance (R193). -/

namespace Sys2Proof.Machine

/-! State registers (R396). -/

/-- How a state register is reached: by number, whether it is privileged altogether, and whether its writes are. -/
structure SrAccess where
  priv : Bool
  privWr : Bool

/-- The access of each register number of R396; nothing for a number not listed. -/
def srAccess (n : Nat) : Option SrAccess :=
  if n = 0x0F ∨ n = 0x16 then some ⟨false, true⟩
  else if (0x10 ≤ n ∧ n ≤ 0x15) ∨ n = 0x17 ∨ (0x100 ≤ n ∧ n ≤ 0x11F) then some ⟨true, true⟩
  else if n ≤ 0x1A then some ⟨false, false⟩
  else none

/-- The device register behind a KEEP or MSLOT alias: on the cluster of the issuing core (R396). -/
def srAlias (s : State) (n : Nat) : Nat :=
  let cl := clusterOf s.cur.core
  if n < 0x110 then clDev cl 0 (0x10 + 8 * (n - 0x100)) else clDev cl 1 (8 * (n - 0x110))

/-- A state register as `sr` reads it. -/
def srRead (s : State) (n : Nat) : Word :=
  let sl := s.me
  match n with
  | 0x00 => BitVec.ofNat 64 sl.wsp
  | 0x01 => sl.ts
  | 0x02 => sl.sid.setWidth 64
  | 0x03 => sl.chn.setWidth 64
  | 0x04 => sl.prio.setWidth 64
  | 0x05 => BitVec.ofNat 64 (s.bud sl)
  | 0x06 => sl.ldir
  | 0x07 => sl.rmode
  | 0x08 => sl.fflags
  | 0x09 => sl.seedLo
  | 0x0A => sl.seedHi
  | 0x0B => sl.tensor
  | 0x0C => sl.stepR
  | 0x0D => sl.flagsWord
  | 0x0E => sl.vseq.setWidth 64
  | 0x0F => BitVec.ofNat 64 (sl.curLog2.toNat * 256 + (s.core s.cur.core).maxLog2.toNat)
  | 0x10 => sl.tvb
  | 0x11 => sl.trapc
  | 0x12 => sl.trapa
  | 0x13 => sl.trapv
  | 0x14 => sl.trapp
  | 0x15 => sl.mc2
  | 0x16 => sl.chk.word
  | 0x17 => sl.xroot
  | 0x18 => sl.part.setWidth 64
  | 0x19 => (coreAgent s s.cur.core).setWidth 64
  | 0x1A => BitVec.ofNat 64 s.timeNs
  | _ => (devRead s (srAlias s n)).getD 0

/-- A frame that WSP may name: in the own core's store, or within the scratch ways of the home cluster (R35). -/
def wspOk (s : State) (w : Nat) : Bool :=
  decide (w < 2 ^ 48) &&
    ((frameOfCore w s.cur.core && frameOfCore (w + 5119) s.cur.core) ||
      (frameInScratch w (clusterOf s.cur.core) && frameInScratch (w + 5119) (clusterOf s.cur.core) &&
        regionOk s (w + 5119)))

/-- A write of BUD: program mode can only lower it. It counts from the next cycle on (R101). -/
def writeBud (s : State) (v : Nat) : State :=
  if !s.me.super && decide (s.bud s.me ≤ v) then s else s.setMe { s.me with budSet := v, budAt := s.now + 1 }

/-- MAXLOG2 written: 5 to 7 are stored as 4 (R142). -/
def writeClimit (s : State) (v : Nat) : State :=
  let x := s.core s.cur.core
  s.setCore s.cur.core { x with maxLog2 := BitVec.ofNat 3 (min (v % 8) 4) }

/-- A state register written with `v` under its own rules: RO registers and reserved bits keep what they hold. -/
def srPut (s : State) (n : Nat) (v : Word) : State :=
  let sl := s.me
  match n with
  | 0x00 =>
    let held := v.toNat == sl.wsp || sl.ctxs.any fun c => c.wsp == v.toNat
    (if held then s else softFix s v.toNat 5120).setMe (switchWsp s sl v.toNat)
  | 0x04 => s.setMe { sl with prio := v.setWidth 3 }
  | 0x05 => writeBud s v.toNat
  | 0x06 => s.setMe { sl with ldir := v }
  | 0x07 => s.setMe { sl with rmode := v &&& 0xF }
  | 0x08 => s.setMe { sl with fflags := v &&& 0x3F3F }
  | 0x09 => s.setMe { sl with seedLo := v }
  | 0x0A => s.setMe { sl with seedHi := v }
  | 0x0B => s.setMe { sl with tensor := v }
  | 0x0C => s.setMe { sl with stepR := v }
  | 0x0D => s.setMe { sl with user := v.setWidth 8 }
  | 0x0F => writeClimit s v.toNat
  | 0x10 => s.setMe { sl with tvb := v &&& ~~~(63 : Word) }
  | 0x11 => s.setMe { sl with trapc := (sl.trapc &&& ~~~(0x1000 : Word)) ||| (v &&& 0x1000) }
  | 0x12 => s.setMe { sl with trapa := v }
  | 0x13 => s.setMe { sl with trapv := v &&& 0x0000FFFF3FFFFFFF }
  | 0x14 => s.setMe { sl with trapp := v }
  | 0x16 => s.setMe { sl with chk := { sl.chk with en := v.toNat.testBit 0, isOpen := false } }
  | 0x17 => s.setMe { sl with xroot := v &&& ~~~(0xFFF : Word) }
  | _ => if n < 0x100 then s else (devWrite s (srAlias s n) v).getD s

/-- The trap that a write of `v` raises under a register's own rules: those of WSP and of LDIR. -/
def srWriteTrap (s : State) (i : Instr) (n : Nat) (v : Word) : Option Res :=
  if n = 0 then
    if v.toNat % 256 ≠ 0 then some (Res.align s i v)
    else if !wspOk s v.toNat then some (Res.access s i 33 v)
    else none
  else if n = 6 then (if ldirOk v.toNat then none else some (Res.illegal s i))
  else none

/-- The first `sr` on TRAPC after trap entry sets RD (R375). -/
def noteRd (s : State) (n : Nat) : State :=
  if n = 0x11 ∧ 1 ≤ s.me.depth then s.setMe { s.me with trapc := s.me.trapc ||| 0x2000 } else s

/-- The new value that a function of `sr` makes of the old one and gB: 1 wr, 2 set, 3 clr. -/
def srNew (f : Nat) (old gb : Word) : Word := if f = 1 then gb else if f = 2 then old ||| gb else old &&& ~~~gb

/-- The effect of an `sr` that writes: the old value to gA, then the register (R407). A write to WSP switches the
context after gA has been written. -/
def srWrite (s : State) (f : Nat) (a b : Reg) (n : Nat) : State :=
  let old := srRead s n
  let new := srNew f old (s.me.g b.toNat)
  let s1 := s.setMe (s.me.setG a.toNat old)
  noteRd (srPut s1 n new) n

/-- What an `sr` finds before it acts: a late vector fault (R309; assumption log 174 for an `sr` that had not to stall),
the privilege of the register, and the traps of a write. -/
def srChecks (i : Instr) (f : Nat) (b : Reg) (n : Nat) (s : State) : Option Res :=
  if s.me.late.isSome then some (.trap (faultOf s i 9 0 0))
  else
    match srAccess n with
    | none => some (Res.illegal s i)
    | some p =>
      if !s.me.super && (p.priv || (p.privWr && f != 0)) then some (Res.access s i 31 0)
      else if f = 0 then none
      else srWriteTrap s i n (srNew f (srRead s n) (s.me.g b.toNat))

/-- An `sr` number that is not assigned is ILLEGAL (R396). -/
def srUnassigned (n : BitVec 10) (_ : State) : Bool := (srAccess n.toNat).isNone

/-- `sr` waits until the slot's vector instructions have completed, a stall that ends with a park (R306, R309); then it
makes its checks and acts (R407). -/
def srBody (i : Instr) (f : Nat) (b : Reg) (n : Nat) (act : State → State) (s : State) : Res :=
  if !s.me.vq.isEmpty then .stall s .srVector
  else
    match srChecks i f b n s with
    | some r => r
    | none => .done (act s)

/-- `sr.rd` (R407). -/
def execSrRd (sw : Bool) (a : Reg) (n : BitVec 10) (s : State) : Host.Outcome State Fault Refusal :=
  next (runChecked (.srRd sw a n) sw (srUnassigned n) [a.toNat]
    (srBody (.srRd sw a n) 0 0 n.toNat fun s =>
      noteRd (s.setMe (s.me.setG a.toNat (srRead s n.toNat))) n.toNat) s)

/-- A write to WSP in a composed core, at the end of its park and hand-back (R145). -/
def finSrWsp (i : Instr) (sw : Bool) (f : Nat) (a b : Reg) (n : Nat) (s : State) : State :=
  completeWith i s (srWrite s f a b n) fun u => advance u s.me.npc sw

/-- An `sr` that writes: one to WSP in a composed core parks and hands back first (R145). -/
def srWriting (i : Instr) (sw : Bool) (f : Nat) (a b : Reg) (n : BitVec 10) (s : State) : State :=
  if n.toNat = 0 ∧ s.me.curLog2 ≠ 0 then
    runParking i (srUnassigned n) [b.toNat, a.toNat] (srChecks i f b n.toNat) (finSrWsp i sw f a b n.toNat) s
  else
    runChecked i sw (srUnassigned n) [b.toNat, a.toNat]
      (srBody i f b n.toNat fun s => srWrite s f a b n.toNat) s

/-- `sr.wr` (R407). -/
def execSrWr (sw : Bool) (a b : Reg) (n : BitVec 10) (s : State) : Host.Outcome State Fault Refusal :=
  next (srWriting (.srWr sw a b n) sw 1 a b n s)

/-- `sr.set` (R407). -/
def execSrSet (sw : Bool) (a b : Reg) (n : BitVec 10) (s : State) : Host.Outcome State Fault Refusal :=
  next (srWriting (.srSet sw a b n) sw 2 a b n s)

/-- `sr.clr` (R407). -/
def execSrClr (sw : Bool) (a b : Reg) (n : BitVec 10) (s : State) : Host.Outcome State Fault Refusal :=
  next (srWriting (.srClr sw a b n) sw 3 a b n s)

/-! `trc` (R408). -/

/-- A supervisor-only function of `trc` or `ctr`. -/
def superOnly (i : Instr) (act : State → State) (s : State) : Res :=
  if s.me.super then .done (act s) else Res.access s i 31 0

/-- TRCCTL of the issuing core with EN and FROZEN as given; a buffer switched on anew forgets its trigger. -/
def setTrc (en frozen : Bool) (s : State) : State :=
  let x := s.core s.cur.core
  let v := (x.trcctl &&& ~~~(0x1000001 : Word)) ||| (if en then 1 else 0) ||| (if frozen then 0x1000000 else 0)
  s.setCore s.cur.core { x with trcctl := v, trcPost := if en && !trcOnBit x then none else x.trcPost }

/-- `trc.on`. -/
def execTrcOn (sw : Bool) (s : State) : Host.Outcome State Fault Refusal :=
  next (runInstr (.trcOn sw) sw [] (superOnly (.trcOn sw) (setTrc true false)) s)

/-- `trc.off`. -/
def execTrcOff (sw : Bool) (s : State) : Host.Outcome State Fault Refusal :=
  next (runInstr (.trcOff sw) sw []
    (superOnly (.trcOff sw) fun s => setTrc false (trcFrozenBit (s.core s.cur.core)) s) s)

/-- `trc.freeze`. -/
def execTrcFreeze (sw : Bool) (s : State) : Host.Outcome State Fault Refusal :=
  next (runInstr (.trcFreeze sw) sw []
    (superOnly (.trcFreeze sw) fun s => setTrc (trcOnBit (s.core s.cur.core)) true s) s)

/-- `trc.mark`. -/
def execTrcMark (sw : Bool) (b : Reg) (s : State) : Host.Outcome State Fault Refusal :=
  next (runInstr (.trcMark sw b) sw [b.toNat]
    (fun s => .done (traceEv s s.cur 11 (natBits (s.me.g b.toNat).toNat 15 0))) s)

/-! `ctr` (R409). -/

/-- The counter that a number names, as `ctr.rd` reads it: 0 to 3 the core's, 4 to 11 the cluster's. -/
def ctrValue (s : State) (n : Nat) : Word :=
  if n < 4 then ctrWord (coreTotal s s.cur.core n) else ctrWord (clusterTotal s (clusterOf s.cur.core) (n - 4))

/-- The selection register of a counter. -/
def ctrSelWord (s : State) (n : Nat) : Word :=
  if n < 4 then smGet 0 (s.core s.cur.core).ctrSel n else smGet 0 (s.cluster (clusterOf s.cur.core)).ccSel (n - 4)

/-- The event field of a selection written. -/
def ctrSelect (n : Nat) (ev : Nat) (s : State) : State :=
  let v := (ctrSelWord s n &&& 0x100) ||| BitVec.ofNat 64 (ev % 64)
  if n < 4 then setCoreSel s s.cur.core n v else setClusterSel s (clusterOf s.cur.core) (n - 4) v

/-- The count and OVF cleared. -/
def ctrClear (n : Nat) (s : State) : State :=
  if n < 4 then setCoreCtr s s.cur.core n 0 else setClusterCtr s (clusterOf s.cur.core) (n - 4) 0

/-- A change of a counter: supervisor mode, or the PGM bit of a core's counter. -/
def ctrChange (i : Instr) (n : Nat) (act : State → State) (s : State) : Res :=
  if s.me.super || (decide (n < 4) && (ctrSelWord s n).toNat.testBit 8) then .done (act s) else Res.access s i 31 0

/-- `ctr.rd`. -/
def execCtrRd (sw : Bool) (a : Reg) (n : BitVec 4) (s : State) : Host.Outcome State Fault Refusal :=
  next (runInstr (.ctrRd sw a n) sw [a.toNat] (fun s => .done (s.setMe (s.me.setG a.toNat (ctrValue s n.toNat)))) s)

/-- `ctr.sel`. -/
def execCtrSel (sw : Bool) (n : BitVec 4) (b : Reg) (s : State) : Host.Outcome State Fault Refusal :=
  next (runInstr (.ctrSel sw n b) sw [b.toNat]
    (fun s => ctrChange (.ctrSel sw n b) n.toNat (ctrSelect n.toNat (natBits (s.me.g b.toNat).toNat 5 0)) s) s)

/-- `ctr.clr`. -/
def execCtrClr (sw : Bool) (n : BitVec 4) (s : State) : Host.Outcome State Fault Refusal :=
  next (runInstr (.ctrClr sw n) sw [] (ctrChange (.ctrClr sw n) n.toNat (ctrClear n.toNat)) s)

/-! `tlb` (R193). -/

/-- What an invalidation drops, and its scope. -/
def tlbDropOf (sl : Slot) : Instr → Option (TlbScope × TlbDrop)
  | .tlbVa _ sc b c => some (sc, .va (sl.g b.toNat).toNat (natBits (sl.g c.toNat).toNat 15 0))
  | .tlbAsid _ sc c => some (sc, .asid (natBits (sl.g c.toNat).toNat 15 0))
  | .tlbAll _ sc => some (sc, .all)
  | _ => none

/-- The slots whose buffered effects an invalidation waits for: uncommitted activations of the partition in scope other
than the issuer's. -/
def tlbOthers (s : State) (sc : TlbScope) : List SlotRef :=
  let self := selfSlots s s.cur
  (s.slots.filter fun p =>
    p.2.uncommitted && p.2.part == s.me.part && inTlbScope sc s.cur.core (p.1 / 8) && !self.contains (slotRefOf p.1)).map
      fun p => slotRefOf p.1

/-- The entries of a slot that the invalidation by slot `k` drops are marked; marks of an older one by `k` go. -/
def markStale (d : TlbDrop) (k : Nat) (sl : Slot) : Slot :=
  { sl with trans := sl.trans.map fun u =>
      { u with stale := (if d.hitsUsed u then [k] else []) ++ u.stale.filter (· != k) } }

/-- Whether a slot holds a buffered effect that slot `k`'s invalidation waits for. -/
def heldStale (k : Nat) (sl : Slot) : Bool := sl.trans.any fun u => u.stale.contains k

/-- Whether an activation cannot commit before the issuer: younger in the issuer's ORDERED domain. -/
def waitsForMe (s : State) (r : SlotRef) : Bool :=
  let sl := s.slot r
  sl.domain == s.me.domain && inOrdered s && (slotRank s.me).before (slotRank sl) && sl.abortable

/-- The invalidation: entries dropped, effects through them marked, and younger activations of the domain that hold one
aborted. -/
def tlbInvalidate (s : State) (sc : TlbScope) (d : TlbDrop) : State :=
  let k := slotKey s.cur
  let s1 := (tlbOthers s sc).foldl (fun u r => u.setSlot r (markStale d k (u.slot r)))
    (tlbDropScope s sc s.cur.core d)
  ((tlbOthers s1 sc).filter fun r => heldStale k (s1.slot r) && waitsForMe s1 r).foldl (fun u r =>
    if (u.slot r).abortable && heldStale k (u.slot r) then conflictAbort u r true else u) s1

/-- Whether an invalidation by the acting slot is complete. -/
def tlbComplete (s : State) (sc : TlbScope) : Bool :=
  (tlbOthers s sc).all fun r => !heldStale (slotKey s.cur) (s.slot r)

/-- An invalidation: the slot stalls until it is complete. One whose signature check fails performs nothing (R88). -/
def tlbBody (i : Instr) (s : State) : Res :=
  if !s.me.super then Res.access s i 31 0
  else
    match chkComplete s.me.chk i, tlbDropOf s.me i with
    | .ok _, some (sc, d) =>
      let s1 := tlbInvalidate s sc d
      if tlbComplete s1 sc then .done s1
      else .stall (s1.setMe { s1.me with cont := .after i }) .tlbInval
    | _, _ => .done s

/-- `tlb.va`. -/
def execTlbVa (sw : Bool) (sc : TlbScope) (b c : Reg) (s : State) : Host.Outcome State Fault Refusal :=
  next (runInstr (.tlbVa sw sc b c) sw [b.toNat, c.toNat] (tlbBody (.tlbVa sw sc b c)) s)

/-- `tlb.asid`. -/
def execTlbAsid (sw : Bool) (sc : TlbScope) (c : Reg) (s : State) : Host.Outcome State Fault Refusal :=
  next (runInstr (.tlbAsid sw sc c) sw [c.toNat] (tlbBody (.tlbAsid sw sc c)) s)

/-- `tlb.all`. -/
def execTlbAll (sw : Bool) (sc : TlbScope) (s : State) : Host.Outcome State Fault Refusal :=
  next (runInstr (.tlbAll sw sc) sw [] (tlbBody (.tlbAll sw sc)) s)

/-- Whether an invalidation carries the S marker. -/
def tlbMarked : Instr → Bool
  | .tlbVa sw .. | .tlbAsid sw .. | .tlbAll sw .. => sw
  | _ => false

/-- TLB_INVALIDATION_COMPLETE: the slot goes on once nothing is left that its invalidation waits for. -/
def execTlbInvalidationComplete (r : SlotRef) (s : State) : Host.Outcome State Fault Refusal :=
  next (asSlot s r fun s =>
    match s.me.stall, s.me.cont with
    | .tlbInval, .after i =>
      match s.me.st, tlbDropOf s.me i with
      | .stalled, some (sc, _) =>
        if tlbComplete s sc then
          let s1 := s.setMe { s.me with st := s.me.readySt, stall := .none, cont := .resume }
          completeWith i s1 s1 fun u => advance u s.me.npc (tlbMarked i)
        else s
      | _, _ => s
    | _, _ => s)

/-- The size code of `tlb.probe`. -/
def sizeCode (size : Nat) : Nat := if size = 2 ^ 12 then 0 else if size = 2 ^ 16 then 1 else if size = 2 ^ 21 then 2 else 3

/-- What a probe answers for a leaf: the entry with the physical address and the size code put in. -/
def probeWord (pte size va : Nat) : Word :=
  let e : TlbEntry := { asid := 0, vpage := 0, size := size, pte := BitVec.ofNat 64 pte, global := false }
  let pa := e.pa (va % 2 ^ 57)
  BitVec.ofNat 64 (natBits pte 63 56 * 2 ^ 56 + natBits pa 55 12 * 2 ^ 12 + natBits pte 11 10 * 2 ^ 10 +
    sizeCode size * 2 ^ 8 + natBits pte 7 0)

/-- The root of a probe: the slot's table under the address space of gC. -/
def probeRoot (xroot gc : Word) : Word := BitVec.ofNat 64 (natBits gc.toNat 15 0 * 2 ^ 48 + natBits xroot.toNat 47 0)

/-- `tlb.probe`: a walk that sets nothing and fills nothing. -/
def probeBody (i : Instr) (a b c : Reg) (s : State) : Res :=
  let gb := (s.me.g b.toNat).toNat
  if !s.me.super then Res.access s i 31 0
  else
    match walkDie s (dieOf s.cur.core) (probeRoot s.me.xroot (s.me.g c.toNat)) gb with
    | .leaf pte _ size _ =>
      let s1 := { s with free := s.free + 1 }
      .done (s1.setMe (s1.me.setG a.toNat (probeWord pte size gb)))
    | .fault cause =>
      let s1 := { s with free := s.free + 1 }
      .done (s1.setMe (s1.me.setG a.toNat (BitVec.ofNat 64 (cause * 2 ^ 56))))
    | .abort addr => memAbort s i gb addr 63 (BitVec.ofNat 64 gb)

/-- `tlb.probe`. -/
def execTlbProbe (sw : Bool) (a b c : Reg) (s : State) : Host.Outcome State Fault Refusal :=
  next (runInstr (.tlbProbe sw a b c) sw [b.toNat, c.toNat, a.toNat] (probeBody (.tlbProbe sw a b c) a b c) s)

end Sys2Proof.Machine
end

