-- ==== Sys2Proof/Machine/Traps.lean ====
section
/-! DEFINITION. `trap`, `brk`, `tret` and `mchk` (R391 to R394), and what each parking instruction does at the end of
its park. -/

namespace Sys2Proof.Machine

/-! `trap` and `brk` (R391). -/

/-- The trap of `trap` and `brk`: the handler resumes at the next PC (R373). -/
def softTrap (s : State) (i : Instr) (code n : Nat) : TrapInfo := { faultOf s i code n 0 with resume := s.me.npc }

/-- `trap` and `brk` at the end of the park: they complete, and the handler is entered (R377, R391). -/
def finSoft (i : Instr) (code n : Nat) (s : State) : State :=
  completeWith i s s fun u => toHandler u u.cur (softTrap s i code n)

/-- `trap` (R391). -/
def execTrap (sw : Bool) (n : BitVec 7) (s : State) : Host.Outcome State Fault Refusal :=
  next (runParking (.trap sw n) (fun _ => false) [] (fun _ => none) (finSoft (.trap sw n) 0x0C n.toNat) s)

/-- `brk` (R391). -/
def execBrk (sw : Bool) (n : BitVec 7) (s : State) : Host.Outcome State Fault Refusal :=
  next (runParking (.brk sw n) (fun _ => false) [] (fun _ => none) (finSoft (.brk sw n) 0x0B n.toNat) s)

/-! `tret` (R392). -/

/-- What `tret` finds at issue. -/
def tretCheck (i : Instr) (s : State) : Option Res :=
  if !s.me.super then some (Res.access s i 31 0)
  else if s.me.depth = 0 then some (Res.illegal s i)
  else if s.me.trapa.toNat.testBit 0 then some (Res.align s i s.me.trapa)
  else none

/-- The saved general registers back in g1 to g6. -/
def restoreG (sl : Slot) (f : TrapFrame) : Slot :=
  (((((sl.setG 1 f.g1).setG 2 f.g2).setG 3 f.g3).setG 4 f.g4).setG 5 f.g5).setG 6 f.g6

/-- The interrupted level again, from its trap frame: trap registers, CHKMODE, mode and PC. -/
def resumeLevel (sl : Slot) (f : TrapFrame) (kr : Bool) : Slot :=
  let sl1 := if kr then sl else restoreG sl f
  { sl1 with
    trapc := f.trapc, trapa := f.trapa, trapv := f.trapv, trapp := f.trapp, chk := chkOfWord f.chk,
    super := sl.trapc.toNat.testBit 12, pc := sl.trapa, npc := sl.trapa }

/-- A slot whose bank holds the trap stack. -/
def Slot.withStack (sl : Slot) (fs : List TrapFrame) : Slot := { sl with tstack := some fs }

/-- The level restored, with a late vector fault of the park taken after it (R308). -/
def returnTo (s : State) (fs : List TrapFrame) (f : TrapFrame) (kr : Bool) : State :=
  let s1 := s.setMe (resumeLevel (s.me.withStack fs) f kr)
  match s1.me.late with
  | some l => toHandler (s1.setMe { s1.me with late := none }) s1.cur (lateTrap s1.me l)
  | none => s1

/-- `tret` at the end of its park: the handler's block is checked and closed, then the level returns (R90, R392). -/
def finTret (i : Instr) (kr : Bool) (s : State) : State :=
  match chkComplete s.me.chk i with
  | .fail f run e => errorAbort s s.cur (signatureRecord s s.cur i f run e)
  | .ok _ =>
    match trapStack s s.me with
    | some fs => returnTo s fs (fs.getD (s.me.depth - 1) TrapFrame.zero) kr
    | none => errorAbort s s.cur (memAbortRecord s s.cur (majorOf i) (funcOfInstr i) 63 (s.me.wsp + 0x1220) 0)

/-- `tret` and `tret.kr` (R392). -/
def execTret (sw : Bool) (kr : Bool) (s : State) : Host.Outcome State Fault Refusal :=
  next (runParking (.tret sw kr) (fun _ => false) [] (tretCheck (.tret sw kr)) (finTret (.tret sw kr) kr) s)

/-! `mchk` (R393, R394). -/

/-- `mchk.abort` at the end of its park, its block fed. -/
def finMchkAbort (i : Instr) (s : State) : State := completeWith i s s fun u => codeAbort u u.cur 0

/-- `mchk.abort` (R393). -/
def execMchkAbort (sw : Bool) (s : State) : Host.Outcome State Fault Refusal :=
  next (runParking (.mchkAbort sw) (fun _ => false) []
    (fun s => if s.me.super then none else some (Res.access s (.mchkAbort sw) 31 0)) (finMchkAbort (.mchkAbort sw)) s)

/-- Whether gB describes a machine check that `mchk.inject` can raise (R394). -/
def injectOk (v : Nat) : Bool :=
  decide (1 ≤ natBits v 3 0 ∧ natBits v 3 0 ≤ 3 ∧ 1 ≤ natBits v 11 8 ∧ natBits v 11 8 ≤ 5 ∧ natBits v 23 16 ≤ 127 ∧
    natBits v 7 4 = 0 ∧ natBits v 15 12 = 0 ∧ natBits v 63 32 = 0)

/-- The record of `mchk.inject`. -/
def injectRecord (s : State) (v : Nat) : McInfo :=
  { type := natBits v 3 0, sev := 1, unit := natBits v 11 8, agent := coreAgent s s.cur.core, lane := natBits v 23 16,
    major := 0x5B, func := 4, res := natBits v 31 24, pc := s.me.pc, info := 0 }

/-- `mchk.inject`: the mode, the pending register, the value, the check. -/
def injectBody (i : Instr) (b : Reg) (s : State) : Res :=
  let v := (s.me.g b.toNat).toNat
  if !s.me.super then Res.access s i 31 0
  else if s.me.pend.contains b.toNat then Res.depend s i b.toNat
  else if !injectOk v then Res.illegal s i
  else .error s (injectRecord s v)

/-- `mchk.inject` (R394). -/
def execMchkInject (sw : Bool) (b : Reg) (s : State) : Host.Outcome State Fault Refusal :=
  next (runInstr (.mchkInject sw b) sw [] (injectBody (.mchkInject sw b) b) s)

/-! The end of a park (R37, R308). -/

/-- What a parking instruction does at the end of its park. -/
def finOf : Instr → State → State
  | .yield sw => finTerm (.yield sw)
  | .endAct sw => finTerm (.endAct sw)
  | .wait sw a => finTerm (.wait sw a)
  | .compose sw lg => finCompose (.compose sw lg)
  | .release sw => finRelease (.release sw)
  | .trap sw n => finSoft (.trap sw n) 0x0C n.toNat
  | .brk sw n => finSoft (.brk sw n) 0x0B n.toNat
  | .tret sw kr => finTret (.tret sw kr) kr
  | .mchkAbort sw => finMchkAbort (.mchkAbort sw)
  | .srWr sw a b n => finSrWsp (.srWr sw a b n) sw 1 a b n.toNat
  | .srSet sw a b n => finSrWsp (.srSet sw a b n) sw 2 a b n.toNat
  | .srClr sw a b n => finSrWsp (.srClr sw a b n) sw 3 a b n.toNat
  | _ => fun s => s

end Sys2Proof.Machine
end

