-- ==== Sys2Proof/Machine/SlotEvents.lean ====
section
/-! DEFINITION. Events of a thread slot (R37, R38, R92, R100, R101, R137, R146, R183, R204, R205, R219, R261, R377): results
that return, parks and stalls that end, filling, the watchdog, commit, traps and hand-back. Each does nothing where what it
needs is not there (assumption log 2). -/

namespace Sys2Proof.Machine

/-! LONG_LATENCY_RESULT (R32, R33, R38, R127). -/

/-- The outstanding results without one. -/
def dropOutst (s : State) (k : Nat) : State := s.setMe { s.me with outst := dropAt s.me.outst k }

/-- A team's `once` instance takes the value that its performing member received. -/
def onceReturned (s : State) (o : Outst) (v hi : Word) : State :=
  match s.me.team with
  | some t => if o.once = 0 then s else recordOnce s t o.once v hi
  | none => s

/-- An entry put in its place in send-index order, or issued at once by an irrevocable activation. -/
def placeOut (s : State) (e : OutEntry) : State :=
  let sl := s.me
  if sl.irrev then issueEntry s s.cur e
  else s.setMe { sl with outg := (sl.outg.filter fun x => decide (x.idx < e.idx)) ++ [e] ++
                                   sl.outg.filter fun x => decide (e.idx < x.idx) }

/-- A result that returns to a register, or is pushed to its port; nothing where the port has no room yet. An engine
command has its index and number from its issue. -/
def deliver (s : State) (o : Outst) (v hi : Word) : Option State :=
  let d := o.dest
  if d ≤ 47 then
    let sl := s.me.setG d v
    some (onceReturned (s.setMe (if o.pair then sl.setG (d + 1) hi else sl)) o v hi)
  else
    match o.ticket with
    | some (idx, q) =>
      if s.me.irrev && retFull s s.cur.core then none
      else some (onceReturned (placeOut s { idx := idx, what := .engine (d - 52) v q (captures s.me) }) o v hi)
    | none =>
      match pushWait s d with
      | some _ => none
      | none => some (match pushTo s d v with
        | some s1 => onceReturned s1 o v hi
        | none => codeAbort s s.cur 0x12)

/-- Whether an older outstanding instruction waits for a pop of the same port. -/
def olderPop (sl : Slot) (k port : Nat) : Bool :=
  (sl.outst.take k).any fun o => o.unchecked || match o.what with | .pop _ _ p _ => p == port | _ => false

/-- The places that a store or an atomic kept in the buffer, filled with its entries. -/
def fillHeld (b : List BufEntry) (h : Nat) (new : List BufEntry) : List BufEntry :=
  b.flatMap fun e => match e with
    | .await g k => if g = h then (new[k]?).toList else [.await g k]
    | e => [e]

/-- The entries of a store or an atomic take their places. -/
def placeHeld (s : State) (o : Outst) (h : Nat) (new : List BufEntry) : State :=
  let s1 := o.parts.foldl (fun u p => traceAccess u u.cur p.va) s
  s1.setMe { s1.me with buf := fillHeld s1.me.buf h new }

/-- A store whose value has arrived. -/
def heldStore (s : State) (o : Outst) (evp v : Nat) : State :=
  match o.held with
  | some h => placeHeld s o h ((partVals o.parts v).map fun q => .store q.1.pa q.1.va q.1.n q.2 (q.1.attr evp))
  | none =>
    if isIo o.parts then o.parts.foldl (fun u p => (devWrite u p.pa (BitVec.ofNat 64 v)).getD u) s
    else (partVals o.parts v).foldl (fun u q => directStore u evp q.1 q.2) s

/-- A posted atomic whose operand has arrived. -/
def heldAtomic (s : State) (o : Outst) (i : Instr) (p : MPart) (v : List Word) : State :=
  let a := atomReq s.me i p v o.desc (o.ticket.getD (0, 0)).1
  match o.held with
  | some h => placeHeld s o h [.amo a]
  | none =>
    match postDirect (traceAccess s s.cur p.va) i p a with
    | .done s1 => s1
    | .error s1 m => errorAbort s1 s1.cur { m with pc := o.pc }
    | _ => s

/-- A fetching atomic whose operand has arrived; it is outstanding until its value returns. -/
def heldFetch (s : State) (o : Outst) (i : Instr) (p : MPart) (v : List Word) : Option State :=
  match fetchAtomic s p (atomReq s.me i p v none 0) with
  | .out s1 what => some (s1.setMe { s1.me with outst := s1.me.outst ++ [{ o with what := what, parts := [] }] })
  | .full => none
  | .error s1 va pa => some (outstAbort s1 s.cur o pa va)

/-- Whether a direct store must still wait for a job whose footprint it meets (R206). -/
def heldJob (s : State) (o : Outst) : Bool :=
  o.held.isNone && o.parts.any fun p => jobTouchesLine s s.me.domain (lineOf p.va)

/-- A store or an atomic whose popped operand has arrived is performed or entered in the buffer (R32). -/
def endHeld (s : State) (o : Outst) (i : Instr) (v : List Word) : Option State :=
  if heldJob s o || (o.held.isNone && o.parts.any fun p => trigWaits s p.pa o.desc.isSome) then none
  else
    match i, o.parts with
    | .amof .., [p] => heldFetch s o i p v
    | .cas .., [p] => heldFetch s o i p v
    | .amo .., [p] => some (onceReturned (heldAtomic s o i p v) o 0 0)
    | .amot .., [p] => some (onceReturned (heldAtomic s o i p v) o 0 0)
    | .st _ _ _ m, _ => some (onceReturned (heldStore s o m.evp.toNat (v.getD 0 0).toNat) o 0 0)
    | .stu _ _ _ m, _ => some (onceReturned (heldStore s o m.evp.toNat (v.getD 0 0).toNat) o 0 0)
    | _, _ => none

/-- The number of source values of an instruction that can wait for a pop. -/
def srcCount (i : Instr) : Nat :=
  match i with
  | .st .. | .stu .. => 1
  | .amo .. | .amot .. | .amof .. | .cas .. => (atomSrcs i).length
  | _ => (intSrcs i).length

/-- An instruction whose popped operand has arrived: its units, then its result. -/
def endPop (s : State) (o : Outst) (i : Instr) (vals : List Word) : State :=
  match withInt s i o.pc vals fun s1 v =>
      match deliver s1 o v 0 with
      | some s2 => .done s2
      | none => .stall s1 .none with
  | .done s1 => s1
  | .error s1 m => errorAbort s1 s1.cur m
  | _ => s

/-- Whether the port that an outstanding result is pushed to can take it. -/
def destReady (s : State) (o : Outst) : Bool :=
  o.dest ≤ 47 || (if o.ticket.isSome then !(s.me.irrev && retFull s s.cur.core) else (pushWait s o.dest).isNone)

/-- The result number `k` of the slot `cur`, oldest first, returns where it can. -/
def returnResult (k : Nat) (s : State) : State :=
  match s.me.outst[k]? with
  | none => s
  | some o =>
    let s0 := dropOutst s k
    if s.me.phase == 1 || !destReady s0 o then s
    else
      match o.what with
      | .value v hi => (deliver s0 o v hi).getD s
      | .pop i vals port claim =>
        if olderPop s.me k port then s
        else
          match popNow s0 port claim with
          | some (s1, v) =>
            let vs := fillVals (srcCount i) vals v
            if o.parts.isEmpty then endPop s1 o i vs else (endHeld s1 o i vs).getD s
          | none => s
      | _ => s

/-- LONG_LATENCY_RESULT. -/
def execLongLatencyResult (r : SlotRef) (k : Nat) (s : State) : Host.Outcome State Fault Refusal :=
  next (asSlot s r (returnResult k))

/-! The ends of parks, stalls and fillings. -/

/-- The end of a park of the slot `cur` (R37, R305, R308). -/
def endPark (s : State) : State :=
  if s.me.st != .parked || !s.me.quiet || s.me.phase == 1 then s
  else
    match s.me.cont with
    | .resume =>
      (match s.me.late with
       | some l => toHandler (s.setMe { s.me with late := none }) s.cur (lateTrap s.me l)
       | none => unpark s s.cur)
    | .after i => afterPark i (finOf i) s
    | .trap _ => s

/-- PARK_END. -/
def execParkEnd (r : SlotRef) (s : State) : Host.Outcome State Fault Refusal := next (asSlot s r endPark)

/-- TRAP_ENTRY: the park before a trap has ended (R377). -/
def endTrapPark (s : State) : State :=
  if s.me.st != .parked || !s.me.quiet || s.me.phase == 1 then s
  else
    match s.me.cont with
    | .trap t => enterTrapLate s s.cur t
    | _ => s

def execTrapEntry (r : SlotRef) (s : State) : Host.Outcome State Fault Refusal := next (asSlot s r endTrapPark)

/-- A stalled slot can issue again: its instruction looks anew at what it waited for (R92). While its activation's
drain publishes, a slot stays between two of its instructions (R215). The stall of an `sr` ends with a park (R309). The
waits for the commit token and for a TLB invalidation have events of their own. -/
def endStall (s : State) : State :=
  let sl := s.me
  if sl.st != .stalled || sl.phase == 1 then s
  else
    match sl.stall with
    | .commitToken | .tlbInval => s
    | .srVector => if sl.vq.isEmpty then switchAfter (s.setMe { sl with st := sl.readySt, stall := .none }) true else s
    | .bounceRoom _ => if retFull s s.cur.core then s else s.setMe { sl with st := sl.readySt, stall := .none }
    | _ => s.setMe { sl with st := sl.readySt, stall := .none }

/-- STALL_END. -/
def execStallEnd (r : SlotRef) (s : State) : Host.Outcome State Fault Refusal := next (asSlot s r endStall)

/-- A slot whose payload and frame are in place (R100, R101); errors corrected while the frame is read are counted
(R161). -/
def endFilling (s : State) : State :=
  let sl := s.me
  if sl.st != .filling then s
  else
    let s1 := softFix (rewriteRo s sl.wsp sl.strand) sl.wsp 5120
    let x := loadFrame s1 sl
    traceEv (s1.setMe { x with st := .ready, budSet := budOf s (dieOf s.cur.core) x.part.toNat x.budBase, budAt := s.now })
      s.cur 5 sl.sid.toNat

/-- FILLING_COMPLETE. -/
def execFillingComplete (r : SlotRef) (s : State) : Host.Outcome State Fault Refusal := next (asSlot s r endFilling)

/-- BUDGET_EXPIRY: the watchdog (R101). -/
def expireBudget (s : State) : State :=
  if s.me.helperOf.isNone && watched s.me && s.bud s.me == 0 then codeAbort s s.cur 5 else s

def execBudgetExpiry (r : SlotRef) (s : State) : Host.Outcome State Fault Refusal := next (asSlot s r expireBudget)

/-! Commit. -/

/-- COMMIT (R204). -/
def execCommit (r : SlotRef) (s : State) : Host.Outcome State Fault Refusal :=
  next (asSlot s r fun s => if s.me.act != .none && s.me.st == .closing then commitSlot s s.cur else s)

/-- COMMIT_ENTRY_ISSUE (R204). -/
def execCommitEntryIssue (r : SlotRef) (s : State) : Host.Outcome State Fault Refusal :=
  next (asSlot s r fun s => issueNext s s.cur)

/-- IRREVOCABLE_DRAIN (R205). -/
def execIrrevocableDrain (r : SlotRef) (s : State) : Host.Outcome State Fault Refusal :=
  next (asSlot s r fun s => drainSlot s s.cur)

/-- LOCAL_ATOMIC_PERFORM (R219). -/
def execLocalAtomicPerform (r : SlotRef) (s : State) : Host.Outcome State Fault Refusal :=
  next (asSlot s r fun s => if s.me.act == .none then s else localPerform s s.cur)

/-! Composition. -/

/-- What follows a hand-back (R139). -/
def afterHandBack (s : State) : State :=
  let s1 := handBackAll s s.cur
  match s.me.cont with
  | .trap t => enterTrap s1 s1.cur t
  | .after i => finOf i (unpark s1 s1.cur)
  | .resume => unpark s1 s1.cur

/-- The hand-back of the slot `cur`; `flip` is an error of the network on the move of a register from a member
(R137, R146). -/
def handBackSlot (flip : Option (Nat × Nat × Word)) (s : State) : State :=
  if s.me.st != .releasing || s.me.phase == 1 then s
  else
    match flip with
    | none => afterHandBack s
    | some (sender, j, f) =>
      match flipMove s s.cur sender j f with
      | (some m, s1) => errorAbort s1 s1.cur m
      | (none, s1) => afterHandBack s1

/-- HAND_BACK. -/
def execHandBack (r : SlotRef) (flip : Option (Nat × Nat × Word)) (s : State) : Host.Outcome State Fault Refusal :=
  next (asSlot s r (handBackSlot flip))

/-- Whether the instruction at a slot's PC has a major opcode and a function code. -/
def consumes (s : State) (major func : Nat) : Bool :=
  match peekInstr s s.me.pc with
  | some (some i) => majorOf i == major && funcOfInstr i == func
  | _ => false

/-- A doubleword for the instruction at the PC of a composed core arrives at a member (R137): one whose residue differs
from the transmitted one is a machine check of the receiving core, with the major opcode and the function of that
instruction. -/
def operandArrives (sender receiver : Nat) (sent arrived : Word) (major func : Nat) (s : State) : State :=
  let sl := s.me
  let ms := shapeMembers s.cur.core sl.curLog2.toNat
  if sl.curLog2 = 0 ∨ !ms.contains sender ∨ !ms.contains receiver ∨ res sent.toNat = res arrived.toNat ∨
      !consumes s major func then s
  else
    errorAbort s s.cur
      { type := 1, sev := 1, unit := 1, agent := coreAgent s receiver, lane := 63, major := major, func := func,
        res := resByte (res arrived.toNat) (res sent.toNat), pc := sl.pc, info := BitVec.ofNat 64 (sender % 16) }

/-- OPERAND_ARRIVAL. -/
def execOperandArrival (r : SlotRef) (sender receiver : Nat) (sent arrived : Word) (major func : BitVec 8) (s : State) :
    Host.Outcome State Fault Refusal :=
  next (asSlot s r (operandArrives sender receiver sent arrived major.toNat func.toNat))

/-! Link ports. -/

/-- The doubleword sent first in a direction arrives in a core's receive buffer of 16 (R261). -/
def linkArrives (s : State) (core dir : Nat) : State :=
  let x := s.core core
  if 16 ≤ (x.linkbuf.filter fun p => p.1 == dir).length then s
  else
    match takeFirst dir x.linkfly with
    | some (v, rest) => s.setCore core { x with linkbuf := x.linkbuf ++ [(dir, v)], linkfly := rest }
    | none => s

/-- LINK_PORT_ARRIVAL. -/
def execLinkPortArrival (core : Nat) (dir : BitVec 3) (s : State) : Host.Outcome State Fault Refusal :=
  next (linkArrives s core dir.toNat)

/-! Walks. -/

/-- PAGE_WALK: a walker reads the table for an access of a slot, fills the TLBs, and sets A and D for an access that
passes its checks (R183 to R188). -/
def execPageWalk (r : SlotRef) (va : Word) (store : Bool) (s : State) : Host.Outcome State Fault Refusal :=
  next (asSlot s r fun s =>
    if s.me.act == .none || s.me.helperOf.isSome then s
    else (translate s (slotCtx s s.cur false) (if store then .store else .load) va.toNat 1).1)

end Sys2Proof.Machine
end

