-- ==== Sys2Proof/Machine/Place.lean ====
section
/-! DEFINITION. How activations come to slots (R96, R97, R99, R100, R108, R109, R363): a record picked up, a team placed
whole, and the drain of a cluster. -/

namespace Sys2Proof.Machine

/-- Whether a core may take a new activation at all: not fenced (R390), its cluster neither draining (R109) nor giving
its partition up (R404). -/
def admits (s : State) (core : Nat) : Bool :=
  let x := s.cluster (clusterOf core)
  !fenced s core && x.drain.isNone && !x.noAdmit

/-! Moving a frame (R96). -/

/-- Whether a frame lies in the core store of another core than `core`. -/
def frameElsewhere (pa core : Nat) : Bool := spaceOf pa == 0 && regionOf pa == 1 && !frameOfCore pa core

/-- The free pool entry whose frame lies in a core's own store. -/
def ownEntry (s : State) (core : Nat) : Option Nat :=
  (freeEntries s (clusterOf core)).find? fun i => frameOfCore (poolFrame s (clusterOf core) i) core

/-- The entry F of a pool register with another frame in place of its own. -/
def withFrame (s : State) (cl i frame : Nat) : State := s.devSet (clDev cl 2 (16 * i)) (BitVec.ofNat 64 (2 ^ 63 + frame))

/-- Two pool entries exchange their frames. -/
def swapFrames (s : State) (cl i j : Nat) : State :=
  withFrame (withFrame s cl i (poolFrame s cl j)) cl j (poolFrame s cl i)

/-- A strand's frame where a core can use it: where it lies, or copied into a free frame of the core's own store, the old
frame going back to the pool. Nothing where it must move and there is no room. -/
def moveFrame (s : State) (core a : Nat) : Option State :=
  let st := s.strand a
  if frameElsewhere st.wsp core && poolFrame s st.home st.pool == st.wsp then
    (ownEntry s core).map fun i =>
      let w := poolFrame s st.home i
      ((swapFrames s st.home st.pool i).storeBytes w (s.bytes st.wsp 5120)).setStrand a { st with wsp := w }
  else some s

/-! READY_RECORD_PICKUP (R96). -/

/-- Whether a trigger is the first of its strand. -/
def freshKind (t : Trigger) : Bool := t.kind == .root || t.kind == .channel

/-- Whether a core can take a READY record now; a trigger that is run again stays with its core (R386). -/
def canPick (s : State) (core a : Nat) : Bool :=
  match (s.strand a).trig with
  | some t => !glazeHolds s t.key.ts && (moveFrame s core a).isSome &&
      (t.redeliveries == 0 || t.ranOn == core || fenced s t.ranOn)
  | none => false

/-- The oldest record of the highest priority among some. -/
def bestReady (s : State) : List Nat → Option Nat
  | [] => none
  | a :: r =>
    match bestReady s r with
    | some b => if (s.strand b).prio.toNat < (s.strand a).prio.toNat then some b else some a
    | none => some a

/-- A FREE slot takes the best READY record of its cluster. -/
def pickUp (r : SlotRef) (s : State) : State :=
  if (s.slot r).st != .free || !admits s r.core then s
  else
    match bestReady s ((s.cluster (clusterOf r.core)).ready.filter (canPick s r.core)) with
    | none => s
    | some a =>
      match moveFrame s r.core a, (s.strand a).trig with
      | some s1, some t => startFilling s1 r a t (freshKind t)
      | _, _ => s

/-- READY_RECORD_PICKUP. -/
def execReadyRecordPickup (r : SlotRef) (s : State) : Host.Outcome State Fault Refusal :=
  next (if r.core < 5120 ∧ r.slot < 8 then pickUp r s else s)

/-! TEAM_PLACEMENT (R108, R110). -/

/-- The members of the next activation of a team. -/
def teamSize (tm : Team) : Nat := if tm.members.isEmpty then tm.n else tm.members.length

/-- The cores of a cluster that can take a member: a FREE slot, and not fenced. -/
def openCores (s : State) (cl : Nat) : List Nat := (coresOf cl).filter fun c => (freeSlot s c).isSome && !fenced s c

/-- Whether a cluster can hold a team. -/
def teamFits (s : State) (cl t : Nat) : Bool :=
  let tm := s.getTeam t
  decide (teamSize tm ≤ (openCores s cl).length) &&
    (!tm.members.isEmpty || decide (tm.n ≤ (freeEntries s cl).length))

/-- Whether a list rises strictly. -/
def rising : List Nat → Bool
  | a :: b :: r => decide (a < b) && rising (b :: r)
  | _ => true

/-- The trigger of a member: the team's, with the pushes of an aborted run on the same core (R262). -/
def memberTrigger (tm : Team) (idx core : Nat) : Trigger :=
  { tm.trig with
    ranOn := core,
    pushed := match tm.pushed.find? fun p => p.1 == idx && p.2.1 == core with
      | some p => p.2.2
      | none => [] }

/-- The SID of a fresh member: a root strand has its own (R105). -/
def memberSid (s : State) (tm : Team) (idx : Nat) : BitVec 40 :=
  if tm.trig.kind = .root then sidOf (s.dom tm.domain.toNat) (idx + 1) else 0

/-- A fresh member's strand with its frame (R35, R99, R101): its address. -/
def newMember (s : State) (t cl core idx : Nat) : State × Nat :=
  match spawnEntry s core with
  | none => (s, 0)
  | some i =>
    let tm := s.getTeam t
    let a := poolRecord s cl i
    let w := poolFrame s cl i
    let sid := memberSid s tm idx
    let s1 := createFrame (takeEntry s cl i) w a tm.entry tm.ts sid tm.budget tm.ldir
      (if tm.trig.kind = .root then tm.arg else 0) 0
    (writeFresh (s1.setStrand a { Strand.reset with
      st := .running, pc := tm.entry, wsp := w, ts := tm.ts, sid := sid, domain := tm.domain,
      prio := tm.prio, chk := tm.chk, team := some t, tidx := idx, home := cl, pool := i }) a, a)

/-- A member of a team that goes on, its frame moved to its core where it can be. -/
def oldMember (s : State) (core a : Nat) : State := (moveFrame s core a).getD s

/-- A member takes the lowest FREE slot of its core. -/
def startMember (s : State) (t core a : Nat) (fresh : Bool) : State :=
  match freeSlot s core with
  | none => s
  | some r =>
    let tm := s.getTeam t
    let s1 := startFilling s r a (memberTrigger tm (s.strand a).tidx core) fresh
    let tm1 := s1.getTeam t
    s1.setTeam t { tm1 with slots := tm1.slots ++ [r] }

/-- Fresh members are created and started, one on each core in ascending order. -/
def placeFresh (t cl : Nat) : List Nat → Nat → State → State
  | [], _, s => s
  | c :: cs, idx, s =>
    let (s1, a) := newMember s t cl c idx
    let tm := s1.getTeam t
    let s2 := s1.setTeam t { tm with members := tm.members ++ [a], live := tm.live ++ [a] }
    placeFresh t cl cs (idx + 1) (startMember s2 t c a true)

/-- Members that go on are started, the i-th on the i-th core. -/
def placeOld (t : Nat) : List (Nat × Nat) → State → State
  | [], s => s
  | (c, a) :: cs, s => placeOld t cs (startMember (oldMember s c a) t c a false)

/-- A team leaves every FIFO; a cluster that drained for it drains no more. -/
def unqueueTeam (s : State) (t : Nat) : State :=
  { s with clusters := s.clusters.map fun p =>
      (p.1, { p.2 with waitTeams := p.2.waitTeams.filter (fun w => w.team != t), drain := p.2.drain.filter (· != t) }) }

/-- A team is placed on cores of a cluster. -/
def placeTeam (s : State) (cl t : Nat) (cores : List Nat) : State :=
  let tm := s.getTeam t
  let s1 := (unqueueTeam s t).setTeam t { tm with running := true, slots := [], bars := [], onces := [], undo := [] }
  let s2 := if tm.members.isEmpty then placeFresh t cl cores 0 s1 else placeOld t (cores.zip tm.members) s1
  s2.setTeam t { s2.getTeam t with pushed := [] }

/-- Whether the cores named can take a team of a cluster's FIFO: no older one fits, and a draining cluster takes only the
team it drains for (R108, R109). -/
def placeOk (s : State) (cl k t : Nat) (cores : List Nat) : Bool :=
  let x := s.cluster cl
  rising cores && cores.length == teamSize (s.getTeam t) && cores.all (fun c => (openCores s cl).contains c) &&
    teamFits s cl t && !x.noAdmit && (x.drain.all (· == t)) && !glazeHolds s (s.getTeam t).key.ts &&
    (x.drain.isSome || !(x.waitTeams.take k).any fun w => teamFits s cl w.team)

/-- TEAM_PLACEMENT: the team at position `k` of a cluster's FIFO, on the cores named. -/
def execTeamPlacement (cl k : Nat) (cores : List Nat) (s : State) : Host.Outcome State Fault Refusal :=
  next (match (s.cluster cl).waitTeams[k]? with
    | some w => if placeOk s cl k w.team cores then placeTeam s cl w.team cores else s
    | none => s)

/-! The placement horizon (R109, R402). -/

/-- The placement horizon of a cluster's partition in cycles. -/
def horizon (s : State) (cl : Nat) : Nat :=
  let v := natBits (partDev s (dieOfCluster cl) (s.cluster cl).part.toNat 0x10) 4 0
  2 ^ (if v = 0 then 20 else v)

/-- The team that has waited longest in a FIFO. -/
def oldestTeam : List WaitTeam → Option WaitTeam
  | [] => none
  | w :: r =>
    match oldestTeam r with
    | some v => if v.at_ < w.at_ then some v else some w
    | none => some w

/-- PLACEMENT_HORIZON_EXPIRY: the oldest waiting team has waited longer than the horizon, and the cluster drains. -/
def execPlacementHorizonExpiry (cl : Nat) (s : State) : Host.Outcome State Fault Refusal :=
  next (
    let x := s.cluster cl
    match x.drain, oldestTeam x.waitTeams with
    | none, some w => if horizon s cl < s.now - w.at_ then s.setCluster cl { x with drain := some w.team } else s
    | _, _ => s)

/-- How many clusters hold a team in their FIFOs. -/
def waitsIn (s : State) (t : Nat) : Nat := (s.clusters.filter fun p => p.2.waitTeams.any fun w => w.team == t).length

/-- A team that a drained cluster cannot hold: it waits elsewhere, or its launch ends with FAULT. -/
def unplaceable (s : State) (cl t : Nat) : State :=
  let x := s.cluster cl
  let d := (s.getTeam t).domain
  let s1 := s.setCluster cl { x with waitTeams := x.waitTeams.filter (fun w => w.team != t), drain := none }
  if 1 < waitsIn s t then s1
  else (faultLaunch s1 d).fwTell 0 0 (.launchFault (s.dom d.toNat).lid)

/-- DRAIN_END: the activations of a draining cluster have ended (R109). -/
def execDrainEnd (cl : Nat) (s : State) : Host.Outcome State Fault Refusal :=
  next (
    let x := s.cluster cl
    match x.drain with
    | none => s
    | some t =>
      if !(x.waitTeams.any fun w => w.team == t) then s.setCluster cl { x with drain := none }
      else if !atBoundary s cl || teamFits s cl t then s
      else unplaceable s cl t)

end Sys2Proof.Machine
end

