-- ==== Sys2Proof/Machine/Arrive.lean ====
section
/-! DEFINITION. Messages at their receiving NI (R14, R99, R201, R237 to R244, R366, R369, R390, R404): the header check,
acceptance, pending queues, bounces and return buffers. -/

namespace Sys2Proof.Machine

/-! The fabric. -/

/-- The message at a position of the fabric. -/
def packetAt (s : State) (k : Nat) : Option Packet :=
  match s.net[k]? with
  | some (.msg p) => some p
  | _ => none

/-- Where a packet is going: to its destination, or back to its sender. -/
def headsFor (p : Packet) : BitVec 32 := if p.bounced then p.src else p.dest

/-- The die at which a packet of the fabric is: where a link of the module has brought it, else where it set out; one
from another module that came over no link of this model is where it goes. -/
def whereIs (s : State) (p : Packet) : Nat :=
  match p.at_ with
  | some d => d
  | none =>
    let a := if p.bounced then p.dest else p.src
    if agentModule a = s.modNo then agentDie a else agentDie (headsFor p)

/-- Whether an earlier packet of one sender, one destination and one virtual network is still on its way (R239). -/
def behindAnother (s : State) (k : Nat) (p : Packet) : Bool :=
  (s.net.take k).any fun n => match n with
    | .msg q => q.src == p.src && q.dest == p.dest && q.vnet == p.vnet
    | _ => false

/-- Whether an identifier lies in this module. -/
def hereAgent (s : State) (a : BitVec 32) : Bool := agentModule a == s.modNo

/-- The message at a position that can arrive now at an agent of this module: one that has come to the agent's die. -/
def arriving (s : State) (k : Nat) : Option Packet :=
  match packetAt s k with
  | some p =>
    if hereAgent s (headsFor p) && whereIs s p == agentDie (headsFor p) && !behindAnother s k p then some p else none
  | none => none

/-- What a header must hold for any message (R237). -/
def headerOk (p : Packet) : Bool := p.reason == 0 && decide (p.len ≤ 32) && p.cls != 3

/-! Receipts (R366, R369). -/

/-- The identity that a receipt keeps of a packet: D2[55:0], or, for a far-atomic request, its OSID with P0, TIDX and
ORD. -/
def receiptOf (p : Packet) : Receipt :=
  let far := p.rmo && p.chan == 1
  { src := agentModule p.src, d1 := p.d1, d2 := if far then p.osid.toNat else natBits p.d2.toNat 55 0,
    ident := if far then (p.payload.getD 0 0).toNat + natBits (p.payload.getD 1 0).toNat 51 32 * 2 ^ 64 else 0 }

/-- Whether a packet of a spare is one that this module has accepted before its sender's module failed (R369 step 3). -/
def replayed (s : State) (p : Packet) : Bool :=
  let m := agentModule p.src
  m != s.modNo && s.down.contains m && s.receipts.contains (receiptOf p)

/-! The crumb region (R365, R366, R398). -/

/-- CRUMB, which firmware writes on die 0, and the region it places. -/
def crumbReg (s : State) : Nat := (s.devGet (dieDev 0 4 0)).toNat
def crumbOn (s : State) : Bool := (crumbReg s).testBit 63
def crumbBase (s : State) : Nat := natBits (crumbReg s) 47 34 * 2 ^ 34

/-- The offset behind the last entry of the log. -/
def crumbEnd (s : State) : Nat :=
  match s.crumbs.getLast? with
  | some c => c.offset + c.size
  | none => 0

/-- The bytes of the region in use: the log, and 32 for each receipt. -/
def crumbUsed (s : State) : Nat := crumbEnd s + 32 * s.receipts.length

/-- Firmware hears of a region that is 75 % full. -/
def crumbCheck (s : State) : State :=
  if !s.crumb75 && decide (3 * 2 ^ 32 ≤ crumbUsed s) then { s with crumb75 := true }.fwTell 0 0 .crumb75 else s

/-- The region has no room for `n` more bytes: the log is broken. -/
def crumbFull (s : State) (n : Nat) : Bool := decide (2 ^ 34 < crumbUsed s + n)

def breakLog (s : State) : State := if s.crumbBroken then s else { s with crumbBroken := true }.fwTell 0 0 .crumbFull

/-- The receipt of a packet accepted from another module. -/
def noteReceipt (s : State) (p : Packet) : State :=
  if agentModule p.src = s.modNo || !crumbOn s || s.crumbBroken then s
  else if crumbFull s 32 then breakLog s
  else crumbCheck { s with receipts := s.receipts ++ [receiptOf p] }

/-! Acceptance at a core (R99, R201, R241). -/

/-- A message raised into an ORDERED domain from outside it (R201). -/
def raised (s : State) (d : BitVec 32) (p : Packet) : Packet :=
  let x := s.dom d.toNat
  if x.ordered && natBits p.osid.toNat 39 28 != x.sidBase.toNat then
    match x.lastKey with
    | some k => if (msgKey p).le k then { p with d1 := k.ts + 1 } else p
    | none => p
  else p

/-- The trigger that an accepted message is. -/
def msgTrigger (s : State) (core : Nat) (kind : TrigKind) (p : Packet) : Trigger :=
  { Trigger.none with
    kind := kind, key := msgKey p, chn := BitVec.ofNat 6 p.chan, payload := p.payload, msg := some p, accBy := core,
    acc := s.seqNext, ranOn := core, accAt := s.now }

/-- The number of the acceptance is taken. -/
def nextSeq (s : State) : State := { s with seqNext := s.seqNext + 1 }

/-- What becomes of a message at its core. -/
inductive Arrive where
  | bounce (reason : Nat)
  | hold (overflow : Nat)
  | accept (s : State)

/-- Whether a strand waits for a channel: 8 to 63 as its mask says (R99, R124), and channel 0 alone once its trigger has
been given up (R386). -/
def waitsFor (st : Strand) (ch : Nat) : Bool :=
  st.st == .waiting &&
    (if st.dropped then ch == 0 else decide (8 ≤ ch) && (st.wmask == 0 || st.wmask.toNat.testBit ch))

/-- A continuation trigger accepted: its strand resumes here, or is READY. One whose trigger had been given up stays so
marked until this activation commits (R98, R387). -/
def resumeStrand (s : State) (core a : Nat) (t : Trigger) : State :=
  let s1 := nextSeq s
  match triggerSlot s1 core, moveFrame s1 core a with
  | some r, some s2 => startFilling s2 r a t false
  | _, _ => joinReady (s1.setStrand a { s1.strand a with trig := some t }) a

/-- Step 2 of R241. -/
def resumeArrive (s : State) (core : Nat) (p : Packet) : Arrive :=
  let a := p.d3.toNat
  let st := s.strand a
  if !smHas s.strands a || st.home != clusterOf core || !waitsFor st p.chan then .hold 3
  else
    let q := raised s st.domain p
    if (s.dom st.domain.toNat).ordered && decide (q.d1.toNat ≤ st.ts.toNat) then .bounce 5
    else if !admits s core || glazeHolds s q.d1 then .hold 1
    else .accept (resumeStrand s core a (msgTrigger s core .continuation q))

/-- A fresh strand for a channel trigger, on a FREE slot and a pool entry of its core (R97, R99). -/
def startChannel (s : State) (r : SlotRef) (i : Nat) (b : Binding) (t : Trigger) : State :=
  let cl := clusterOf r.core
  let a := poolRecord s cl i
  let w := poolFrame s cl i
  let s1 := createFrame (takeEntry (nextSeq s) cl i) w a b.entry t.key.ts 0 b.budget b.ldir 0 0
  startFilling (writeFresh (s1.setStrand a { Strand.reset with
    st := .running, pc := b.entry, wsp := w, ts := t.key.ts, domain := b.domain, prio := b.prio, chk := b.chk, home := cl,
    pool := i }) a) r a t true

/-- A team that a message starts (R241 step 5). -/
def startTeam (s : State) (core : Nat) (b : Binding) (t : Trigger) : State :=
  let cl := clusterOf core
  let no := s.seqNext
  let tm : Team := { Team.reset with
    n := b.team, domain := b.domain, part := (s.cluster cl).part, prio := b.prio, key := t.key, entry := b.entry,
    trig := t, budget := b.budget, chk := b.chk, ldir := b.ldir, ts := t.key.ts }
  queueTeam ((nextSeq s).setTeam no tm) no cl false

/-- Steps 4 and 5 of R241. -/
def boundArrive (s : State) (r : SlotRef) (i : Nat) (b : Binding) (p : Packet) : Arrive :=
  let d := s.dom b.domain.toNat
  if !d.live || domCancelled s b.domain then .bounce 10
  else if d.ordered && natBits p.osid.toNat 39 28 == d.sidBase.toNat && p.zd then .bounce 7
  else
    let t := msgTrigger s r.core .channel (raised s b.domain p)
    if glazeHolds s t.key.ts then .hold 1
    else if b.team ≤ 1 then .accept (startChannel s r i b t)
    else .accept (startTeam s r.core b t)

/-- Step 3 of R241, with the binding and the mask with which the cycle began (R242). -/
def channelArrive (s : State) (core : Nat) (p : Packet) : Arrive :=
  match bindingNow s core p.chan with
  | none => .hold 2
  | some b =>
    if maskedNow s core p.chan || !admits s core then .hold 1
    else
      match triggerSlot s core, usableEntry s core with
      | some r, some i => boundArrive s r i b p
      | _, _ => .hold 1

/-- What becomes of a message at a core now, from step 2 on. -/
def coreArrive (s : State) (core : Nat) (p : Packet) : Arrive :=
  if p.resume then resumeArrive s core p else channelArrive s core p

/-- Whether a message could be taken now, or bounced, and is not held. -/
def takeable (s : State) (core : Nat) (p : Packet) : Bool :=
  match coreArrive s core p with
  | .hold _ => false
  | _ => true

/-- Messages queued for a channel of a core, in arrival order (R241). -/
def queuedFor (s : State) (core ch : Nat) : List Packet :=
  ((s.core core).pendq.filter fun q => q.1 == ch).map (·.2)

/-- A message that its core does not take now waits in its channel's queue of 16, or bounces. -/
def holdMsg (s : State) (core : Nat) (p : Packet) (reason : Nat) : State :=
  let x := s.core core
  if 16 ≤ (queuedFor s core p.chan).length then bounce s p reason
  else (noteReceipt s p).setCore core { x with pendq := x.pendq ++ [(p.chan, p)] }

/-- Whether a core's partition is swapped out (R404). -/
def swappedOut (s : State) (core : Nat) : Bool :=
  let x := s.cluster (clusterOf core)
  x.noAdmit && x.shadow.any fun h => h.part == x.part.toNat

/-- A message that has left the fabric at a core. -/
def atCore (s : State) (core : Nat) (p : Packet) : State :=
  if !headerOk p || p.xform != 0 then bounce s p 6
  else if fenced s core then bounce s p 4
  else if swappedOut s core then bounce s p 1
  else
    match coreArrive s core p with
    | .bounce r => bounce s p r
    | .hold r => holdMsg s core p r
    | .accept s1 => noteReceipt s1 p

/-- A message for an agent that takes none, or the wrong kind for it (R14, R243, R245); firmware takes those for its
management core. -/
def atAgent (s : State) (p : Packet) : State :=
  if p.rmo then (if 4 ≤ p.chan then bounce s p 6 else bounce s p 4)
  else if agentCluster p.dest = 127 ∧ agentUnit p.dest = 2 then
    (if !headerOk p || p.xform != 0 then bounce s p 6
     else (noteReceipt s p).fwTell (agentDie p.dest) p.chan (.message p))
  else bounce s p 4

/-- Whether a packet has an event of its own: landing, far atomics and their answers. -/
def ownEvent (p : Packet) : Bool :=
  p.rmo && (if agentUnit p.dest = 18 ∧ agentCluster p.dest < 80 then decide (p.chan ≤ 1)
            else decide (agentCluster p.dest < 80 ∧ agentUnit p.dest < 16) && (p.chan == 2 || p.chan == 3))

/-- Whether a queued message of the same channel goes before an arrival (R241). -/
def queueFirst (s : State) (core : Nat) (p : Packet) : Bool := (queuedFor s core p.chan).any (takeable s core)

/-- A message arrives. -/
def arriveMsg (s : State) (k : Nat) (p : Packet) : State :=
  if replayed s p then takeNet s k
  else if p.rmo then atAgent (takeNet s k) p
  else
    match agentCore? s p.dest with
    | some c => if queueFirst s c p then s else atCore (takeNet s k) c p
    | none => atAgent (takeNet s k) p

/-- MESSAGE_ARRIVAL: the message at position `k` of the fabric. -/
def execMessageArrival (k : Nat) (s : State) : Host.Outcome State Fault Refusal :=
  next (match arriving s k with
    | some p => if p.bounced || ownEvent p then s else arriveMsg s k p
    | none => s)

/-! PENDING_QUEUE_RETAKE (R241). -/

/-- The queue of a core without the first message of a channel that can be taken. -/
def dropQueued (s : State) (core ch : Nat) : List (Nat × Packet) → List (Nat × Packet)
  | [] => []
  | q :: r => if q.1 = ch ∧ takeable s core q.2 then r else q :: dropQueued s core ch r

/-- The first message of a channel's queue that can be taken is taken again from step 2. -/
def retake (s : State) (core ch : Nat) : State :=
  match (queuedFor s core ch).find? (takeable s core) with
  | none => s
  | some p =>
    let x := s.core core
    let s1 := s.setCore core { x with pendq := dropQueued s core ch x.pendq }
    match coreArrive s1 core p with
    | .bounce r => bounce s1 p r
    | .accept s2 => s2
    | .hold _ => s

/-- PENDING_QUEUE_RETAKE. -/
def execPendingQueueRetake (core : Nat) (ch : BitVec 6) (s : State) : Host.Outcome State Fault Refusal :=
  next (if core < 5120 ∧ !fenced s core ∧ !swappedOut s core then retake s core ch.toNat else s)

/-! Bounces (R243, R244). -/

/-- The cluster that counts what reaches an NI. -/
def countBounce (s : State) (a : BitVec 32) : State :=
  if agentCluster a < 80 then countCluster s (agentModCluster a) 38 1 else s

/-- Whether a reason is retried (R243). -/
def retried (reason : Nat) : Bool := decide (1 ≤ reason ∧ reason ≤ 3)

/-- A bounced message reaches its return buffer: it is kept for a resend, or goes to the management core. -/
def bounceBack (s : State) (p : Packet) : State :=
  let s1 := countBounce s p.src
  if retried p.reason && decide (p.retry < 32) then
    let x := s1.core (niOf p.src)
    s1.setCore (niOf p.src) { x with retbuf := x.retbuf ++ [{ pkt := p, at_ := s1.now, times := p.retry }] }
  else s1.fwTell (agentDie p.src) 1 (.returned p.reason (returnedWords p p.reason))

/-- The message of a job's command that has bounced with FULL (R237, R255). -/
def fullCommand (a : BitVec 32) (j : Job) : Packet :=
  let p := bouncePacket (strayCommand j.agent j.cmd j.iss) 1
  { p with src := a, d2 := BitVec.ofNat 64 (p.d2.toNat % 2 ^ 56 + j.bounces % 256 * 2 ^ 56) }

/-- A command that is given up after its 33rd bounce: firmware has it, and its job is never done (R244, assumption log
173). -/
def dropCommand (s : State) (j : Job) : State :=
  let s1 := { s with jobs := s.jobs.filter fun k => k.id != j.id }
  startColls (if launchJob j then markFaulted s1 j.iss.domain else s1)

/-- A command's bounce reaches the return buffer of its sender, or goes to the management core. -/
def commandBack (s : State) (a : BitVec 32) (j : Job) : State :=
  let s1 := countBounce s a
  let p := fullCommand a j
  if j.bounces < 32 then
    let x := s1.core (niOf a)
    s1.setCore (niOf a) { x with retbuf := x.retbuf ++ [{ pkt := p, at_ := s1.now, times := j.bounces, job := some j.id }] }
  else (dropCommand s1 j).fwTell (agentDie a) 1 (.returned 1 (returnedWords p 1))

/-- BOUNCE_RETURN: the bounced message at position `k` of the fabric; a full buffer keeps a retried one there. -/
def execBounceReturn (k : Nat) (s : State) : Host.Outcome State Fault Refusal :=
  next (match s.net[k]? with
    | some (.cmdBack a id) =>
      (match jobById s id with
       | some j => if decide (j.bounces < 32) && niFull s a then s else commandBack (takeNet s k) a j
       | none => takeNet s k)
    | _ =>
      match arriving s k with
      | some p =>
        if !p.bounced || (retried p.reason && decide (p.retry < 32) && niFull s p.src) then s
        else bounceBack (takeNet s k) p
      | none => s)

/-- A message as it is sent again: not BOUNCED, no REASON, RETRY one higher. -/
def resent (p : Packet) : Packet :=
  { p with d0 := BitVec.ofNat 64 (p.d0.toNat % 2 ^ 53 + natBits p.d0.toNat 59 54 * 2 ^ 54), at_ := none,
           d2 := BitVec.ofNat 64 (p.d2.toNat % 2 ^ 56 + min 255 (p.retry + 1) * 2 ^ 56) }

/-- The back-off of a bounced message in cycles (R244). -/
def backOff (m : RetMsg) : Nat := 256 * 2 ^ min m.times 8

/-- A message leaves its return buffer: as a packet, or as the command of its job. -/
def resend (s : State) (m : RetMsg) : State :=
  match m.job with
  | some id => post (updJob s id fun j => { j with bounces := j.bounces + 1 }) (.cmd m.pkt.src id)
  | none => sendMsg s (resent m.pkt)

/-- BOUNCE_RESEND: entry `k` of the return buffer of an NI; a collective command that its engine's NI kept back goes
on. -/
def execBounceResend (core k : Nat) (s : State) : Host.Outcome State Fault Refusal :=
  next (match (s.core core).retbuf[k]? with
    | some m =>
      if m.at_ + backOff m ≤ s.now then
        startColls (resend (s.setCore core { s.core core with retbuf := dropAt (s.core core).retbuf k }) m)
      else s
    | none => s)

/-- A direct `send` or `job` has waited 16,384 cycles for room (R244). -/
def overflowed (s : State) : State :=
  match s.me.st, s.me.stall, peekInstr s s.me.pc with
  | .stalled, .bounceRoom since, some (some i) =>
    if since + 16384 ≤ s.now ∧ retFull s s.cur.core then takeTrap s s.cur (faultOf s i 8 0 0) else s
  | _, _, _ => s

/-- BOUNCE_OVERFLOW. -/
def execBounceOverflow (r : SlotRef) (s : State) : Host.Outcome State Fault Refusal := next (asSlot s r overflowed)

end Sys2Proof.Machine
end

