-- ==== Sys2Proof/Machine/Jobs.lean ====
section
/-! DEFINITION. The copy engine and the atomic unit of a cluster (R255 to R259): a job card reaches its inbox, its job
waits for its footprint predecessors, is performed and completes. -/

namespace Sys2Proof.Machine

/-! A card arrives (R255, R259 step 1). -/

/-- The whole block of a command: the bytes that its first 64 say. -/
def readCard (s : State) (j : Job) : State × BlockRes :=
  match readBlock s j 64 with
  | (s1, .ok b) => if jcLen b ≤ 64 then (s1, .ok b) else readBlock s1 j (jcLen b)
  | r => r

/-- A command with its block as read: its footprints are those of the block. -/
def tookBlock (s : State) (j : Job) (b : List Byte) : State :=
  let u := engineUnit j.agent
  updJob s j.id fun q => { q with
    st := .read, card := b, rd := blockReads u b,
    wr := blockWrites u (groupNrank s (agentDie j.agent) (cdGid b % 64)) b }

/-- A card in the inbox of its engine: read once; a failure to read it, or a card of R258 that is bad, ends the job. -/
def acceptCard (s : State) (j : Job) : State :=
  match readCard s j with
  | (s1, .fail a b) => endJob s1 j.id a b []
  | (s1, .ok b) =>
    let s2 := tookBlock s1 j b
    if jobCardOk (engineUnit j.agent) b then s2 else endJob s2 j.id 5 0 []

/-- JOB_CARD_ARRIVAL: the command at position `k` of the fabric. -/
def execJobCardArrival (k : Nat) (s : State) : Host.Outcome State Fault Refusal :=
  next (match commandAt s k fun u => u == 17 || u == 18 with
    | some j => commandArrives s k j acceptCard
    | none => s)

/-! Performing (R258). -/

/-- How many bytes of a piece come before its first line that ends in an abort completion. -/
def cleanLen (s : State) (p : Piece) : Nat :=
  if p.view ≠ 0 then 0
  else
    match (natsFrom (lineOf p.pa) (lineOf (p.pa + p.n - 1) - lineOf p.pa + 1)).find? fun l => lineAborts s (64 * l) with
    | some l => 64 * l - p.pa
    | none => p.n

/-- The bytes of pieces in order up to the first line that ends in an abort completion. -/
def cleanBytes (s : State) : List Piece → List Byte
  | [] => []
  | p :: r => if pieceAborts s p then (pieceBytes s p).take (cleanLen s p) else pieceBytes s p ++ cleanBytes s r

/-- Where the first of some pieces that ends in an abort completion starts. -/
def abortOf (s : State) (ps : List Piece) : Option Nat := (ps.find? (pieceAborts s)).map (·.pa)

/-- A job that has read all it needed, or met a line that ends in an abort completion. -/
def endPerformed (s : State) (id : Nat) (stop : Option Nat) : State :=
  match stop with
  | some pa => (endJob s id 3 0 []).fwTell (paDie pa) 2 (.memoryAbort (lineOf pa))
  | none => endJob s id 0 0 []

/-- The mismatch of an adder ends a job with its record (R256, R259). -/
def engineFault (s : State) (j : Job) (b : Nat) : State :=
  let m := engineRecord j.agent 1 63 0x53 (jcOp j.card) b (completionWord j 0 0)
  endJob (engineNotice s j.agent m) j.id 4 0 (recordWords m)

/-- The rest of a job's writes, and its end. -/
def endJobWork (s : State) (j : Job) (w : JobWork) : State :=
  let s1 := updJob (writeBlocks s w.writes) j.id fun q => { q with todo := none }
  match w.fault with
  | some (_, b) => engineFault s1 j b
  | none => endPerformed s1 j.id w.stop

/-- COPY. -/
def copyWork (s : State) (_ : Job) (rp wp : List Piece) : State × JobWork :=
  (s, { writes := pieceWrites wp (cleanBytes s rp), stop := abortOf s rp, fault := none })

/-- FILL. -/
def fillWork (s : State) (j : Job) (_ wp : List Piece) : State × JobWork :=
  let n := wp.foldl (fun t p => t + p.n) 0
  let b := leBytes (jcParam j.card) 8
  (s, { writes := pieceWrites wp ((natsFrom 0 n).map fun k => b.getD (k % 8) 0), stop := none, fault := none })

/-- STAGE: each device line to its home slice. -/
def doStage (s : State) (j : Job) (rp : List Piece) : State :=
  let ls := (rp.filter fun p => p.view == 0 && kindOf p.pa == .device).flatMap fun p =>
    (natsFrom (lineOf p.pa) (lineOf (p.pa + p.n - 1) - lineOf p.pa + 1)).map fun l => (l, p.attr.cmp)
  endPerformed (ls.foldl (fun u l => touchHome u (64 * l.1) ⟨jcParam j.card % 8, l.2⟩ false) s) j.id (abortOf s rp)

/-- ACC and MAXI: units of `n` bytes combined in order, as far as both sides can be read, or up to the unit at which the
adder is found wrong; units already written stay. -/
def mergeWork (n : Nat) (f : Nat → Nat → Nat) (s : State) (j : Job) (rp wp : List Piece) : State × JobWork :=
  let a := cleanBytes s rp
  let b := cleanBytes s wp
  let us := (natsFrom 0 (min a.length b.length / n)).map fun i =>
    leBytes (f (leOf ((b.drop (n * i)).take n)) (leOf ((a.drop (n * i)).take n))) n
  let (s1, out, bad) := checkedUnits s j.agent us
  (s1, { writes := pieceWrites wp (out.flatMap id), stop := abortOf s (rp ++ wp), fault := bad })

/-- The signed maximum of two doublewords. -/
def maxDouble (m v : Nat) : Nat := if sxInt m 64 < sxInt v 64 then v else m

/-- The pieces of at most 256 bytes in which a row of `n` bytes is sent from an address. -/
def landPieces : Nat → Nat → Nat → List (Nat × Nat)
  | 0, _, _ => []
  | fuel + 1, a, n => if n = 0 then [] else (a, min n 256) :: landPieces fuel (a + min n 256) (n - min n 256)

/-- One LAND message of an RPUT. -/
def rputMsg (j : Job) (a : Nat) (bs : List Byte) : Packet :=
  let p := jcParam j.card
  let ws := wordsOfBytes bs
  { src := j.agent, d0 := mkD0 (BitVec.ofNat 32 p) 0 2 ws.length (2 ^ 3) ||| BitVec.ofNat 64 (natBits p 37 32 * 2 ^ 38),
    d1 := j.iss.ts, d2 := mkD2 j.iss.sid j.iss.idx 0, d3 := BitVec.ofNat 64 a, payload := ws }

/-- Whether a message is a LAND that a job has sent. -/
def landOf (j : Job) (p : Packet) : Bool :=
  p.src == j.agent && p.rmo && p.chan == 0 && p.d1 == j.iss.ts && p.osid == j.iss.sid && p.sidx == j.iss.idx % 2 ^ 16

/-- The messages of an RPUT: its bytes in order along the rows of its write region. -/
def rputAll (s : State) (j : Job) : List (Nat × Nat) → List Byte → State
  | [], _ => s
  | (a, n) :: r, bs => if bs.isEmpty then s else rputAll (sendMsg s (rputMsg j a (bs.take n))) j r (bs.drop n)

/-- RPUT. -/
def doRput (s : State) (j : Job) (rp : List Piece) : State :=
  let g := jcRegion j.card 1
  let rows := g.rowList.flatMap fun a => landPieces (g.rowBytes / 256 + 1) a g.rowBytes
  endPerformed (rputAll s j rows (cleanBytes s rp)) j.id (abortOf s rp)

/-- Whether a job of the copy engine or the atomic unit of a cluster has its card and its operation. -/
def jobHas (cl op : Nat) (j : Job) : Bool :=
  agentModCluster j.agent == cl && engineUnit j.agent != 16 && engineUnit j.agent != 0 && j.st == .read && jcOp j.card == op

/-- A job whose predecessors have completed starts with its translations (R206, R259 steps 2 to 4). Single-bit errors
of what it reads are corrected: of its read region, and of the write region that ACC and MAXI read (R161). -/
def startJob (act : State → Job → List Piece → List Piece → State) (s : State) (j : Job) : State :=
  if !jobFree s j then s
  else
    match startPieces s j (jobReads j.card) (jobWrites j.card) noDevice with
    | (s1, .fail a b) => endJob s1 j.id a b []
    | (s1, .wait) => s1
    | (s1, .go rp wp) => act (softPieces s1 (if 8 ≤ jcOp j.card then rp ++ wp else rp)) j rp wp

/-- A job of an operation that issues no writes of its own. -/
def runJob (op : Nat) (act : State → Job → List Piece → List Piece → State) (cl id : Nat) (s : State) : State :=
  match jobById s id with
  | some j => if jobHas cl op j then startJob act s j else s
  | none => s

/-- A job whose writes become visible: all of them, or what is left of them (R206). -/
def runJobWork (op : Nat) (work : State → Job → List Piece → List Piece → State × JobWork) (cl id : Nat) (s : State) : State :=
  match jobById s id with
  | some j =>
    if !jobHas cl op j then s
    else
      match j.todo with
      | some w => endJobWork s j w
      | none => startJob (fun u k rp wp => endJobWork (work u k rp wp).1 k (work u k rp wp).2) s j
  | none => s

/-- The writes of a job by its operation. -/
def jobWork (op : Nat) : Option (State → Job → List Piece → List Piece → State × JobWork) :=
  match op with
  | 0 => some copyWork
  | 1 => some fillWork
  | 8 => some (mergeWork 16 bsiAddBits)
  | 9 => some (mergeWork 8 maxDouble)
  | _ => none

/-- The next `n` blocks of a job of the copy engine or an atomic unit become visible; one that has not started starts. -/
def jobBlocks (s : State) (n : Nat) (j : Job) : State :=
  match jobWork (jcOp j.card) with
  | some work =>
    if !jobHas (agentModCluster j.agent) (jcOp j.card) j then s
    else
      match j.todo with
      | some w => showBlocks s j.id n w
      | none => startJob (fun u k rp wp => showBlocks (work u k rp wp).1 k.id n (work u k rp wp).2) s j
  | none => s

/-- JOB_COPY. -/
def execJobCopy (cl id : Nat) (s : State) : Host.Outcome State Fault Refusal :=
  next (runJobWork 0 copyWork cl id s)

/-- JOB_FILL. -/
def execJobFill (cl id : Nat) (s : State) : Host.Outcome State Fault Refusal :=
  next (runJobWork 1 fillWork cl id s)

/-- JOB_RPUT: not while the copy engine's NI issues no message (R244). -/
def execJobRput (cl id : Nat) (s : State) : Host.Outcome State Fault Refusal :=
  next (runJob 2 (fun s j rp _ => if niFull s j.agent then s else doRput s j rp) cl id s)

/-- JOB_STAGE. -/
def execJobStage (cl id : Nat) (s : State) : Host.Outcome State Fault Refusal :=
  next (runJob 3 (fun s j rp _ => doStage s j rp) cl id s)

/-- JOB_ACC. -/
def execJobAcc (cl id : Nat) (s : State) : Host.Outcome State Fault Refusal :=
  next (runJobWork 8 (mergeWork 16 bsiAddBits) cl id s)

/-- JOB_MAXI. -/
def execJobMaxi (cl id : Nat) (s : State) : Host.Outcome State Fault Refusal :=
  next (runJobWork 9 (mergeWork 8 maxDouble) cl id s)

/-! Completion (R256, R259, R328). -/

/-- The matrix command embedded in a job card. -/
def embeddedJob (s : State) (j : Job) : Job :=
  let b := jcMmBlock j.card
  { j with
    id := s.jobNext, agent := clusterAgent s (agentModCluster j.agent) 16,
    cmd := BitVec.ofNat 64 (j.cmd.toNat / 64 * 64 + jcMmOffset j.card), iss := { j.iss with queue := 4, qseq := 0 },
    st := .issued, card := b, rd := mcReads b, wr := mcWrites b, status := 0, cause := 0, record := [], parent := some j.id }

/-- The embedded matrix command is issued, and its job runs on until that reports. -/
def issueMatrix (s : State) (j : Job) : State :=
  let c := embeddedJob s j
  let s1 := updJob s j.id fun q => { q with st := .running }
  post { s1 with jobs := s1.jobs ++ [c], jobNext := s1.jobNext + 1 } (.cmd j.agent c.id)

/-- Whether bytes that begin with a message's route word and header are those of a LAND of a job. -/
def landHead (j : Job) (bs : List Byte) : Bool :=
  match packetOf (bs.take 40) with
  | some p => landOf j p
  | none => false

/-- Whether LAND messages of an RPUT have still to land: in the fabric, in a return buffer or in a link (R258). -/
def landsLeft (s : State) (j : Job) : Bool :=
  (s.net.any fun n => match n with
    | .msg p => landOf j p
    | _ => false) ||
    (s.cores.any fun c => c.2.retbuf.any fun m => landOf j m.pkt) ||
    s.links.any fun x =>
      (x.2.replay.any fun f => (flType f == 1 || flType f == 4) && landHead j (flData f)) ||
        (x.2.queued.any fun q => (q.2.1 == 1 || q.2.1 == 4) && landHead j q.2.2) || x.2.partials.any fun q => landHead j q.2

/-- A job that has ended reports, unless its matrix command has still to be issued, which is once the last byte of the
job has landed (R258). A report or command that is a message waits for its NI (R244). -/
def completeJob (s : State) (j : Job) : State :=
  if j.st = .joined then (if reportWaits s j then s else finishJob s j)
  else if j.st ≠ .finished then s
  else if j.status = 0 ∧ jcMm j.card then
    (if (jcOp j.card == 2 && landsLeft s j) || niFull s j.agent then s else issueMatrix s j)
  else if reportWaits s j then s
  else finishJob s j

/-- JOB_COMPLETION. -/
def execJobCompletion (cl id : Nat) (s : State) : Host.Outcome State Fault Refusal :=
  next (match jobById s id with
    | some j =>
      if agentModCluster j.agent = cl ∧ engineUnit j.agent ≠ 16 ∧ engineUnit j.agent ≠ 0 then completeJob s j else s
    | none => s)

end Sys2Proof.Machine
end

