-- ==== Sys2Proof/Machine/CollEvents.lean ====
section
/-! DEFINITION. The events of a collective engine (R351 to R362, R369): commands, contributions and completion notices
arrive, an instance stays open too long, and a generation is written. -/

namespace Sys2Proof.Machine

/-- The operation that the instruction of a command gave (R359). -/
def collOp (j : Job) : Option Nat := j.captured[4]?

/-- A command that ends without a contribution. -/
def refuseColl (s : State) (j : Job) (status cause : Nat) : State :=
  finishJob s { (jobById s j.id).getD j with status := status, cause := cause, record := [] }

/-- A command reaches its engine's inbox: its descriptor is read once and checked, and it starts once its predecessors
have completed (R206, R259, R361). -/
def acceptColl (s : State) (j : Job) : State :=
  let die := agentDie j.agent
  match readBlock s j 64 with
  | (s1, .fail a b) => refuseColl s1 j a b
  | (s1, .ok b) =>
    let s2 := tookBlock s1 j b
    match collCheck s2 die { j with card := b } (collOp j) with
    | some (a, c) => refuseColl s2 j a c
    | none => startColls (updJob s2 j.id fun q => { q with st := .ready })

/-- COLL_COMMAND_ARRIVAL: the command at position `k` of the fabric, while the engine's NI could issue the report of a
refusal (R244). -/
def execCollCommandArrival (k : Nat) (s : State) : Host.Outcome State Fault Refusal :=
  next (match commandAt s k fun u => u == 0 with
    | some j => if niFull s j.agent then s else commandArrives s k j acceptColl
    | none => s)

/-- Whether an agent number names a collective engine of this module. -/
def cleHere (s : State) (a : Nat) : Bool :=
  let x := BitVec.ofNat 32 a
  agentModule x == s.modNo && agentCluster x == 127 && agentUnit x == 0

/-- COLL_CONTRIBUTION: the contribution at position `k` of the fabric. -/
def execCollContribution (k : Nat) (s : State) : Host.Outcome State Fault Refusal :=
  next (match s.net[k]? with
    | some (.contrib a c) =>
      if cleHere s a then startColls (onContribution (takeNet s k) (agentDie (BitVec.ofNat 32 a)) c) else s
    | _ => s)

/-- Whether a notice answers a kept contribution: by its command, or in REPLAY by (group, CSEQ, rank) (R369). -/
def noticeFits (replay : Bool) (n : CollNotice) (c : Contrib) : Bool :=
  n.group == c.group && n.cseq == c.cseq && n.rank == c.rank && (replay || n.job == c.job)

/-- A notice ends the command of a contribution: what it carries is written, and the leaf keeps the contribution no
longer. -/
def endNotice (s : State) (die : Nat) (n : CollNotice) (c : Contrib) (j : Job) : State :=
  let s1 := writeResults s j n.dst n.outcome
  let x := s1.die die
  let s2 := s1.setDie die { x with leaf := x.leaf.filter fun d => d.job != c.job }
  let rec4 := if n.status = 4 then recordWords (engineRecord (gcoord s die n.group) 1 63 0x55 0 n.res 0) else []
  finishJob s2 { j with status := n.status, cause := 0, record := rec4 }

/-- COMPLETION_NOTICE: the notice at position `k` of the fabric; one that answers nothing is dropped. -/
def execCompletionNotice (k : Nat) (s : State) : Host.Outcome State Fault Refusal :=
  next (match s.net[k]? with
    | some (.notice n) =>
      if !cleHere s n.leaf then s
      else
        let die := agentDie (BitVec.ofNat 32 n.leaf)
        let s1 := takeNet s k
        match (s.die die).leaf.find? (noticeFits (s.die die).replay n) with
        | some c =>
          match jobById s c.job with
          | some j => if reportWaits s j then s else endNotice s1 die n c j
          | none => s1
        | none => s1
    | _ => s)

/-- COLL_INSTANCE_TIMEOUT (R351). -/
def execCollInstanceTimeout (die g : Nat) (cseq : Word) (s : State) : Host.Outcome State Fault Refusal :=
  next (if die < 4 ∧ g < 64 then collTimeout s die g cseq else s)

/-- GGEN_WRITE: firmware writes GGEN of a group at the engine of a die (R352). -/
def execGgenWrite (die g : Nat) (v : Word) (s : State) : Host.Outcome State Fault Refusal :=
  next (if die < 4 ∧ g < 64 then startColls (writeGgen s die g v) else s)

end Sys2Proof.Machine
end

