-- ==== Sys2Proof/Machine/Control.lean ====
section
/-! DEFINITION. Control flow: transfers (R75 to R83) and `sig` (R88, R91). -/

namespace Sys2Proof.Machine

/-- The line of a PC. -/
def lineBase (pc : Word) : Word := pc &&& ~~~(63 : Word)

/-- A PC-relative target (R25, R80): a line offset and a head index. -/
def relTarget (pc : Word) (loff : Word) (hi : BitVec 5) : Word :=
  lineBase pc + (loff <<< 6) + hi.setWidth 64 <<< 1

/-- The target of a PC-relative transfer, through the AGU (R76). -/
def withTarget (s : State) (i : Instr) (loff : Word) (hi : BitVec 5) (k : State → Word → Res) : Res :=
  withAgu s i (lineBase s.me.pc) loff 6 (hi.setWidth 64 <<< 1) k

/-- A transfer to a target: ALIGN where bit 0 is set, before anything is written (R24, R77). -/
def transferTo (s : State) (i : Instr) (tgt : Word) (s1 : State) : Res :=
  if tgt.toNat.testBit 0 then Res.align s i tgt else .jump s1 tgt

/-- The conditions of `bcc` (R81). -/
def bccHolds (c : BrCond) (a b : Word) : Bool :=
  match c with
  | .eq => a == b
  | .ne => a != b
  | .lt => a.slt b
  | .ge => !a.slt b
  | .ltu => a.ult b
  | .geu => !a.ult b

/-- The conditions of `bcc` as the adder's difference gives them. -/
def bccOfDiff (c : BrCond) (a b d : Word) : Bool :=
  match c with
  | .eq => d == 0
  | .ne => d != 0
  | .lt => ltOfDiff 64 true a.toNat b.toNat d.toNat
  | .ge => !ltOfDiff 64 true a.toNat b.toNat d.toNat
  | .ltu => ltOfDiff 64 false a.toNat b.toNat d.toNat
  | .geu => !ltOfDiff 64 false a.toNat b.toNat d.toNat

/-- `br` (R80). -/
def execBr (sw : Bool) (loff : BitVec 27) (hi : BitVec 5) (s : State) : Host.Outcome State Fault Refusal :=
  next (runInstr (.br sw loff hi) sw []
    (fun s => withTarget s (.br sw loff hi) (loff.signExtend 64) hi fun s1 t => transferTo s1 (.br sw loff hi) t s1) s)

/-- `jal` (R78, R80): the link is the PC that follows in sequence. -/
def execJal (sw : Bool) (a : Reg) (loff : BitVec 27) (hi : BitVec 5) (s : State) : Host.Outcome State Fault Refusal :=
  next (runInstr (.jal sw a loff hi) sw [a.toNat]
    (fun s => withTarget s (.jal sw a loff hi) (loff.signExtend 64) hi fun s1 t =>
      transferTo s1 (.jal sw a loff hi) t (s1.setMe (s1.me.setG a.toNat s1.me.npc))) s)

/-- `bcc` (R81): the compare in the adder, the target formed whether or not it is taken. Where both checks would fail,
the adder's record stands (assumption log 176). -/
def bccBody (i : Instr) (c : BrCond) (a b : Reg) (loff : BitVec 18) (hi : BitVec 5) (s : State) : Res :=
  let x := s.me.g a.toNat
  let y := s.me.g b.toNat
  withUnit s i (unitSub 64 x.toNat y.toNat) (x - y) fun s1 d =>
    withTarget s1 i (loff.signExtend 64) hi fun s2 t =>
      if (if d = x - y then bccHolds c x y else bccOfDiff c x y d) then transferTo s2 i t s2 else .done s2

def execBcc (sw : Bool) (c : BrCond) (a b : Reg) (loff : BitVec 18) (hi : BitVec 5) (s : State) :
    Host.Outcome State Fault Refusal :=
  next (runInstr (.bcc sw c a b loff hi) sw [a.toNat, b.toNat] (bccBody (.bcc sw c a b loff hi) c a b loff hi) s)

/-- `bz` and `bnz` (R81). -/
def bzBody (i : Instr) (onZero : Bool) (a : Reg) (loff : BitVec 18) (hi : BitVec 5) (s : State) : Res :=
  withTarget s i (loff.signExtend 64) hi fun s1 t =>
    if (s1.me.g a.toNat == 0) = onZero then transferTo s1 i t s1 else .done s1

def execBz (sw : Bool) (a : Reg) (loff : BitVec 18) (hi : BitVec 5) (s : State) : Host.Outcome State Fault Refusal :=
  next (runInstr (.bz sw a loff hi) sw [a.toNat] (bzBody (.bz sw a loff hi) true a loff hi) s)

def execBnz (sw : Bool) (a : Reg) (loff : BitVec 18) (hi : BitVec 5) (s : State) : Host.Outcome State Fault Refusal :=
  next (runInstr (.bnz sw a loff hi) sw [a.toNat] (bzBody (.bnz sw a loff hi) false a loff hi) s)

/-- `jalr` (R78, R82): the target is read before the link is written. -/
def execJalr (sw : Bool) (a b : Reg) (off : BitVec 10) (s : State) : Host.Outcome State Fault Refusal :=
  next (runInstr (.jalr sw a b off) sw [b.toNat, a.toNat]
    (fun s => withAgu s (.jalr sw a b off) (s.me.g b.toNat) (off.signExtend 64) 6 0 fun s1 t =>
      transferTo s1 (.jalr sw a b off) t (s1.setMe (s1.me.setG a.toNat s1.me.npc))) s)

/-- `ret` (R82). -/
def execRet (sw : Bool) (a : Reg) (s : State) : Host.Outcome State Fault Refusal :=
  next (runInstr (.ret sw a) sw [a.toNat]
    (fun s => withAgu s (.ret sw a) (s.me.g a.toNat) 0 0 0 fun s1 t => transferTo s1 (.ret sw a) t s1) s)

/-- `loop` and `loop.gtz` (R83): the counter goes down by one in the adder, and the branch tests the new value. -/
def loopBody (i : Instr) (gtz : Bool) (a : Reg) (loff : BitVec 18) (hi : BitVec 5) (s : State) : Res :=
  let x := s.me.g a.toNat
  withUnit s i (unitSub 64 x.toNat 1) (x - 1) fun s1 n =>
    withTarget s1 i (loff.signExtend 64) hi fun s2 t =>
      let s3 := s2.setMe (s2.me.setG a.toNat n)
      if (if gtz then selHolds .gtz n else n != 0) then transferTo s2 i t s3 else .done s3

def execLoop (sw : Bool) (a : Reg) (loff : BitVec 18) (hi : BitVec 5) (s : State) : Host.Outcome State Fault Refusal :=
  next (runInstr (.loop sw a loff hi) sw [a.toNat] (loopBody (.loop sw a loff hi) false a loff hi) s)

def execLoopGtz (sw : Bool) (a : Reg) (loff : BitVec 18) (hi : BitVec 5) (s : State) :
    Host.Outcome State Fault Refusal :=
  next (runInstr (.loopGtz sw a loff hi) sw [a.toNat] (loopBody (.loopGtz sw a loff hi) true a loff hi) s)

/-- `sig` (R88, R91): nothing but what the checker does as it completes. -/
def execSig (sw : Bool) (crc : BitVec 16) (s : State) : Host.Outcome State Fault Refusal :=
  next (runInstr (.sig sw crc) sw [] (fun s => .done s) s)

end Sys2Proof.Machine
end

