-- ==== Sys2Proof/Machine/Special.lean ====
section
/-! DEFINITION. Correctly rounded reciprocal, square root, exponential and logarithm (R322): exact values where there
are any, and otherwise bounds of the irrational value, narrowed until both bounds round alike. -/

namespace Sys2Proof.Machine

/-! Square roots. -/

/-- The integer square root of `n` by its bits from `b` - 1 down, on top of `r`. -/
def isqrtFrom (n : Nat) : Nat → Nat → Nat
  | 0, r => r
  | b + 1, r => isqrtFrom n b (if (r + 2 ^ b) * (r + 2 ^ b) ≤ n then r + 2 ^ b else r)

/-- floor(sqrt(n)). -/
def isqrt (n : Nat) : Nat := isqrtFrom n (Nat.log2 n / 2 + 1) 0

/-- A positive fraction whose rounding to `p` fraction bits is that of sqrt(num/den): the root itself where it is a
multiple of the grid chosen, else a value strictly between two neighbours of the grid. -/
def sqrtFrac (p num den : Nat) : Nat × Nat :=
  let k : Int := (p : Int) + 8 - log2Frac num den / 2
  let a := num * twoNum (2 * k)
  let b := den * twoDen (2 * k)
  let q := isqrt (a / b)
  if q * q * b = a then (q * twoDen k, twoNum k) else ((2 * q + 1) * twoDen k, 2 * twoNum k)

/-! Fixed-point series with `p` fraction bits. Each gives a value not above the true one. -/

/-- The number of terms that the series take. -/
def serTerms (p : Nat) : Nat := p / 2 + 8

/-- What each series can lack, in units of the last place. -/
def serSlack (p : Nat) : Nat := 4 * serTerms p

/-- The sum of z^(2j+1) / (2j+1) for `n` more terms: `w` is the current power of z and `z2` its square. -/
def atanhSum (p z2 : Nat) : Nat → Nat → Nat → Nat
  | 0, _, _ => 0
  | n + 1, j, w => w / (2 * j + 1) + atanhSum p z2 n (j + 1) (w * z2 / 2 ^ p)

/-- atanh(a / b) for 0 ≤ a / b ≤ 1/3. -/
def atanhFix (p a b : Nat) : Nat :=
  let z := a * 2 ^ p / b
  atanhSum p (z * z / 2 ^ p) (serTerms p) 0 z

/-- ln 2 = 2 atanh(1/3). -/
def lnTwo (p : Nat) : Nat := 2 * atanhFix p 1 3

/-- The sum of y^j / j! for `n` more terms, `t` the current one. -/
def expSum (p y : Nat) : Nat → Nat → Nat → Nat
  | 0, _, _ => 0
  | n + 1, j, t => t + expSum p y n (j + 1) (t * y / ((j + 1) * 2 ^ p))

/-- e^y for 0 ≤ y < 1. -/
def expFix (p y : Nat) : Nat := expSum p y (serTerms p) 0 (2 ^ p)

/-! Rounding between bounds. -/

/-- A value that lies strictly inside (lo, hi) over `den`, rounded where both bounds round alike and inexactly. -/
def roundBetween (f : Fmt) (m : Rm) (neg : Bool) (lo hi den : Nat) : Option (Nat × Nat) :=
  let a := roundTo f m .off 0 (.fin neg lo den)
  let b := roundTo f m .off 0 (.fin neg hi den)
  if a = b ∧ a.2.testBit 0 then some a else none

/-- Bounds with more and more bits until they round alike; `n` bounds how often the precision doubles. -/
def refine (f : Fmt) (m : Rm) (bounds : Nat → Bool × Nat × Nat × Nat) : Nat → Nat → Nat × Nat
  | 0, p => let (neg, lo, _, den) := bounds p; let r := roundTo f m .off 0 (.fin neg lo den); (r.1, r.2 ||| fNX)
  | n + 1, p =>
    let (neg, lo, hi, den) := bounds p
    match roundBetween f m neg lo hi den with
    | some r => r
    | none => refine f m bounds n (2 * p)

/-- 2^(n/d) for 0 < n/d < 1, times 2^e: bounds with `p` bits. -/
def expBounds (e : Int) (n d p : Nat) : Bool × Nat × Nat × Nat :=
  let l := lnTwo p
  let lo := expFix p (n * l / d)
  let hi := expFix p (n * (l + serSlack p) / d + 1) + serSlack p
  (false, lo * twoNum e, hi * twoNum e, 2 ^ p * twoDen e)

/-- log2 of (a/b) x 2^e with 1 < a/b < 2: bounds with `p` bits. -/
def logBounds (e : Int) (a b p : Nat) : Bool × Nat × Nat × Nat :=
  let l := lnTwo p
  let x := 2 * atanhFix p (a - b) (a + b)
  let lo := x * 2 ^ p / (l + serSlack p)
  let hi := (x + 2 * serSlack p) * 2 ^ p / l + 1
  if 0 ≤ e then (false, e.toNat * 2 ^ p + lo, e.toNat * 2 ^ p + hi, 2 ^ p)
  else (true, (-e).toNat * 2 ^ p - hi, (-e).toNat * 2 ^ p - lo, 2 ^ p)

/-- 2^x of a finite x. Beyond the range of the format nothing but the side on which it lies matters, and next to 0 the
result is next to 1. -/
def exp2Round (f : Fmt) (l : FpLayout) (m : Rm) (neg : Bool) (num den : Nat) : Nat × Nat :=
  let x := sgn neg num
  let fl := x / (den : Int)
  let fr := (x % (den : Int)).toNat
  let top : Int := (l.bias : Int) + 2
  let bot : Int := -((l.bias : Int) + l.p + 4)
  let e := if top < fl then top else if fl < bot then bot else fl
  if fr = 0 ∨ top < fl ∨ fl < bot then
    let r := roundTo f m .off 0 (dyadic false 1 e)
    r
  else if log2Frac num den < -((l.p : Int) + 8) then
    roundTo f m .off 0 (.fin false (if neg then 2 ^ (l.p + 10) - 1 else 2 ^ (l.p + 10) + 1) (2 ^ (l.p + 10)))
  else refine f m (expBounds fl fr den) 4 160

/-- log2 of a positive finite x. -/
def log2Round (f : Fmt) (m : Rm) (num den : Nat) : Nat × Nat :=
  let e := log2Frac num den
  let a := num * twoDen e
  let b := den * twoNum e
  if a = b then roundTo f m .off 0 (numOfInt e) else refine f m (logBounds e a b) 4 160

/-! The table of R322. -/

/-- NaN with NV. -/
def specNan (f : Fmt) : Nat × Nat := (canonNan f, fNV)

/-- An infinity with DZ. -/
def specInf (f : Fmt) (neg : Bool) : Nat × Nat := ((roundTo f .rne .off 0 (.inf neg)).1, fDZ)

/-- A function of `vspec` on a positive or negative finite value that is not zero. -/
def specFinite (f : Fmt) (l : FpLayout) (fn : VspecFn) (m : Rm) (neg : Bool) (num den : Nat) : Nat × Nat :=
  match fn with
  | .rcp => roundTo f m .off 0 (.fin neg den num)
  | .sqrt => if neg then specNan f else let (a, b) := sqrtFrac l.p num den; roundTo f m .off 0 (.fin false a b)
  | .rsqrt => if neg then specNan f else let (a, b) := sqrtFrac l.p den num; roundTo f m .off 0 (.fin false a b)
  | .exp2 => exp2Round f l m neg num den
  | .log2 => if neg then specNan f else log2Round f m num den

/-- A function of `vspec` on a zero. -/
def specZero (f : Fmt) (fn : VspecFn) (neg : Bool) : Nat × Nat :=
  match fn with
  | .rcp | .rsqrt => specInf f neg
  | .sqrt => roundTo f .rne .off 0 (.fin neg 0 1)
  | .exp2 => roundTo f .rne .off 0 (.fin false 1 1)
  | .log2 => specInf f true

/-- A function of `vspec` on an infinity. -/
def specInfinite (f : Fmt) (fn : VspecFn) (neg : Bool) : Nat × Nat :=
  match fn with
  | .rcp => roundTo f .rne .off 0 (.fin neg 0 1)
  | .sqrt => if neg then specNan f else roundTo f .rne .off 0 (.inf false)
  | .rsqrt => if neg then specNan f else roundTo f .rne .off 0 (.fin false 0 1)
  | .exp2 => if neg then roundTo f .rne .off 0 (.fin false 0 1) else roundTo f .rne .off 0 (.inf false)
  | .log2 => if neg then specNan f else roundTo f .rne .off 0 (.inf false)

/-- A lane of `vspec`: pattern and flags (R322). -/
def specVal (f : Fmt) (fn : VspecFn) (m : Rm) (v : Nat) : Nat × Nat :=
  match fpLayout f with
  | none => (0, 0)
  | some l =>
    match numOf f v with
    | .nan sig => (canonNan f, if sig then fNV else 0)
    | .inf neg => specInfinite f fn neg
    | .fin neg num den => if num = 0 then specZero f fn neg else specFinite f l fn m neg num den

end Sys2Proof.Machine
end

