-- ==== Sys2Proof/Machine/Signif.lean ====
section
/-! DEFINITION. Significand datapaths and the residue relations that check them (R293, R310): multiplier, alignment and
normalisation shifters, adder, divider, square root, rounding increment. Which integers the stages of an operation work on is
the model's choice (assumption log 175). -/

namespace Sys2Proof.Machine

/-- A finite value as a signed significand above an exponent. -/
structure Sig where
  neg : Bool
  mag : Nat
  exp : Int
deriving DecidableEq, Repr

/-- The value that a significand stands for. -/
def Sig.num (x : Sig) : Num := dyadic x.neg x.mag x.exp

/-- A value times 2^k. -/
def Sig.scale (x : Sig) (k : Int) : Sig := { x with exp := x.exp + k }

/-- The significand of a finite pattern of a format. -/
def sigOf (f : Fmt) (v : Nat) : Option Sig :=
  match numOf f v with
  | .fin neg n d =>
    (match fpLayout f with
     | some l => let m := fpMag l (v % 2 ^ l.magBits); some ⟨neg, m.1, m.2⟩
     | none => some ⟨neg, n, -(Nat.log2 d : Int)⟩)
  | _ => none

/-- How a datapath's exact result is rounded: format, mode, saturation and Fondant word. -/
structure Rounding where
  f : Fmt
  m : Rm
  sat : SatMode
  w : Nat

/-- The pattern to which a significand rounds. -/
def Rounding.pack (r : Rounding) (x : Sig) : Nat := (roundTo r.f r.m r.sat r.w x.num).1

/-- The exponent of the last place that rounding a positive fraction keeps. -/
def Rounding.lastPlace (r : Rounding) (num den : Nat) : Int :=
  match fpLayout r.f with
  | some l => max (log2Frac num den) (1 - (l.bias : Int)) - l.p
  | none => if r.f = .dpow8 then -6 else 0

/-! Stages. No stage of a significand is wider than this. -/

/-- The width that a stage of a significand datapath is given. -/
def sigWidth : Nat := 8192

/-- A shift right by `k` keeps q and drops t; one to the left multiplies the residue (R310). `fin` makes the result of
the shifter's output with what it dropped. -/
def shiftStage (mag : Nat) (k : Int) (fin : Nat → Nat → Nat) : Stage :=
  if 0 ≤ k then
    let t := mag % 2 ^ k.toNat
    { right := mag / 2 ^ k.toNat, width := sigWidth,
      check := fun q => ((res q * 2 ^ (k.toNat % 4) + res t) % 15, res mag), fin := fun q => fin q t }
  else
    { right := mag * 2 ^ (-k).toNat, width := sigWidth,
      check := fun q => (res q, res mag * 2 ^ ((-k).toNat % 4) % 15), fin := fun q => fin q 0 }

/-- The rounding increment, an addition to the result's pattern. -/
def incStage (v : Nat) : Stage := { right := v, width := 64, check := fun p => (res p, res v), fin := fun p => p % 2 ^ 64 }

/-- Normalising and rounding an exact result; zero needs neither. -/
def roundStages (r : Rounding) (x : Sig) : List Stage :=
  if x.mag = 0 then []
  else
    let k := r.lastPlace (x.mag * twoNum x.exp) (twoDen x.exp) - x.exp
    [shiftStage x.mag k fun q t =>
       if 0 ≤ k then r.pack { x with mag := q * 2 ^ k.toNat + t } else r.pack { x with mag := q, exp := x.exp + k },
     incStage (r.pack x)]

/-- The exact product. -/
def mulSig (x y : Sig) : Sig := ⟨x.neg != y.neg, x.mag * y.mag, x.exp + y.exp⟩

/-- The multiplier: res(full product) = res(ma) x res(mb). -/
def mulStage (x y : Sig) (fin : Sig → Nat) : Stage :=
  { right := x.mag * y.mag, width := sigWidth, check := fun p => (res p, res x.mag * res y.mag % 15),
    fin := fun p => fin { mulSig x y with mag := p } }

def mulStages (r : Rounding) (x y : Sig) : List Stage := mulStage x y r.pack :: roundStages r (mulSig x y)

/-- A sum of aligned magnitudes: its sign, and the adder's output as an addition or a subtraction. -/
def addMag (m : Rm) (x y : Sig) (a b : Nat) : Bool × Nat :=
  if x.neg = y.neg then (x.neg, a + b)
  else if a = b then (zeroSign m x.neg y.neg, 0)
  else if b < a then (x.neg, a - b) else (y.neg, b - a)

/-- The exact sum. -/
def addSig (m : Rm) (x y : Sig) : Sig :=
  let e := min x.exp y.exp
  let s := addMag m x y (x.mag * twoNum (x.exp - e)) (y.mag * twoNum (y.exp - e))
  ⟨s.1, s.2, e⟩

/-- Alignment to the smaller exponent by a left shift, the adder, and the rounding. -/
def addStages (r : Rounding) (x y : Sig) : List Stage :=
  let e := min x.exp y.exp
  let a := x.mag * twoNum (x.exp - e)
  let b := y.mag * twoNum (y.exp - e)
  let s := addSig r.m x y
  let sum (a b : Nat) : Nat := let t := addMag r.m x y a b; r.pack ⟨t.1, t.2, e⟩
  let align := if e < x.exp then shiftStage x.mag (e - x.exp) fun q _ => sum q b
    else shiftStage y.mag (e - y.exp) fun q _ => sum a q
  let pred : Int := if x.neg = y.neg then (res a : Int) + res b else if b < a then (res a : Int) - res b
    else (res b : Int) - res a
  align :: { right := s.mag, width := sigWidth, check := fun p => (res p, resOfInt pred),
             fin := fun p => r.pack { s with mag := p } } :: roundStages r s

/-- The product, the sum and the rounding of a fused operation. -/
def fmaStages (r : Rounding) (x y z : Sig) (negate : Bool) : List Stage :=
  let turn (p : Sig) : Sig := { p with neg := p.neg != negate }
  mulStage x y (fun p => r.pack (addSig r.m (turn p) z)) :: addStages r (turn (mulSig x y)) z

/-- A division n = q x d + r at the last place kept, and the final correction (R310). The divisor is not 0. -/
def divStages (r : Rounding) (x y : Sig) : List Stage :=
  if x.mag = 0 then []
  else
    let e := x.exp - y.exp
    let num := x.mag * twoNum e
    let den := y.mag * twoDen e
    let k := r.lastPlace num den
    let n := num * twoDen k
    let d := den * twoNum k
    let t := n % d
    let round (q : Nat) : Nat :=
      (roundTo r.f r.m r.sat r.w (.fin (x.neg != y.neg) ((q * d + t) * twoNum k) (d * twoDen k))).1
    [{ right := n / d, width := sigWidth, check := fun q => ((res q * res d + res t) % 15, res n), fin := round },
     incStage (round (n / d))]

/-- A square root n = q x q + r of a positive fraction at the last place kept, and the final correction of the result `v`
(R310). -/
def sqrtStages (r : Rounding) (v num den : Nat) : List Stage :=
  let (a, b) := sqrtFrac 64 num den
  let k := r.lastPlace a b
  let n := num * twoDen (2 * k) / (den * twoNum (2 * k))
  let q := isqrt n
  let t := n - q * q
  let exact := decide (q * q * den * twoNum (2 * k) = num * twoDen (2 * k))
  let round (p : Nat) : Nat := r.pack ⟨false, 4 * p + (if exact then 0 else if p < t then 3 else 1), k - 2⟩
  [{ right := q, width := sigWidth, check := fun p => ((res p * res p + res t) % 15, res n), fin := round }, incStage v]

/-- The unit of a lane or of `cvt` whose result goes through significand stages; one that goes through none is a
selection, which parity checks. -/
def sigUnit (l : List Stage) : UnitOf := if l.isEmpty then ⟨4, .parity⟩ else ⟨3, .stages l⟩

/-- The stages of an operation on two finite patterns, none where an operand is a NaN or an infinity. -/
def stages2 (f : Fmt) (b c : Nat) (k : Sig → Sig → List Stage) : List Stage :=
  match sigOf f b, sigOf f c with
  | some x, some y => k x y
  | _, _ => []

/-- The stages of a conversion of a pattern, its value scaled by 2^k. -/
def cvtStages (r : Rounding) (src : Fmt) (k : Int) (v : Nat) : List Stage :=
  match sigOf src v with
  | some x => roundStages r (x.scale k)
  | none => []

end Sys2Proof.Machine
end

