-- ==== Sys2Proof/Machine/Convert.lean ====
section
/-! DEFINITION. Conversions (R278 to R300): what each conversion makes of its elements, and `cvt`. -/

namespace Sys2Proof.Machine

/-! One element. -/

/-- The Fondant word of a coordinate where the mode draws one (R285, R289). -/
def drawWord (m : Rm) (k : FonKey) (c : Nat) : Nat := if m = .sr then fonWord k c else 0

/-- A pattern of one format converted to another: pattern and flags (R286, R294). -/
def cvtElem (dst src : Fmt) (m : Rm) (sat : Bool) (w v : Nat) : Nat × Nat :=
  let x := numOf src v
  if dst = src ∧ !x.isNan then (v % 2 ^ src.width, 0) else roundTo dst m (satOf sat) w x

/-- The unit that checks a conversion: the shifter and the rounding; a pattern that is copied is a move. -/
def cvtUnit (dst src : Fmt) (m : Rm) (sat : Bool) (w v : Nat) : UnitOf :=
  sigUnit (if dst = src then [] else cvtStages ⟨dst, m, satOf sat, w⟩ src 0 v)

/-- Whether a format is an integer format. -/
def isIntFmt : Fmt → Bool
  | .i8 | .i32 | .i64 => true
  | _ => false

/-- A pattern in a general register: sign-extended for integers (R294). -/
def fmtWord (f : Fmt) (v : Nat) : Word :=
  if isIntFmt f then wordOfInt (sxInt v f.width) else BitVec.ofNat 64 v

/-! Block scaling (R278 to R280). -/

/-- emax of an MX element format (R279). -/
def emaxOf : Fmt → Int
  | .e4m3 => 8 | .e5m2 => 15 | .e3m2 => 4 | .e2m3 => 2 | .e2m1 => 2 | .dpow8 => 1 | _ => 0

/-- The encoding of +0 (R279). -/
def zeroCode (f : Fmt) : Nat := if f = .dpow8 then 0x77 else 0

/-- The largest magnitude pattern over the finite binary32 values of a list. -/
def amax32 (xs : List Nat) : Nat :=
  xs.foldl (fun m v => let a := v % 2 ^ 31; if a < 0x7F800000 then max m a else m) 0

/-- floor(log2 |x|) of a finite nonzero binary32 pattern. -/
def log2Of32 (v : Nat) : Int :=
  match numOf .f32 v with
  | .fin _ n d => log2Frac n d
  | _ => 0

/-- Xb of a block whose largest magnitude pattern is `a`. -/
def blockXb (f : Fmt) (a : Nat) : Int := log2Of32 a - emaxOf f

/-- The delta of a block under a base exponent (R279, R296). -/
def blockDelta (f : Fmt) (b : Int) (xs : List Nat) : Nat :=
  let a := amax32 xs
  if a = 0 then 15 else (max 0 (min (b - blockXb f a) 14)).toNat

/-- One value quantised at 2^(b − d) (R279, R296). -/
def quantElem (f : Fmt) (m : Rm) (b : Int) (d w : Nat) (x : Num) : Nat × Nat :=
  if d = 15 then (zeroCode f, 0) else roundTo f m .clampAll w (x.scale ((d : Int) - b))

/-- The unit that checks it. -/
def quantUnit (f : Fmt) (m : Rm) (b : Int) (d w v : Nat) : UnitOf :=
  sigUnit (if d = 15 then [] else cvtStages ⟨f, m, .clampAll, w⟩ .f32 ((d : Int) - b) v)

/-- One MX element times 2^(b − d) as binary32 (R278, R297). -/
def deqElem (f : Fmt) (b : Int) (d v : Nat) : Nat × Nat :=
  if d = 15 then (0, 0) else roundTo .f32 .rne .off 0 ((numOf f v).scale (b - d))

/-- The unit that checks it. -/
def deqUnit (f : Fmt) (b : Int) (d v : Nat) : UnitOf :=
  sigUnit (if d = 15 then [] else cvtStages ⟨.f32, .rne, .off, 0⟩ f (b - d) v)

/-- B as it is read from a register (R278). -/
def baseExp (g : Word) : Int := sxInt (natBits g.toNat 15 0) 16

/-- What `vmxio` does to the elements: NaN, +0, or a power of two (R300). -/
inductive Mxio where
  | nan
  | zero
  | scale (k : Int)
deriving DecidableEq, Repr

/-- The row of the table of R300. -/
def mxioOf (out : Bool) (b : Int) (x : Nat) : Mxio :=
  if out then
    let d := x % 16
    if d = 15 then .zero
    else
      let t := b - d
      .scale (if t > 127 then t - 127 else if t < -127 then t + 127 else 0)
  else if x % 256 = 255 then .nan
  else
    let n := b - x % 256 + 127
    .scale (if n > 14 then 14 - n else if n < 0 then -n else 0)

/-- One element of `vmxio`. -/
def mxioElem (f : Fmt) (m : Rm) (t : Mxio) (v : Nat) : Nat × Nat :=
  match t with
  | .nan => if f = .e4m3 ∨ f = .e5m2 then (canonNan f, 0) else (0, fNV)
  | .zero => (0, 0)
  | .scale k => if k = 0 then (v, 0) else roundTo f m .clampFin 0 ((numOf f v).scale k)

/-- The unit that checks it. -/
def mxioUnit (f : Fmt) (m : Rm) (t : Mxio) (v : Nat) : UnitOf :=
  match t with
  | .scale k => sigUnit (if k = 0 then [] else cvtStages ⟨f, m, .clampFin, 0⟩ f k v)
  | _ => sigUnit []

/-! `cvt` (R294). -/

/-- The registers that `cvt` reads: its source, and its coordinate under SR. -/
def cvtSrcs (sl : Slot) (rm : BitVec 3) (b c : Reg) : List Nat :=
  if effMode sl rm = .sr then [b.toNat, c.toNat] else [b.toNat]

/-- The FPX of a scalar instruction: its trap carries the flags, which its entry sets, and the destination stays
(R283). -/
def fpxRes (s : State) (i : Instr) (fl : Nat) : Res := .trap { faultOf s i 0x0A 0 0 with fpflags := fl }

/-- `cvt`: the rounding through the significand unit, FPX where an enabled flag would be set, and the result. -/
def cvtBody (i : Instr) (rm : BitVec 3) (sat : Bool) (dst src : Fmt) (a b c : Reg) (s : State) : Res :=
  if outLimit s.me then .stall s .outLimit
  else
    let m := effMode s.me rm
    let w := drawWord m s.me.fonKey (s.me.g c.toNat).toNat
    let (v, fl) := cvtElem dst src m (effSat s.me rm sat) w (s.me.g b.toNat).toNat
    if fl &&& s.me.flagEn ≠ 0 then fpxRes s i fl
    else
      withUnit s i (cvtUnit dst src m (effSat s.me rm sat) w (s.me.g b.toNat).toNat) (BitVec.ofNat 64 v) fun s1 x =>
        putLong (s1.setMe (s1.me.raise fl)) i a.toNat false (fmtWord dst (x.toNat % 2 ^ dst.width)) 0

/-- `cvt` (R293, R294). -/
def execCvt (sw : Bool) (rm : BitVec 3) (sat : Bool) (dst src : Fmt) (a b c : Reg) (s : State) :
    Host.Outcome State Fault Refusal :=
  next (runChecked (.cvt sw rm sat dst src a b c) sw (fun s => coordBad s.me rm c) (cvtSrcs s.me rm b c ++ [a.toNat])
    (cvtBody (.cvt sw rm sat dst src a b c) rm sat dst src a b c) s)

end Sys2Proof.Machine
end

