-- ==== Sys2Proof/Machine/FarAtomic.lean ====
section
/-! DEFINITION. Far atomics at their home and on their way back (R222 to R224, R229, R246, R369): exactly-once delivery,
migration with a moved page, and timeouts. -/

namespace Sys2Proof.Machine

/-! Requests (R246). -/

/-- Doublewords of a payload as a 128-bit value. -/
def pairAt (pl : List Word) (k : Nat) : BitVec 128 := (pl.getD (k + 1) 0).append (pl.getD k 0)

/-- The width with a code of R225. -/
def widthOf (n : Nat) : AmoW := if n = 1 then .d else if n = 2 then .q else .w

/-- The atomic that a request asks for. A request carries neither EVP nor the page's attributes (R246). -/
def atomOf (pl : List Word) : AtomReq :=
  let p1 := (pl.getD 1 0).toNat
  let f := p1 % 64
  let isCas := p1.testBit 6
  { pa := natBits (pl.getD 0 0).toNat 55 0, va := 0, op := amoOps.getD (f % 16) .add, w := widthOf (f / 16 % 4),
    v := pairAt pl 2, cas := if isCas then some (pairAt pl 4) else none,
    trig := if p1.testBit 8 then some ((pairAt pl 6).append (pairAt pl 4)) else none,
    idx := BitVec.ofNat 16 (natBits p1 31 16), attr := ⟨0, false⟩ }

/-- Whether a request's answer carries the old value. -/
def wantsOld (pl : List Word) : Bool := (pl.getD 1 0).toNat.testBit 7

/-- A page's number. -/
def pageOf (pa : Nat) : Nat := pa / 4096

/-! Performing at the home (R218, R219, R227, R229). -/

/-- The request that a core of this module still holds for a packet. -/
def requestOf (s : State) (p : Packet) : Option FarReq :=
  match agentCore? s p.src with
  | some c => (s.core c).far.find? fun q => q.seq == p.sidx && q.pkt.d1 == p.d1 && q.pkt.d2.toNat % 2 ^ 56 == p.d2.toNat % 2 ^ 56 && q.live
  | none => none

/-- The slots that a request's activation runs on, with its domain. -/
def requester (s : State) (p : Packet) : List SlotRef × Option (BitVec 32) :=
  match requestOf s p with
  | some q => (selfSlots s q.slot, some (s.slot q.slot).domain)
  | none => ([], none)

/-- The home performs an atomic: the reply's payload, whose third doubleword has the contended bit and, in bit 1, that
the read ended in an abort completion and nothing was performed. A request is accepted here, and not where it is turned
away, or answered again (R366). -/
def homePerform (s : State) (p : Packet) (a : AtomReq) : State × List Word :=
  let busy := contendedBit s a.pa p.src
  let s1 := invalidateOthers (noteAtomic (softFix (noteReceipt s p) a.pa (amoBytes a.w)) a.pa p.src) 5120 (lineOf a.pa)
  if lineAborts s1 a.pa then (s1, [0, 0, BitVec.ofNat 64 (busy.toNat + 2)])
  else
    let (self, dom) := requester s p
    let (s2, m) := atomStep s1 a p.d1 p.osid self dom
    let old := if wantsOld p.payload then m else 0
    (touchHome s2 a.pa a.attr true, [BitVec.ofNat 64 old, BitVec.ofNat 64 (old / 2 ^ 64), BitVec.ofNat 64 busy.toNat])

/-- An answer to a request on channel 2 (reply) or 3 (NACK). -/
def answer (s : State) (p : Packet) (chan : Nat) (pl : List Word) : State :=
  sendMsg s { src := p.dest, d0 := mkD0 p.src chan 1 pl.length (2 ^ 3), d1 := p.d1, d2 := mkD2 p.osid p.sidx 0, d3 := 0,
              payload := pl }

/-- A NACK: its kind and, for a moved page, where it is now. -/
def nack (s : State) (p : Packet) (kind page : Nat) : State :=
  answer s p 3 [BitVec.ofNat 64 kind, BitVec.ofNat 64 (page * 4096)]

/-! The state of a home (R223). -/

/-- 1 ms in cycles. -/
def msCycles : Nat := 3300000

def homeSrc? (x : ClusterSt) (src : BitVec 32) : Option HomeSrc := x.homes.find? fun h => h.src == src

/-- A source's state is written back with the cycle of the request. -/
def putHome (s : State) (cl : Nat) (h : HomeSrc) : State :=
  let x := s.cluster cl
  s.setCluster cl { x with homes := (x.homes.filter fun g => g.src != h.src) ++ [{ h with lastAt := s.now }] }

/-- Where the 4 KiB frame of a line has gone, by the forwarding table of its die; an entry covers a page of any size
(R191). -/
def forwardOf (s : State) (pa : Nat) : Option Nat :=
  let n := pageOf pa
  ((s.die (paDie pa)).forward.find? fun f => decide (f.1 ≤ n ∧ n < f.1 + f.2.2)).map fun f => f.2.1 + (n - f.1)

/-- The 32 newest replies. -/
def keepReplies (l : List (Nat × Nat × List Word)) : List (Nat × Nat × List Word) := l.take 32

/-- Rows of R223 for a source with state. -/
def atHome (s : State) (cl : Nat) (p : Packet) (h : HomeSrc) : State :=
  let a := atomOf p.payload
  let q := p.sidx
  let age := (h.exp + 2 ^ 16 - q) % 2 ^ 16
  if age = 0 then
    let nextExp := (h.exp + 1) % 2 ^ 16
    match forwardOf s a.pa with
    | some page => nack (putHome s cl { h with exp := nextExp, movedTo := (q, page) :: h.movedTo }) p 2 page
    | none =>
      let (s1, pl) := homePerform s p a
      answer (putHome s1 cl { h with exp := nextExp, replies := keepReplies ((q, lineOf a.pa, pl) :: h.replies),
                                     movedTo := h.movedTo.filter fun m => m.1 != q }) p 2 pl
  else if age ≤ 32 then
    match h.replies.find? (fun r => r.1 == q), h.movedTo.find? (fun m => m.1 == q) with
    | some r, _ => answer (putHome s cl h) p 2 r.2.2
    | none, some m => nack (putHome s cl h) p 2 m.2
    | none, none => putHome s cl h
  else putHome s cl h

/-- Source states that a home may reclaim now. -/
def reclaimable (s : State) (h : HomeSrc) : Bool := decide (h.lastAt + msCycles ≤ s.now)

/-- A request of a source without state. -/
def atNewHome (s : State) (cl : Nat) (p : Packet) : State :=
  if !p.first then nack s p 1 0
  else
    let x := s.cluster cl
    let kept := x.homes.filter fun h => !reclaimable s h
    if 256 ≤ x.homes.length ∧ 256 ≤ kept.length then nack s p 3 0
    else
      let s1 := if 256 ≤ x.homes.length then s.setCluster cl { x with homes := kept } else s
      atHome s1 cl p { src := p.src, exp := p.sidx, replies := [], movedTo := [], lastAt := s.now }

/-! Moved requests (R224). -/

/-- The atomic of a redirected request at the page's new place. -/
def movedAtom (a : AtomReq) (page : Nat) : AtomReq := { a with pa := page * 4096 + a.pa % 4096 }

/-- The frame in which a request with MOVED is performed: that which its requester was told, else that of the forwarding
table, else its own (assumption log 106). -/
def movedFrame (s : State) (p : Packet) (a : AtomReq) : Nat :=
  match (requestOf s p).bind (·.newPage) with
  | some n => n
  | none => (forwardOf s a.pa).getD (pageOf a.pa)

/-- A request with MOVED: its old home is that of its address, its identity (source, old home, s). -/
def atMovedHome (s : State) (cl : Nat) (p : Packet) : State :=
  let a := atomOf p.payload
  let old := homeCluster a.pa
  let x := s.cluster cl
  let isIt (m : MovedReply) : Bool := m.src == p.src && m.oldHome == old && m.seq == p.sidx
  match x.movedReplies.find? isIt with
  | some m =>
    answer (s.setCluster cl { x with movedReplies := updFirst isIt (fun r => { r with at_ := s.now }) x.movedReplies }) p 2 m.reply
  | none =>
    let (s1, pl) := homePerform s p (movedAtom a (movedFrame s p a))
    let y := s1.cluster cl
    answer (s1.setCluster cl { y with movedReplies := y.movedReplies ++
      [{ src := p.src, oldHome := old, seq := p.sidx, reply := pl, at_ := s.now }] }) p 2 pl

/-- A far-atomic request that has left the fabric at a home slice. -/
def farRequest (s : State) (p : Packet) : State :=
  let cl := agentModCluster p.dest
  if !headerOk p then bounce s p 6
  else
    if p.moved then atMovedHome s cl p
    else
      match homeSrc? (s.cluster cl) p.src with
      | some h => atHome s cl p h
      | none => atNewHome s cl p

/-- Whether a request with a trigger stays in the fabric: the NI of its home's atomic unit issues no message (R244). -/
def trigHeld (s : State) (p : Packet) : Bool := niFull s p.dest && (atomOf p.payload).trig.isSome

/-- FAR_ATOMIC_REQUEST: the request at position `k` of the fabric. -/
def execFarAtomicRequest (k : Nat) (s : State) : Host.Outcome State Fault Refusal :=
  next (match arriving s k with
    | some p =>
      if p.bounced || !p.rmo || p.chan != 1 || !ownEvent p || trigHeld s p then s
      else if replayed s p then takeNet s k
      else farRequest (takeNet s k) p
    | none => s)

/-- HOME_STATE_RECLAIM: a source's state goes after 1 ms without a request. -/
def execHomeStateReclaim (cl : Nat) (src : BitVec 32) (s : State) : Host.Outcome State Fault Refusal :=
  next (let x := s.cluster cl
    s.setCluster cl { x with homes := x.homes.filter fun h => !(h.src == src && reclaimable s h) })

/-- MOVED_ENTRY_EXPIRY: a migrated reply goes after 1 ms without use. -/
def execMovedEntryExpiry (cl k : Nat) (s : State) : Host.Outcome State Fault Refusal :=
  next (let x := s.cluster cl
    match x.movedReplies[k]? with
    | some m =>
      if m.at_ + msCycles ≤ s.now then s.setCluster cl { x with movedReplies := dropAt x.movedReplies k } else s
    | none => s)

/-! Moving a page (R191, R224). -/

/-- A page move: the numbers of the first 4 KiB frames of the old and the new page, and the page's size in frames. -/
structure PageMove where
  old : Nat
  new : Nat
  pages : Nat

/-- The move that an event names: its old page is a frame number with the page's size code (0 to 3: 4 KiB, 64 KiB, 2 MiB,
1 GiB) from bit 44 on. -/
def pageMove (old new : Nat) : PageMove :=
  { old := old % 2 ^ 44, new := new, pages := [1, 16, 512, 2 ^ 18].getD (old / 2 ^ 44) 1 }

/-- Whether a line lies in the page that moves. -/
def PageMove.has (m : PageMove) (line : Nat) : Bool := decide (m.old ≤ line / 64 ∧ line / 64 < m.old + m.pages)

/-- The new frame of a line of the page. -/
def PageMove.frame (m : PageMove) (line : Nat) : Nat := m.new + (line / 64 - m.old)

/-- A saved reply at the new home of its line. -/
def moveReply (s : State) (src : BitVec 32) (oldHome : Nat) (m : PageMove) (r : Nat × Nat × List Word) : State :=
  let cl := homeCluster (m.frame r.2.1 * 4096 + r.2.1 * 64 % 4096)
  let x := s.cluster cl
  s.setCluster cl { x with movedReplies := x.movedReplies ++
    [{ src := src, oldHome := oldHome, seq := r.1, reply := r.2.2, at_ := s.now }] }

/-- The replies of one source at a home whose line lies in a page go to the new homes. -/
def migrateSource (s : State) (cl : Nat) (m : PageMove) (h : HomeSrc) : State :=
  let mine := h.replies.filter fun r => m.has r.2.1
  let x := s.cluster cl
  let h2 := { h with replies := h.replies.filter (fun r => !m.has r.2.1),
                     movedTo := mine.map (fun r => (r.1, m.frame r.2.1)) ++ h.movedTo }
  mine.foldl (fun u r => moveReply u h.src cl m r)
    (s.setCluster cl { x with homes := x.homes.map fun g => if g.src = h.src then h2 else g })

/-- REPLY_CACHE_MIGRATION. -/
def execReplyCacheMigration (cl oldPage page : Nat) (s : State) : Host.Outcome State Fault Refusal :=
  next ((s.cluster cl).homes.foldl (fun u h => migrateSource u cl (pageMove oldPage page) h) s)

/-- FORWARDING_TABLE_ENTRY: an entry enters the table of 32, or leaves it. -/
def execForwardingTableEntry (die oldPage page : Nat) (enter : Bool) (s : State) :
    Host.Outcome State Fault Refusal :=
  next (let x := s.die die
    let m := pageMove oldPage page
    let rest := x.forward.filter fun f => f.1 != m.old
    if !enter then s.setDie die { x with forward := rest }
    else if 32 ≤ rest.length then s else s.setDie die { x with forward := rest ++ [(m.old, m.new, m.pages)] })

/-! Answers at the requester (R222, R223, R246, R369). -/

/-- TIDX, ORD and PA of a request (R246). -/
def farIdent (pl : List Word) : Nat × Nat := (natBits (pl.getD 0 0).toNat 55 0, natBits (pl.getD 1 0).toNat 51 32)

/-- Whether a held request is the one that a packet answers: the same home and sequence number. -/
def answers (p : Packet) (q : FarReq) : Bool :=
  q.pkt.dest == p.src && q.seq == p.sidx && q.pkt.d1 == p.d1 && q.pkt.osid == p.osid

/-- The request of a core that a packet answers; in REPLAY a sequence number counts for nothing (R369 step 4). -/
def findReq (s : State) (core : Nat) (p : Packet) : Option FarReq :=
  let x := s.core core
  if (s.die (dieOf core)).replay then x.far.find? fun q => q.pkt.d1 == p.d1 && q.pkt.osid == p.osid && q.pkt.dest == p.src
  else x.far.find? (answers p)

def sameReq (a b : FarReq) : Bool := a.home == b.home && a.seq == b.seq

/-- A request is no longer outstanding. -/
def dropReq (s : State) (core : Nat) (q : FarReq) : State :=
  let x := s.core core
  s.setCore core { x with far := x.far.filter fun r => !sameReq q r }

/-- A held request is changed and sent again. -/
def resendReq (s : State) (core : Nat) (q r : FarReq) : State :=
  let x := s.core core
  sendMsg (s.setCore core { x with far := x.far.map fun o => if sameReq q o then r else o }) r.pkt

/-- The outstanding entry of a fetching atomic. -/
def isFar (q : FarReq) (o : Outst) : Bool :=
  match o.what with
  | .far n h => n == q.seq && h == q.home
  | _ => false

/-- What a reply gives to the activation that waits for it (R227, R229). -/
def giveReply (s : State) (q : FarReq) (pl : List Word) : State :=
  let r := q.slot
  let bad := (pl.getD 2 0).toNat.testBit 1
  if q.fetch then
    match (s.slot r).outst.find? (isFar q) with
    | some o =>
      if bad then outstAbort s r o q.req.pa q.req.va
      else setFetched s r (isFar q) q.req.w ((pl.getD 0 0).toNat + (pl.getD 1 0).toNat * 2 ^ 64)
    | none => s
  else if !bad then afterHead s r
  else if !committing s r then postedFault s r q.req
  else afterHead (postedFault s r q.req) r

/-- The reply at a core (R218, R246). -/
def farReply (s : State) (core : Nat) (p : Packet) : State :=
  match findReq s core p with
  | none => s
  | some q =>
    let s1 := dropReq s core q
    let busy := (p.payload.getD 2 0).toNat.testBit 0
    let s2 := s1.setCore core (predBump (s1.core core) q.req.pa busy (!busy))
    if q.live then giveReply s2 q p.payload else s2

/-- An answer of a channel at a core, taken from the fabric. -/
def onAnswer (chan kind : Nat) (f : State → Nat → Packet → State) (k : Nat) (s : State) : State :=
  match arriving s k with
  | some p =>
    if p.bounced || !p.rmo || p.chan != chan || !ownEvent p || (chan == 3 && (p.payload.getD 0 0).toNat % 16 != kind) then s
    else if replayed s p then takeNet s k
    else if !headerOk p then bounce (takeNet s k) p 6
    else
      match agentCore? s p.dest with
      | some c => f (noteReceipt (takeNet s k) p) c p
      | none => s
  | none => s

/-- FAR_ATOMIC_REPLY. -/
def execFarAtomicReply (k : Nat) (s : State) : Host.Outcome State Fault Refusal := next (onAnswer 2 0 farReply k s)

/-- A packet with FIRST set. -/
def withFirst (p : Packet) : Packet := { p with d0 := p.d0 ||| BitVec.ofNat 64 (2 ^ 57) }

/-- A resync: the oldest unanswered request to the home goes again with FIRST. -/
def onResync (s : State) (core : Nat) (p : Packet) : State :=
  match (s.core core).far.find? fun q => q.pkt.dest == p.src with
  | some q => resendReq s core q { q with pkt := withFirst q.pkt, sentAt := s.now }
  | none => s

/-- NACK_RESYNC. -/
def execNackResync (k : Nat) (s : State) : Host.Outcome State Fault Refusal := next (onAnswer 3 1 onResync k s)

/-- The packet of a request redirected to another home, with MOVED. -/
def redirected (s : State) (p : Packet) (pa : Nat) : Packet :=
  { p with d0 := BitVec.ofNat 64 (p.d0.toNat / 2 ^ 32 * 2 ^ 32 + (homeSlice s (homeCluster pa)).toNat) ||| BitVec.ofNat 64 (2 ^ 58) }

/-- A moved page: the same request, with MOVED, to the home of the new page. -/
def onMoved (s : State) (core : Nat) (p : Packet) : State :=
  match findReq s core p with
  | some q =>
    let page := (p.payload.getD 1 0).toNat / 4096
    let pa := page * 4096 + q.req.pa % 4096
    resendReq s core q { q with pkt := redirected s q.pkt pa, sentAt := s.now, newPage := some page }
  | none => s

/-- NACK_MOVED. -/
def execNackMoved (k : Nat) (s : State) : Host.Outcome State Fault Refusal := next (onAnswer 3 2 onMoved k s)

/-- NACK_BUSY: the request is left to its timeout. -/
def execNackBusy (k : Nat) (s : State) : Host.Outcome State Fault Refusal := next (onAnswer 3 3 (fun s _ _ => s) k s)

/-! Timeouts (R222). -/

/-- 8 µs in cycles. -/
def farTimeout : Nat := 26400

/-- A request as it is sent again. -/
def retryReq (s : State) (q : FarReq) : FarReq :=
  { q with retry := q.retry + 1, sentAt := s.now,
           pkt := { q.pkt with d2 := BitVec.ofNat 64 (q.pkt.d2.toNat % 2 ^ 56 + min 255 (q.pkt.retry + 1) * 2 ^ 56) } }

/-- The record of a request that has had no answer after eight resends (R384). -/
def farLostRecord (s : State) (core : Nat) (q : FarReq) : McInfo :=
  { type := 5, sev := 2, unit := 7, agent := coreAgent s core, lane := 63,
    major := if q.req.trig.isSome then 0x4B else if q.req.cas.isSome then 0x4A else if q.fetch then 0x49 else 0x48,
    func := amoOpw q.req, res := 0, pc := (s.slot q.slot).lastPc, info := BitVec.ofNat 64 q.seq }

/-- The requests of a pair that have no reply are sent again; after the eighth time the activation of the oldest meets a
domain fault. -/
def farExpire (s : State) (core home : Nat) : State :=
  let mine := (s.core core).far.filter fun q => q.home == home
  match mine with
  | [] => s
  | q :: _ =>
    if s.now < q.sentAt + farTimeout then s
    else if 8 ≤ q.retry then
      let s1 := dropReq s core q
      if q.live then domainFault s1 q.slot (farLostRecord s core q)
      else (countRecord s1 (dieOf core)).fwTell (dieOf core) 2 (.linkCheck (recordWords (farLostRecord s core q) ++ [0, 0, 0, 0]))
    else mine.foldl (fun u r => resendReq u core r (retryReq s r)) s

/-- FAR_ATOMIC_TIMEOUT. -/
def execFarAtomicTimeout (core home : Nat) (s : State) : Host.Outcome State Fault Refusal := next (farExpire s core home)

end Sys2Proof.Machine
end

