-- ==== Sys2Proof/Machine/Firmware.lean ====
section
/-! DEFINITION. What firmware writes (R155, R162, R380, R389, R390, R398 to R406), and write-backs of dirty lines (R152,
R162). -/

namespace Sys2Proof.Machine

/-- Whether a cluster of the module exists. -/
def clusterThere (cl : Nat) : Bool := decide (cl < 320)

/-- CMSPLIT_WRITE. -/
def execCmsplitWrite (cl : Nat) (v : Word) (s : State) : Host.Outcome State Fault Refusal :=
  next (if clusterThere cl then writeSplit s cl v else s)

/-- CMSPLIT_APPLY. -/
def execCmsplitApply (cl : Nat) (s : State) : Host.Outcome State Fault Refusal :=
  next (if clusterThere cl then applySplit s cl else s)

/-- LOST_CLEAR. -/
def execLostClear (cl i : Nat) (s : State) : Host.Outcome State Fault Refusal :=
  next (if clusterThere cl ∧ i < 16 then clearLost s cl i else s)

/-- FENCE_WRITE. -/
def execFenceWrite (die i : Nat) (v : Word) (s : State) : Host.Outcome State Fault Refusal :=
  next (if die < 4 ∧ i < 20 then writeFence s die i v else s)

/-- MC2_CLEAR. -/
def execMc2Clear (r : SlotRef) (s : State) : Host.Outcome State Fault Refusal :=
  next (if r.core < 5120 ∧ r.slot < 8 then clearMc2 s r else s)

/-- PSWAP_OUT: OUT is written with 1 and IN with 0. -/
def execPswapOut (die part : Nat) (s : State) : Host.Outcome State Fault Refusal :=
  next (if die < 4 ∧ part < 256 then writePswap s die part 1 else s)

/-- PSWAP_IN: IN is written with 1 and OUT with 0. -/
def execPswapIn (die part : Nat) (s : State) : Host.Outcome State Fault Refusal :=
  next (if die < 4 ∧ part < 256 then writePswap s die part 2 else s)

/-- SWAP_CONTEXT_MOVE. -/
def execSwapContextMove (die part : Nat) (s : State) : Host.Outcome State Fault Refusal :=
  next (if die < 4 ∧ part < 256 then swapMove s die part else s)

/-- TRCCTL_WRITE. -/
def execTrcctlWrite (core : Nat) (v : Word) (s : State) : Host.Outcome State Fault Refusal :=
  next (if core < 5120 then writeTrcctl s core v else s)

/-- DEVICE_REGISTER_WRITE: firmware writes the register at an offset of a die's device region; an unlisted one holds
nothing. -/
def execDeviceRegisterWrite (die : Nat) (off : BitVec 29) (v : Word) (s : State) : Host.Outcome State Fault Refusal :=
  next (if die < 4 then (devWrite s (die * 2 ^ 46 + 3 * 2 ^ 44 + off.toNat) v).getD s else s)

/-! DIRTY_WRITEBACK (R152, R162). -/

/-- Whether a cluster memory holds a line dirty. -/
def holdsDirty (x : ClusterSt) (line : Nat) : Bool := (x.cmLines ++ x.retLines).any fun c => c.holds line && c.dirty

/-- A line that failed at write-back is lost: its address enters a free LOSTi, or firmware learns of it. -/
def loseLine (s : State) (cl line : Nat) : State :=
  match (natsFrom 0 16).find? fun i => !(s.devGet (clDev cl 0 (0x100 + 8 * i))).toNat.testBit 63 with
  | some i => s.devSet (clDev cl 0 (0x100 + 8 * i)) (BitVec.ofNat 64 (2 ^ 63 + natBits (64 * line) 47 6 * 64))
  | none => s.fwTell (dieOfCluster cl) 2 (.lostNoEntry line)

/-- DIRTY_WRITEBACK: a dirty line of a cluster memory reaches HBM, or fails to. -/
def execDirtyWriteback (cl line : Nat) (fails : Bool) (s : State) : Host.Outcome State Fault Refusal :=
  next (
    let x := s.cluster cl
    if !holdsDirty x line then s
    else
      let clean (c : CLine) : CLine := if c.holds line then { c with dirty := false } else c
      let s1 := s.setCluster cl { x with cmLines := x.cmLines.map clean, retLines := x.retLines.map clean }
      if fails then loseLine s1 cl line else s1)

end Sys2Proof.Machine
end

