-- ==== Sys2Proof/Machine/Launch.lean ====
section
/-! DEFINITION. The launch dispatcher (R103 to R105, R112 to R122, R126, R387): records, dependencies, completion,
watched queues and the time-triggered table. -/

namespace Sys2Proof.Machine

/-! Records (R112, R113). -/

/-- The clusters of a record's placement set. -/
def recClusters (b : BitVec 512) : List Nat :=
  natsFrom (80 * natBits (recCset b) 8 7 + natBits (recCset b) 6 0) (natBits (recCset b) 31 16)

/-- Whether the placement set lies in the module and the partition. -/
def recSetOk (s : State) (part : Nat) (b : BitVec 512) : Bool :=
  decide (1 ≤ natBits (recCset b) 31 16 ∧ natBits (recCset b) 31 16 ≤ 320) &&
    (recClusters b).all fun c => decide (c < 320) && (s.cluster c).owned && (s.cluster c).part.toNat == part

/-- Whether TEAM suits KIND. -/
def recTeamOk (b : BitVec 512) : Bool :=
  match recKind b with
  | 0 => recTeam b == 1
  | 1 => decide (2 ≤ recTeam b ∧ recTeam b ≤ 16)
  | 2 => recTeam b == 0
  | _ => false

/-- The BADREC conditions of R113. -/
def recOk (s : State) (part : Nat) (b : BitVec 512) : Bool :=
  recTeamOk b && decide (recPrio b ≤ 7) && (recCtchan b == 0 || decide (8 ≤ recCtchan b ∧ recCtchan b ≤ 63)) &&
  decide (recMode b < 4) && natBits b.toNat 431 424 == 0 && natBits b.toNat 447 444 == 0 && natBits (recCset b) 15 9 == 0 &&
  recEntry b % 2 == 0 && (recKind b != 2 || recEntry b % 64 == 0) && recSetOk s part b &&
  decide (recBudget b ≤ budLimit s (natBits (recCset b) 8 7) part) && recCtaddr b % 8 == 0

/-- Whether a launch identifier is live in a partition. -/
def lidLive (s : State) (part lid : Nat) : Bool := s.launches.any fun l => l.part == part && l.lid == lid

/-- The status with which the dispatcher answers a record (R113, R114): a malformed one is BADREC though it is a
duplicate too (assumption log 177). -/
def recStatus (s : State) (part : Nat) (b : BitVec 512) : Nat :=
  if !recOk s part b then 4 else if recLid b = 0 ∨ lidLive s part (recLid b) then 5 else 1

/-! Completion targets (R113 to R115). -/

/-- How the dispatcher translates for a partition: as in supervisor mode (assumption log 178). -/
def dispCtx (s : State) (part : Nat) : TrCtx :=
  { core := none, die := 0, fetch := false, root := (s.getPart part).xroot, super := true }

/-- What a completion target is: nothing to tell, a doubleword at a physical address, a message, or unusable. -/
inductive Target where
  | silent
  | word (pa : Nat)
  | message
  | unusable
  | moving

/-- The completion target of a record. -/
def targetOf (s : State) (part : Nat) (b : BitVec 512) : State × Target :=
  if recCtaddr b ≠ 0 then
    if recCtaddr b % 8 ≠ 0 then (s, .unusable)
    else
      match translate s (dispCtx s part) .store (recCtaddr b) 8 with
      | (s1, .ok e pa) => (s1, if pteView e.pte.toNat = 0 ∧ kindOf pa ≠ .io then .word pa else .unusable)
      | (s1, .moving) => (s1, .moving)
      | (s1, _) => (s1, .unusable)
  else if recCtchan b = 0 then (s, .silent)
  else if 8 ≤ recCtchan b ∧ recCtchan b ≤ 63 then (s, .message)
  else (s, .unusable)

/-- The dispatcher of a die. -/
def dispatcher (s : State) (die : Nat) : BitVec 32 := dieAgent s die 3

/-- The SID with counter value 0 in a record's domain (R115). -/
def recSid (b : BitVec 512) : BitVec 40 := BitVec.ofNat 40 (recSidbase b * 2 ^ 28)

/-- LID + 2^32 x status. -/
def lidWord (lid status : Nat) : Word := BitVec.ofNat 64 (lid + 2 ^ 32 * status)

/-- A status goes to a target (R115). -/
def tellTarget (s : State) (b : BitVec 512) (status : Nat) : Target → State
  | .silent | .moving => s
  | .word pa =>
    publishLines (engStore s pa (leBytes (recCtval b + 2 ^ 32 * status) 8)) [lineOf pa] [] none
  | .message =>
    replyMsg s (dispatcher s 0) (BitVec.ofNat 32 (recCtval b)) (recCtchan b) 1
      { ts := BitVec.ofNat 64 (recTs b), sid := recSid b, idx := 0 } [lidWord (recLid b) status]
  | .unusable => s.fwTell 0 0 (.refusedLaunch (recLid b) status)

/-- The last 4,096 completions (R115). -/
def noteEnded (s : State) (e : Ended) : State :=
  { s with completed := (e :: s.completed.filter fun c => !(c.part == e.part && c.lid == e.lid)).take 4096 }

/-! Submitting (R113, R115). -/

/-- Whether a launch identifier ended with another status than DONE. -/
def depFailed (s : State) (part d : Nat) : Bool :=
  s.completed.any fun c => c.part == part && c.lid == d && c.status != 0

/-- Whether a dependency has failed (R115). -/
def depsFailed (s : State) (part : Nat) (b : BitVec 512) : Bool :=
  let bad (d : Nat) : Bool := d != 0 && !lidLive s part d && depFailed s part d
  bad (recDep0 b) || bad (recDep1 b)

/-- Whether both dependencies are satisfied (R115). -/
def depsMet (s : State) (part : Nat) (b : BitVec 512) : Bool :=
  let met (d : Nat) : Bool := d == 0 || (!lidLive s part d && !depFailed s part d)
  met (recDep0 b) && met (recDep1 b)

/-- A refused record: its status goes to its target, and it counts among the ended. -/
def refuseRecord (s : State) (part : Nat) (b : BitVec 512) (status : Nat) : State :=
  let (s1, t) := targetOf s part b
  let s2 := tellTarget s1 b status t
  if lidLive s2 part (recLid b) then s2
  else noteEnded s2 { part := part, lid := recLid b, status := status, cancelled := false }

/-- Whether a status cannot be told now: its target lies in a page that is MOVING (R192), or is a message and the
dispatcher's NI issues none (R244). -/
def targetWaits (s : State) : Target → Bool
  | .moving => true
  | .message => niFull s (dispatcher s 0)
  | _ => false

/-- Whether a refusal with this status has to wait for its target. -/
def refusalWaits (s : State) (part : Nat) (b : BitVec 512) (status : Nat) : Bool :=
  status != 1 && targetWaits s (targetOf s part b).2

/-- Whether a record has to wait before it can be submitted. -/
def submitWaits (s : State) (part : Nat) (b : BitVec 512) : Bool := refusalWaits s part b (recStatus s part b)

/-- A record reaches the dispatcher. -/
def submit (s : State) (part : Nat) (b : BitVec 512) (queue tt parent : Option Nat) : State :=
  if recStatus s part b = 1 then
    let l : Launch := { part := part, lid := recLid b, record := b, queue := queue, ttEntry := tt, parent := parent,
                        st := .waiting, domain := 0, faulted := false, cancelled := none }
    let s1 := { s with launches := s.launches ++ [l] }
    if depsFailed s1 part b then cancelLaunch s1 part (recLid b) 2 else s1
  else refuseRecord s part b (recStatus s part b)

/-! LAUNCH_DELIVERY (R122, R126). -/

/-- Whether the launch that a device-side launch comes from has been cancelled. -/
def parentGone (s : State) (part lid : Nat) : Bool :=
  match s.launches.find? fun l => l.part == part && l.lid == lid with
  | some l => l.cancelled.isSome
  | none => s.completed.any fun c => c.part == part && c.lid == lid && c.cancelled

/-- The launch reply (R126). -/
def launchReply (s : State) (d : Delivery) (lid status : Nat) : State :=
  if d.reply = 0 then s
  else
    replyMsg s (dispatcher s (agentDie d.src)) (BitVec.ofNat 32 d.reply.toNat) (natBits d.reply.toNat 37 32) 1 d.key
      [lidWord lid status]

/-- The status with which a device-side launch is answered. -/
def deliveryStatus (s : State) (d : Delivery) : Nat :=
  if parentGone s d.part d.parent then 3 else if !d.readable then 4 else recStatus s d.part d.record

/-- A device-side launch at the dispatcher. A record that cannot be read names no launch and no target: its reply has LID
0 (assumption log 118). -/
def deliver? (s : State) (d : Delivery) : State :=
  let n := deliveryStatus s d
  if !d.readable then launchReply s d 0 n
  else
    let s1 := launchReply s d (recLid d.record) n
    if n = 3 then refuseRecord s1 d.part d.record 3 else submit s1 d.part d.record none none (some d.parent)

/-- Whether the answers to a delivery cannot be given yet (R192, R244). -/
def deliveryWaits (s : State) (d : Delivery) : Bool :=
  (d.readable && refusalWaits s d.part d.record (deliveryStatus s d)) ||
    (d.reply != 0 && niFull s (dispatcher s (agentDie d.src)))

/-- LAUNCH_DELIVERY: the launch at position `k` of the fabric. -/
def execLaunchDelivery (k : Nat) (s : State) : Host.Outcome State Fault Refusal :=
  next (match s.net[k]? with
    | some (.delivery d) => if deliveryWaits s d then s else deliver? (takeNet s k) d
    | _ => s)

/-! LAUNCH_START (R99, R103 to R105, R108, R115). -/

/-- Whether a partition is swapped out or on its way (R404). -/
def partOut (s : State) (part : Nat) : Bool :=
  s.clusters.any fun c => c.2.owned && c.2.part.toNat == part && c.2.noAdmit

/-- The number of a launch's root strands. -/
def rootCount (b : BitVec 512) : Nat := if recKind b = 2 then 0 else recTeam b

/-- Whether some handler table of the module, moved out with its partition or not, holds a binding that names a
domain. -/
def boundSomewhere (s : State) (d : Nat) : Bool :=
  let names (t : List (Nat × Binding)) : Bool := t.any fun e => e.2.domain.toNat == d
  (s.cores.any fun c => names c.2.handlers) || s.clusters.any fun c => c.2.shadow.any fun h => h.handlers.any fun t => names t.2

/-- Whether an identifier can be given to a new domain (R103). -/
def domFree (s : State) (d : Nat) : Bool := d != 0 && !(s.dom d).live && !boundSomewhere s d

/-- The first identifier from `d` on that can be given to a new domain; `n` bounds the search. -/
def firstFree (s : State) : Nat → Nat → Nat
  | 0, d => d % 2 ^ 32
  | n + 1, d => if domFree s (d % 2 ^ 32) then d % 2 ^ 32 else firstFree s n (d + 1)

/-- The identifier of the next domain: no live domain and no binding has it. -/
def nextDomain (s : State) : Nat :=
  let bound := (s.cores.map fun c => c.2.handlers.length).sum +
    (s.clusters.map fun c => (c.2.shadow.map fun h => (h.handlers.map fun t => t.2.length).sum).sum).sum
  firstFree s (s.domains.length + bound + 1) s.domNext

/-- The domain of a launch opens. -/
def openDomain (s : State) (l : Launch) : State :=
  let b := l.record
  let d : Domain := { part := BitVec.ofNat 8 l.part, ordered := !(recMode b).testBit 0,
                      sidBase := BitVec.ofNat 12 (recSidbase b), counter := rootCount b, live := true, lid := l.lid,
                      lastKey := none, holder := none, faulted := false }
  { s with
    domains := rmSet s.domains (nextDomain s) d, domNext := nextDomain s + 1,
    launches := updFirst (fun x => x.part == l.part && x.lid == l.lid)
                  (fun x => { x with st := .live, domain := BitVec.ofNat 32 (nextDomain s) }) s.launches }

/-- The trigger of a root activation. -/
def rootTrigger (s : State) (b : BitVec 512) (core : Nat) : Trigger :=
  { Trigger.none with kind := .root, key := { ts := BitVec.ofNat 64 (recTs b), sid := 0, idx := 0 }, ranOn := core,
                      accBy := core, acc := s.seqNext, accAt := s.now }

/-- A root strand on a slot with a pool entry of its core. -/
def startRoot (s : State) (r : SlotRef) (i : Nat) (b : BitVec 512) (dom : Nat) : State :=
  let cl := clusterOf r.core
  let a := poolRecord s cl i
  let w := poolFrame s cl i
  let pc := BitVec.ofNat 64 (recEntry b)
  let ts := BitVec.ofNat 64 (recTs b)
  let sid := sidOf (s.dom dom) 1
  let s1 := createFrame (takeEntry s cl i) w a pc ts sid (recBudget b) 0 (BitVec.ofNat 64 (recArg b)) 0
  startFilling (writeFresh (s1.setStrand a { Strand.reset with
    st := .running, pc := pc, wsp := w, ts := ts, sid := sid, domain := BitVec.ofNat 32 dom,
    prio := BitVec.ofNat 3 (recPrio b), chk := (recMode b).testBit 1, home := cl, pool := i }) a) r a
    (rootTrigger s b r.core) true

/-- A strand launch starts on a core of its set that can take it. -/
def startStrand (s : State) (l : Launch) (core : Nat) : State :=
  match freeSlot s core, usableEntry s core with
  | some r, some i =>
    if (recClusters l.record).contains (clusterOf core) && admits s core then
      startRoot (openDomain s l) r i l.record (nextDomain s)
    else s
  | _, _ => s

/-- A root team waits in the FIFO of every cluster of its set. -/
def startRootTeam (s : State) (l : Launch) : State :=
  let b := l.record
  let no := s.seqNext
  let t := rootTrigger s b 0
  let tm : Team := { Team.reset with
    n := recTeam b, domain := BitVec.ofNat 32 (nextDomain s), part := BitVec.ofNat 8 l.part, prio := BitVec.ofNat 3 (recPrio b),
    key := t.key, entry := BitVec.ofNat 64 (recEntry b), arg := BitVec.ofNat 64 (recArg b), trig := t,
    budget := recBudget b, chk := (recMode b).testBit 1, ts := t.key.ts }
  (recClusters b).foldl (fun u c => queueTeam u no c false) ((nextSeq (openDomain s l)).setTeam no tm)

/-- Who issues the job card of a launch of kind 2. -/
def launchIssuer (s : State) (l : Launch) : Issuer :=
  { part := BitVec.ofNat 8 l.part, xroot := (s.getPart l.part).xroot, super := false, domain := BitVec.ofNat 32 (nextDomain s),
    ts := BitVec.ofNat 64 (recTs l.record), sid := recSid l.record, idx := 0, strand := 0, queue := 4, qseq := 0,
    agent := dispatcher s 0, launch := l.lid }

/-- The job card of a launch goes to the copy engine of its set's first cluster. -/
def startLaunchJob (s : State) (l : Launch) : State :=
  issueJob (openDomain s l) { core := 5120, slot := 0 } (clusterAgent s ((recClusters l.record).headD 0) 17)
    (BitVec.ofNat 64 (recEntry l.record)) (launchIssuer s l) []

/-- A launch whose dependencies are satisfied starts. -/
def startLaunch (s : State) (l : Launch) (core : Nat) : State :=
  if depsFailed s l.part l.record then cancelLaunch s l.part l.lid 2
  else if !depsMet s l.part l.record || partOut s l.part || glazeHolds s (BitVec.ofNat 64 (recTs l.record)) then s
  else
    match recKind l.record with
    | 0 => startStrand s l core
    | 1 => startRootTeam s l
    | _ => if niFull s (dispatcher s 0) then s else startLaunchJob s l

/-- A live launch by its identifier. -/
def findLaunch (s : State) (part lid : Nat) : Option Launch := s.launches.find? fun l => l.part == part && l.lid == lid

/-- LAUNCH_START: `core` is where the root strand of a strand launch starts. -/
def execLaunchStart (part lid core : Nat) (s : State) : Host.Outcome State Fault Refusal :=
  next (match findLaunch s part lid with
    | some l => if l.st == .waiting && l.cancelled.isNone then startLaunch s l core else s
    | none => s)

/-! LAUNCH_COMPLETION (R103, R115, R387). -/

/-- Whether a domain is quiescent: nothing of it is READY, RUNNING, WAITING or uncommitted, no team of it waits, no job
is incomplete. A strand of a faulted launch whose trigger has been given up does not count (R387). -/
def quiescent (s : State) (d : BitVec 32) : Bool :=
  (strandsOfDomain s d fun x => x.st != .done && !(x.dropped && x.st == .waiting)).isEmpty &&
    (slotsOfDomain s d).isEmpty && !(s.jobs.any fun j => j.iss.domain == d) &&
    !s.clusters.any fun c => c.2.waitTeams.any fun w => (s.getTeam w.team).domain == d

/-- Whether a launch can complete. -/
def launchOver (s : State) (l : Launch) : Bool :=
  if l.st = .waiting then l.cancelled.isSome else quiescent s l.domain

/-- The status with which a launch ends (R114). -/
def endStatus (l : Launch) : Nat :=
  match l.cancelled with
  | some n => n
  | none => if l.faulted then 6 else 0

/-- A domain closes: the strands still left WAITING return their records and frames. -/
def closeDomain (s : State) (d : BitVec 32) : State :=
  if d = 0 then s
  else
    let s1 := (strandsOfDomain s d fun x => x.st == .waiting).foldl strandDone s
    s1.setDom d.toNat { s1.dom d.toNat with live := false, holder := none }

/-- Launches that depend on one that did not end DONE are cancelled (R115). -/
def cancelDependants (s : State) (part lid : Nat) : State :=
  (s.launches.filter fun l => l.part == part && l.cancelled.isNone && l.st == .waiting &&
      (recDep0 l.record == lid || recDep1 l.record == lid)).foldl (fun u l => cancelLaunch u part l.lid 2) s

/-- A launch completes, once its target can be told. -/
def completeLaunch (s : State) (l : Launch) : State :=
  let (s1, t) := targetOf s l.part l.record
  if targetWaits s1 t then s1
  else
    let st := endStatus l
    let s2 := closeDomain { s1 with launches := s1.launches.filter fun x => !(x.part == l.part && x.lid == l.lid) } l.domain
    let s3 := tellTarget (noteEnded s2 { part := l.part, lid := l.lid, status := st, cancelled := l.cancelled.isSome })
      l.record st t
    let s4 := if l.faulted ∧ l.cancelled = none then s3.fwTell 0 0 (.launchFault l.lid) else s3
    if st = 0 then s4 else cancelDependants s4 l.part l.lid

/-- LAUNCH_COMPLETION. -/
def execLaunchCompletion (part lid : Nat) (s : State) : Host.Outcome State Fault Refusal :=
  next (match findLaunch s part lid with
    | some l => if launchOver s l then completeLaunch s l else s
    | none => s)

/-! LAUNCH_QUEUE_TAKE (R116, R117). -/

/-- The header of a watched queue, by its physical address. -/
def qTail (s : State) (h : Nat) : Nat := s.load h 8
def qHead (s : State) (h : Nat) : Nat := s.load (h + 0x40) 8
def qBase (s : State) (h : Nat) : Nat := s.load (h + 0x48) 8
def qLog (s : State) (h : Nat) : Nat := s.load (h + 0x50) 1
def qState (s : State) (h : Nat) : Nat := s.load (h + 0x51) 1

/-- A store of the dispatcher to memory. -/
def dispStore (s : State) (pa n v : Nat) : State := publishLines (engStore s pa (leBytes v n)) [lineOf pa] [] none

/-- A launch record read through a partition's address space, and through its view where its page is one (R150). -/
def readRecord (s : State) (part va : Nat) : State × Option (BitVec 512) :=
  match translate s (dispCtx s part) .load va 64 with
  | (s1, .ok e pa) =>
    let view := pteView e.pte.toNat
    let ptr := ptePa e.pte.toNat
    if view ≠ 0 then
      if viewAborts s1 view ptr (pa - ptr) 64 then (s1, none)
      else (s1, some (BitVec.ofNat 512 (leOf (viewBytesAt s1 view ptr (pa - ptr) 64))))
    else if kindOf pa = .io ∨ lineAborts s1 pa then (s1, none)
    else (s1, some (BitVec.ofNat 512 (s1.load pa 64)))
  | (s1, _) => (s1, none)

/-- The next entry of a queue is taken, or the queue stops on overflow. -/
def takeEntryOf (s : State) (part q h : Nat) : State :=
  let head := qHead s h
  let n := 2 ^ qLog s h
  if qState s h ≠ 0 ∨ head = qTail s h then s
  else if n < (qTail s h + 2 ^ 64 - head) % 2 ^ 64 then (dispStore s (h + 0x51) 1 1).fwTell 0 0 (.queueStopped part q)
  else
    let up (u : State) : State := dispStore u (h + 0x40) 8 ((head + 1) % 2 ^ 64)
    match readRecord s part ((qBase s h + 64 * (head % n)) % 2 ^ 64) with
    | (s1, some b) => if submitWaits s1 part b then s else up (submit s1 part b (some q) none none)
    | (s1, none) => (up s1).fwTell 0 0 (.badQueueEntry part q (BitVec.ofNat 64 head))

/-- LAUNCH_QUEUE_TAKE. -/
def execLaunchQueueTake (part q : Nat) (s : State) : Host.Outcome State Fault Refusal :=
  next (match (s.getPart part).queues.find? fun x => x.1 == q with
    | some x => takeEntryOf s part q x.2
    | none => s)

/-! The time-triggered table (R118 to R120). -/

/-- The address of entry `e` of a partition's table, where the partition has one (R402). -/
def ttAddr (s : State) (part e : Nat) : Option Nat :=
  let v := partDev s 0 part 0x20
  if v.testBit 63 && decide (e < 256) then some (natBits v 47 13 * 2 ^ 13 + 32 * e) else none

def ttNext (s : State) (a : Nat) : Nat := s.load a 8
def ttPeriod (s : State) (a : Nat) : Nat := s.load (a + 8) 8
def ttRec (s : State) (a : Nat) : Nat := s.load (a + 0x10) 8
def ttRule (s : State) (a : Nat) : Nat := s.load (a + 0x18) 1
def ttEn (s : State) (a : Nat) : Nat := s.load (a + 0x19) 1
def ttOver (s : State) (a : Nat) : Nat := s.load (a + 0x1A) 2

/-- OVER goes up, saturating. -/
def countOver (s : State) (a n : Nat) : State := dispStore s (a + 0x1A) 2 (min 0xFFFF (ttOver s a + n))

/-- NEXT moves beyond the present time, each period passed counting in OVER; a single firing clears EN (R119). -/
def ttAdvance (s : State) (a : Nat) : State :=
  let p := ttPeriod s a
  if p = 0 then dispStore s (a + 0x19) 1 0
  else
    let k := (s.timeNs - ttNext s a) / p
    countOver (dispStore s a 8 ((ttNext s a + (k + 1) * p) % 2 ^ 64)) a k

/-- The launch of an entry's previous firing that is still live. -/
def ttLive (s : State) (part e : Nat) : Option Launch := s.launches.find? fun l => l.part == part && l.ttEntry == some e

/-- A firing is held for an entry; a firing that is held already is replaced where `beyond` says so. -/
def holdFiring (s : State) (part e : Nat) (b : BitVec 512) (beyond : Bool) : State :=
  let x := s.getPart part
  if smHas x.held e && !beyond then s else s.setPart part { x with held := rmSet x.held e b }

/-- An entry fires with its record (R119, R120). -/
def fireWith (s : State) (part e a : Nat) (b : BitVec 512) : State :=
  match ttLive s part e with
  | none => if smHas (s.getPart part).held e then holdFiring (countOver s a 1) part e b (ttRule s a == 2)
            else submit s part b none (some e) none
  | some l =>
    let s1 := countOver s a 1
    match ttRule s a with
    | 0 => s1
    | 1 => holdFiring s1 part e b false
    | _ => holdFiring (cancelLaunch s1 part l.lid 2) part e b true

/-- An enabled entry whose time has come. -/
def fireEntry (s : State) (part e a : Nat) : State :=
  if ttEn s a ≠ 1 ∨ s.timeNs < ttNext s a ∨ partOut s part then s
  else if 3 ≤ ttRule s a then (dispStore s (a + 0x19) 1 0).fwTell 0 0 (.ttBadRule part e)
  else
    match readRecord s part (ttRec s a) with
    | (s1, some b) =>
      if glazeHolds s1 (BitVec.ofNat 64 (recTs b)) || submitWaits s1 part b then s1 else ttAdvance (fireWith s1 part e a b) a
    | (s1, none) => (ttAdvance s1 a).fwTell 0 0 (.refusedLaunch 0 4)

/-- TT_FIRING. -/
def execTtFiring (part e : Nat) (s : State) : Host.Outcome State Fault Refusal :=
  next (match ttAddr s part e with
    | some a => fireEntry s part e a
    | none => s)

/-- TT_HELD_LAUNCH: a held firing is launched once the previous launch has ended. -/
def execTtHeldLaunch (part e : Nat) (s : State) : Host.Outcome State Fault Refusal :=
  next (match ttLive s part e, smHas (s.getPart part).held e with
    | none, true =>
      let x := s.getPart part
      let b := smGet 0 x.held e
      if submitWaits s part b then s else submit (s.setPart part { x with held := smDel x.held e }) part b none (some e) none
    | _, _ => s)

end Sys2Proof.Machine
end

