-- ==== Sys2Proof/Machine/LinkEvents.lean ====
section
/-! DEFINITION. The events of the link layer (R14, R264 to R269) and the crumb log (R365, R367): packets leave for
another module, flits arrive, and instances replay, degrade and retrain. -/

namespace Sys2Proof.Machine

/-! The crumb log (R365 to R367). -/

/-- The bytes of a log entry. -/
def crumbSize (p : Packet) : Nat := (56 + 8 * p.payload.length + 63) / 64 * 64

/-- A log entry as the crumb region holds it. -/
def crumbBytes (epoch : Nat) (deferred : Bool) (p : Packet) : List Byte :=
  leBytes (crumbSize p) 4 ++ leBytes epoch 4 ++ leBytes deferred.toNat 1 ++ leBytes 0 7 ++
    bytesOfWords ([BitVec.ofNat 64 (p.src.toNat + p.dest.toNat * 2 ^ 32), p.d0, p.d1,
      BitVec.ofNat 64 (p.d2.toNat % 2 ^ 56), p.d3] ++ p.payload) ++
    List.replicate (crumbSize p - 56 - 8 * p.payload.length) 0

/-- The size of an entry, and its bytes in the region. -/
def crumbItemSize : NetItem → Nat
  | .msg p => crumbSize p
  | _ => 64

def crumbStore (s : State) (item : NetItem) (deferred : Bool) (pa : Nat) : State :=
  match item with
  | .msg p => engStore s pa (crumbBytes s.epoch deferred p)
  | _ => s

/-- What leaves for another module is logged. -/
def logCrumb (s : State) (item : NetItem) (deferred : Bool) : State :=
  if !crumbOn s || s.crumbBroken then s
  else if crumbFull s (crumbItemSize item) then breakLog s
  else
    let o := crumbEnd s
    let c : Crumb := { epoch := s.epoch, deferred := deferred, item := item, offset := o, size := crumbItemSize item }
    crumbCheck (crumbStore { s with crumbs := s.crumbs ++ [c] } item deferred (crumbBase s + o))

/-! Sending to another module (R14, R264, R367). -/

/-- The module that an item of the fabric goes to. -/
def itemModule (n : NetItem) : Option Nat :=
  match n with
  | .msg p => some (agentModule (headsFor p))
  | .contrib a _ => some (agentModule (BitVec.ofNat 32 a))
  | .notice c => some (agentModule (BitVec.ofNat 32 c.leaf))
  | _ => none

/-- The die whose Gletos edge a packet leaves by: where it is. -/
def edgeDie (s : State) (p : Packet) : Nat := whereIs s p

/-- The instance of a Gletos edge that a pair of agents uses. -/
def gletosInst (s : State) (p : Packet) : Option Nat := edgeInst s (edgeDie s p) (natsFrom 8 8) p

/-- A packet enters an instance of a die. -/
def enterLink (s : State) (die inst : Nat) (p : Packet) : State :=
  s.setLink die inst (linkEnqueue s.now (s.link die inst) p)

/-- The neighbour by which a packet leaves a die for another: that die itself where it is one, else the lower-numbered of
the two (R10; assumption log 169). -/
def nextDie (die dest : Nat) : Nat :=
  if (dieNeighbours die).contains dest then dest else (dieNeighbours die).headD 0

/-- The message at position `k` of the fabric goes over a die link towards its destination (R10, R264). -/
def crossDie (s : State) (k : Nat) : State :=
  match packetAt s k with
  | none => s
  | some p =>
    let d := whereIs s p
    let t := agentDie (headsFor p)
    if !hereAgent s (headsFor p) || d == t || behindAnother s k p then s
    else
      match edgeInst s d (edgeTo d (nextDie d t)) p with
      | some i => enterLink (takeNet s k) d i p
      | none => s

/-- A packet enters a Gletos link and the log. -/
def gletosPacket (s : State) (k : Nat) (p : Packet) (m : Nat) : State :=
  if behindAnother s k p then s
  else if s.down.contains m then logCrumb (takeNet s k) (.msg p) true
  else if !s.routed.contains m then (if p.bounced then takeNet s k else bounce (takeNet s k) p 4)
  else
    match gletosInst s p with
    | none => s
    | some i =>
      logCrumb (enterLink (takeNet s k) (edgeDie s p) i p) (.msg p) false

/-- GLETOS_PACKET_SEND: the item at position `k` of the fabric leaves for another module. Contributions of collectives
are kept by their leaf and not logged. -/
def execGletosPacketSend (k : Nat) (s : State) : Host.Outcome State Fault Refusal :=
  next (match s.net[k]? with
    | some n =>
      match itemModule n with
      | some m =>
        if m = s.modNo then s
        else
          match n with
          | .msg p => gletosPacket s k p m
          | .notice _ => logCrumb (takeNet s k) n (s.down.contains m)
          | _ => takeNet s k
      | none => s
    | none => s)

/-! Flits (R265 to R268). -/

/-- Whether a die and an instance exist. -/
def linkThere (die inst : Nat) : Bool := decide (die < 4 ∧ inst < 16)

/-- LINK_DATA_FLIT. -/
def execLinkDataFlit (die inst : Nat) (f : BitVec 512) (s : State) : Host.Outcome State Fault Refusal :=
  next (if linkThere die inst then recvData s die inst f else s)

/-- LINK_IDLE_FLIT. -/
def execLinkIdleFlit (die inst : Nat) (f : BitVec 512) (s : State) : Host.Outcome State Fault Refusal :=
  next (if linkThere die inst then recvOther s die inst f 5 id else s)

/-- LINK_NACK_FLIT: go-back-N. -/
def execLinkNackFlit (die inst : Nat) (f : BitVec 512) (s : State) : Host.Outcome State Fault Refusal :=
  next (if linkThere die inst then recvOther s die inst f 6 fun u => goBack u die inst else s)

/-- LINK_REPLAY_TIMEOUT: 2 µs without ACK progress while flits are outstanding (R267). -/
def execLinkReplayTimeout (die inst : Nat) (s : State) : Host.Outcome State Fault Refusal :=
  next (
    let x := s.link die inst
    if linkThere die inst && !x.replay.isEmpty && decide (x.lastProgress + 2 * usCycles ≤ s.now) then goBack s die inst
    else s)

/-- DEGRADE_REQUEST. -/
def execDegradeRequest (die inst : Nat) (f : BitVec 512) (s : State) : Host.Outcome State Fault Refusal :=
  next (if linkThere die inst then recvOther s die inst f 7 fun u => onDegradeRequest u die inst else s)

/-- DEGRADE_ACKNOWLEDGE. -/
def execDegradeAcknowledge (die inst : Nat) (f : BitVec 512) (s : State) : Host.Outcome State Fault Refusal :=
  next (if linkThere die inst then recvOther s die inst f 8 fun u => onDegradeAck u die inst else s)

/-- RETRAIN_COMPLETE. -/
def execRetrainComplete (die inst : Nat) (errLo errHi : Nat) (ok : Bool) (s : State) : Host.Outcome State Fault Refusal :=
  next (if linkThere die inst then retrainDone s die inst errLo errHi ok else s)

/-- LINK_WINDOW_EXPIRY: LERR is cleared at each window's start (R269). -/
def execLinkWindowExpiry (die inst : Nat) (s : State) : Host.Outcome State Fault Refusal :=
  next (
    let x := s.link die inst
    if linkThere die inst && decide (x.windowStart + lwin s die inst * usCycles ≤ s.now) then
      (setLerr s die inst 0).setLink die inst { x with windowStart := s.now }
    else s)

/-- LCMD_FORCE_DEGRADE. -/
def execLcmdForceDegrade (die inst : Nat) (s : State) : Host.Outcome State Fault Refusal :=
  next (if linkThere die inst then startDegrade s die inst else s)

/-- LCMD_RETRAIN. -/
def execLcmdRetrain (die inst : Nat) (s : State) : Host.Outcome State Fault Refusal :=
  next (if linkThere die inst then startRetrain s die inst else s)

end Sys2Proof.Machine
end

