-- ==== Sys2Proof/Machine/HostPort.lean ====
section
/-! DEFINITION. What comes from outside the module and from its firmware: the host port and its mailbox (R210, R411 to
R416), the time base (R418), boot and identity (R419 to R423), protection (R422), the glaze (R363, R364), and the spare
(R367 to R370). -/

namespace Sys2Proof.Machine

/-! CXL.mem (R162, R210, R412). -/

/-- Whether the upstream HDM is enabled and the mailbox accepts commands (R419, R423). -/
def hostUp (s : State) : Bool := decide (5 ≤ s.bootStep) && !s.recovery

/-- The 768 GiB of device memory, and the 192 GiB of a die. -/
def hdmBytes : Nat := 768 * 2 ^ 30
def dieBytes : Nat := 192 * 2 ^ 30

/-- The module physical address of a byte of the HDM range (R412). -/
def hdmPa (o : Nat) : Nat := o / dieBytes * 2 ^ 46 + o % dieBytes

/-- The host reads the line of byte `o`: the line becomes clean everywhere, a corrected error is counted, and an abort
completion raises the interrupt of R162. -/
def hostRead (s : State) (o : Nat) : State :=
  let a := hdmPa o / 64 * 64
  let s1 := softFix (cleanLine s a) a 64
  if lineAborts s1 a then s1.fwTell (paDie a) 2 (.memoryAbort (lineOf a)) else s1

/-- HOST_MEM_READ. -/
def execHostMemRead (o : Nat) (s : State) : Host.Outcome State Fault Refusal :=
  next (if hostUp s ∧ o < hdmBytes then hostRead s o else s)

/-- HOST_MEM_WRITE: up to a line of bytes; running activations are not aborted (R210). -/
def execHostMemWrite (o n : Nat) (v : BitVec 512) (s : State) : Host.Outcome State Fault Refusal :=
  next (if hostUp s ∧ o < hdmBytes ∧ o % 64 + n ≤ 64 then engStore s (hdmPa o) (leBytes v.toNat n) else s)

/-- CXL_CACHE_SNOOP: the clean copies of a host line go (R153). -/
def execCxlCacheSnoop (line : Nat) (s : State) : Host.Outcome State Fault Refusal :=
  next (if kindOf (64 * line) = .host then invalidateOthers s 5120 line else s)

/-- The host writes its own memory over CXL.cache: the module's copies go, running activations are not aborted, and a
later read sees the bytes (R203, R210). -/
def hostOwnWrite (s : State) (pa : Nat) (bs : List Byte) : State :=
  if kindOf pa = .host ∧ pa % 64 + bs.length ≤ 64 then engStore s pa bs else s

/-! The mailbox (R413, R414). -/

/-- HMCMD of a command. -/
def hmWord (code part q : Nat) : Word := BitVec.ofNat 64 (code + 2 ^ 8 * part + 2 ^ 16 * q)

/-- HMCMD of a command that names no queue: its other fields keep what was written last (R5; assumption log 165). -/
def hmSame (s : State) (code : Nat) : Word := (s.mailbox.hmcmd &&& 0xFFF00) ||| BitVec.ofNat 64 code

/-- The host writes an argument alone (R413). -/
def hostArgWrite (s : State) (second : Bool) (v : Word) : State :=
  { s with mailbox := if second then { s.mailbox with hmarg1 := v } else { s.mailbox with hmarg0 := v } }

/-- The mailbox after a command with its arguments: done, or refused with a reason. -/
def hmDone (s : State) (cmd : Word) (a0 a1 : Word) : State :=
  { s with mailbox := { s.mailbox with hmcmd := cmd, hmarg0 := a0, hmarg1 := a1, hmstat := 2 } }

def hmRefuse (s : State) (cmd : Word) (a0 a1 : Word) (reason : Nat) : State :=
  { s with
    mailbox := { s.mailbox with hmcmd := cmd, hmarg0 := a0, hmarg1 := a1, hmstat := BitVec.ofNat 64 (3 + 2 ^ 8 * reason) } }

/-- The header of a registered queue. -/
def queueOf (s : State) (part q : Nat) : Option Nat :=
  let x := s.getPart part
  if x.valid then (x.queues.find? fun (p : Nat × Nat) => p.1 == q).map (·.2) else none

/-- Teardown: STATE becomes 2 before any launch of the queue is cancelled (R121, R416). -/
def teardown (s : State) (part q h : Nat) : State :=
  (s.launches.filter fun l => l.part == part && l.queue == some q && l.cancelled.isNone).foldl
    (fun u l => cancelLaunch u part l.lid 2) (dispStore s (h + 0x51) 1 2)

/-- Reset: a teardown, then HEAD := TAIL and STATE := 0 (R121). -/
def resetQueue (s : State) (part q h : Nat) : State :=
  let s1 := teardown s part q h
  dispStore (dispStore s1 (h + 0x40) 8 (qTail s1 h)) (h + 0x51) 1 0

/-- A command on a registered queue; without one it is refused with reason 1. -/
def queueCommand (s : State) (code part q : Nat) (f : Nat → State) : State :=
  let w := hmWord code part q
  match queueOf s part q with
  | some h => hmDone (f h) w s.mailbox.hmarg0 s.mailbox.hmarg1
  | none => hmRefuse s w s.mailbox.hmarg0 s.mailbox.hmarg1 1

/-- TEARDOWN. -/
def execTeardown (part q : Nat) (s : State) : Host.Outcome State Fault Refusal :=
  next (if hostUp s ∧ part < 256 ∧ q < 16 then queueCommand s 1 part q (teardown s part q) else s)

/-- RESET. -/
def execReset (part q : Nat) (s : State) : Host.Outcome State Fault Refusal :=
  next (if hostUp s ∧ part < 256 ∧ q < 16 then queueCommand s 2 part q (resetQueue s part q) else s)

/-! REGQ (R415). -/

/-- The physical address of a virtual one that a partition's root maps to device memory, where its leaf allows it. -/
def devicePage (s : State) (part : Nat) (ok : Nat → Bool) (va : Nat) : Option Nat :=
  match walkRoot s (s.getPart part).xroot va with
  | .leaf pte _ size _ =>
    let pa := natBits (ptePa pte) 55 0 / size * size + va % size
    if ok pte && pteView pte == 0 && kindOf pa == .device then some pa else none
  | _ => none

/-- Whether every page of a range maps to readable device memory. -/
def rangeReadable (s : State) (part va n : Nat) : Bool :=
  (natsFrom 0 (n / 4096 + 2)).all fun k =>
    let a := if k = 0 then va else (va / 4096 + k) * 4096
    decide (va + n ≤ a) || (devicePage s part pteR (a % 2 ^ 64)).isSome

/-- Whether a header at a physical address is one that can be registered. -/
def headerFits (s : State) (part h : Nat) : Bool :=
  decide (1 ≤ qLog s h ∧ qLog s h ≤ 16 ∧ qBase s h % 64 = 0) && rangeReadable s part (qBase s h) (64 * 2 ^ qLog s h) &&
    qState s h == 0 && decide ((qTail s h + 2 ^ 64 - qHead s h) % 2 ^ 64 ≤ 2 ^ qLog s h)

/-- The registered queue, or the reason of the refusal (R414, R415). -/
def regqCheck (s : State) (part q : Nat) (hdr : Word) : Except Nat Nat :=
  let x := s.getPart part
  if !x.valid then .error 1
  else if 16 ≤ x.queues.length then .error 2
  else if hdr.toNat % 128 ≠ 0 then .error 3
  else
    match devicePage s part (fun p => pteR p && pteW p) hdr.toNat with
    | none => .error 3
    | some h =>
      if !headerFits s part h then .error 4
      else if (s.parts.any fun p => p.2.queues.any fun (e : Nat × Nat) => e.2 == h) ||
          x.queues.any fun (e : Nat × Nat) => e.1 == q then .error 5
      else .ok h

/-- REGQ. -/
def execRegq (part q : Nat) (hdr : Word) (s : State) : Host.Outcome State Fault Refusal :=
  next (if hostUp s ∧ part < 256 ∧ q < 16 then
      let w := hmWord 3 part q
      match regqCheck s part q hdr with
      | .error n => hmRefuse s w hdr s.mailbox.hmarg1 n
      | .ok h =>
        let x := s.getPart part
        hmDone (s.setPart part { x with queues := x.queues ++ [(q, h)] }) w hdr s.mailbox.hmarg1
    else s)

/-- Whether a command is refused with reason 1 (R414). -/
def refusedCommand (s : State) (cmd part q : Nat) : Bool :=
  match cmd with
  | 1 | 2 => (queueOf s part q).isNone
  | 3 => !(s.getPart part).valid
  | 4 | 5 => false
  | _ => true

/-- HMCMD_REFUSED. -/
def execHmcmdRefused (cmd part q : BitVec 8) (s : State) : Host.Outcome State Fault Refusal :=
  next (
    let n := q.toNat % 16
    if hostUp s && refusedCommand s cmd.toNat part.toNat n then
      hmRefuse s (hmWord cmd.toNat part.toNat n) s.mailbox.hmarg0 s.mailbox.hmarg1 1
    else s)

/-! TIMESYNC (R418). -/

/-- The units of State's time base in a nanosecond. -/
def nsUnits : Int := 33000000000

/-- The time base after a TIMESYNC: a first offset above 10 ms is one forward step, every other is slewed. -/
def TimeBase.sync (t : TimeBase) (off rate : Int) : TimeBase :=
  let r := if rate > 500000 then 500000 else if rate < -500000 then -500000 else rate
  if !t.synced && decide (off > 10000000) then
    { units := t.units + (off * nsUnits).toNat, slew := 0, rate := r, synced := true }
  else { units := t.units, slew := off * nsUnits, rate := r, synced := true }

/-- TIMESYNC. -/
def execTimesync (off rate : Word) (s : State) : Host.Outcome State Fault Refusal :=
  next (if hostUp s then hmDone { s with time := s.time.sync off.toInt rate.toInt } (hmSame s 5) off rate else s)

/-! The glaze (R363, R364). -/

/-- GLAZE: firmware learns G and the epoch; one that comes while another runs changes nothing. -/
def execGlaze (g epoch : Word) (s : State) : Host.Outcome State Fault Refusal :=
  next (if hostUp s then
      if s.glaze = .idle then
        hmDone ({ s with glaze := .holding, glazeG := g, glazeEpoch := natBits epoch.toNat 31 0 }.fwTell 0 0 (.glaze g epoch))
          (hmSame s 4) g epoch
      else hmDone s (hmSame s 4) g epoch
    else s)

/-- Whether an activation, or what is about to start one, stands below G. -/
def slotBelow (g : Nat) (sl : Slot) : Bool := sl.act != .none && sl.helperOf.isNone && decide (sl.key.ts.toNat < g)

def strandBelow (g : Nat) (x : Strand) : Bool :=
  x.st == .ready && match x.trig with
    | some t => decide (t.key.ts.toNat < g)
    | none => false

def packetBelow (g : Nat) (p : Packet) : Bool := decide (p.d1.toNat < g)

def itemBelow (g : Nat) : NetItem → Bool
  | .msg p => packetBelow g p
  | .delivery d => decide (d.key.ts.toNat < g)
  | _ => false

def coreBelow (g : Nat) (x : CoreSt) : Bool :=
  (x.retbuf.any fun m => packetBelow g m.pkt) ||
    x.pendq.any fun (p : Nat × Packet) => packetBelow g p.2 && (binding? x p.1).isSome && !x.masked.getLsbD p.1

/-- Whether one of a list of pieces of messages belongs to a message below G; `ts` is the TS of the message of each VN
field whose first piece has been seen. -/
def piecesBelow (g : Nat) : List (Nat × Nat × List Byte) → List (Nat × Nat) → Bool
  | [], _ => false
  | (vn, ty, d) :: r, ts =>
    let t := if ty = 1 ∨ ty = 4 then leOf ((d.drop 16).take 8) else smGet 0 ts vn
    decide (t < g) || piecesBelow g r (smSet 0 ts vn t)

/-- Whether an instance holds a message below G that its peer has not accepted (R363 step 4). -/
def linkBelow (g : Nat) (x : LinkInst) : Bool :=
  piecesBelow g ((x.replay.map fun f => (flVn f, flType f, flData f)) ++ x.queued) []

/-- Whether the module still has work below G (R363 steps 3 and 4); an open collective instance is none. That the sum
over all modules is 0 is what brings GLAZE_SAVE about (assumption log 170). -/
def workBelow (s : State) (g : Nat) : Bool :=
  (s.slots.any fun p => slotBelow g p.2) || (s.strands.any fun p => strandBelow g p.2) ||
    (s.clusters.any fun p => p.2.waitTeams.any fun w => decide ((s.getTeam w.team).key.ts.toNat < g)) ||
    (s.launches.any fun l => l.st == .waiting && decide (recTs l.record < g) && depsMet s l.part l.record) ||
    (s.jobs.any fun j => decide (j.iss.ts.toNat < g) && agentUnit j.agent != 0) || s.net.any (itemBelow g) ||
    (s.cores.any fun p => coreBelow g p.2) || s.links.any fun p => linkBelow g p.2

/-- Where an image slot stands in the model's safe-tier memory, and the fields of its header (R364). -/
def imageBase (slot : Nat) : Nat := slot * 2 ^ 40
def slotEpoch (s : State) (slot : Nat) : Nat := bytesLE s.safe (imageBase slot + 0xC) 4

/-- Whether an image slot holds a complete image of a module. -/
def slotComplete (s : State) (slot m : Nat) : Bool :=
  let b := imageBase slot
  bytesLE s.safe b 4 == 0x5A414C47 && bytesLE s.safe (b + 6) 2 == 1 && bytesLE s.safe (b + 8) 4 == m

/-- The slot of the module that its next image takes: the one that does not hold its newest complete image (R364). -/
def imageSlot (s : State) : Nat :=
  let a := 2 * s.modNo
  if slotComplete s a s.modNo && (!slotComplete s (a + 1) s.modNo || decide (slotEpoch s (a + 1) ≤ slotEpoch s a)) then a + 1
  else a

/-- Whether every module has a complete image of an epoch: this one, and those that have a route (R363 step 7, R364). -/
def epochComplete (s : State) (epoch : Nat) : Bool :=
  (s.modNo :: s.routed).all fun m => [2 * m, 2 * m + 1].any fun k => slotComplete s k m && slotEpoch s k == epoch

/-- The image of the state as it stands. -/
def imageOf (s : State) : Image :=
  { mem := s.mem, dev := s.dev, slots := s.slots, cores := s.cores, clusters := s.clusters, dies := s.dies, parts := s.parts,
    strands := s.strands, domains := s.domains, teams := s.teams, launches := s.launches, completed := s.completed,
    jobs := s.jobs, jobNext := s.jobNext, domNext := s.domNext, seqNext := s.seqNext, net := s.net }

/-- The image header (R364). -/
def headerBytes (s : State) (state epoch : Nat) (g : Word) : List Byte :=
  leBytes 0x5A414C47 4 ++ leBytes 1 2 ++ leBytes state 2 ++ leBytes s.modNo 4 ++ leBytes epoch 4 ++ leBytes g.toNat 8 ++
    leBytes hdmBytes 8

/-- Whether an address is one of the module's HBM (R178). -/
def isHdm (a : Nat) : Bool := decide (a < 2 ^ 48) && kindOf a == .device && decide (natBits a 43 0 < dieBytes)

/-- The device memory as an image holds it, die 0 first. -/
def imageCells (m : List Host.Cell) (base : Nat) : List Host.Cell :=
  (m.filter fun c => isHdm c.1).map fun c => (base + paDie c.1 * dieBytes + natBits c.1 43 0, c.2)

/-- An image slot's bytes replaced. -/
def putImage (m : List Host.Cell) (base : Nat) (cells : List Host.Cell) : List Host.Cell :=
  (m.filter fun c => decide (c.1 < base)) ++ cells ++ m.filter fun c => decide (base + 2 ^ 40 ≤ c.1)

/-- The header of an image slot is written. -/
def putHeader (s : State) (state : Nat) : State :=
  let base := imageBase (imageSlot s)
  { s with safe := writeLE s.safe base 32 (leOf (headerBytes s state s.glazeEpoch s.glazeG)) }

/-- The image is written with STATE 0. -/
def saveImage (s : State) : State :=
  let n := imageSlot s
  let cells := imageCells s.mem (imageBase n + 64)
  putHeader { s with glaze := .writing, images := rmSet s.images n (imageOf s), safe := putImage s.safe (imageBase n) cells } 0

/-- GLAZE_SAVE. -/
def execGlazeSave (s : State) : Host.Outcome State Fault Refusal :=
  next (if s.glaze = .holding ∧ workBelow s s.glazeG.toNat = false then saveImage s else s)

/-- What older epochs left is freed once every module's image is COMPLETE (R363 step 7). -/
def freeOlder (s : State) : State :=
  if epochComplete s s.epoch then
    let old := imageSlot s
    { s with
      crumbs := s.crumbs.filter (fun c => s.epoch ≤ c.epoch), images := smDel s.images old
      safe := putImage s.safe (imageBase old) [] }
  else s

/-- The image becomes COMPLETE, and the log opens the new epoch (R363 steps 5 and 6). -/
def endGlaze (s : State) : State :=
  freeOlder { putHeader s 1 with
    glaze := .idle, epoch := s.glazeEpoch, receipts := [], crumbBroken := false, crumb75 := false }

/-- GLAZE_IMAGE_COMPLETE: this module's image, or that of another module. -/
def execGlazeImageComplete (s : State) : Host.Outcome State Fault Refusal :=
  next (if s.glaze = .writing then endGlaze s else if s.glaze = .idle then freeOlder s else s)

/-- Another module writes the pooled safe-tier memory. -/
def pooledWrite (s : State) (a : Nat) (bs : List Byte) : State := { s with safe := writeLE s.safe a bs.length (leOf bs) }

/-! Failure and the spare (R367 to R370). -/

/-- HEARTBEAT_MISS. -/
def execHeartbeatMiss (m : Nat) (s : State) : Host.Outcome State Fault Refusal := next (s.fwTell 0 0 (.moduleFailed m))

/-- MODULE_DOWN. -/
def execModuleDown (m : Nat) (s : State) : Host.Outcome State Fault Refusal :=
  next (if m = s.modNo ∨ s.down.contains m then s
    else
      let s0 := [0, 1, 2, 3].foldl (fun u d =>
        u.setDie d { u.die d with served := (u.die d).served.filter fun v => agentModule (BitVec.ofNat 32 v.2.2.1) != m }) s
      let s1 := { s0 with down := s.down ++ [m] }
      if s.crumbBroken then s1.fwTell 0 0 (.brokenLogFault m) else s1)

/-- Whether an image slot holds an image of a module that is complete, its epoch on every other module too (R364). -/
def imageComplete (s : State) (slot m : Nat) : Bool :=
  smHas s.images slot && slotComplete s slot m &&
    (s.routed.filter (· != m)).all fun n => [2 * n, 2 * n + 1].any fun k => slotComplete s k n && slotEpoch s k == slotEpoch s slot

/-- REPLAY on or off in every die. -/
def setReplay (s : State) (on : Bool) : State :=
  [0, 1, 2, 3].foldl (fun u d => u.setDie d { u.die d with replay := on }) s

/-- SPARE_LOAD: a module that is no spare of `m` has nothing to do. -/
def execSpareLoad (m slot : Nat) (s : State) : Host.Outcome State Fault Refusal :=
  next (if !s.down.contains m && s.spare.isNone && imageComplete s slot m then
      setReplay { s with modNo := m, spare := some { slot := slot, loaded := false } } true
    else s)

/-- The state that an image brings back: all but translations, held lines and what the link layer and the host hold. -/
def restoreImage (s : State) (i : Image) : State :=
  let cold (x : CoreSt) : CoreSt := { x with itlb := [], dtlb := [], l1d := [], l1i := [] }
  let coldCl (x : ClusterSt) : ClusterSt := { x with tlb := [], rdcLines := [], waferLines := [] }
  { s with
    mem := i.mem, dev := i.dev, slots := i.slots, cores := i.cores.map fun p => (p.1, cold p.2)
    clusters := i.clusters.map fun p => (p.1, coldCl p.2)
    dies := i.dies.map fun p => (p.1, { p.2 with tlb := [], tableCache := [] })
    parts := i.parts, strands := i.strands, domains := i.domains, teams := i.teams, launches := i.launches
    completed := i.completed, jobs := i.jobs, jobNext := i.jobNext, domNext := i.domNext, seqNext := i.seqNext, net := i.net }

/-- The entries of the log that go to a module, deferred or not. -/
def crumbsTo (s : State) (m : Nat) (deferred : Bool) : List Crumb :=
  s.crumbs.filter fun c => c.deferred == deferred && itemModule c.item == some m

/-- A logged packet enters a link again; it is not logged twice. A notice leaves as it did the first time, with no
flits that the manual lays out (assumption log 168). -/
def restream (s : State) (c : Crumb) : State :=
  match c.item with
  | .msg p =>
    match gletosInst s p with
    | some i => enterLink s (edgeDie s p) i p
    | none => s
  | _ => s

/-- SPARE_LOAD_COMPLETE: the spare takes the image over; every other module streams its entries to it. -/
def execSpareLoadComplete (s : State) : Host.Outcome State Fault Refusal :=
  next (match s.spare with
    | some p =>
      if p.loaded || !smHas s.images p.slot then s
      else
        match s.images.find? fun (e : Nat × Image) => e.1 == p.slot with
        | some e => setReplay { restoreImage s e.2 with spare := some { p with loaded := true } } true
        | none => s
    | none =>
      match s.down.head? with
      | some m => (crumbsTo s m false).foldl restream s
      | none => s)

/-- Replay ends at the spare: every core opens fresh sequence state at each home. -/
def endReplay (s : State) : State :=
  setReplay { s with spare := none, cores := s.cores.map fun p => (p.1, { p.2 with farNext := [] }) } false

/-- Replay ends at a module that sent to the failed one: routes point at the spare, and the deferred packets leave. -/
def unDefer (s : State) (m : Nat) : State :=
  { s with
    down := s.down.filter fun x => x != m
    routed := if s.routed.contains m then s.routed else s.routed ++ [m]
    net := s.net ++ (crumbsTo s m true).map fun c => c.item
    crumbs := s.crumbs.filter fun c => !(c.deferred && itemModule c.item == some m) }

/-- Whether a spare has still to consume a packet that was streamed to it (R369 step 5). -/
def inboundLeft (s : State) : Bool :=
  s.net.any fun n => match n with
    | .msg p => hereAgent s (headsFor p) && !hereAgent s (if p.bounced then p.dest else p.src)
    | _ => false

/-- Whether flits for other modules have still to be accepted. -/
def streamLeft (s : State) : Bool := s.links.any fun p => decide (8 ≤ p.1 % 16) && p.2.holdsFlits

/-- REPLAY_END: once what was streamed has been consumed (R369 step 5). -/
def execReplayEnd (s : State) : Host.Outcome State Fault Refusal :=
  next (match s.spare with
    | some p => if p.loaded && !inboundLeft s then endReplay s else s
    | none =>
      match s.down.head? with
      | some m => if streamLeft s then s else unDefer s m
      | none => s)

/-! Boot (R419, R420, R423). -/

/-- What a reset finds again: the flash, safe-tier memory, the place of the module among the others, and what is still
to come from outside. -/
def afterReset (s : State) : State :=
  { State.reset with
    now := s.now, agenda := s.agenda, flash := s.flash, safe := s.safe, images := s.images, modNo := s.modNo,
    routed := s.routed, glitches := s.glitches, free := s.free }

/-- BOOTSTAT and the step it shows. -/
def atStep (s : State) (n : Nat) (rec : Bool) : State :=
  { s with bootStep := n, recovery := rec,
           mailbox := { s.mailbox with bootstat := BitVec.ofNat 64 (n + (if rec then 256 else 0)) } }

/-- A partition of the configuration record. -/
def configPart (s : State) (c : PartCfg) : State :=
  let own (u : State) (k : Nat) : State :=
    if k < 320 then u.setCluster k { u.cluster k with part := BitVec.ofNat 8 c.part, owned := true } else u
  let regs (u : State) (d : Nat) : State :=
    let w (x : State) (off : Nat) (v : Word) : State := writePart x d (64 * c.part + off) v
    w (w (w (w u 0 c.ptvec) 8 c.pbudlim) 0x10 c.phoriz) 0x20 c.pttab
  let s1 := c.clusters.foldl own (s.setPart c.part { Part.reset with valid := true, xroot := c.xroot &&& ~~~(0xFFF : Word) })
  [0, 1, 2, 3].foldl regs s1

/-- The defaults of CMSPLIT, of the link thresholds and of CRUMB. -/
def configRegs (s : State) (f : Flash) : State :=
  let split (u : State) (k : Nat) : State :=
    match f.cmsplit with
    | some v => if splitOk v.toNat then u.devSet (clDev k 0 0) (v &&& 0x1F1F1F1F) else u
    | none => u
  let thr (u : State) (k : Nat) : State :=
    match f.lthr with
    | some v => u.devSet (linkReg (k / 16) (k % 16) 0x10) (maskBits v 31 0)
    | none => u
  let s1 := (natsFrom 0 64).foldl thr ((natsFrom 0 320).foldl split s)
  [0, 1, 2, 3].foldl (fun u d => (writeDie u d 4 0 f.crumb).getD u) s1

/-- The links come up: every die has two neighbours and a Gletos edge (R10). -/
def trainLinks (s : State) : State :=
  (natsFrom 0 64).foldl (fun u k => u.setLink (k / 16) (k % 16) { LinkInst.reset with up := true, windowStart := u.now }) s

/-- The registers set from the record, and the links up. -/
def configure (s : State) : State :=
  trainLinks (configRegs ((s.flash.parts.filter fun c => decide (c.part < 256)).foldl configPart s) s.flash)

/-- The steps of R423 from the boot ROM on. -/
def boot (s : State) (fwOk recOk : Bool) : State :=
  if !fwOk || decide (s.flash.fwVersion < s.flash.minVersion) then atStep s 1 true
  else if !recOk then atStep s 2 true
  else atStep (configure s) 6 false

/-- COLD_RESET: `fwOk` and `recOk` say whether the signatures of the firmware image and of the record hold. -/
def execColdReset (fwOk recOk : Bool) (s : State) : Host.Outcome State Fault Refusal := next (boot (afterReset s) fwOk recOk)

/-- HOT_RESET. -/
def execHotReset (fwOk recOk : Bool) (s : State) : Host.Outcome State Fault Refusal := next (boot (afterReset s) fwOk recOk)

/-- RECOVERY_IMAGE: a replacement image whose signature holds has a version that the flash accepts. -/
def execRecoveryImage (fwOk recOk : Bool) (s : State) : Host.Outcome State Fault Refusal :=
  next (if s.recovery then
      let f := s.flash
      let s1 := if fwOk then { s with flash := { f with fwVersion := max f.fwVersion f.minVersion } } else s
      boot (afterReset s1) fwOk recOk
    else s)

/-! Identity (R421) and CDAT (R411). -/

/-- A request over a DOE mailbox. -/
def doeAsk (s : State) (m : DoeMsg) : State := { s with doe := s.doe ++ [m] }

def execGetVersion (s : State) : Host.Outcome State Fault Refusal := next (doeAsk s .getVersion)
def execGetCapabilities (s : State) : Host.Outcome State Fault Refusal := next (doeAsk s .getCapabilities)
def execNegotiateAlgorithms (s : State) : Host.Outcome State Fault Refusal := next (doeAsk s .negotiateAlgorithms)
def execGetDigests (s : State) : Host.Outcome State Fault Refusal := next (doeAsk s .getDigests)
def execGetCertificate (s : State) : Host.Outcome State Fault Refusal := next (doeAsk s .getCertificate)
def execChallenge (nonce : BitVec 256) (s : State) : Host.Outcome State Fault Refusal := next (doeAsk s (.challenge nonce))
def execGetMeasurements (s : State) : Host.Outcome State Fault Refusal := next (doeAsk s .getMeasurements)
def execCdatRequest (s : State) : Host.Outcome State Fault Refusal := next (doeAsk s .cdat)

/-! Protection (R422) and rebuilding (R163). -/

def setHalf (s : State) (die : Nat) (on : Bool) : State :=
  if die < 4 then s.setDie die { s.die die with halfClock := on } else s

/-- THERMAL_THROTTLE: the die's clock is halved. -/
def execThermalThrottle (die : Nat) (s : State) : Host.Outcome State Fault Refusal := next (setHalf s die true)

/-- THROTTLE_CLEAR. -/
def execThrottleClear (die : Nat) (s : State) : Host.Outcome State Fault Refusal := next (setHalf s die false)

/-- THERMAL_TRIP: all four dies stop, channel 2 hears of it, and every Gletos instance is down. -/
def execThermalTrip (s : State) : Host.Outcome State Fault Refusal :=
  let off (u : State) (k : Nat) : State :=
    if 8 ≤ k % 16 then u.setLink (k / 16) (k % 16) { u.link (k / 16) (k % 16) with up := false } else u
  next ((natsFrom 0 64).foldl off ({ s with tripped := true }.fwTell 0 2 .thermalTrip))

/-- REBUILD: a stack's lost channel has been rewritten, and every unit on it can be read again (R163). -/
def execRebuild (die stack : Nat) (s : State) : Host.Outcome State Fault Refusal :=
  let d := s.die die
  next (if die < 4 then s.setDie die { d with
          lostStacks := d.lostStacks.filter fun x => x != stack, badUnits := d.badUnits.filter fun u => u % 4 != stack }
        else s)

end Sys2Proof.Machine
end

