-- ==== Sys2Proof/Machine/Land.lean ====
section
/-! DEFINITION. The landing unit of a cluster memory controller (R245 to R249): what a LAND message writes through its
transform, the landing windows, and the acknowledgement. -/

namespace Sys2Proof.Machine

/-- One unit of a landing: its address and its bytes written, or a read-modify-write of a container (transform 4) or of a
doubleword (transform 5) with a payload value. -/
inductive LandUnit where
  | write (pa : Nat) (bs : List Byte)
  | bsi (pa v : Nat)
  | max (pa v : Nat)

def LandUnit.pa : LandUnit → Nat
  | .write a _ => a
  | .bsi a _ => a
  | .max a _ => a

def LandUnit.size : LandUnit → Nat
  | .write _ bs => bs.length
  | .bsi .. => 16
  | .max .. => 8

/-- Bytes cut into pieces of 8 from an address on. -/
def landWrites (pa : Nat) (bs : List Byte) : List LandUnit :=
  (natsFrom 0 ((bs.length + 7) / 8)).map fun k => .write (pa + 8 * k) ((bs.drop (8 * k)).take 8)

/-! The descriptor doubleword of transforms 2 and 3 (R248). -/

def ldBase (w : Word) : Int := sxInt (natBits w.toNat 15 0) 16
def ldFmt (w : Word) : Nat := natBits w.toNat 19 16
def ldNb (w : Word) : Nat := natBits w.toNat 22 20
def ldDelta (w : Word) (k : Nat) : Nat := natBits w.toNat (35 + 4 * k) (32 + 4 * k)

/-- Transform 1: the 8 bytes of column `j` of a quarter of a 32 x 32 tile. -/
def landTranspose (a : Nat) (bs : List Byte) : List LandUnit :=
  let t := a / 1024 * 1024
  let q := a / 256 % 4
  (natsFrom 0 32).map fun j => .write (t + 32 * j + 8 * q) ((natsFrom 0 8).map fun i => bs.getD (32 * i + j) 0)

/-- Transform 2: MX blocks to bfloat16. -/
def landDequant (a : Nat) (w : Word) (bs : List Byte) : List LandUnit :=
  let b := codeWidth (ldFmt w)
  let v := leOf bs
  landWrites a ((natsFrom 0 (32 * ldNb w)).flatMap fun k =>
    leBytes (dequant16 (fmtOfCode (ldFmt w)) (v / 2 ^ (b * k) % 2 ^ b) (ldDelta w (k / 32)) (ldBase w)) 2)

/-- The bfloat16 values of a block as binary32 patterns. -/
def landBlock (v k : Nat) : List Nat := (natsFrom (32 * k) 32).map fun i => v / 2 ^ (16 * i) % 2 ^ 16 * 2 ^ 16

/-- Transform 3: bfloat16 to MXFP8, the delta nibbles behind the elements. -/
def landQuant (a : Nat) (w : Word) (bs : List Byte) : List LandUnit :=
  let f := fmtOfCode (ldFmt w)
  let v := leOf bs
  let n := ldNb w
  let ds := (natsFrom 0 n).map fun k => blockDelta f (ldBase w) (landBlock v k)
  let es := (natsFrom 0 n).flatMap fun k =>
    (landBlock v k).map fun x => BitVec.ofNat 8 (quantElem f .rne (ldBase w) (ds.getD k 0) 0 (numOf .f32 x)).1
  landWrites a es ++ [.write (a + 32 * n) (leBytes (ds.zipIdx.foldl (fun m p => m + p.1 * 16 ^ p.2) 0) 2)]

/-- The units that a LAND writes, in ascending address order; nothing where it breaks the row of its transform
(R248). -/
def landUnits (p : Packet) : Option (List LandUnit) :=
  let a := p.d3.toNat
  let n := p.len
  let bs := bytesOfWords (p.payload.take n)
  let w := p.payload.getD 0 0
  match p.xform with
  | 0 => if decide (1 ≤ n) && a % 8 == 0 then some (landWrites a bs) else none
  | 1 => if n == 32 && a % 256 == 0 then some (landTranspose a bs) else none
  | 2 =>
    if decide (1 ≤ ldNb w ∧ ldFmt w ≤ 5) && n == 1 + (ldNb w * 32 * codeWidth (ldFmt w) + 63) / 64 && a % 64 == 0 then
      some (landDequant a w (bs.drop 8))
    else none
  | 3 =>
    if decide (1 ≤ ldNb w ∧ ldNb w ≤ 3 ∧ ldFmt w ≤ 1) && n == 1 + 8 * ldNb w && a % 32 == 0 then
      some (landQuant a w (bs.drop 8))
    else none
  | 4 =>
    if decide (2 ≤ n) && n % 2 == 0 && a % 16 == 0 then
      some ((natsFrom 0 (n / 2)).map fun i => .bsi (a + 16 * i) (leOf ((bs.drop (16 * i)).take 16)))
    else none
  | 5 =>
    if decide (1 ≤ n) && a % 8 == 0 then
      some ((natsFrom 0 n).map fun i => .max (a + 8 * i) (p.payload.getD i 0).toNat)
    else none
  | _ => none

/-! The windows (R247, R401). -/

/-- Whether a range lies wholly in a valid window of a cluster's controller. -/
def inWindow (s : State) (cl lo hi : Nat) : Bool :=
  (natsFrom 0 4).any fun i =>
    let f := (s.devGet (clDev cl 3 (16 * i))).toNat
    f.testBit 63 && decide (natBits f 47 0 ≤ lo ∧ hi ≤ natBits (s.devGet (clDev cl 3 (16 * i + 8))).toNat 47 0)

/-- Whether the bytes of some units lie in one window of a controller and on its die. -/
def landInside (s : State) (cl : Nat) (us : List LandUnit) : Bool :=
  let lo := us.foldl (fun m u => min m u.pa) (2 ^ 64)
  let hi := us.foldl (fun m u => max m (u.pa + u.size - 1)) 0
  inWindow s cl lo hi && us.all fun u => spaceOf u.pa == 0 && paDie u.pa == dieOfCluster cl

/-! The writes (R249). -/

/-- A landing unit's bytes at their home: a publication for conflict aborts (R203). -/
def landStore (s : State) (pa : Nat) (bs : List Byte) : State := publishLines (engStore s pa bs) [lineOf pa] [] none

/-- One unit is performed; nothing where its read ends in an abort completion. A single-bit error of what it reads is
corrected (R161). -/
def landUnit (s : State) (u : LandUnit) : Option State :=
  match u with
  | .write pa bs => some (landStore s pa bs)
  | .bsi pa v =>
    if lineAborts s pa then none else some (landStore (softFix s pa 16) pa (leBytes (bsiAddBits (s.load pa 16) v) 16))
  | .max pa v =>
    if lineAborts s pa then none
    else some (landStore (softFix s pa 8) pa (leBytes (if sxInt (s.load pa 8) 64 < sxInt v 64 then v else s.load pa 8) 8))

/-- Units performed in order, up to one that aborts: its address. -/
def landAll : List LandUnit → State → State × Option Nat
  | [], s => (s, none)
  | u :: r, s =>
    match landUnit s u with
    | some s1 => landAll r s1
    | none => (s, some u.pa)

/-- The acknowledgement of a landing (R249). -/
def landAck (s : State) (p : Packet) : State :=
  sendMsg s { src := p.dest, d0 := mkD0 p.src 3 1 1 0, d1 := p.d1, d2 := mkD2 p.osid p.sidx 0, d3 := 0,
              payload := [p.d3] }

/-- A LAND that has left the fabric: its checks in the order of R247, its writes, its acknowledgement. -/
def landMsg (s : State) (p : Packet) : State :=
  let cl := agentModCluster p.dest
  if !headerOk p then bounce s p 6
  else
    match landUnits p with
    | none => bounce s p 6
    | some us =>
      if !landInside s cl us then bounce s p 8
      else
        match landAll us (noteReceipt s p) with
        | (s1, some a) => s1.fwTell (dieOfCluster cl) 2 (.landAbort a)
        | (s1, none) => if p.wantsReply then landAck s1 p else s1

/-- LAND_ARRIVAL: the LAND at position `k` of the fabric, where the NI can issue the reply that it asks for (R244). -/
def execLandArrival (k : Nat) (s : State) : Host.Outcome State Fault Refusal :=
  next (match arriving s k with
    | some p =>
      if p.bounced || !p.rmo || p.chan != 0 || !ownEvent p || (p.wantsReply && niFull s p.dest) then s
      else if replayed s p then takeNet s k
      else landMsg (takeNet s k) p
    | none => s)

end Sys2Proof.Machine
end

