-- ==== Sys2Proof/Machine/Matrix.lean ====
section
/-! DEFINITION. Matrix instructions (R348, R349): each issues a command to the matrix array of the own cluster. -/

namespace Sys2Proof.Machine

/-- What a matrix instruction's command holds beside the captures of R329 (R348): the major opcode, the tile, CLR,
whether it gives the exponent word, and that word. -/
def matrixCap (op : Nat) (t : BitVec 2) (clr useExp : Bool) (exp : Word) : List Nat :=
  [op, t.toNat, clr.toNat, useExp.toNat, exp.toNat]

/-- A matrix instruction that names a block (R348). -/
def matrixBody (i : Instr) (op : Nat) (t : BitVec 2) (clr : Bool) (b c : Reg) (s : State) : Res :=
  let gb := s.me.g b.toNat
  if gb.toNat % 64 ≠ 0 then Res.align s i gb
  else takeCommand s i 1 gb (matrixCap op t clr (c != 0) (s.me.g c.toNat))

/-- `mm` (R336, R348). -/
def execMm (sw : Bool) (t : BitVec 2) (clr : Bool) (b c : Reg) (s : State) : Host.Outcome State Fault Refusal :=
  next (runInstr (.mm sw t clr b c) sw [b.toNat, c.toNat] (matrixBody (.mm sw t clr b c) 0x78 t clr b c) s)

/-- `mms` (R340, R348). -/
def execMms (sw : Bool) (t : BitVec 2) (clr : Bool) (b c : Reg) (s : State) : Host.Outcome State Fault Refusal :=
  next (runInstr (.mms sw t clr b c) sw [b.toNat, c.toNat] (matrixBody (.mms sw t clr b c) 0x79 t clr b c) s)

/-- `mmx` (R341, R348). -/
def execMmx (sw : Bool) (t : BitVec 2) (clr : Bool) (b c : Reg) (s : State) : Host.Outcome State Fault Refusal :=
  next (runInstr (.mmx sw t clr b c) sw [b.toNat, c.toNat] (matrixBody (.mmx sw t clr b c) 0x7A t clr b c) s)

/-- `mzero` (R348): no block. -/
def execMzero (sw : Bool) (t : BitVec 2) (c : Reg) (s : State) : Host.Outcome State Fault Refusal :=
  next (runInstr (.mzero sw t c) sw [c.toNat]
    (fun s => takeCommand s (.mzero sw t c) 1 0 (matrixCap 0x7B t false true (s.me.g c.toNat))) s)

/-- `mread` (R342, R348). -/
def execMread (sw : Bool) (t : BitVec 2) (clr : Bool) (b c : Reg) (s : State) : Host.Outcome State Fault Refusal :=
  next (runInstr (.mread sw t clr b c) sw [b.toNat, c.toNat] (matrixBody (.mread sw t clr b c) 0x7C t clr b c) s)

/-- `mstw` (R343, R348). -/
def execMstw (sw : Bool) (b c : Reg) (s : State) : Host.Outcome State Fault Refusal :=
  next (runInstr (.mstw sw b c) sw [b.toNat, c.toNat] (matrixBody (.mstw sw b c) 0x7D 0 false b c) s)

end Sys2Proof.Machine
end

