-- ==== Sys2Proof/Machine/MatrixArray.lean ====
section
/-! DEFINITION. The matrix array of a cluster (R326 to R347): its tiles, the checks of a command, exact accumulation,
readout and paired stores. -/

namespace Sys2Proof.Machine

/-! Tiles (R326). -/

/-- Tile `t` of a cluster. -/
def tileOf (s : State) (cl t : Nat) : Tile := smGet Tile.reset (s.cluster cl).tiles t

def setTile (s : State) (cl t : Nat) (x : Tile) : State :=
  let y := s.cluster cl
  s.setCluster cl { y with tiles := smSet Tile.reset y.tiles t x }

/-- A tile with every I and status 0 under an exponent, VALID. -/
def clearedTile (e : Int) : Tile := { Tile.reset with e := BitVec.ofInt 16 e }

/-- The integer and the status fields of an element. -/
def Tile.int (t : Tile) (x : Nat) : Int := (smGet 0 t.acc x).toInt
def Tile.cls (t : Tile) (x : Nat) : Nat := (smGet 0 t.status x).toNat % 4
def Tile.satAt (t : Tile) (x : Nat) : Bool := (smGet 0 t.status x).getLsbD 2
def Tile.inexactAt (t : Tile) (x : Nat) : Bool := (smGet 0 t.status x).getLsbD 3

/-- A tile with one element written. -/
def Tile.put (t : Tile) (x : Nat) (i : Int) (cls : Nat) (sat inexact : Bool) : Tile :=
  { t with acc := smSet 0 t.acc x (BitVec.ofInt 96 i),
           status := smSet 0 t.status x (BitVec.ofNat 4 (cls % 4 + sat.toNat * 4 + inexact.toNat * 8)) }

/-! The checks of R332. -/

/-- Whether a pitch spaces `n` things of `size` bytes. -/
def pitchOk (pitch n size : Nat) : Bool := (pitch == 0 && n == 1) || decide (size ≤ pitch)

/-- A dense panel's pitch (R333). -/
def panelPitchOk (rows f k pitch : Nat) : Bool := pitchOk pitch (kTiles k) (kTileBytes rows f k 0)

/-- K in its range. -/
def kOk (k unit : Nat) : Bool := decide (unit ≤ k ∧ k ≤ 2 ^ 24) && k % unit == 0

/-- The formats of `mm` (R333). -/
def mmFormats (b : List Byte) : Bool := decide (mcFa b ≤ 5 ∧ mcFb b ≤ 5) || (mcFa b == 7 && mcFb b == 7)

/-- The rounding field of a command (R330, R342). -/
def rndOk (b : List Byte) : Bool :=
  cardNum b 3 1 == 0 || (cardNum b 3 1 == 5 && (mcOp b == 0x7D || (mcOp b == 0x7C && mcFa b != 13)))

/-- The fields that belong to the operation (R331 to R343). -/
def bodyOk (b : List Byte) : Bool :=
  match mcOp b with
  | 0x78 =>
    mmFormats b && kOk (mcK b) 32 && cardZero b 0x3C 4 && panelPitchOk (mcM b) (mcFa b) (mcK b) (mcAp b) &&
      panelPitchOk (mcN b) (mcFb b) (mcK b) (mcBp b)
  | 0x79 =>
    decide (mcFa b ≤ 5 ∧ mcFb b ≤ 5) && kOk (mcK b) 128 && cardZero b 0x3C 4 && mcAp b == 0 &&
      panelPitchOk (mcN b) (mcFb b) (mcK b) (mcBp b)
  | 0x7A =>
    cardZero b 2 1 && kOk (mcK b) 32 && cardZero b 0x3C 4 && pitchOk (mcAp b) (mcM b) (2 * mcK b) &&
      pitchOk (mcBp b) (mcN b) (2 * mcK b)
  | 0x7B => cardZero b 2 1 && cardZero b 0x20 32
  | 0x7C =>
    mcFb b == 0 && cardZero b 0x2C 20 &&
      (if mcFa b ≤ 5 then mcN b % 32 == 0 && mcDp b == 0
       else (mcFa b == 7 || mcFa b == 9 || mcFa b == 13) && pitchOk (mcDp b) (mcM b) (mcN b * codeWidth (mcFa b) / 8))
  | _ =>
    decide (mcFa b ≤ 5) && mcFb b == 0 && mcM b % 32 == 0 && mcN b % 32 == 0 && mcMp b % 4 == 0 &&
      decide (4 * mcN b ≤ mcMp b) && mcB b % 64 == 0 && mcTaddr b % 64 == 0 && cardZero b 0x3C 4

/-- Whether the command of a job passes R332, the state of its tile apart. -/
def matrixOk (j : Job) : Bool :=
  let b := j.card
  decide (0x78 ≤ mcOp b ∧ mcOp b ≤ 0x7D) && (j.captured.length < 9 || j.captured.getD 4 0 == mcOp b) &&
  cardNum b 1 1 / 32 == 0 && (if mcOp b = 0x79 then mcSpn b != 0 else mcSpn b == 0) && rndOk b && cardZero b 14 2 &&
  (mcRchan b == 0 || decide (8 ≤ mcRchan b ∧ mcRchan b ≤ 63)) && decide (mcRclass b ≤ 2) &&
  (mcOp b == 0x7B || decide (1 ≤ mcM b ∧ mcM b ≤ 128 ∧ 1 ≤ mcN b ∧ mcN b ≤ 128)) && bodyOk b &&
  !anyOverlaps (mcReads b) (mcWrites b)

/-- Whether a command needs its tile VALID (R332). -/
def needsValid (b : List Byte) : Bool :=
  mcOp b == 0x7C || (decide (0x78 ≤ mcOp b ∧ mcOp b ≤ 0x7A) && !mcClr b)

/-- Whether the partition of a command owns its tile (R327). -/
def ownsTile (s : State) (cl : Nat) (j : Job) : Bool :=
  let w := (s.devGet (clDev cl 1 0x80)).toNat
  let t := mcAcc j.card
  w.testBit (32 + t) && w / 2 ^ (8 * t) % 256 == j.iss.part.toNat

/-- A piece of a matrix command's region must lie in device memory or in a view (R334). -/
def matrixRegion (p : Piece) : Option Nat := if p.view ≠ 0 ∨ kindOf p.pa = .device then none else some 28

/-! The queue (R328). -/

/-- The oldest command of a partition at a matrix array. -/
def maHead (s : State) (cl part : Nat) : Option Job :=
  s.jobs.find? fun j => j.agent == clusterAgent s cl 16 && j.iss.part.toNat == part && j.st != .issued

/-- A command that the array has run, or refused. -/
def endMatrix (s : State) (j : Job) (status cause : Nat) (record : List Word) : State :=
  updJob s j.id fun q => { q with st := .running, status := status, cause := cause, record := record }

/-- A command reaches the array's inbox: the block is read once (R259, R348). One embedded in a card has been read with
it, and `mzero` has none. -/
def acceptMatrix (s : State) (j : Job) : State :=
  let s0 := { s with jobs := (s.jobs.filter fun q => q.id != j.id) ++ [j] }
  if j.parent.isSome then updJob s0 j.id fun q => { q with st := .read }
  else if decide (9 ≤ j.captured.length) && j.captured.getD 4 0 == 0x7B then tookBlock s0 j (capturedBlock j.captured [])
  else
    match readBlock s0 j 64 with
    | (s1, .fail a b) => endJob s1 j.id a b []
    | (s1, .ok b) => tookBlock s1 j (capturedBlock j.captured b)

/-- MATRIX_COMMAND_ARRIVAL: the command at position `k` of the fabric. -/
def execMatrixCommandArrival (k : Nat) (s : State) : Host.Outcome State Fault Refusal :=
  next (match commandAt s k fun u => u == 16 with
    | some j => commandArrives s k j acceptMatrix
    | none => s)

/-- The cycles that the array is busy with a command (R339, R350), in quarters of a k step per cycle for the formats. -/
def stepQuarters (f : Nat) : Nat := match f with | 0 | 1 => 4 | 2 | 3 => 8 | 7 => 2 | _ => 16

def matrixCycles (b : List Byte) : Nat :=
  let dense := min (stepQuarters (mcFa b)) (stepQuarters (mcFb b))
  let mn := mcM b * mcN b
  match mcOp b with
  | 0x78 => (4 * mcK b + dense - 1) / dense + 40
  | 0x79 => (2 * mcK b + dense - 1) / dense + 40
  | 0x7A => 4 * mcK b + 40
  | 0x7B => 128
  | 0x7C => mn / (if mcFa b = 13 then 16 else if mcFa b = 9 then 64 else if mcFa b = 7 then 128 else 256) + 40 + (if mcRnd b = 5 then 16 else 0)
  | _ => mn / 64 + 60

/-- A line that the tile fetch unit of a cluster reads: from its home slice, or into the RDC where it is homed on another
die (R334). -/
def tfuLine (cl : Nat) (t : LineAttr) (s : State) (line : Nat) : State :=
  if homedOn (64 * line) (dieOfCluster cl) then touchHome s (64 * line) t false else (touchRdcHit s cl (64 * line) t).1

/-- What reading a piece leaves in the caches of a matrix array's cluster: view lines come from the wafer store (R334).
-/
def tfuRead (cl : Nat) (s : State) (p : Piece) : State :=
  if p.view ≠ 0 then (viewTilesAt s p.view p.ptr (p.pa - p.ptr) p.n).foldl (fun u w => touchWafer u cl w) s
  else (natsFrom (lineOf p.pa) (lineOf (p.pa + p.n - 1) - lineOf p.pa + 1)).foldl (tfuLine cl p.attr) s

/-- The head command of a partition, of one operation, runs: R332, its predecessors, its tile, R327, and its
translations with R334 and R36; then `act` on the pieces read and written. -/
def runMatrix (op : Nat) (act : State → Nat → Job → List Piece → List Piece → State) (cl part : Nat) (s : State) : State :=
  match maHead s cl part with
  | some j =>
    let b := j.card
    if j.st ≠ .read ∨ mcOp b ≠ op then s
    else if !matrixOk j then endMatrix s j 5 0 []
    else if !jobFree s j then s
    else if needsValid b && !(tileOf s cl (mcAcc b)).valid then endMatrix s j 5 0 []
    else if op != 0x7D && !ownsTile s cl j then endMatrix s j 2 29 []
    else
      match startPieces s j (mcReads b) (mcWrites b) matrixRegion with
      | (s1, .fail a c) => endMatrix s1 j a c []
      | (s1, .wait) => s1
      | (s1, .go rp wp) => act (countCluster (rp.foldl (tfuRead cl) (softPieces s1 rp)) cl 36 (matrixCycles b)) cl j rp wp
  | none => s

/-! Errors (R345, R346). -/

/-- A command that fails after it has begun makes its tile INVALID. -/
def spoilTile (s : State) (cl : Nat) (b : List Byte) : State :=
  let t := tileOf s cl (mcAcc b)
  setTile s cl (mcAcc b) { t with valid := false }

/-- A mismatch found by the array: it is counted in MERR, firmware learns of it, and the command ends with STATUS 4;
`r` is byte 0x0B of its record. -/
def matrixFault (s : State) (cl : Nat) (j : Job) (g : Glitch) (unit r : Nat) : State :=
  let b := j.card
  let a := clDev cl 1 0x90
  let m := engineRecord j.agent unit (g.lane % 128) (mcOp b) (mcAcc b + (mcClr b).toNat * 4) r (completionWord j 0 0)
  let s1 := s.devSet a (BitVec.ofNat 64 (((s.devGet a).toNat + 1) % 2 ^ 32))
  endMatrix (engineNotice (useGlitch s1 g) j.agent m) j 4 0 (recordWords m)

/-! Operands (R333, R340, R341). -/

/-- Element (i, x) of a dense panel whose bytes are given (R278, R280, R333). -/
def panelElem (rows f k : Nat) (base : Int) (bs : List Byte) (i x : Nat) : Num :=
  let cols := kCols k (x / 128)
  let t := bs.drop (x / 128 * kTileBytes rows f k 0)
  let e := i * cols + x % 128
  if f = 7 then numOf .bf16 (cardNum t (2 * e) 2)
  else
    let w := codeWidth f
    let d : Nat := cardNum t (mxElemBytes rows cols f + e / 64) 1 / 2 ^ (4 * (e / 32 % 2)) % 16
    if d = 15 then .fin false 0 1
    else (numOf (fmtOfCode f) (cardNum t (w * e / 8) 2 / 2 ^ (w * e % 8) % 2 ^ w)).scale (base - d)

/-- The set bits of a mask below a position. -/
def onesBelow (m n : Nat) : Nat := ((natsFrom 0 n).filter fun k => m.testBit k).length

/-- The mask of a group record. -/
def groupMask (r : List Byte) : Nat := cardNum r 0 16

/-- Value `x` (0 to 127) of a group record (R340). -/
def groupElem (p f : Nat) (base : Int) (r : List Byte) (x : Nat) : Num :=
  let w := codeWidth f
  let e := onesBelow (groupMask r) x
  let d : Nat := cardNum r (16 + (p * w + 7) / 8) 2 / 2 ^ (4 * (x / 32)) % 16
  if !(groupMask r).testBit x || d == 15 then .fin false 0 1
  else (numOf (fmtOfCode f) (cardNum r (16 + w * e / 8) 2 / 2 ^ (w * e % 8) % 2 ^ w)).scale (base - d)

/-- Group record `g` of row `i` of a sparse operand. -/
def groupRecord (p f k : Nat) (bs : List Byte) (i g : Nat) : List Byte :=
  let n := recordBytes p (codeWidth f)
  (bs.drop ((i * (k / 128) + g) * n)).take n

/-- Whether every record's mask has the packed count of bits. -/
def groupsOk (p f k rows : Nat) (bs : List Byte) : Bool :=
  (natsFrom 0 (rows * (k / 128))).all fun n => onesBelow (groupMask (groupRecord p f k bs 0 n)) 128 == p

/-- Element (i, x) of a sparse operand. -/
def sparseElem (p f k : Nat) (base : Int) (bs : List Byte) (i x : Nat) : Num :=
  groupElem p f base (groupRecord p f k bs i (x / 128)) (x % 128)

/-- The halfword of element (i, x) of an XMX16 operand. -/
def xmxHalf (k : Nat) (bs : List Byte) (i x : Nat) : Nat := cardNum bs (2 * (i * k + x)) 2

/-- Element (i, x) of an XMX16 operand (R277, R341). -/
def xmxElem (k : Nat) (base : Int) (bs : List Byte) (i x : Nat) : Num :=
  let h := xmxHalf k bs i x
  let f := h / 2 ^ 12
  let d : Nat := h / 2 ^ 8 % 16
  if d = 15 then .fin false 0 1 else (numOf (fmtOfCode f) (h % 2 ^ codeWidth f)).scale (base - d)

/-- Whether every element of an XMX16 operand has a format code. -/
def xmxOk (k rows : Nat) (bs : List Byte) : Bool :=
  (natsFrom 0 (rows * k)).all fun n => decide (cardNum bs (2 * n) 2 / 2 ^ 12 ≤ 5)

/-! Exact accumulation (R336, R337). -/

/-- An element while it accumulates. -/
structure Cell where
  i : Int
  cls : Nat
  sat : Bool
  inexact : Bool
deriving DecidableEq, Repr

/-- The class of an element after a product of a class that is not finite. -/
def joinCls (old new : Nat) : Nat := if old = 0 ∨ old = new then new else 3

/-- One product added. -/
def addProduct (e : Int) (x : Cell) (p : Num) : Cell :=
  match p with
  | .nan _ => { x with cls := 3 }
  | .inf neg => { x with cls := joinCls x.cls (if neg then 2 else 1) }
  | .fin neg n d =>
    let a := sgn neg n * twoDen e
    let c : Int := (d * twoNum e : Nat)
    let t := a.fdiv c
    let v := x.i + t
    let y := { x with inexact := x.inexact || t * c != a }
    if bsiMax < v then { y with i := bsiMax, sat := true }
    else if v < bsiMin then { y with i := bsiMin, sat := true }
    else { y with i := v }

/-- An element with the products of a row and a column added in ascending k. -/
def accElem (e : Int) (k : Nat) (a b : Nat → Num) (x : Cell) : Cell :=
  (natsFrom 0 k).foldl (fun c n => addProduct e c (mulNum (a n) (b n)).1) x

/-- The elements (i, j) of a tile for i < m and j < n. -/
def accTile (m n k : Nat) (a b : Nat → Nat → Num) (t : Tile) : Tile :=
  (natsFrom 0 m).foldl (fun u i => (natsFrom 0 n).foldl (fun u j =>
    let x := 128 * i + j
    let c := accElem u.e.toInt k (a i) (b j) { i := u.int x, cls := u.cls x, sat := u.satAt x, inexact := u.inexactAt x }
    u.put x c.i c.cls c.sat c.inexact) u) t

/-- The exponent fields of a block (R330). -/
def mcExp (b : List Byte) : Int := cardInt b 8 2

/-- The tile that a command accumulates into (R336). -/
def startTile (s : State) (cl : Nat) (b : List Byte) : Tile :=
  if mcClr b then clearedTile (mcFl b) else tileOf s cl (mcAcc b)

/-- The bytes of the A operand of a command. -/
def operandSize (gs : List Region) : Nat := gs.foldl (fun n g => n + g.size) 0

/-- The sum of the integers of a column of a tile (R346). -/
def columnSum (t : Tile) (c : Nat) : Int := (natsFrom 0 128).foldl (fun n i => n + t.int (128 * i + c)) 0

/-- A tile with an armed error in the integer of a column's first row. -/
def spoilColumn (t : Tile) (g : Glitch) : Tile :=
  let c := g.lane % 128
  { t with acc := smSet 0 t.acc c (smGet 0 t.acc c ^^^ g.flip.setWidth 96) }

/-- The accumulated tile of a command under the column checks of R346: a wrong sum of the residue of the right one is not
seen. -/
def endAccumulate (s : State) (cl : Nat) (j : Job) (t : Tile) : State :=
  let c := j.card
  match engGlitch s j.agent with
  | none => endMatrix (setTile s cl (mcAcc c) t) j 0 0 []
  | some g =>
    let o := resOfInt (columnSum (spoilColumn t g) (g.lane % 128))
    let p := resOfInt (columnSum t (g.lane % 128))
    if o = p then endMatrix (setTile (useGlitch s g) cl (mcAcc c) (spoilColumn t g)) j 0 0 []
    else matrixFault (spoilTile s cl c) cl j g 5 (resByte o p)

/-- An accumulating command on its bytes: `good` finds the data cases of R340 and R341, `a` and `b` the elements. -/
def accumulate (s : State) (cl : Nat) (j : Job) (rp : List Piece) (good : List Byte → Bool)
    (a b : List Byte → Nat → Nat → Num) : State :=
  let c := j.card
  match readPieces s rp with
  | none => tellAbort (endMatrix (spoilTile s cl c) j 3 0 []) rp
  | some bs =>
    if !good bs then endMatrix (spoilTile s cl c) j 5 0 []
    else endAccumulate s cl j (accTile (mcM c) (mcN c) (mcK c) (a bs) (b bs) (startTile s cl c))

/-- The bytes of the B operand behind those of A. -/
def behindA (c bs : List Byte) (n : Nat) : List Byte := bs.drop (operandSize ((mcReads c).take n))

/-- `mm` (R333, R336). -/
def doMm (s : State) (cl : Nat) (j : Job) (rp _wp : List Piece) : State :=
  let c := j.card
  let n := (panelRegions (mcA c) (mcM c) (mcFa c) (mcK c) (mcAp c)).length
  accumulate s cl j rp (fun _ => true) (panelElem (mcM c) (mcFa c) (mcK c) (mcBa c))
    fun bs => panelElem (mcN c) (mcFb c) (mcK c) (mcBb c) (behindA c bs n)

/-- `mms` (R340). -/
def doMms (s : State) (cl : Nat) (j : Job) (rp _wp : List Piece) : State :=
  let c := j.card
  let p := spnCount (mcSpn c)
  accumulate s cl j rp (groupsOk p (mcFa c) (mcK c) (mcM c)) (sparseElem p (mcFa c) (mcK c) (mcBa c))
    fun bs => panelElem (mcN c) (mcFb c) (mcK c) (mcBb c) (behindA c bs 1)

/-- `mmx` (R341). -/
def doMmx (s : State) (cl : Nat) (j : Job) (rp _wp : List Piece) : State :=
  let c := j.card
  accumulate s cl j rp (xmxOk (mcK c) (mcM c + mcN c)) (xmxElem (mcK c) (mcBa c))
    fun bs => xmxElem (mcK c) (mcBb c) (behindA c bs 1)

/-- `mzero` (R348). -/
def doMzero (s : State) (cl : Nat) (j : Job) (_rp _wp : List Piece) : State :=
  endMatrix (setTile s cl (mcAcc j.card) (clearedTile (mcFl j.card))) j 0 0 []

/-! Readout (R342) and paired stores (R343). -/

/-- The Fondant key that a command captured (R329). -/
def capKey (j : Job) : FonKey :=
  { lo := BitVec.ofNat 64 (j.captured.getD 0 0), hi := BitVec.ofNat 64 (j.captured.getD 1 0),
    tensor := BitVec.ofNat 64 (j.captured.getD 2 0), step := BitVec.ofNat 64 (j.captured.getD 3 0) }

/-- The mode of a command, and the word that master element (i, j) draws. -/
def mcMode (b : List Byte) : Rm := if mcRnd b = 5 then .sr else .rne
def mcDraw (j : Job) (i c : Nat) : Nat := drawWord (mcMode j.card) (capKey j) (mcCorg j.card + i * mcLw j.card + c)

/-- The value of an element of a tile. -/
def tileNum (t : Tile) (x : Nat) : Num :=
  match t.cls x with
  | 0 => dyadic (decide (t.int x < 0)) (t.int x).natAbs t.e.toInt
  | 1 => .inf false
  | 2 => .inf true
  | _ => .nan false

/-- An element of a tile as a container (R342). -/
def tileBsi (t : Tile) (x : Nat) : Bsi :=
  let fl := (t.satAt x).toNat * 8 + (t.inexactAt x).toNat * 16
  match t.cls x with
  | 0 => { i := t.int x, e := t.e.toInt, fl := fl }
  | 1 => { i := 0, e := 0, fl := fl + 2 }
  | 2 => { i := 0, e := 0, fl := fl + 4 }
  | _ => { i := 0, e := 0, fl := fl + 1 }

/-- floor(log2 |x|) of a finite nonzero value. -/
def numLog2 : Num → Option Int
  | .fin _ n d => if n = 0 then none else some (log2Frac n d)
  | _ => none

/-- The delta of a block of values (R279). -/
def deltaOf (f : Fmt) (b : Int) (xs : List Num) : Nat :=
  match xs.filterMap numLog2 with
  | [] => 15
  | l :: r => (max 0 (min (b - (r.foldl max l - emaxOf f)) 14)).toNat

/-- Elements packed as one little-endian bit string (R280). -/
def packElems (w : Nat) (xs : List Nat) : List Byte :=
  leBytes (xs.zipIdx.foldl (fun n p => n + p.1 % 2 ^ w * 2 ^ (w * p.2)) 0) (xs.length * w / 8)

/-- Delta nibbles with their padding (R280). -/
def packDeltas (ds : List Nat) : List Byte :=
  leBytes (ds.zipIdx.foldl (fun n p => n + p.1 * 16 ^ p.2) 0) (((ds.length + 1) / 2 + 15) / 16 * 16)

/-- The row `i` of an MX tile whose values and draws are given: its bytes and its deltas. -/
def mxRow (f : Nat) (m : Rm) (b : Int) (cols : Nat) (v : Nat → Num) (draw : Nat → Nat) : List Byte × List Nat :=
  let ft := fmtOfCode f
  let ds := (natsFrom 0 (cols / 32)).map fun k => deltaOf ft b ((natsFrom (32 * k) 32).map v)
  (packElems (codeWidth f) ((natsFrom 0 cols).map fun c => (quantElem ft m b (ds.getD (c / 32) 15) (draw c) (v c)).1), ds)

/-- The rows of an MX tile, then its delta area. -/
def mxTile (f : Nat) (m : Rm) (b : Int) (rows cols : Nat) (v : Nat → Nat → Num) (draw : Nat → Nat → Nat) : List (List Byte) :=
  let rs := (natsFrom 0 rows).map fun i => mxRow f m b cols (v i) (draw i)
  rs.map (·.1) ++ [packDeltas (rs.flatMap (·.2))]

/-- One row of a BSI96, binary32 or bfloat16 readout. -/
def readRow (j : Job) (t : Tile) (i : Nat) : List Byte :=
  let b := j.card
  (natsFrom 0 (mcN b)).flatMap fun c =>
    let x := 128 * i + c
    if mcFa b = 13 then leBytes (tileBsi t x).bits 16
    else
      let f : Fmt := if mcFa b = 9 then .f32 else .bf16
      leBytes (roundTo f (mcMode b) .off (mcDraw j i c) (tileNum t x)).1 (f.width / 8)

/-- The output of `mread` in the order in which it is written. -/
def readRows (j : Job) (t : Tile) : List (List Byte) :=
  let b := j.card
  if mcFa b ≤ 5 then
    mxTile (mcFa b) (mcMode b) (mcBa b) (mcM b) (mcN b) (fun i c => tileNum t (128 * i + c)) (mcDraw j)
  else (natsFrom 0 (mcM b)).map (readRow j t)

/-- The writes of rows in order, up to the row at which the conversion path is found wrong: the rows before it stand. -/
def rowsWork (s : State) (j : Job) (wp : List Piece) (rs : List (List Byte)) : State × JobWork :=
  let (s1, out, bad) := checkedUnits s j.agent rs
  (s1, { writes := pieceWrites wp (out.flatMap id), stop := none, fault := bad })

/-- The rest of the writes of a command, and its end, with `done` where nothing was found wrong. -/
def endRows (cl : Nat) (done : State → State) (s : State) (j : Job) (w : JobWork) : State :=
  let s1 := updJob (writeBlocks s w.writes) j.id fun q => { q with todo := none }
  match w.fault with
  | some (g, b) => matrixFault s1 cl j g 3 b
  | none => endMatrix (done s1) j 0 0 []

/-- The clear of `mread` (R342): E stays. -/
def afterRead (cl : Nat) (b : List Byte) (s : State) : State :=
  if mcClr b then setTile s cl (mcAcc b) { tileOf s cl (mcAcc b) with acc := [], status := [] } else s

/-- The writes of `mread` (R342). -/
def mreadWork (s : State) (cl : Nat) (j : Job) (_rp wp : List Piece) : State × JobWork :=
  rowsWork s j wp (readRows j (tileOf s cl (mcAcc j.card)))

/-- The master value of element (i, c) (R343). -/
def masterNum (b bs : List Byte) (i c : Nat) : Num := numOf .f32 (cardNum bs (4 * (i * mcN b + c)) 4)

/-- The plain copy, then the transposed copy. -/
def pairedRows (j : Job) (bs : List Byte) : List (List Byte) :=
  let b := j.card
  mxTile (mcFa b) (mcMode b) (mcBa b) (mcM b) (mcN b) (masterNum b bs) (mcDraw j) ++
    mxTile (mcFa b) (mcMode b) (mcBb b) (mcN b) (mcM b) (fun c i => masterNum b bs i c) (fun c i => mcDraw j i c)

/-- The writes of `mstw` (R343, R344). -/
def mstwWork (s : State) (_cl : Nat) (j : Job) (rp wp : List Piece) : State × JobWork :=
  rowsWork s j wp (pairedRows j (rp.flatMap (pieceBytes s)))

/-- A command that writes rows: its master is read first, and an abort completion there ends it (R343, R345). -/
def doRows (work : State → Nat → Job → List Piece → List Piece → State × JobWork)
    (k : State → Job → JobWork → State) (s : State) (cl : Nat) (j : Job) (rp wp : List Piece) : State :=
  match readPieces s rp with
  | none => tellAbort (endMatrix s j 3 0 []) rp
  | some _ => k (work s cl j rp wp).1 j (work s cl j rp wp).2

/-- A command that writes rows runs, or what is left of it (R206). -/
def runRows (op : Nat) (work : State → Nat → Job → List Piece → List Piece → State × JobWork)
    (done : Nat → List Byte → State → State) (cl part : Nat) (s : State) : State :=
  match maHead s cl part with
  | some j =>
    match j.todo with
    | some w => if j.st = .read ∧ mcOp j.card = op then endRows cl (done cl j.card) s j w else s
    | none => runMatrix op (doRows work (endRows cl (done cl j.card))) cl part s
  | none => s

/-- The next `n` blocks of a command that writes rows become visible; one that has not started starts. -/
def rowBlocks (s : State) (n : Nat) (j : Job) : State :=
  let cl := agentModCluster j.agent
  match j.todo with
  | some w => if j.st = .read then showBlocks s j.id n w else s
  | none =>
    let k (u : State) (q : Job) (w : JobWork) : State := showBlocks u q.id n w
    if (maHead s cl j.iss.part.toNat).map (·.id) ≠ some j.id then s
    else if mcOp j.card = 0x7C then runMatrix 0x7C (doRows mreadWork k) cl j.iss.part.toNat s
    else if mcOp j.card = 0x7D then runMatrix 0x7D (doRows mstwWork k) cl j.iss.part.toNat s
    else s

/-- `n` more 64-byte blocks of what a running job or matrix command writes become visible (R206). -/
def jobPart (s : State) (id n : Nat) : State :=
  match jobById s id with
  | some j => if engineUnit j.agent = 16 then rowBlocks s n j else jobBlocks s n j
  | none => s

/-! The events. -/

/-- MA_MM. -/
def execMaMm (cl part : Nat) (s : State) : Host.Outcome State Fault Refusal := next (runMatrix 0x78 doMm cl part s)

/-- MA_MMS. -/
def execMaMms (cl part : Nat) (s : State) : Host.Outcome State Fault Refusal := next (runMatrix 0x79 doMms cl part s)

/-- MA_MMX. -/
def execMaMmx (cl part : Nat) (s : State) : Host.Outcome State Fault Refusal := next (runMatrix 0x7A doMmx cl part s)

/-- MA_MZERO. -/
def execMaMzero (cl part : Nat) (s : State) : Host.Outcome State Fault Refusal := next (runMatrix 0x7B doMzero cl part s)

/-- MA_MREAD. -/
def execMaMread (cl part : Nat) (s : State) : Host.Outcome State Fault Refusal := next (runRows 0x7C mreadWork afterRead cl part s)

/-- MA_MSTW. -/
def execMaMstw (cl part : Nat) (s : State) : Host.Outcome State Fault Refusal := next (runRows 0x7D mstwWork (fun _ _ s => s) cl part s)

/-- The head command of a partition has run, or is one that R332 refuses. -/
def completeMatrix (s : State) (j : Job) : State :=
  if reportWaits s j then s
  else if j.st = .read then
    (if matrixOk j then s else finishJob s { j with status := 5, cause := 0, record := [] })
  else finishJob s j

/-- MATRIX_COMMAND_COMPLETION. -/
def execMatrixCommandCompletion (cl part : Nat) (s : State) : Host.Outcome State Fault Refusal :=
  next (match maHead s cl part with
    | some j => completeMatrix s j
    | none => s)

/-- MA_SLOT_BOUNDARY (R347): the next slot entry comes into force where its 1,024 cycles have begun. -/
def execMaSlotBoundary (cl : Nat) (s : State) : Host.Outcome State Fault Refusal :=
  next (
    let x := s.cluster cl
    if s.now / 1024 % 16 = x.maSlot then s else s.setCluster cl { x with maSlot := (x.maSlot + 1) % 16 })

end Sys2Proof.Machine
end

