-- ==== Sys2Proof/Machine/Order.lean ====
section
/-! DEFINITION. Ordering instructions (R211 to R215): `fence`, `tfence`, `fwait` and `irrev`. -/

namespace Sys2Proof.Machine

/-- `fence` (R212): earlier direct accesses of the earlier set have been performed before it completes. Accesses are
performed in program order here, so what is left are those on their way, those that wait for a popped operand, and
dispatched vector accesses. -/
def fenceBody (scp : BitVec 3) (earlier : BitVec 2) (s : State) : Res :=
  if scp = 0 then .done s
  else if (earlier.getLsbD 0 && loadsLeft s) || (earlier.getLsbD 1 && storesLeft s) then .stall s .popEmpty
  else if vecMemPending s.me then .stall s .vectorBusy
  else .done s

def execFence (sw : Bool) (scp : BitVec 3) (later earlier : BitVec 2) (s : State) : Host.Outcome State Fault Refusal :=
  next (runInstr (.fence sw scp later earlier) sw [] (fenceBody scp earlier) s)

/-- `tfence` (R213): outside a team it has no effect. -/
def execTfence (sw : Bool) (s : State) : Host.Outcome State Fault Refusal :=
  next (runInstr (.tfence sw) sw []
    (fun s => if s.me.team.isSome && vecMemPending s.me then .stall s .vectorBusy else .done s) s)

/-- The lines of an `fwait` range as one region (R214). -/
def fwaitRegion (b : Word) (lines : BitVec 10) : Region := flatRegion (b.toNat / 64 * 64) (64 * lines.toNat + 64)

/-- Jobs issued by the domain of a slot and not yet complete. -/
def domainJobs (s : State) : List Job := s.jobs.filter fun j => j.iss.domain == s.me.domain

/-- `fwait.w` (R214). -/
def execFwaitW (sw : Bool) (b : Reg) (lines : BitVec 10) (s : State) : Host.Outcome State Fault Refusal :=
  next (runInstr (.fwaitW sw b lines) sw [b.toNat]
    (fun s => if (domainJobs s).any fun j => anyMeets j.wr [fwaitRegion (s.me.g b.toNat) lines] then .stall s .fwait
              else .done s) s)

/-- `fwait.rw` (R214). -/
def execFwaitRw (sw : Bool) (b : Reg) (lines : BitVec 10) (s : State) : Host.Outcome State Fault Refusal :=
  next (runInstr (.fwaitRw sw b lines) sw [b.toNat]
    (fun s => if (domainJobs s).any fun j => anyMeets (j.rd ++ j.wr) [fwaitRegion (s.me.g b.toNat) lines] then
                .stall s .fwait
              else .done s) s)

/-- `fwait.all` (R214). -/
def execFwaitAll (sw : Bool) (s : State) : Host.Outcome State Fault Refusal :=
  next (runInstr (.fwaitAll sw) sw [] (fun s => if (domainJobs s).isEmpty then .done s else .stall s .fwait) s)

/-- `irrev` (R215). -/
def execIrrev (sw : Bool) (s : State) : Host.Outcome State Fault Refusal :=
  next (runInstr (.irrev sw) sw [] (fun s => if s.me.irrev then .done s else .stall s .commitToken) s)

end Sys2Proof.Machine
end

