-- ==== Sys2Proof/Machine/VecCore.lean ====
section
/-! DEFINITION. The vector unit (R302 to R311): lanes, masks, checked lane results, dispatch into the ring, and what the
completion of the oldest vector instruction shares between all of them. -/

namespace Sys2Proof.Machine

/-! Lanes and masks (R302, R303). -/

/-- Lane `i` of width `w` of a vector register. -/
def laneOf (v : BitVec 1024) (w i : Nat) : Nat := v.toNat / 2 ^ (w * i) % 2 ^ w

/-- Bits [lo + w - 1 : lo] of a vector register replaced by `x`. -/
def setBitsAt (v : BitVec 1024) (lo w x : Nat) : BitVec 1024 :=
  (v &&& ~~~(BitVec.ofNat 1024 ((2 ^ w - 1) * 2 ^ lo))) ||| BitVec.ofNat 1024 (x % 2 ^ w * 2 ^ lo)

/-- Lane `i` of width `w` replaced. -/
def setLane (v : BitVec 1024) (w i x : Nat) : BitVec 1024 := setBitsAt v (w * i) w x

/-- The number of 32-bit lanes that a lane of `n` takes: 1 of 32, 2 of 16. -/
def laneStep (n : Nat) : Nat := 32 / n

/-- Whether lane `i` of `n` is active under a mask: bit i, or bit 2i of 16 lanes. -/
def laneActive (k : BitVec 32) (n i : Nat) : Bool := k.getLsbD (laneStep n * i)

/-- The active lanes of `n` under mask register `km`. -/
def activeLanes (sl : Slot) (km n : Nat) : List Nat := (natsFrom 0 n).filter (laneActive (sl.k km) n)

/-- A destination with some lanes written: the others unchanged, or zero under Z. -/
def putLanes (a w : Nat) (z : Bool) (idx vals : List Nat) (sl : Slot) : Slot :=
  sl.setV a ((idx.zip vals).foldl (fun v p => setLane v w p.1 p.2) (if z then 0 else sl.v a))

/-- A destination with elements written from bit `base` on (R293, R295). -/
def putElems (a w base : Nat) (idx vals : List Nat) (sl : Slot) : Slot :=
  sl.setV a ((idx.zip vals).foldl (fun v p => setBitsAt v (base + w * p.1) w p.2) (sl.v a))

/-! Checked lane results (R310, R311). -/

/-- A result that a lane produces: the number that a record gives the lane, the value with its width, its flags and the
unit that checks it. -/
structure LaneOut where
  lane : Nat
  w : Nat
  val : Nat
  fl : Nat
  unit : UnitOf

/-- A lane's result as handed on. -/
structure LaneRes where
  lane : Nat
  val : Nat
  fl : Nat

/-- What the lanes hand on: their results, or the first failed check. -/
inductive LanesOut where
  | ok (s : State) (rs : List LaneRes)
  | bad (s : State) (lane unit type res : Nat)

/-- The results of some lanes in order; an error armed for the unit of a lane disturbs its result. -/
def runLanes (core : Nat) : List LaneOut → State → LanesOut
  | [], s => .ok s []
  | o :: rest, s =>
    match glitchAt s core o.unit.unit o.lane with
    | none =>
      match runLanes core rest s with
      | .ok s1 rs => .ok s1 ({ lane := o.lane, val := o.val, fl := o.fl } :: rs)
      | b => b
    | some g =>
      let s1 := useGlitch s g
      match disturb o.unit.check o.w o.val g with
      | .error (t, b) => .bad s1 o.lane o.unit.unit t b
      | .ok v =>
        match runLanes core rest s1 with
        | .ok s2 rs => .ok s2 ({ lane := o.lane, val := v, fl := o.fl } :: rs)
        | b => b

/-- The units of R310. -/
def intUnit (pred : Nat) : UnitOf := ⟨1, .residue pred⟩
def logicUnit : UnitOf := ⟨4, .parity⟩

/-- What a vector instruction computes: lane results with what they write, or a tree of nodes over lanes (R318), whose
node `i` of a round is checked in lane `step` times `i`. -/
inductive VecWork where
  | lanes (outs : List LaneOut) (put : List Nat → Slot → Slot)
  | tree (step w : Nat) (node : Nat → Nat → Nat × Nat) (unit : Nat → Nat → UnitOf) (t : List Nat)
      (put : Nat → Slot → Slot)

/-- The nodes of one round: t[i] with t[i + s]. -/
def treeRound (step w : Nat) (node : Nat → Nat → Nat × Nat) (unit : Nat → Nat → UnitOf) (t : List Nat) :
    List LaneOut :=
  let s := t.length / 2
  (natsFrom 0 s).map fun i =>
    let x := t.getD i 0
    let y := t.getD (i + s) 0
    let r := node x y
    { lane := step * i, w := w, val := r.1, fl := r.2, unit := unit x y }

/-- The rounds of a tree: the last value, with the flags of every node. -/
def runTree (core step w : Nat) (node : Nat → Nat → Nat × Nat) (unit : Nat → Nat → UnitOf) :
    Nat → List Nat → List LaneRes → State → LanesOut
  | 0, t, fls, s => .ok s ({ lane := 0, val := t.getD 0 0, fl := 0 } :: fls)
  | n + 1, t, fls, s =>
    match runLanes core (treeRound step w node unit t) s with
    | .ok s1 rs => runTree core step w node unit n (rs.map (·.val)) (fls ++ rs) s1
    | b => b

/-- The results of a vector instruction and what they write. -/
def runWork (core : Nat) (k : VecWork) (s : State) : LanesOut × (List Nat → Slot → Slot) :=
  match k with
  | .lanes outs put => (runLanes core outs s, put)
  | .tree step w node unit t put =>
    (runTree core step w node unit (Nat.log2 t.length) t [] s, fun vs => put (vs.getD 0 0))

/-! Dispatch (R304). -/

/-- A scalar operand as captured at dispatch. -/
def VecOp.sc (o : VecOp) (r : Reg) : Word := smGet 0 o.ops r.toNat

/-- The slot's RMODE, seeds, TENSOR and STEP as captured at dispatch, over the vector state of now. -/
def opSlot (sl : Slot) (o : VecOp) : Slot :=
  { sl with rmode := o.rmode, seedLo := o.fond.getD 0 0, seedHi := o.fond.getD 1 0, tensor := o.fond.getD 2 0,
            stepR := o.fond.getD 3 0 }

/-- A vector instruction as the ring holds it, with the scalar operands of some registers. -/
def vecOp (sl : Slot) (i : Instr) (srcs : List Nat) (elems : List (Nat × Nat × Nat)) : VecOp :=
  { instr := i, vseq := sl.vseq, pc := sl.pc, ops := srcs.map fun r => (r, sl.g r), rmode := sl.rmode,
    fond := [sl.seedLo, sl.seedHi, sl.tensor, sl.stepR], elems := elems }

/-- The instruction takes the next VSEQ and enters the ring; its scalar destinations are pending (R306). -/
def enterRing (s : State) (o : VecOp) (dests : List Nat) : State :=
  let sl := s.me
  s.setMe { sl with vq := sl.vq ++ [o], vseq := sl.vseq + 1, pend := sl.pend ++ dests.filter fun d => d != 0 }

/-- The dispatch of an instruction that accesses no memory: it waits while the ring is full, or, where it moves to a
scalar register, while 16 results are outstanding (R40). -/
def vecDispatch (i : Instr) (srcs dests : List Nat) (s : State) : Res :=
  if 32 ≤ s.me.vq.length then .stall s .vectorBusy
  else if isScalarMove i && outLimit s.me then .stall s .outLimit
  else .done (enterRing s (vecOp s.me i srcs []) dests)

/-- Issue a vector instruction without rounding: its scalar sources and destinations are checked, then it is
dispatched. -/
def vecInstr (i : Instr) (sw : Bool) (srcs dests : List Nat) (s : State) : Host.Outcome State Fault Refusal :=
  next (runInstr i sw (srcs ++ dests) (vecDispatch i srcs dests) s)

/-- Issue one with a rounding field: DYN with a reserved MODE is ILLEGAL (R282, R307). -/
def vecRound (i : Instr) (sw : Bool) (rm : BitVec 3) (srcs dests : List Nat) (s : State) :
    Host.Outcome State Fault Refusal :=
  next (runChecked i sw (fun s => dynBad s.me rm) (srcs ++ dests) (vecDispatch i srcs dests) s)

/-- Issue one with a rounding field that allows SR and a coordinate register `d` (R293). -/
def vecDraw (i : Instr) (sw : Bool) (rm : BitVec 3) (d : Reg) (srcs : List Nat) (s : State) :
    Host.Outcome State Fault Refusal :=
  next (runChecked i sw (fun s => coordBad s.me rm d) (srcs ++ []) (vecDispatch i srcs []) s)

/-- The scalar source that SC makes of field C. -/
def scSrc (v : VFlags) (c : Reg) : List Nat := if v.sc then [c.toNat] else []

/-- Lane `i` of operand C: of vC, or the scalar (R312). -/
def cLane (sl : Slot) (o : VecOp) (v : VFlags) (c : Reg) (w i : Nat) : Nat :=
  if v.sc then (o.sc c).toNat % 2 ^ w else laneOf (sl.v c.toNat) w i

/-! Completion (R303, R305, R308, R311). -/

/-- The mask register that an instruction writes. -/
def maskDest : Instr → Option Nat
  | .vcmp _ _ _ _ a _ _ => some a.toNat
  | .vmsk _ f a _ _ =>
    match f with
    | .tog | .popc | .ffs => none
    | _ => some a.toNat
  | _ => none

/-- The record of a failed lane check (R311). -/
def laneRecord (s : State) (o : VecOp) (lane unit type b : Nat) : McInfo :=
  { type := type, sev := 1, unit := unit, agent := coreAgent s s.cur.core, lane := lane, major := majorOf o.instr,
    func := funcOfInstr o.instr, res := b, pc := o.pc, info := o.vseq.setWidth 64 }

/-- All flags of some results. -/
def flagsOf (rs : List LaneRes) : Nat := rs.foldl (fun f r => f ||| r.fl) 0

/-- The lowest lane that raised a flag of a mask. -/
def lowestLane (en : Nat) (rs : List LaneRes) : Option Nat :=
  (rs.filter fun r => r.fl &&& en != 0).foldl (fun m r => match m with
    | none => some r.lane
    | some l => some (min l r.lane)) none

/-- The late fault that an instruction leaves (R308). -/
def lateOf (o : VecOp) (lane fl : Nat) : LateFault :=
  { pc := o.pc, vseq := o.vseq, lane := lane, flags := fl, major := majorOf o.instr,
    func := funcOfInstr o.instr }

/-- A mask write is traced (R405). -/
def traceMask (s : State) (i : Instr) : State :=
  match maskDest i with
  | some k => if k = 0 then s else traceEv s s.cur 3 (k + (s.me.k k).toNat * 8)
  | none => s

/-- The oldest vector instruction of the slot `cur` ends with some work: a failed check; a late fault, which writes
nothing; or its results. -/
def endWork (s : State) (o : VecOp) (k : VecWork) : State :=
  let p := runWork s.cur.core k s
  match p.1 with
  | .bad s1 lane unit type b => errorAbort s1 s.cur (laneRecord s1 o lane unit type b)
  | .ok s1 rs =>
    let sl := s1.me.raise (flagsOf rs)
    match lowestLane sl.flagEn rs with
    | some lane => s1.setMe { sl with late := some (lateOf o lane (flagsOf rs)) }
    | none => traceMask (s1.setMe (p.2 (rs.map (·.val)) sl)) o.instr

end Sys2Proof.Machine
end

