-- ==== Sys2Proof/Machine/VecArith.lean ====
section
/-! DEFINITION. Vector arithmetic (R313 to R324): what each lane computes. `w` is a lane width, 32 or 64, and 1024 / w the
number of lanes. -/

namespace Sys2Proof.Machine

/-- Lane results of width `w` for some lanes: each lane's value, flags and unit. -/
def laneWork (w : Nat) (idx : List Nat) (f : Nat → Nat × Nat × UnitOf) (put : List Nat → Slot → Slot) : VecWork :=
  .lanes (idx.map fun i =>
    let r := f i
    { lane := w / 32 * i, w := w, val := r.1, fl := r.2.1, unit := r.2.2 }) put

/-- Results for the active lanes, each written to the destination lane. -/
def activeWork (sl : Slot) (w a km : Nat) (z : Bool) (f : Nat → Nat × Nat × UnitOf) : VecWork :=
  let idx := activeLanes sl km (1024 / w)
  laneWork w idx f (putLanes a w z idx)

/-! Floating point (R313, R314). -/

/-- The binary format of a lane width. -/
def fpOf (w : Nat) : Fmt := if w = 64 then .f64 else .f32

/-- A value rounded, with flags raised before. -/
def rndFl (f : Fmt) (m : Rm) (p : Num × Nat) : Nat × Nat :=
  let r := roundTo f m .off 0 p.1
  (r.1, r.2 ||| p.2)

/-- A pattern's sign bit cleared, inverted or set from another (R313 functions 6 to 8). -/
def signVal (f : VfFn) (w b c : Nat) : Nat :=
  let m := b % 2 ^ (w - 1)
  let s := b.testBit (w - 1)
  let t := match f with
    | .abs => false
    | .neg => !s
    | _ => c.testBit (w - 1)
  t.toNat * 2 ^ (w - 1) + m

/-- NV of signalling operands. -/
def sigFl (x y : Num) : Nat := if x.isSig || y.isSig then fNV else 0

/-- minimumNumber and maximumNumber (R313): −0 counts as less than +0. -/
def minMaxVal (fmt : Fmt) (big : Bool) (b c : Nat) : Nat × Nat :=
  let x := numOf fmt b
  let y := numOf fmt c
  let v :=
    if x.isNan && y.isNan then canonNan fmt
    else if x.isNan then c
    else if y.isNan then b
    else
      let lt := ltNum x y || (eqNum x y && x.neg && !y.neg)
      if lt != big then b else c
  (v, sigFl x y)

/-- A lane of `vf` or `vd` (R313): pattern and flags. -/
def vfVal (w : Nat) (f : VfFn) (m : Rm) (b c : Nat) : Nat × Nat :=
  let fmt := fpOf w
  let x := numOf fmt b
  let y := numOf fmt c
  match f with
  | .add => rndFl fmt m (addNum m x y)
  | .sub => rndFl fmt m (addNum m x y.negate)
  | .mul => rndFl fmt m (mulNum x y)
  | .div => rndFl fmt m (divNum x y)
  | .min => minMaxVal fmt false b c
  | .max => minMaxVal fmt true b c
  | .abs | .neg => if x.isNan then (canonNan fmt, sigFl x x) else (signVal f w b 0, 0)
  | .copysign => (if x.isNan then canonNan fmt else signVal .copysign w b c, sigFl x y)

/-- The unit that checks a function of `vf` (R310): what selects or changes a sign is checked by parity. -/
def vfUnit (w : Nat) (f : VfFn) (m : Rm) (b c : Nat) : UnitOf :=
  let r : Rounding := ⟨fpOf w, m, .off, 0⟩
  sigUnit (stages2 (fpOf w) b c fun x y =>
    match f with
    | .add => addStages r x y
    | .sub => addStages r x { y with neg := !y.neg }
    | .mul => mulStages r x y
    | .div => if y.mag = 0 then [] else divStages r x y
    | _ => [])

/-- `vf` and `vd`. -/
def vfWork (w : Nat) (f : VfFn) (v : VFlags) (a b c : Reg) (sl : Slot) (o : VecOp) : VecWork :=
  let m := effModeNoSr sl v.rm
  activeWork sl w a.toNat v.km.toNat v.z fun i =>
    let x := laneOf (sl.v b.toNat) w i
    let y := cLane sl o v c w i
    let r := vfVal w f m x y
    (r.1, r.2, vfUnit w f m x y)

/-- A lane of `vfma` (R314): the product, the sum, one rounding. -/
def fmaVal (w : Nat) (f : FmaFn) (m : Rm) (b c d : Nat) : Nat × Nat :=
  let fmt := fpOf w
  let p := mulNum (numOf fmt b) (numOf fmt c)
  let x := match f with
    | .fma | .fms => p.1
    | .fnma | .fnms => p.1.negate
  let y := match f with
    | .fma | .fnma => numOf fmt d
    | .fms | .fnms => (numOf fmt d).negate
  let s := addNum m x y
  rndFl fmt m (s.1, s.2 ||| p.2)

/-- The unit that checks a lane of `vfma`. -/
def fmaUnit (w : Nat) (f : FmaFn) (m : Rm) (b c d : Nat) : UnitOf :=
  let fmt := fpOf w
  sigUnit (match sigOf fmt d with
    | none => []
    | some z =>
      stages2 fmt b c fun x y =>
        match f with
        | .fma => fmaStages ⟨fmt, m, .off, 0⟩ x y z false
        | .fms => fmaStages ⟨fmt, m, .off, 0⟩ x y { z with neg := !z.neg } false
        | .fnma => fmaStages ⟨fmt, m, .off, 0⟩ x y z true
        | .fnms => fmaStages ⟨fmt, m, .off, 0⟩ x y { z with neg := !z.neg } true)

def vfmaWork (w : Nat) (f : FmaFn) (v : VFlags) (a b c d : Reg) (sl : Slot) (o : VecOp) : VecWork :=
  let m := effModeNoSr sl v.rm
  activeWork sl w a.toNat v.km.toNat v.z fun i =>
    let x := laneOf (sl.v b.toNat) w i
    let y := cLane sl o v c w i
    let z := laneOf (sl.v d.toNat) w i
    let r := fmaVal w f m x y z
    (r.1, r.2, fmaUnit w f m x y z)

/-! Integers (R315). -/

/-- An integer clamped to [lo, hi] as a `w`-bit pattern, with SAT. -/
def clampVal (w : Nat) (lo hi x : Int) : Nat × Nat :=
  if x < lo then ((lo % (2 ^ w : Nat)).toNat, fSAT)
  else if hi < x then ((hi % (2 ^ w : Nat)).toNat, fSAT)
  else ((x % (2 ^ w : Nat)).toNat, 0)

/-- The limits of signed `w`-bit numbers. -/
def sMin (w : Nat) : Int := -(2 ^ (w - 1) : Nat)
def sMax (w : Nat) : Int := (2 ^ (w - 1) : Nat) - 1

/-- A lane of `vi` (R315): pattern and flags. -/
def viVal (w : Nat) (f : ViFn) (a b : Nat) : Nat × Nat :=
  let x : Int := sxInt a w
  let y : Int := sxInt b w
  let n := b % w
  let wrap (i : Int) : Nat := (i % (2 ^ w : Nat)).toNat
  match f with
  | .add => ((a + b) % 2 ^ w, 0)
  | .sub => (wrap ((a : Int) - b), 0)
  | .mul => (a * b % 2 ^ w, 0)
  | .mulh => (wrap (x * y / (2 ^ w : Nat)), 0)
  | .mulhu => (a * b / 2 ^ w, 0)
  | .and => (a &&& b, 0)
  | .or => (a ||| b, 0)
  | .xor => (a ^^^ b, 0)
  | .andn => (a &&& (2 ^ w - 1 - b), 0)
  | .sll => (a * 2 ^ n % 2 ^ w, 0)
  | .srl => (a / 2 ^ n, 0)
  | .sra => (wrap (x / (2 ^ n : Nat)), 0)
  | .min => (if y < x then b else a, 0)
  | .max => (if x < y then b else a, 0)
  | .minu => (min a b, 0)
  | .maxu => (max a b, 0)
  | .adds => clampVal w (sMin w) (sMax w) (x + y)
  | .addus => clampVal w 0 ((2 ^ w : Nat) - 1) ((a : Int) + b)
  | .subs => clampVal w (sMin w) (sMax w) (x - y)
  | .subus => clampVal w 0 ((2 ^ w : Nat) - 1) ((a : Int) - b)
  | .abs => (wrap x.natAbs, 0)

/-- The product relation of a lane whose high half, as produced, is `hi`: the signed form is corrected back to the
unsigned one (R59). -/
def mulhCheck (w : Nat) (signed : Bool) (a b hi : Nat) : Nat × Nat :=
  let fix := if signed then (if a.testBit (w - 1) then b else 0) + (if b.testBit (w - 1) then a else 0) else 0
  let hiU := (hi + fix) % 2 ^ w
  ((res hiU * 2 ^ w + res (a * b % 2 ^ w)) % 15, res a * res b % 15)

/-- A sum or difference of the adder of an integer lane, with the lane's result as it follows from what the adder
produces (R310). -/
def laneAdd (w a b : Nat) (fin : Nat → Nat) : UnitOf :=
  ⟨1, .stages [{ right := (a + b) % 2 ^ w, width := w, check := fun s => (res s, predAdd w a b), fin := fin }]⟩

def laneSub (w a b : Nat) (fin : Nat → Nat) : UnitOf :=
  ⟨1, .stages [{ right := (2 ^ w + a - b) % 2 ^ w, width := w, check := fun s => (res s, predSub w a b), fin := fin }]⟩

/-- A signed result of the adder saturated: `over` where it overflows, which shows as a sign other than `neg`. -/
def satSigned (w : Nat) (may neg : Bool) (s : Nat) : Nat :=
  if may && s.testBit (w - 1) != neg then (if neg then 2 ^ (w - 1) else 2 ^ (w - 1) - 1) else s

/-- The unit that checks a function of `vi` (R310): minima, maxima and saturation are taken from the adder's output. -/
def viUnit (w : Nat) (f : ViFn) (a b : Nat) : UnitOf :=
  let sa := a.testBit (w - 1)
  let sb := b.testBit (w - 1)
  match f with
  | .add => unitAdd w a b
  | .sub => unitSub w a b
  | .min => laneSub w a b fun d => if ltOfDiff w true a b d then a else b
  | .max => laneSub w a b fun d => if ltOfDiff w true a b d then b else a
  | .minu => laneSub w a b fun d => if ltOfDiff w false a b d then a else b
  | .maxu => laneSub w a b fun d => if ltOfDiff w false a b d then b else a
  | .adds => laneAdd w a b (satSigned w (sa == sb) sa)
  | .subs => laneSub w a b (satSigned w (sa != sb) sa)
  | .addus => laneAdd w a b fun s => if 2 ^ w ≤ a + b then 2 ^ w - 1 else s
  | .subus => laneSub w a b fun s => if a < b then 0 else s
  | .abs => laneSub w 0 a fun s => if sa then s else a
  | .mul => ⟨1, .product fun lo => ((res (a * b / 2 ^ w) * 2 ^ w + res lo) % 15, res a * res b % 15)⟩
  | .mulh => ⟨1, .product (mulhCheck w true a b)⟩
  | .mulhu => ⟨1, .product (mulhCheck w false a b)⟩
  | .and | .or | .xor | .andn | .sll | .srl | .sra => logicUnit

def viWork (w : Nat) (f : ViFn) (v : VFlags) (a b c : Reg) (sl : Slot) (o : VecOp) : VecWork :=
  activeWork sl w a.toNat v.km.toNat v.z fun i =>
    let x := laneOf (sl.v b.toNat) w i
    let y := cLane sl o v c w i
    let r := viVal w f x y
    (r.1, r.2, viUnit w f x y)

/-! Compares (R316). -/

/-- The lane width of a compare. -/
def cmpWidth : VcmpTy → Nat
  | .f32 | .i32 => 32
  | .f64 | .i64 => 64

/-- A floating compare: 0 or 1, and flags. -/
def fcmpVal (w : Nat) (c : VcmpCond) (b d : Nat) : Nat × Nat :=
  let x := numOf (fpOf w) b
  let y := numOf (fpOf w) d
  let un := x.isNan || y.isNan
  let sg := sigFl x y
  let nv := if un then fNV else 0
  match c with
  | .eq => ((eqNum x y).toNat, sg)
  | .ne => ((!eqNum x y).toNat, sg)
  | .lt => ((!un && ltNum x y).toNat, nv)
  | .le => ((!un && !ltNum y x).toNat, nv)
  | .gt => ((!un && ltNum y x).toNat, nv)
  | .ge => ((!un && !ltNum x y).toNat, nv)
  | .unordLtu => (un.toNat, sg)
  | .ordGeu => ((!un).toNat, sg)

/-- An integer compare of a and b from their difference `d` as the adder forms it. -/
def icmpVal (w : Nat) (c : VcmpCond) (a b d : Nat) : Bool :=
  let eq := d == 0
  let lt := ltOfDiff w true a b d
  let ltu := ltOfDiff w false a b d
  match c with
  | .eq => eq
  | .ne => !eq
  | .lt => lt
  | .le => lt || eq
  | .gt => !(lt || eq)
  | .ge => !lt
  | .unordLtu => ltu
  | .ordGeu => !ltu

/-- Bits of a mask written for lanes of `n`, with inactive lanes unchanged or zero; a 64-bit lane has two bits. -/
def putMask (k n : Nat) (z : Bool) (idx : List Nat) (bs : List Bool) (sl : Slot) : Slot :=
  let one (m : BitVec 32) (p : Nat × Bool) : BitVec 32 :=
    let sel := BitVec.ofNat 32 ((2 ^ laneStep n - 1) * 2 ^ (laneStep n * p.1))
    if p.2 then m ||| sel else m &&& ~~~sel
  sl.setK k ((idx.zip bs).foldl one (if z then 0 else sl.k k))

def vcmpWork (c : VcmpCond) (t : VcmpTy) (v : VFlags) (a : BitVec 3) (b cc : Reg) (sl : Slot) (o : VecOp) : VecWork :=
  let w := cmpWidth t
  let idx := activeLanes sl v.km.toNat (1024 / w)
  let x (i : Nat) : Nat := laneOf (sl.v b.toNat) w i
  let y (i : Nat) : Nat := cLane sl o v cc w i
  match t with
  | .f32 | .f64 =>
    laneWork w idx (fun i => let r := fcmpVal w c (x i) (y i); (r.1, r.2, logicUnit))
      fun vs => putMask a.toNat (1024 / w) v.z idx (vs.map fun r => r % 2 == 1)
  | .i32 | .i64 =>
    laneWork w idx (fun i => ((viVal w .sub (x i) (y i)).1, 0, unitSub w (x i) (y i)))
      fun vs => putMask a.toNat (1024 / w) v.z idx ((idx.zip vs).map fun p => icmpVal w c (x p.1) (y p.1) p.2)

/-! Blend, permutations, masks, moves (R317, R320, R321, R323). -/

def vselWork (w : Nat) (km : Nat) (a b c : Reg) (sl : Slot) : VecWork :=
  let n := 1024 / w
  let idx := natsFrom 0 n
  laneWork w idx (fun i =>
    (laneOf (sl.v (if laneActive (sl.k km) n i then b.toNat else c.toNat)) w i, 0, logicUnit))
    (putLanes a.toNat w false idx)

/-- Lane `i` of `vperm` (R320), with gD as captured. -/
def permVal (f : VpermFn) (b c d : Nat → Nat) (g i : Nat) : Nat :=
  let n := min g 32
  match f with
  | .perm => b (c i % 32)
  | .perm2 => let j := c i % 64; if j < 32 then b j else d (j - 32)
  | .sldn => if i + n ≤ 31 then b (i + n) else 0
  | .slup => if n ≤ i then b (i - n) else 0
  | .bcast => b (g % 32)
  | .zlo => if i % 2 = 0 then b (i / 2) else c ((i - 1) / 2)
  | .zhi => if i % 2 = 0 then b (16 + i / 2) else c (16 + (i - 1) / 2)
  | .uzev => if i < 16 then b (2 * i) else c (2 * i - 32)
  | .uzod => if i < 16 then b (2 * i + 1) else c (2 * i - 31)

def vpermWork (f : VpermFn) (z : Bool) (km : Nat) (a b c d : Reg) (sl : Slot) (o : VecOp) : VecWork :=
  activeWork sl 32 a.toNat km z fun i =>
    (permVal f (laneOf (sl.v b.toNat) 32) (laneOf (sl.v c.toNat) 32) (laneOf (sl.v d.toNat) 32)
      (if f.usesG then (o.sc d).toNat else 0) i, 0, logicUnit)

/-- `vmsk` (R321), the value for kA or gA. -/
def vmskVal (f : VmskFn) (x y g : Nat) : Nat :=
  match f with
  | .and => x &&& y
  | .or => x ||| y
  | .xor => x ^^^ y
  | .andn => x &&& (2 ^ 32 - 1 - y)
  | .not => 2 ^ 32 - 1 - x
  | .fromg => g % 2 ^ 32
  | .tog => x
  | .popc => popcount x
  | .ffs => ((natsFrom 0 32).find? fun i => x.testBit i).getD 32
  | .first => 2 ^ min g 32 - 1

/-- Whether a function of `vmsk` writes a general register. -/
def VmskFn.toG : VmskFn → Bool
  | .tog | .popc | .ffs => true
  | _ => false

/-- Whether a function of `vmsk` reads gB. -/
def VmskFn.fromG : VmskFn → Bool
  | .fromg | .first => true
  | _ => false

/-- One result of width `w`, in lane 0. -/
def oneWork (w v fl : Nat) (u : UnitOf) (put : Nat → Slot → Slot) : VecWork :=
  .lanes [{ lane := 0, w := w, val := v, fl := fl, unit := u }] fun vs => put (vs.getD 0 0)

def vmskWork (f : VmskFn) (a b c : Reg) (sl : Slot) (o : VecOp) : VecWork :=
  let v := vmskVal f (sl.k b.toNat).toNat (sl.k c.toNat).toNat (if VmskFn.fromG f then (o.sc b).toNat else 0)
  oneWork 32 v 0 logicUnit fun x u =>
    if VmskFn.toG f then u.setG a.toNat (BitVec.ofNat 64 x) else u.setK a.toNat (BitVec.ofNat 32 x)

def vmovWork (f : VmovFn) (z : Bool) (km : Nat) (a b c : Reg) (sl : Slot) (o : VecOp) : VecWork :=
  let g := (o.sc b).toNat
  let n := (o.sc c).toNat
  match f with
  | .mov => activeWork sl 32 a.toNat km z fun i => (laneOf (sl.v b.toNat) 32 i, 0, logicUnit)
  | .bc32 => activeWork sl 32 a.toNat km z fun _ => (g % 2 ^ 32, 0, logicUnit)
  | .bc64 => activeWork sl 64 a.toNat km z fun _ => (g, 0, logicUnit)
  | .ins32 => laneWork 32 [n % 32] (fun _ => (g % 2 ^ 32, 0, logicUnit)) (putLanes a.toNat 32 false [n % 32])
  | .ins64 => laneWork 64 [n % 16] (fun _ => (g, 0, logicUnit)) (putLanes a.toNat 64 false [n % 16])
  | .ext32 => oneWork 32 (laneOf (sl.v b.toNat) 32 (n % 32)) 0 logicUnit fun x u => u.setG a.toNat (BitVec.ofNat 64 x)
  | .ext64 => oneWork 64 (laneOf (sl.v b.toNat) 64 (n % 16)) 0 logicUnit fun x u => u.setG a.toNat (BitVec.ofNat 64 x)
  | .iota => activeWork sl 32 a.toNat km z fun i => ((g + i) % 2 ^ 32, 0, unitAdd 32 (g % 2 ^ 32) i)

/-! Special functions (R322). -/

/-- The unit that checks a lane of `vspec`: a division, a square root, or, where a series gives the result, its
rounding. -/
def specUnit (f : Fmt) (fn : VspecFn) (m : Rm) (v : Nat) : UnitOf :=
  let r : Rounding := ⟨f, m, .off, 0⟩
  let y := (specVal f fn m v).1
  sigUnit (match sigOf f v with
    | none => []
    | some x =>
      if x.mag = 0 then []
      else
        let num := x.mag * twoNum x.exp
        let den := twoDen x.exp
        match fn with
        | .rcp => divStages r ⟨false, 1, 0⟩ x
        | .sqrt => if x.neg then [] else sqrtStages r y num den
        | .rsqrt => if x.neg then [] else sqrtStages r y den num
        | .exp2 => [incStage y]
        | .log2 => if x.neg then [] else [incStage y])

def vspecWork (w : Nat) (f : VspecFn) (rm : BitVec 3) (z : Bool) (km : Nat) (a b : Reg) (sl : Slot) : VecWork :=
  let m := effModeNoSr sl rm
  activeWork sl w a.toNat km z fun i =>
    let x := laneOf (sl.v b.toNat) w i
    let r := specVal (fpOf w) f m x
    (r.1, r.2, specUnit (fpOf w) f m x)

/-! Reductions (R318, R319). -/

/-- The lane width of a reduction, the identity of its operation, and whether its result is sign-extended. -/
def redSpec : VredFn → Nat × Nat × Bool
  | .addF32 => (32, 0x80000000, false)
  | .maxF32 => (32, 0xFF800000, false)
  | .minF32 => (32, 0x7F800000, false)
  | .addF64 => (64, 0x8000000000000000, false)
  | .maxF64 => (64, 0xFFF0000000000000, false)
  | .minF64 => (64, 0x7FF0000000000000, false)
  | .addI32 => (32, 0, true)
  | .addI64 => (64, 0, true)
  | .maxI32 => (32, 0x80000000, true)
  | .minI32 => (32, 0x7FFFFFFF, true)
  | .maxI64 => (64, 0x8000000000000000, true)
  | .minI64 => (64, 0x7FFFFFFFFFFFFFFF, true)
  | .bsiF32 => (32, 0, false)

/-- A node of the tree. -/
def redNode (f : VredFn) (x y : Nat) : Nat × Nat :=
  match f with
  | .addF32 => vfVal 32 .add .rne x y
  | .maxF32 => vfVal 32 .max .rne x y
  | .minF32 => vfVal 32 .min .rne x y
  | .addF64 => vfVal 64 .add .rne x y
  | .maxF64 => vfVal 64 .max .rne x y
  | .minF64 => vfVal 64 .min .rne x y
  | .addI32 => viVal 32 .add x y
  | .addI64 => viVal 64 .add x y
  | .maxI32 => viVal 32 .max x y
  | .minI32 => viVal 32 .min x y
  | .maxI64 => viVal 64 .max x y
  | .minI64 => viVal 64 .min x y
  | .bsiF32 => (0, 0)

/-- The unit that checks a node (R310). -/
def redUnit (f : VredFn) (x y : Nat) : UnitOf :=
  match f with
  | .addF32 => vfUnit 32 .add .rne x y
  | .addF64 => vfUnit 64 .add .rne x y
  | .addI32 => unitAdd 32 x y
  | .addI64 => unitAdd 64 x y
  | .maxI32 => viUnit 32 .max x y
  | .minI32 => viUnit 32 .min x y
  | .maxI64 => viUnit 64 .max x y
  | .minI64 => viUnit 64 .min x y
  | _ => logicUnit

/-- The exponent of the lowest set bit of a nonzero natural number, from a bound on its bits. -/
def lowBit (v : Nat) : Nat := ((natsFrom 0 (Nat.log2 v + 1)).find? fun i => v.testBit i).getD 0

/-- A finite value as m x 2^t with m odd or 0. -/
def oddForm (x : Num) : Int × Int :=
  match x with
  | .fin s n d => if n = 0 then (0, 0) else (sgn s (n / 2 ^ lowBit n), (lowBit n : Int) - Nat.log2 d)
  | _ => (0, 0)

/-- Halving a sum until it lies below 2^95: sum, exponent, and whether a nonzero bit was dropped (R319). -/
def bsiShrink : Nat → Int → Int → Bool → Int × Int × Bool
  | 0, s, e, x => (s, e, x)
  | n + 1, s, e, x => if s.natAbs < 2 ^ 95 then (s, e, x) else bsiShrink n (s / 2) (e + 1) (x || s % 2 != 0)

/-- The addends of the exact sum of some finite values, at the smallest exponent that one of them has. -/
def bsiTerms (xs : List Num) : List Int × Int :=
  let ts := (xs.map oddForm).filter fun p => p.1 != 0
  match ts with
  | [] => ([], 0)
  | p :: rest =>
    let e := rest.foldl (fun m q => min m q.2) p.2
    (ts.map fun q => q.1 * twoNum (q.2 - e), e)

/-- The container of an exact sum at an exponent, and whether NX is set (R319). -/
def bsiOfSum (sum e : Int) : Bsi × Nat :=
  let (s, e1, x) := bsiShrink 512 sum e false
  ({ i := s, e := e1, fl := if x then 16 else 0 }, if x then fNX else 0)

/-- The container that `vred.bsi` makes of the active lanes, and whether NX is set (R319). -/
def bsiRed (xs : List Num) : Bsi × Nat :=
  let pos := xs.any fun x => x == .inf false
  let neg := xs.any fun x => x == .inf true
  if xs.any Num.isNan || (pos && neg) then ({ i := 0, e := 0, fl := 1 }, 0)
  else if pos then ({ i := 0, e := 0, fl := 2 }, 0)
  else if neg then ({ i := 0, e := 0, fl := 4 }, 0)
  else let t := bsiTerms xs; bsiOfSum (t.1.foldl (· + ·) 0) t.2

/-- An integer as a pattern of some bits. -/
def patOf (w : Nat) (i : Int) : Nat := (i % (2 ^ w : Nat)).toNat

/-- The adder of `vred.bsi`: the sum of the aligned addends over 512 bits, with what is halved off it taken from the
sum. -/
def bsiRedUnit (xs : List Num) : UnitOf :=
  if xs.any fun x => (match x with | .fin .. => false | _ => true) then logicUnit
  else
    let t := bsiTerms xs
    let ps := t.1.map (patOf 512)
    let total := ps.foldl (· + ·) 0
    ⟨1, .stages [{ right := total % 2 ^ 512, width := 512,
                   check := fun s => (res s, resOfInt (((ps.map res).foldl (· + ·) 0 : Nat) - (total / 2 ^ 512 : Nat))),
                   fin := fun s => (bsiOfSum (sxInt s 512) t.2).1.bits }]⟩

/-- The 96-bit adder of a container: `x` plus `y`, and the container that follows from the sum produced; a sum beyond
96 bits saturates whatever its low bits (R226). -/
def bsiAdder (x y : Int) (fin : Nat → Nat) : UnitOf :=
  let a := patOf 96 x
  let b := patOf 96 y
  ⟨1, .stages [{ right := (a + b) % 2 ^ 96, width := 96, check := fun s => (res s, predAdd 96 a b), fin := fin }]⟩

/-- A container with the integer that its adder produced, unless the sum is `out` of the limits of I. -/
def contWith (b : Bsi) (out : Bool) (v : Nat) : Nat := if out then b.bits else { b with i := sxInt v 96 }.bits

/-- The adder of `bsi_add` on two containers (R226, R310). -/
def bsiAddUnit (m v : Bsi) : UnitOf :=
  let e := bsiExp m v
  let x := m.i * twoNum (m.e - e)
  let y := v.i * twoNum (v.e - e)
  if (m.fl ||| v.fl) &&& 7 ≠ 0 then logicUnit
  else bsiAdder x y (contWith (bsiAdd m v) (decide (bsiMax < x + y) || decide (x + y < bsiMin)))

/-- `vred.bsi`: the flags of its lanes, then the sum in lane 0. -/
def bsiRedWork (a : Nat) (km : Nat) (b : Reg) (sl : Slot) : VecWork :=
  let idx := activeLanes sl km 32
  let xs := idx.map fun i => numOf .f32 (laneOf (sl.v b.toNat) 32 i)
  let r := bsiRed xs
  let fls := (idx.zip xs).filterMap fun p =>
    if p.2.isSig then some { lane := p.1, w := 1, val := 0, fl := fNV, unit := ⟨0, .parity⟩ } else none
  .lanes ({ lane := 0, w := 128, val := r.1.bits, fl := r.2, unit := bsiRedUnit xs } :: fls) fun vs u =>
    let v := vs.getD 0 0
    (u.setG a (BitVec.ofNat 64 v)).setG (a + 1) (BitVec.ofNat 64 (v / 2 ^ 64))

def vredWork (f : VredFn) (km : Nat) (a b : Reg) (sl : Slot) : VecWork :=
  if f = .bsiF32 then bsiRedWork a.toNat km b sl
  else
    let (w, idn, sx) := redSpec f
    let n := 1024 / w
    let t := (natsFrom 0 n).map fun i => if laneActive (sl.k km) n i then laneOf (sl.v b.toNat) w i else idn
    .tree (w / 32) w (redNode f) (redUnit f) t fun v u =>
      u.setG a.toNat (if sx then wordOfInt (sxInt v w) else BitVec.ofNat 64 v)

/-! Block-scaled integers (R324). -/

/-- Container `j` of a vector register. -/
def containerOf (v : BitVec 1024) (j : Nat) : Bsi := bsiOf (laneOf v 128 j)

/-- A value converted to a container at exponent `e` (R324): the container and the flags it raises. -/
def bsiCvt (x : Num) (e : Int) : Bsi × Nat :=
  match x with
  | .nan sig => ({ i := 0, e := 0, fl := 1 }, if sig then fNV else 0)
  | .inf s => ({ i := 0, e := 0, fl := if s then 4 else 2 }, 0)
  | .fin s n d =>
    let num : Int := sgn s (n * twoDen e)
    let den := d * twoNum e
    let q := num / (den : Int)
    let inx := if num % (den : Int) = 0 then 0 else 16
    if bsiMax < q then ({ i := bsiMax, e := e, fl := inx + 8 }, fSAT + if inx = 0 then 0 else fNX)
    else if q < bsiMin then ({ i := bsiMin, e := e, fl := inx + 8 }, fSAT + if inx = 0 then 0 else fNX)
    else ({ i := q, e := e, fl := inx }, if inx = 0 then 0 else fNX)

/-- A container's value: NaN first, both infinities NaN (R276). -/
def bsiNum (b : Bsi) : Num :=
  if bsiNan b.fl || (bsiPos b.fl && bsiNeg b.fl) then .nan false
  else if bsiPos b.fl then .inf false
  else if bsiNeg b.fl then .inf true
  else (numOfInt b.i).scale b.e

/-- Eight containers written, with their flags and units; `lane` is the lane that produces each. -/
def containerWork (a : Nat) (lane : Nat → Nat) (bs : List ((Bsi × Nat) × UnitOf)) : VecWork :=
  .lanes (bs.zipIdx.map fun p =>
    { lane := lane p.2, w := 128, val := p.1.1.1.bits, fl := p.1.1.2, unit := p.1.2 })
    (putLanes a 128 false (natsFrom 0 8))

/-- Containers rounded into the lanes of segment p. -/
def bsiRndWork (w : Nat) (rm : BitVec 3) (p a b : Nat) (sl : Slot) : VecWork :=
  let m := effModeNoSr sl rm
  let idx := natsFrom (8 * p) 8
  laneWork w idx (fun i =>
    let c := containerOf (sl.v b) (i - 8 * p)
    let r := roundTo (fpOf w) m .off 0 (bsiNum c)
    let st := if c.fl &&& 7 ≠ 0 then [] else roundStages ⟨fpOf w, m, .off, 0⟩ ⟨decide (c.i < 0), c.i.natAbs, c.e⟩
    (r.1, r.2, sigUnit st)) (putLanes a w false idx)

def vbsiWork (f : VbsiFn) (rm : BitVec 3) (p : BitVec 2) (a b c : Reg) (sl : Slot) (o : VecOp) : VecWork :=
  let vb := sl.v b.toNat
  let cvt (w : Nat) : VecWork := containerWork a.toNat (fun j => w / 32 * (8 * p.toNat + j)) ((natsFrom 0 8).map fun j =>
    let x := numOf (fpOf w) (laneOf vb w (8 * p.toNat + j))
    let r := bsiCvt x (baseExp (o.sc c))
    (r, if r.1.fl &&& 7 ≠ 0 then logicUnit else bsiAdder r.1.i 0 (contWith r.1 false)))
  match f with
  | .cvtF32 => cvt 32
  | .cvtF64 => cvt 64
  | .add => containerWork a.toNat (fun j => 4 * j) ((natsFrom 0 8).map fun j =>
      let x := containerOf vb j
      let y := containerOf (sl.v c.toNat) j
      ((bsiAdd x y, 0), bsiAddUnit x y))
  | .rndF32 => bsiRndWork 32 rm p.toNat a.toNat b.toNat sl
  | .rndF64 => bsiRndWork 64 rm p.toNat a.toNat b.toNat sl

end Sys2Proof.Machine
end

