-- ==== Sys2Proof/Machine/VecConv.lean ====
section
/-! DEFINITION. Vector conversions (R295 to R300): what each of them makes of its elements, and their dispatch. -/

namespace Sys2Proof.Machine

/-- Bits of a vector register from `lo` on. -/
def elemAt (v : BitVec 1024) (lo w : Nat) : Nat := v.toNat / 2 ^ lo % 2 ^ w

/-- Conversion results for some elements, one in each lane, written from bit `base` of vA on. -/
def elemWork (a n w base : Nat) (idx : List Nat) (f : Nat → (Nat × Nat) × UnitOf) : VecWork :=
  .lanes (idx.map fun i =>
    let r := f i
    { lane := laneStep n * i, w := w, val := r.1.1, fl := r.1.2, unit := r.2 }) (putElems a w base idx)

/-- The coordinate of element `i` (R289). -/
def coordOf (o : VecOp) (d : Reg) (i : Nat) : Nat := ((o.sc d).toNat + i) % 2 ^ 64

/-- The coordinate register where the effective mode is SR (R293). -/
def srSrc (sl : Slot) (rm : BitVec 3) (d : Reg) : List Nat := if effMode sl rm = .sr then [d.toNat] else []

/-- `vcvt` (R295): the narrower side lies in segment p. -/
def vcvtWork (rm : BitVec 3) (sat : Bool) (dst src : Fmt) (a b : Reg) (km p : Nat) (d : Reg) (sl : Slot) (o : VecOp) :
    VecWork :=
  let n := vcvtCount dst src
  let ws := src.width
  let wd := dst.width
  let m := effMode sl rm
  let sb := if ws < wd then n * ws * p else 0
  let db := if wd < ws then n * wd * p else 0
  elemWork a.toNat n wd db (activeLanes sl km n) fun i =>
    let w := drawWord m sl.fonKey (coordOf o d i)
    let v := elemAt (sl.v b.toNat) (sb + ws * i) ws
    (cvtElem dst src m (effSat sl rm sat) w v, cvtUnit dst src m (effSat sl rm sat) w v)

/-- The 32 binary32 lanes of a vector register. -/
def lanes32 (sl : Slot) (b : Reg) : List Nat := (natsFrom 0 32).map (laneOf (sl.v b.toNat) 32)

/-- `vquant` (R296). -/
def vquantWork (rm : BitVec 3) (f : Fmt) (p : Nat) (a b c d : Reg) (sl : Slot) (o : VecOp) : VecWork :=
  let m := effMode sl rm
  let be := baseExp (o.sc c)
  let dl := blockDelta f be (lanes32 sl b)
  elemWork a.toNat 32 f.width (32 * f.width * p) (natsFrom 0 32) fun i =>
    let w := drawWord m sl.fonKey (coordOf o d i)
    let v := laneOf (sl.v b.toNat) 32 i
    (quantElem f m be dl w (numOf .f32 v), quantUnit f m be dl w v)

/-- `vdeq` (R297). -/
def vdeqWork (f : Fmt) (p : Nat) (a b c d : Reg) (sl : Slot) (o : VecOp) : VecWork :=
  elemWork a.toNat 32 32 0 (natsFrom 0 32) fun i =>
    let v := elemAt (sl.v b.toNat) (32 * f.width * p + f.width * i) f.width
    (deqElem f (baseExp (o.sc c)) ((o.sc d).toNat % 16) v, deqUnit f (baseExp (o.sc c)) ((o.sc d).toNat % 16) v)

/-- The result of `vbexp` (R298). -/
def vbexpVal (delta : Bool) (f : Fmt) (g : Word) (xs : List Nat) : Word :=
  let m := amax32 xs
  if delta then BitVec.ofNat 64 (blockDelta f (baseExp g) xs)
  else if m = 0 then 0x8000000000000000
  else wordOfInt (blockXb f m)

def vbexpWork (delta : Bool) (f : Fmt) (a b c : Reg) (sl : Slot) (o : VecOp) : VecWork :=
  let v := (vbexpVal delta f (o.sc c) (lanes32 sl b)).toNat
  oneWork 64 v 0 (intUnit (res v)) fun x u => u.setG a.toNat (BitVec.ofNat 64 x)

/-- `vrng` (R299). -/
def vrngWork (a c : Reg) (sl : Slot) (o : VecOp) : VecWork :=
  let idx := natsFrom 0 32
  laneWork 32 idx (fun i => (fonWord sl.fonKey (coordOf o c i), 0, logicUnit)) (putLanes a.toNat 32 false idx)

/-- `vmxio` (R300). -/
def vmxioWork (out : Bool) (rm : BitVec 3) (f : Fmt) (p : Nat) (a b c d : Reg) (sl : Slot) (o : VecOp) : VecWork :=
  let m := effModeNoSr sl rm
  let t := mxioOf out (baseExp (o.sc c)) (o.sc d).toNat
  let base := 32 * f.width * p
  elemWork a.toNat 32 f.width base (natsFrom 0 32) fun i =>
    let v := elemAt (sl.v b.toNat) (base + f.width * i) f.width
    (mxioElem f m t v, mxioUnit f m t v)

/-! Dispatch. -/

def execVcvt (sw : Bool) (rm : BitVec 3) (sat : Bool) (dst src : Fmt) (a b : Reg) (km p : BitVec 3) (d : Reg)
    (s : State) : Host.Outcome State Fault Refusal :=
  vecDraw (.vcvt sw rm sat dst src a b km p d) sw rm d (srSrc s.me rm d) s

def execVquant (sw : Bool) (rm : BitVec 3) (f : Fmt) (p : BitVec 3) (a b c d : Reg) (s : State) :
    Host.Outcome State Fault Refusal :=
  vecDraw (.vquant sw rm f p a b c d) sw rm d (c.toNat :: srSrc s.me rm d) s

def execVdeq (sw : Bool) (f : Fmt) (p : BitVec 3) (a b c d : Reg) (s : State) : Host.Outcome State Fault Refusal :=
  vecInstr (.vdeq sw f p a b c d) sw [c.toNat, d.toNat] [] s

def execVbexp (sw : Bool) (delta : Bool) (f : Fmt) (a b c : Reg) (s : State) : Host.Outcome State Fault Refusal :=
  vecInstr (.vbexp sw delta f a b c) sw (if delta then [c.toNat] else []) [a.toNat] s

def execVrng (sw : Bool) (a c : Reg) (s : State) : Host.Outcome State Fault Refusal :=
  vecInstr (.vrng sw a c) sw [c.toNat] [] s

def execVmxio (sw : Bool) (out : Bool) (rm : BitVec 3) (sat : Bool) (f : Fmt) (p : BitVec 3) (a b c d : Reg)
    (s : State) : Host.Outcome State Fault Refusal :=
  vecRound (.vmxio sw out rm sat f p a b c d) sw rm [c.toNat, d.toNat] [] s

end Sys2Proof.Machine
end

