-- ==== Sys2Proof/Machine/VecMem.lean ====
section
/-! DEFINITION. Vector memory access (R169, R172, R173, R196, R306): addresses of elements, their checks and translation
at dispatch, `vld`, and `vst` with the entries it reserves and fills. -/

namespace Sys2Proof.Machine

/-! Elements (R172). -/

/-- log2 of a form's element size. -/
def VecW.lg : VecW → Nat
  | .s64 | .x64 => 3
  | _ => 2

/-- Whether a form is one contiguous access. -/
def VecW.isC : VecW → Bool
  | .c | .cm => true
  | _ => false

/-- Whether a form takes its index from vX. -/
def VecW.isX : VecW → Bool
  | .x32 | .x64 => true
  | _ => false

/-- The number of lanes of a form. -/
def vlanes (w : VecW) : Nat := if VecW.lg w = 3 then 16 else 32

/-- An element: its lane, the number that a record gives the lane, and its address. -/
structure VElem where
  i : Nat
  lane : Nat
  va : Nat

/-- The active lanes of a form: all for c, else those of k1. -/
def vmemLanes (sl : Slot) (w : VecW) : List Nat :=
  if w = .c then natsFrom 0 32 else activeLanes sl 1 (vlanes w)

/-- The element of a lane at an address. -/
def velem (w : VecW) (i : Nat) (a : Word) : VElem := { i := i, lane := laneStep (vlanes w) * i, va := a.toNat }

/-- The elements of an access. The base passes the AGU; the lanes add an index of vX under their own check (R63,
R173). -/
def withElems (s : State) (i : Instr) (w : VecW) (m : MemOp) (k : State → Word → List VElem → Res) : Res :=
  let lg := VecW.lg w
  if VecW.isC w then
    withEa s i m 7 fun s1 ea =>
      k s1 ea ((vmemLanes s1.me w).map fun l => velem w l (ea + BitVec.ofNat 64 (4 * l)))
  else
    withAgu s i (s.me.g m.b.toNat) 0 0 (dispOf m lg) fun s1 base =>
      let ls := vmemLanes s1.me w
      if VecW.isX w then
        let ix (l : Nat) : Nat := laneOf (s1.me.v m.x.toNat) (8 * 2 ^ lg) l % 2 ^ 32
        let outs := ls.map fun l =>
          { lane := laneStep (vlanes w) * l, w := 64, val := (base.toNat + ix l * 2 ^ lg) % 2 ^ 64, fl := 0,
            unit := ⟨2, .residue (predAgu base.toNat (ix l) lg 0)⟩ }
        match runLanes s1.cur.core outs s1 with
        | .ok s2 rs => k s2 base ((ls.zip rs).map fun p => velem w p.1 (BitVec.ofNat 64 p.2.val))
        | .bad s2 lane u t b => .error s2 (laneRecord s2 (vecOp s2.me i [] []) lane u t b)
      else k s1 base (ls.map fun l => velem w l (base + BitVec.ofNat 64 (l * (s1.me.g m.x.toNat).toNat)))

/-! Checks and translation (R173, R375). -/

/-- A precise fault of a vector access: the lane and the VSEQ that the instruction would have taken. -/
def vecTrap (s : State) (i : Instr) (code cause lane a : Nat) : Res :=
  .trap { faultOf s i code cause (BitVec.ofNat 64 a) with lane := lane, vseq := s.me.vseq.toNat }

/-- What the lanes of an access raise once they are translated, the lowest lane standing: frames of running strands and
device registers (R36, R375, R399). -/
def laneTrap (s : State) (i : Instr) (ps : List (VElem × MPart)) : Option Res :=
  ps.findSome? fun q =>
    if q.2.view == 0 && inLiveFrame s q.2.pa q.2.n then some (vecTrap s i 4 34 q.1.lane q.1.va)
    else if q.2.kind == .io then
      some (if s.me.super then vecTrap s i 2 0 q.1.lane q.1.va else vecTrap s i 4 31 q.1.lane q.1.va)
    else none

/-- Translate elements of `n` bytes in order, the first failure standing, behind what a lane below it raises (R375);
`done` are the lanes so far, and what their translations did stands. -/
def vecTrans (i : Instr) (acc : Access) (n : Nat) (done : List (VElem × MPart)) :
    List VElem → State → (State → List (VElem × MPart) → Res) → Res
  | [], s, k => k s done
  | x :: rest, s, k =>
    let low (s1 : State) (r : Res) : Res := ((laneTrap s1 i done).getD r).keeping s1
    match translate s (slotCtx s s.cur false) acc x.va n with
    | (s1, .fault code cause) => low s1 (vecTrap s1 i code cause x.lane x.va)
    | (s1, .moving) => low s1 (movingRes s1 x.va)
    | (s1, .abort a) => low s1 (memAbort s1 i x.va a x.lane (s1.me.vseq.setWidth 64))
    | (s1, .ok e pa) =>
      (vecTrans i acc n (done ++ [(x, { va := x.va, pa := pa, n := n, e := e })]) rest s1 k).keeping s1

/-- What is found after translation: pages that a contiguous access may not mix (R169), then what its lanes raise. -/
def vecPartTrap (s : State) (i : Instr) (w : VecW) (ea : Word) (ps : List (VElem × MPart)) : Option Res :=
  let mixed : Option (VElem × MPart) := match ps with
    | [] => none
    | p :: rest => if VecW.isC w then rest.find? fun (q : VElem × MPart) => !samePage p.2 q.2 else none
  match mixed with
  | some q => some (vecTrap s i 2 0 q.1.lane ea.toNat)
  | none => laneTrap s i ps

/-- Whether a form reads the mask or vX, so that dispatch waits for the instructions before it. -/
def readsVu (w : VecW) : Bool := w != .c

/-- The elements of an access, aligned, translated and checked. -/
def withVecParts (s : State) (i : Instr) (acc : Access) (w : VecW) (m : MemOp)
    (k : State → Word → List (VElem × MPart) → Res) : Res :=
  if 32 ≤ s.me.vq.length || (readsVu w && !s.me.vq.isEmpty) then .stall s .vectorBusy
  else
    withElems s i w m fun s1 ea xs =>
      match xs.find? fun x => x.va % 2 ^ VecW.lg w != 0 with
      | some x => vecTrap s1 i 2 0 x.lane x.va
      | none =>
        vecTrans i acc (2 ^ VecW.lg w) [] xs s1 fun s2 ps =>
          match vecPartTrap s2 i w ea ps with
          | some r => r
          | none => k s2 ea ps

/-- VSEQ alone is taken: an instruction that is discarded, or whose access is performed at dispatch. -/
def takeVseq (s : State) : State := s.setMe { s.me with vseq := s.me.vseq + 1 }

/-- Whether some part is accessed directly. -/
def vecDirect (s : State) (ps : List (VElem × MPart)) : Bool := storesDirect s (ps.map (·.2))

/-! `vld`. -/

/-- The parts that note a read: one a line, and every part of a view. -/
def notedParts : List MPart → List Nat → List MPart
  | [], _ => []
  | p :: r, seen =>
    if p.view = 0 && seen.contains (lineOf p.va) then notedParts r seen else p :: notedParts r (lineOf p.va :: seen)

/-- The bytes are read at dispatch, after every access before it, and enter the ring with the instruction. -/
def vldLoad (s : State) (i : Instr) (m : MemOp) (ps : List (VElem × MPart)) : Res :=
  let parts := ps.map (·.2)
  if vecDirect s ps && !s.me.vq.isEmpty then .stall s .vectorBusy
  else
    match (ordWait s m.ord m.scp parts).orElse fun _ => loadWait s parts with
    | some w => .stall s w
    | none =>
      match ps.find? fun q => partAborts s q.2 with
      | some q => memAbort s i q.2.va q.2.pa q.1.lane (s.me.vseq.setWidth 64)
      | none =>
        let vals := ps.map fun q => (q.1.i, q.1.va, leOf (partBytes s q.2))
        let s1 := parts.foldl softPart s
        let s2 := (notedParts parts []).foldl (fun u p => noteRead u m.evp.toNat p) s1
        .done (enterRing s2 (vecOp s2.me i [] vals) [])

/-- `vld` (R172, R173). -/
def vldBody (i : Instr) (w : VecW) (m : MemOp) (s : State) : Res :=
  withVecParts s i .load w m fun s1 _ ps =>
    if s1.me.late.isSome then .done (takeVseq s1) else vldLoad s1 i m ps

/-- What a `vld` writes: each active lane. -/
def vldWork (w : VecW) (a : Reg) (o : VecOp) : VecWork :=
  let b := 8 * 2 ^ VecW.lg w
  .lanes (o.elems.map fun e => { lane := e.1, w := b, val := e.2.2, fl := 0, unit := ⟨0, .parity⟩ })
    (putLanes a.toNat b false (o.elems.map (·.1)))

/-! `vst`. -/

/-- The entries that a `vst` reserves, which the limit of 512 sees (R173; assumption log 86). -/
def vstCount (w : VecW) : Nat :=
  match w with
  | .s32 | .x32 => 32
  | _ => 16

/-- The stores of a `vst` performed now: each element directly, or entered in the buffer. -/
def vstNow (w : VecW) (a : Reg) (evp : Nat) (ps : List (VElem × MPart)) (s : State) : State :=
  let v := s.me.v a.toNat
  healLost (ps.foldl (fun u q =>
    let x := laneOf v (8 * 2 ^ VecW.lg w) q.1.i
    if u.me.irrev || q.2.kind == .scratch then directStore u evp q.2 x else bufferStore u evp q.2 x) s)
    (if s.me.irrev then ps.map fun q => (q.2.pa, q.2.n) else [])

/-- The page entries that the elements of a `vst` went through, each once. -/
def usedEntries (ps : List (VElem × MPart)) : List UsedTrans :=
  ps.foldl (fun l q => if l.contains (usedOf q.2.e) then l else l ++ [usedOf q.2.e]) []

/-- The entries are reserved and the instruction enters the ring. -/
def vstReserve (s : State) (i : Instr) (w : VecW) (evp : Nat) (ps : List (VElem × MPart)) : State :=
  let o := { vecOp s.me i [] (ps.map fun q => (q.1.i, q.2.va, q.2.pa)) with attrs := ps.map fun q => q.2.attr evp }
  let s1 := enterRing s o []
  s1.setMe { s1.me with reserved := s1.me.reserved + vstCount w, trans := s1.me.trans ++ usedEntries ps }

/-- Why a `vst` waits at issue: its ordering, a store before it, or room for its reservations. -/
def vstWait (s : State) (w : VecW) (m : MemOp) (ps : List (VElem × MPart)) : Option StallWhy :=
  let parts := ps.map (·.2)
  match (ordWait s m.ord m.scp parts).orElse fun _ => storeWait s parts (vstCount w) with
  | some x => some x
  | none =>
    if vecDirect s ps && (ps.any fun q => q.2.kind != .scratch) && bufFull s.me (vstCount w) then some .commitToken
    else none

/-- `vst` (R172, R173, R306). -/
def vstBody (i : Instr) (w : VecW) (a : Reg) (m : MemOp) (s : State) : Res :=
  withVecParts s i .store w m fun s1 _ ps =>
    if vecDirect s1 ps && !s1.me.vq.isEmpty then .stall s1 .vectorBusy
    else
      match vstWait s1 w m ps with
      | some r => .stall s1 r
      | none =>
        if s1.me.late.isSome then .done (takeVseq s1)
        else if vecDirect s1 ps then .done (vstNow w a m.evp.toNat ps (takeVseq s1))
        else .done (vstReserve s1 i w m.evp.toNat ps)

/-- One more element of a `vst` in the buffer: the second half of an aligned 8-byte unit of a contiguous access joins
the entry of the first half. -/
def addVst (w : VecW) (v : BitVec 1024) (buf : List BufEntry) (e : (Nat × Nat × Nat) × LineAttr) : List BufEntry :=
  let n := 2 ^ VecW.lg w
  let x := laneOf v (8 * n) e.1.1
  let own := buf ++ [.store e.1.2.2 e.1.2.1 n x e.2]
  match buf.getLast? with
  | some (.store pa va 4 y t) =>
    if VecW.isC w && va % 8 == 0 && e.1.2.1 == va + 4 then buf.dropLast ++ [.store pa va 8 (y + x * 2 ^ 32) t] else own
  | _ => own

/-- The buffer entries of a `vst` (R173): one for each element, those of one aligned 8-byte unit of a contiguous
access together. -/
def vstEntries (w : VecW) (v : BitVec 1024) (o : VecOp) : List BufEntry := (o.elems.zip o.attrs).foldl (addVst w v) []

/-- A `vst` at its turn: the reservations are released and the entries filled. -/
def vstFill (w : VecW) (a : Reg) (o : VecOp) (s : State) : State :=
  let sl := s.me
  let s1 := o.elems.foldl (fun u e => traceAccess u u.cur e.2.1) s
  s1.setMe { s1.me with reserved := sl.reserved - vstCount w, buf := sl.buf ++ vstEntries w (sl.v a.toNat) o }

/-! Issue. -/

/-- The scalar registers that the operand of a vector access names. -/
def vmemSrcs (w : VecW) (m : MemOp) : List Nat := if VecW.isX w then [m.b.toNat] else [m.b.toNat, m.x.toNat]

def execVld (sw : Bool) (w : VecW) (a : Reg) (m : MemOp) (s : State) : Host.Outcome State Fault Refusal :=
  next (runInstr (.vld sw w a m) sw (vmemSrcs w m) (vldBody (.vld sw w a m) w m) s)

def execVst (sw : Bool) (w : VecW) (a : Reg) (m : MemOp) (s : State) : Host.Outcome State Fault Refusal :=
  next (runInstr (.vst sw w a m) sw (vmemSrcs w m) (vstBody (.vst sw w a m) w a m) s)

end Sys2Proof.Machine
end

