-- ==== Sys2Proof/Machine/VecExec.lean ====
section
/-! DEFINITION. The issue of the vector arithmetic instructions (R304, R306, R312 to R324), and VECTOR_COMPLETION. -/

namespace Sys2Proof.Machine

def execVf (sw : Bool) (f : VfFn) (v : VFlags) (a b c : Reg) (s : State) : Host.Outcome State Fault Refusal :=
  vecRound (.vf sw f v a b c) sw v.rm (scSrc v c) [] s

def execVfma (sw : Bool) (f : FmaFn) (wide : Bool) (v : VFlags) (a b c d : Reg) (s : State) :
    Host.Outcome State Fault Refusal :=
  vecRound (.vfma sw f wide v a b c d) sw v.rm (scSrc v c) [] s

def execVd (sw : Bool) (f : VfFn) (v : VFlags) (a b c : Reg) (s : State) : Host.Outcome State Fault Refusal :=
  vecRound (.vd sw f v a b c) sw v.rm (scSrc v c) [] s

def execVi (sw : Bool) (f : ViFn) (wide : Bool) (v : VFlags) (a b c : Reg) (s : State) :
    Host.Outcome State Fault Refusal :=
  vecInstr (.vi sw f wide v a b c) sw (scSrc v c) [] s

def execVcmp (sw : Bool) (c : VcmpCond) (t : VcmpTy) (v : VFlags) (a : BitVec 3) (b cc : Reg) (s : State) :
    Host.Outcome State Fault Refusal :=
  vecInstr (.vcmp sw c t v a b cc) sw (scSrc v cc) [] s

def execVsel (sw : Bool) (wide : Bool) (km : BitVec 3) (a b c : Reg) (s : State) : Host.Outcome State Fault Refusal :=
  vecInstr (.vsel sw wide km a b c) sw [] [] s

def execVred (sw : Bool) (f : VredFn) (km : BitVec 3) (a b : Reg) (s : State) : Host.Outcome State Fault Refusal :=
  vecInstr (.vred sw f km a b) sw [] (if f = .bsiF32 then [a.toNat, a.toNat + 1] else [a.toNat]) s

def execVperm (sw : Bool) (f : VpermFn) (z : Bool) (km : BitVec 3) (a b c d : Reg) (s : State) :
    Host.Outcome State Fault Refusal :=
  vecInstr (.vperm sw f z km a b c d) sw (if f.usesG then [d.toNat] else []) [] s

def execVmsk (sw : Bool) (f : VmskFn) (a b c : Reg) (s : State) : Host.Outcome State Fault Refusal :=
  vecInstr (.vmsk sw f a b c) sw (if VmskFn.fromG f then [b.toNat] else []) (if VmskFn.toG f then [a.toNat] else []) s

def execVspec (sw : Bool) (f : VspecFn) (wide : Bool) (rm : BitVec 3) (z : Bool) (km : BitVec 3) (a b : Reg)
    (s : State) : Host.Outcome State Fault Refusal :=
  vecRound (.vspec sw f wide rm z km a b) sw rm [] [] s

/-- The scalar registers that a function of `vmov` reads. -/
def vmovSrcs (f : VmovFn) (b c : Reg) : List Nat :=
  match f with
  | .mov => []
  | .bc32 | .bc64 | .iota => [b.toNat]
  | .ins32 | .ins64 => [b.toNat, c.toNat]
  | .ext32 | .ext64 => [c.toNat]

/-- The scalar register that a function of `vmov` writes. -/
def vmovDest (f : VmovFn) (a : Reg) : List Nat :=
  match f with
  | .ext32 | .ext64 => [a.toNat]
  | _ => []

def execVmov (sw : Bool) (f : VmovFn) (z : Bool) (km : BitVec 3) (a b c : Reg) (s : State) :
    Host.Outcome State Fault Refusal :=
  vecInstr (.vmov sw f z km a b c) sw (vmovSrcs f b c) (vmovDest f a) s

def execVbsi (sw : Bool) (f : VbsiFn) (rm : BitVec 3) (p : BitVec 2) (a b c : Reg) (s : State) :
    Host.Outcome State Fault Refusal :=
  match f with
  | .cvtF32 | .cvtF64 => vecInstr (.vbsi sw f rm p a b c) sw [c.toNat] [] s
  | .add => vecInstr (.vbsi sw f rm p a b c) sw [] [] s
  | .rndF32 | .rndF64 => vecRound (.vbsi sw f rm p a b c) sw rm [] [] s

/-! Completion. -/

/-- The work of a vector instruction; `sl` is the slot with what dispatch captured. -/
def vecWork (sl : Slot) (o : VecOp) : VecWork :=
  match o.instr with
  | .vcvt _ rm sat dst src a b km p d => vcvtWork rm sat dst src a b km.toNat p.toNat d sl o
  | .vquant _ rm f p a b c d => vquantWork rm f p.toNat a b c d sl o
  | .vdeq _ f p a b c d => vdeqWork f p.toNat a b c d sl o
  | .vbexp _ delta f a b c => vbexpWork delta f a b c sl o
  | .vrng _ a c => vrngWork a c sl o
  | .vmxio _ out rm _ f p a b c d => vmxioWork out rm f p.toNat a b c d sl o
  | .vf _ f v a b c => vfWork 32 f v a b c sl o
  | .vfma _ f wide v a b c d => vfmaWork (if wide then 64 else 32) f v a b c d sl o
  | .vd _ f v a b c => vfWork 64 f v a b c sl o
  | .vi _ f wide v a b c => viWork (if wide then 64 else 32) f v a b c sl o
  | .vcmp _ c t v a b cc => vcmpWork c t v a b cc sl o
  | .vsel _ wide km a b c => vselWork (if wide then 64 else 32) km.toNat a b c sl
  | .vred _ f km a b => vredWork f km.toNat a b sl
  | .vperm _ f z km a b c d => vpermWork f z km.toNat a b c d sl o
  | .vmsk _ f a b c => vmskWork f a b c sl o
  | .vspec _ f wide rm z km a b => vspecWork (if wide then 64 else 32) f rm z km.toNat a b sl
  | .vmov _ f z km a b c => vmovWork f z km.toNat a b c sl o
  | .vbsi _ f rm p a b c => vbsiWork f rm p a b c sl o
  | .vld _ w a _ => vldWork w a o
  | _ => .lanes [] fun _ u => u

/-- An instruction behind a late fault is discarded; a `vst` releases what it reserved (R308). -/
def discardVec (s : State) (o : VecOp) : State :=
  match o.instr with
  | .vst _ w _ _ => s.setMe { s.me with reserved := s.me.reserved - vstCount w }
  | _ => s

/-- The oldest vector instruction of the slot `cur` completes (R302 to R308). -/
def completeVec (s : State) : State :=
  match if s.me.phase == 1 then [] else s.me.vq with
  | [] => s
  | o :: rest =>
    let s1 := s.setMe { s.me with vq := rest }
    if s1.me.late.isSome then discardVec s1 o
    else
      match o.instr with
      | .vst _ w a _ => vstFill w a o s1
      | _ => endWork s1 o (vecWork (opSlot s1.me o) o)

/-- VECTOR_COMPLETION. -/
def execVectorCompletion (r : SlotRef) (s : State) : Host.Outcome State Fault Refusal := next (asSlot s r completeVec)

end Sys2Proof.Machine
end

