-- ==== Sys2Proof/Machine/Dispatch.lean ====
section
/-! DEFINITION. The one dispatch: every instruction and event of the opcode table to its meaning. -/

namespace Sys2Proof.Machine

def exec (i : Instr) (s : State) : Host.Outcome State Fault Refusal :=
  match i with
  | .br x0 x1 x2 => Sys2Proof.Machine.execBr x0 x1 x2 s
  | .jal x0 x1 x2 x3 => Sys2Proof.Machine.execJal x0 x1 x2 x3 s
  | .bcc x0 x1 x2 x3 x4 x5 => Sys2Proof.Machine.execBcc x0 x1 x2 x3 x4 x5 s
  | .bz x0 x1 x2 x3 => Sys2Proof.Machine.execBz x0 x1 x2 x3 s
  | .bnz x0 x1 x2 x3 => Sys2Proof.Machine.execBnz x0 x1 x2 x3 s
  | .jalr x0 x1 x2 x3 => Sys2Proof.Machine.execJalr x0 x1 x2 x3 s
  | .ret x0 x1 => Sys2Proof.Machine.execRet x0 x1 s
  | .loop x0 x1 x2 x3 => Sys2Proof.Machine.execLoop x0 x1 x2 x3 s
  | .loopGtz x0 x1 x2 x3 => Sys2Proof.Machine.execLoopGtz x0 x1 x2 x3 s
  | .sig x0 x1 => Sys2Proof.Machine.execSig x0 x1 s
  | .yield x0 => Sys2Proof.Machine.execYield x0 s
  | .endAct x0 => Sys2Proof.Machine.execEndAct x0 s
  | .wait x0 x1 => Sys2Proof.Machine.execWait x0 x1 s
  | .spawn x0 x1 x2 x3 x4 x5 => Sys2Proof.Machine.execSpawn x0 x1 x2 x3 x4 x5 s
  | .launch x0 x1 x2 => Sys2Proof.Machine.execLaunch x0 x1 x2 s
  | .once x0 => Sys2Proof.Machine.execOnce x0 s
  | .alu x0 x1 x2 x3 x4 => Sys2Proof.Machine.execAlu x0 x1 x2 x3 x4 s
  | .aluw x0 x1 x2 x3 x4 => Sys2Proof.Machine.execAluw x0 x1 x2 x3 x4 s
  | .muldiv x0 x1 x2 x3 x4 => Sys2Proof.Machine.execMuldiv x0 x1 x2 x3 x4 s
  | .alui x0 x1 x2 x3 x4 => Sys2Proof.Machine.execAlui x0 x1 x2 x3 x4 s
  | .aluiw x0 x1 x2 x3 x4 => Sys2Proof.Machine.execAluiw x0 x1 x2 x3 x4 s
  | .liImm16 x0 x1 x2 => Sys2Proof.Machine.execLiImm16 x0 x1 x2 s
  | .liImm32 x0 x1 x2 => Sys2Proof.Machine.execLiImm32 x0 x1 x2 s
  | .liImm48 x0 x1 x2 => Sys2Proof.Machine.execLiImm48 x0 x1 x2 s
  | .bit x0 x1 x2 x3 x4 => Sys2Proof.Machine.execBit x0 x1 x2 x3 x4 s
  | .sel x0 x1 x2 x3 x4 x5 => Sys2Proof.Machine.execSel x0 x1 x2 x3 x4 x5 s
  | .addr x0 x1 x2 x3 x4 x5 x6 x7 => Sys2Proof.Machine.execAddr x0 x1 x2 x3 x4 x5 x6 x7 s
  | .movaPcl x0 x1 x2 => Sys2Proof.Machine.execMovaPcl x0 x1 x2 s
  | .movaNext x0 x1 => Sys2Proof.Machine.execMovaNext x0 x1 s
  | .ld x0 x1 x2 x3 => Sys2Proof.Machine.execLd x0 x1 x2 x3 s
  | .st x0 x1 x2 x3 => Sys2Proof.Machine.execSt x0 x1 x2 x3 s
  | .ldu x0 x1 x2 x3 => Sys2Proof.Machine.execLdu x0 x1 x2 x3 s
  | .stu x0 x1 x2 x3 => Sys2Proof.Machine.execStu x0 x1 x2 x3 s
  | .vld x0 x1 x2 x3 => Sys2Proof.Machine.execVld x0 x1 x2 x3 s
  | .vst x0 x1 x2 x3 => Sys2Proof.Machine.execVst x0 x1 x2 x3 s
  | .pref x0 x1 x2 x3 => Sys2Proof.Machine.execPref x0 x1 x2 x3 s
  | .copFlush x0 x1 => Sys2Proof.Machine.execCopFlush x0 x1 s
  | .copClean x0 x1 => Sys2Proof.Machine.execCopClean x0 x1 s
  | .copInv x0 x1 => Sys2Proof.Machine.execCopInv x0 x1 s
  | .copZero x0 x1 => Sys2Proof.Machine.execCopZero x0 x1 s
  | .copDemote x0 x1 => Sys2Proof.Machine.execCopDemote x0 x1 s
  | .keep x0 x1 x2 x3 => Sys2Proof.Machine.execKeep x0 x1 x2 x3 s
  | .unkeep x0 x1 => Sys2Proof.Machine.execUnkeep x0 x1 s
  | .fence x0 x1 x2 x3 => Sys2Proof.Machine.execFence x0 x1 x2 x3 s
  | .tfence x0 => Sys2Proof.Machine.execTfence x0 s
  | .fwaitW x0 x1 x2 => Sys2Proof.Machine.execFwaitW x0 x1 x2 s
  | .fwaitRw x0 x1 x2 => Sys2Proof.Machine.execFwaitRw x0 x1 x2 s
  | .fwaitAll x0 => Sys2Proof.Machine.execFwaitAll x0 s
  | .irrev x0 => Sys2Proof.Machine.execIrrev x0 s
  | .amo x0 x1 x2 x3 x4 x5 => Sys2Proof.Machine.execAmo x0 x1 x2 x3 x4 x5 s
  | .amof x0 x1 x2 x3 x4 x5 x6 => Sys2Proof.Machine.execAmof x0 x1 x2 x3 x4 x5 x6 s
  | .cas x0 x1 x2 x3 x4 x5 x6 => Sys2Proof.Machine.execCas x0 x1 x2 x3 x4 x5 x6 s
  | .amot x0 x1 x2 x3 x4 x5 x6 => Sys2Proof.Machine.execAmot x0 x1 x2 x3 x4 x5 x6 s
  | .barArrive x0 x1 => Sys2Proof.Machine.execBarArrive x0 x1 s
  | .barWait x0 x1 => Sys2Proof.Machine.execBarWait x0 x1 s
  | .barSync x0 x1 => Sys2Proof.Machine.execBarSync x0 x1 s
  | .barCombine x0 x1 x2 x3 x4 => Sys2Proof.Machine.execBarCombine x0 x1 x2 x3 x4 s
  | .send x0 x1 x2 x3 x4 x5 x6 => Sys2Proof.Machine.execSend x0 x1 x2 x3 x4 x5 x6 s
  | .bind x0 x1 x2 x3 => Sys2Proof.Machine.execBind x0 x1 x2 x3 s
  | .unbind x0 x1 x2 => Sys2Proof.Machine.execUnbind x0 x1 x2 s
  | .chanMask x0 x1 => Sys2Proof.Machine.execChanMask x0 x1 s
  | .chanUnmask x0 x1 => Sys2Proof.Machine.execChanUnmask x0 x1 s
  | .chanPrio x0 x1 x2 => Sys2Proof.Machine.execChanPrio x0 x1 x2 s
  | .job x0 x1 x2 => Sys2Proof.Machine.execJob x0 x1 x2 s
  | .ldirSet x0 x1 => Sys2Proof.Machine.execLdirSet x0 x1 s
  | .ldirSwap x0 => Sys2Proof.Machine.execLdirSwap x0 s
  | .ldirRev x0 => Sys2Proof.Machine.execLdirRev x0 s
  | .collMax x0 x1 => Sys2Proof.Machine.execCollMax x0 x1 s
  | .collReduceBsi x0 x1 => Sys2Proof.Machine.execCollReduceBsi x0 x1 s
  | .collBcast x0 x1 => Sys2Proof.Machine.execCollBcast x0 x1 s
  | .collGather x0 x1 => Sys2Proof.Machine.execCollGather x0 x1 s
  | .compose x0 x1 => Sys2Proof.Machine.execCompose x0 x1 s
  | .release x0 => Sys2Proof.Machine.execRelease x0 s
  | .srRd x0 x1 x2 => Sys2Proof.Machine.execSrRd x0 x1 x2 s
  | .srWr x0 x1 x2 x3 => Sys2Proof.Machine.execSrWr x0 x1 x2 x3 s
  | .srSet x0 x1 x2 x3 => Sys2Proof.Machine.execSrSet x0 x1 x2 x3 s
  | .srClr x0 x1 x2 x3 => Sys2Proof.Machine.execSrClr x0 x1 x2 x3 s
  | .trap x0 x1 => Sys2Proof.Machine.execTrap x0 x1 s
  | .brk x0 x1 => Sys2Proof.Machine.execBrk x0 x1 s
  | .tret x0 x1 => Sys2Proof.Machine.execTret x0 x1 s
  | .mchkAbort x0 => Sys2Proof.Machine.execMchkAbort x0 s
  | .mchkInject x0 x1 => Sys2Proof.Machine.execMchkInject x0 x1 s
  | .tlbVa x0 x1 x2 x3 => Sys2Proof.Machine.execTlbVa x0 x1 x2 x3 s
  | .tlbAsid x0 x1 x2 => Sys2Proof.Machine.execTlbAsid x0 x1 x2 s
  | .tlbAll x0 x1 => Sys2Proof.Machine.execTlbAll x0 x1 s
  | .tlbProbe x0 x1 x2 x3 => Sys2Proof.Machine.execTlbProbe x0 x1 x2 x3 s
  | .trcOn x0 => Sys2Proof.Machine.execTrcOn x0 s
  | .trcOff x0 => Sys2Proof.Machine.execTrcOff x0 s
  | .trcFreeze x0 => Sys2Proof.Machine.execTrcFreeze x0 s
  | .trcMark x0 x1 => Sys2Proof.Machine.execTrcMark x0 x1 s
  | .ctrRd x0 x1 x2 => Sys2Proof.Machine.execCtrRd x0 x1 x2 s
  | .ctrSel x0 x1 x2 => Sys2Proof.Machine.execCtrSel x0 x1 x2 s
  | .ctrClr x0 x1 => Sys2Proof.Machine.execCtrClr x0 x1 s
  | .cvt x0 x1 x2 x3 x4 x5 x6 x7 => Sys2Proof.Machine.execCvt x0 x1 x2 x3 x4 x5 x6 x7 s
  | .vcvt x0 x1 x2 x3 x4 x5 x6 x7 x8 x9 => Sys2Proof.Machine.execVcvt x0 x1 x2 x3 x4 x5 x6 x7 x8 x9 s
  | .vquant x0 x1 x2 x3 x4 x5 x6 x7 => Sys2Proof.Machine.execVquant x0 x1 x2 x3 x4 x5 x6 x7 s
  | .vdeq x0 x1 x2 x3 x4 x5 x6 => Sys2Proof.Machine.execVdeq x0 x1 x2 x3 x4 x5 x6 s
  | .vbexp x0 x1 x2 x3 x4 x5 => Sys2Proof.Machine.execVbexp x0 x1 x2 x3 x4 x5 s
  | .vrng x0 x1 x2 => Sys2Proof.Machine.execVrng x0 x1 x2 s
  | .vmxio x0 x1 x2 x3 x4 x5 x6 x7 x8 x9 => Sys2Proof.Machine.execVmxio x0 x1 x2 x3 x4 x5 x6 x7 x8 x9 s
  | .vf x0 x1 x2 x3 x4 x5 => Sys2Proof.Machine.execVf x0 x1 x2 x3 x4 x5 s
  | .vfma x0 x1 x2 x3 x4 x5 x6 x7 => Sys2Proof.Machine.execVfma x0 x1 x2 x3 x4 x5 x6 x7 s
  | .vd x0 x1 x2 x3 x4 x5 => Sys2Proof.Machine.execVd x0 x1 x2 x3 x4 x5 s
  | .vi x0 x1 x2 x3 x4 x5 x6 => Sys2Proof.Machine.execVi x0 x1 x2 x3 x4 x5 x6 s
  | .vcmp x0 x1 x2 x3 x4 x5 x6 => Sys2Proof.Machine.execVcmp x0 x1 x2 x3 x4 x5 x6 s
  | .vsel x0 x1 x2 x3 x4 x5 => Sys2Proof.Machine.execVsel x0 x1 x2 x3 x4 x5 s
  | .vred x0 x1 x2 x3 x4 => Sys2Proof.Machine.execVred x0 x1 x2 x3 x4 s
  | .vperm x0 x1 x2 x3 x4 x5 x6 x7 => Sys2Proof.Machine.execVperm x0 x1 x2 x3 x4 x5 x6 x7 s
  | .vmsk x0 x1 x2 x3 x4 => Sys2Proof.Machine.execVmsk x0 x1 x2 x3 x4 s
  | .vspec x0 x1 x2 x3 x4 x5 x6 x7 => Sys2Proof.Machine.execVspec x0 x1 x2 x3 x4 x5 x6 x7 s
  | .vmov x0 x1 x2 x3 x4 x5 x6 => Sys2Proof.Machine.execVmov x0 x1 x2 x3 x4 x5 x6 s
  | .vbsi x0 x1 x2 x3 x4 x5 x6 => Sys2Proof.Machine.execVbsi x0 x1 x2 x3 x4 x5 x6 s
  | .mm x0 x1 x2 x3 x4 => Sys2Proof.Machine.execMm x0 x1 x2 x3 x4 s
  | .mms x0 x1 x2 x3 x4 => Sys2Proof.Machine.execMms x0 x1 x2 x3 x4 s
  | .mmx x0 x1 x2 x3 x4 => Sys2Proof.Machine.execMmx x0 x1 x2 x3 x4 s
  | .mzero x0 x1 x2 => Sys2Proof.Machine.execMzero x0 x1 x2 s
  | .mread x0 x1 x2 x3 x4 => Sys2Proof.Machine.execMread x0 x1 x2 x3 x4 s
  | .mstw x0 x1 x2 => Sys2Proof.Machine.execMstw x0 x1 x2 s
  | .longLatencyResult x0 x1 => Sys2Proof.Machine.execLongLatencyResult x0 x1 s
  | .parkEnd x0 => Sys2Proof.Machine.execParkEnd x0 s
  | .stallEnd x0 => Sys2Proof.Machine.execStallEnd x0 s
  | .vectorCompletion x0 => Sys2Proof.Machine.execVectorCompletion x0 s
  | .fillingComplete x0 => Sys2Proof.Machine.execFillingComplete x0 s
  | .readyRecordPickup x0 => Sys2Proof.Machine.execReadyRecordPickup x0 s
  | .teamPlacement x0 x1 x2 => Sys2Proof.Machine.execTeamPlacement x0 x1 x2 s
  | .placementHorizonExpiry x0 => Sys2Proof.Machine.execPlacementHorizonExpiry x0 s
  | .drainEnd x0 => Sys2Proof.Machine.execDrainEnd x0 s
  | .budgetExpiry x0 => Sys2Proof.Machine.execBudgetExpiry x0 s
  | .commit x0 => Sys2Proof.Machine.execCommit x0 s
  | .commitEntryIssue x0 => Sys2Proof.Machine.execCommitEntryIssue x0 s
  | .irrevocableDrain x0 => Sys2Proof.Machine.execIrrevocableDrain x0 s
  | .trapEntry x0 => Sys2Proof.Machine.execTrapEntry x0 s
  | .composeClaim x0 => Sys2Proof.Machine.execComposeClaim x0 s
  | .handBack x0 x1 => Sys2Proof.Machine.execHandBack x0 x1 s
  | .operandArrival x0 x1 x2 x3 x4 x5 x6 => Sys2Proof.Machine.execOperandArrival x0 x1 x2 x3 x4 x5 x6 s
  | .linkPortArrival x0 x1 => Sys2Proof.Machine.execLinkPortArrival x0 x1 s
  | .pageWalk x0 x1 x2 => Sys2Proof.Machine.execPageWalk x0 x1 x2 s
  | .tlbInvalidationComplete x0 => Sys2Proof.Machine.execTlbInvalidationComplete x0 s
  | .localAtomicPerform x0 => Sys2Proof.Machine.execLocalAtomicPerform x0 s
  | .dirtyWriteback x0 x1 x2 => Sys2Proof.Machine.execDirtyWriteback x0 x1 x2 s
  | .messageArrival x0 => Sys2Proof.Machine.execMessageArrival x0 s
  | .pendingQueueRetake x0 x1 => Sys2Proof.Machine.execPendingQueueRetake x0 x1 s
  | .bounceReturn x0 => Sys2Proof.Machine.execBounceReturn x0 s
  | .bounceResend x0 x1 => Sys2Proof.Machine.execBounceResend x0 x1 s
  | .bounceOverflow x0 => Sys2Proof.Machine.execBounceOverflow x0 s
  | .landArrival x0 => Sys2Proof.Machine.execLandArrival x0 s
  | .farAtomicRequest x0 => Sys2Proof.Machine.execFarAtomicRequest x0 s
  | .farAtomicReply x0 => Sys2Proof.Machine.execFarAtomicReply x0 s
  | .nackResync x0 => Sys2Proof.Machine.execNackResync x0 s
  | .nackMoved x0 => Sys2Proof.Machine.execNackMoved x0 s
  | .nackBusy x0 => Sys2Proof.Machine.execNackBusy x0 s
  | .farAtomicTimeout x0 x1 => Sys2Proof.Machine.execFarAtomicTimeout x0 x1 s
  | .homeStateReclaim x0 x1 => Sys2Proof.Machine.execHomeStateReclaim x0 x1 s
  | .movedEntryExpiry x0 x1 => Sys2Proof.Machine.execMovedEntryExpiry x0 x1 s
  | .launchQueueTake x0 x1 => Sys2Proof.Machine.execLaunchQueueTake x0 x1 s
  | .launchDelivery x0 => Sys2Proof.Machine.execLaunchDelivery x0 s
  | .launchStart x0 x1 x2 => Sys2Proof.Machine.execLaunchStart x0 x1 x2 s
  | .launchCompletion x0 x1 => Sys2Proof.Machine.execLaunchCompletion x0 x1 s
  | .ttFiring x0 x1 => Sys2Proof.Machine.execTtFiring x0 x1 s
  | .ttHeldLaunch x0 x1 => Sys2Proof.Machine.execTtHeldLaunch x0 x1 s
  | .jobCardArrival x0 => Sys2Proof.Machine.execJobCardArrival x0 s
  | .jobCopy x0 x1 => Sys2Proof.Machine.execJobCopy x0 x1 s
  | .jobFill x0 x1 => Sys2Proof.Machine.execJobFill x0 x1 s
  | .jobRput x0 x1 => Sys2Proof.Machine.execJobRput x0 x1 s
  | .jobStage x0 x1 => Sys2Proof.Machine.execJobStage x0 x1 s
  | .jobAcc x0 x1 => Sys2Proof.Machine.execJobAcc x0 x1 s
  | .jobMaxi x0 x1 => Sys2Proof.Machine.execJobMaxi x0 x1 s
  | .jobCompletion x0 x1 => Sys2Proof.Machine.execJobCompletion x0 x1 s
  | .matrixCommandArrival x0 => Sys2Proof.Machine.execMatrixCommandArrival x0 s
  | .maMm x0 x1 => Sys2Proof.Machine.execMaMm x0 x1 s
  | .maMms x0 x1 => Sys2Proof.Machine.execMaMms x0 x1 s
  | .maMmx x0 x1 => Sys2Proof.Machine.execMaMmx x0 x1 s
  | .maMzero x0 x1 => Sys2Proof.Machine.execMaMzero x0 x1 s
  | .maMread x0 x1 => Sys2Proof.Machine.execMaMread x0 x1 s
  | .maMstw x0 x1 => Sys2Proof.Machine.execMaMstw x0 x1 s
  | .matrixCommandCompletion x0 x1 => Sys2Proof.Machine.execMatrixCommandCompletion x0 x1 s
  | .maSlotBoundary x0 => Sys2Proof.Machine.execMaSlotBoundary x0 s
  | .collCommandArrival x0 => Sys2Proof.Machine.execCollCommandArrival x0 s
  | .collContribution x0 => Sys2Proof.Machine.execCollContribution x0 s
  | .completionNotice x0 => Sys2Proof.Machine.execCompletionNotice x0 s
  | .collInstanceTimeout x0 x1 x2 => Sys2Proof.Machine.execCollInstanceTimeout x0 x1 x2 s
  | .ggenWrite x0 x1 x2 => Sys2Proof.Machine.execGgenWrite x0 x1 x2 s
  | .gletosPacketSend x0 => Sys2Proof.Machine.execGletosPacketSend x0 s
  | .linkDataFlit x0 x1 x2 => Sys2Proof.Machine.execLinkDataFlit x0 x1 x2 s
  | .linkIdleFlit x0 x1 x2 => Sys2Proof.Machine.execLinkIdleFlit x0 x1 x2 s
  | .linkNackFlit x0 x1 x2 => Sys2Proof.Machine.execLinkNackFlit x0 x1 x2 s
  | .linkReplayTimeout x0 x1 => Sys2Proof.Machine.execLinkReplayTimeout x0 x1 s
  | .degradeRequest x0 x1 x2 => Sys2Proof.Machine.execDegradeRequest x0 x1 x2 s
  | .degradeAcknowledge x0 x1 x2 => Sys2Proof.Machine.execDegradeAcknowledge x0 x1 x2 s
  | .retrainComplete x0 x1 x2 x3 x4 => Sys2Proof.Machine.execRetrainComplete x0 x1 x2 x3 x4 s
  | .linkWindowExpiry x0 x1 => Sys2Proof.Machine.execLinkWindowExpiry x0 x1 s
  | .lcmdForceDegrade x0 x1 => Sys2Proof.Machine.execLcmdForceDegrade x0 x1 s
  | .lcmdRetrain x0 x1 => Sys2Proof.Machine.execLcmdRetrain x0 x1 s
  | .cmsplitWrite x0 x1 => Sys2Proof.Machine.execCmsplitWrite x0 x1 s
  | .cmsplitApply x0 => Sys2Proof.Machine.execCmsplitApply x0 s
  | .lostClear x0 x1 => Sys2Proof.Machine.execLostClear x0 x1 s
  | .fenceWrite x0 x1 x2 => Sys2Proof.Machine.execFenceWrite x0 x1 x2 s
  | .mc2Clear x0 => Sys2Proof.Machine.execMc2Clear x0 s
  | .pswapOut x0 x1 => Sys2Proof.Machine.execPswapOut x0 x1 s
  | .pswapIn x0 x1 => Sys2Proof.Machine.execPswapIn x0 x1 s
  | .swapContextMove x0 x1 => Sys2Proof.Machine.execSwapContextMove x0 x1 s
  | .trcctlWrite x0 x1 => Sys2Proof.Machine.execTrcctlWrite x0 x1 s
  | .deviceRegisterWrite x0 x1 x2 => Sys2Proof.Machine.execDeviceRegisterWrite x0 x1 x2 s
  | .hostMemRead x0 => Sys2Proof.Machine.execHostMemRead x0 s
  | .hostMemWrite x0 x1 x2 => Sys2Proof.Machine.execHostMemWrite x0 x1 x2 s
  | .teardown x0 x1 => Sys2Proof.Machine.execTeardown x0 x1 s
  | .reset x0 x1 => Sys2Proof.Machine.execReset x0 x1 s
  | .regq x0 x1 x2 => Sys2Proof.Machine.execRegq x0 x1 x2 s
  | .glaze x0 x1 => Sys2Proof.Machine.execGlaze x0 x1 s
  | .timesync x0 x1 => Sys2Proof.Machine.execTimesync x0 x1 s
  | .hmcmdRefused x0 x1 x2 => Sys2Proof.Machine.execHmcmdRefused x0 x1 x2 s
  | .glazeSave => Sys2Proof.Machine.execGlazeSave s
  | .glazeImageComplete => Sys2Proof.Machine.execGlazeImageComplete s
  | .heartbeatMiss x0 => Sys2Proof.Machine.execHeartbeatMiss x0 s
  | .coldReset x0 x1 => Sys2Proof.Machine.execColdReset x0 x1 s
  | .hotReset x0 x1 => Sys2Proof.Machine.execHotReset x0 x1 s
  | .recoveryImage x0 x1 => Sys2Proof.Machine.execRecoveryImage x0 x1 s
  | .getVersion => Sys2Proof.Machine.execGetVersion s
  | .getCapabilities => Sys2Proof.Machine.execGetCapabilities s
  | .negotiateAlgorithms => Sys2Proof.Machine.execNegotiateAlgorithms s
  | .getDigests => Sys2Proof.Machine.execGetDigests s
  | .getCertificate => Sys2Proof.Machine.execGetCertificate s
  | .challenge x0 => Sys2Proof.Machine.execChallenge x0 s
  | .getMeasurements => Sys2Proof.Machine.execGetMeasurements s
  | .thermalThrottle x0 => Sys2Proof.Machine.execThermalThrottle x0 s
  | .throttleClear x0 => Sys2Proof.Machine.execThrottleClear x0 s
  | .thermalTrip => Sys2Proof.Machine.execThermalTrip s
  | .cxlCacheSnoop x0 => Sys2Proof.Machine.execCxlCacheSnoop x0 s
  | .moduleDown x0 => Sys2Proof.Machine.execModuleDown x0 s
  | .spareLoad x0 x1 => Sys2Proof.Machine.execSpareLoad x0 x1 s
  | .spareLoadComplete => Sys2Proof.Machine.execSpareLoadComplete s
  | .replayEnd => Sys2Proof.Machine.execReplayEnd s
  | .replyCacheMigration x0 x1 x2 => Sys2Proof.Machine.execReplyCacheMigration x0 x1 x2 s
  | .forwardingTableEntry x0 x1 x2 x3 => Sys2Proof.Machine.execForwardingTableEntry x0 x1 x2 x3 s
  | .rebuild x0 x1 => Sys2Proof.Machine.execRebuild x0 x1 s
  | .cdatRequest => Sys2Proof.Machine.execCdatRequest s

end Sys2Proof.Machine
end

