-- ==== Sys2Proof/Machine/Turns.lean ====
section
/-! DEFINITION. The turns of the agenda: what one slot's turn brings, and which of the turns that fall into one cycle goes
first (R383). -/

namespace Sys2Proof.Machine

/-- The turn of the slot `cur` but for its watchdog: it issues the instruction it fetches, or the event it waits for
happens. -/
def turnAct (s : State) : Host.Outcome State Fault Refusal :=
  match planOf s s.cur with
  | .idle => .next s
  | .turnIrrevocable => .next (askToken s)
  | .event e => exec e s
  | .issue =>
    match fetchSlot s s.cur with
    | .ok s1 i => exec i s1
    | .trap s1 t => .next (takeTrap s1 s1.cur t)
    | .error s1 m => .next (errorAbort s1 s1.cur m)

/-- Whether records have been produced since `s` (R384, R389). -/
def recorded (s : State) : Host.Outcome State Fault Refusal → Bool
  | .next t => [0, 1, 2, 3].any fun d => t.devGet (dieDev d 1 0x8A0) != s.devGet (dieDev d 1 0x8A0)
  | _ => false

/-- Whether the slot `cur` has lost its activation to a machine check or a conflict abort, which go before its
watchdog. -/
def lost (s : State) (o : Host.Outcome State Fault Refusal) : Bool :=
  recorded s o ||
    match o with
    | .next t => (t.slot s.cur).st == .free || (t.slot s.cur).st == .filling || (t.slot s.cur).st == .halted
    | _ => false

/-- The turn of the slot `cur`; where its budget has run out, the watchdog acts unless the turn brings what goes before
it (R383). -/
def slotStep (s : State) : Host.Outcome State Fault Refusal :=
  let own := turnAct s
  if budgetDue s s.cur && !lost s own then exec (.budgetExpiry s.cur) s else own

/-- One turn once its cycles have passed. -/
def runTurn (s : State) : Who → Host.Outcome State Fault Refusal
  | .slot r => if r.core < 5120 ∧ r.slot < 8 then slotStep { s with cur := r } else .fault .noSuchSlot
  | .event e => if canHappen s e then exec e s else .next s
  | .arrive n => .next { s with net := s.net ++ [n] }
  | .host pa bs => .next (hostOwnWrite s pa bs)
  | .pooled a bs => .next (pooledWrite s a bs)
  | .cross k => .next (crossDie s k)
  | .jobPart id n => .next (jobPart s id n)
  | .part r upper => .next (asSlot s r fun u => laterPart u upper)
  | .linkSeq die inst seq => .next (if linkThere die inst then movePending s die inst seq else s)
  | .hostArg second v => .next (hostArgWrite s second v)

/-- The place of a turn among those of its cycle (R383): machine checks, then all else, then watchdogs. -/
def turnRank (s : State) (w : Who) : Nat :=
  let dog := match w with
    | .slot r => budgetDue s r && !lost { s with cur := r } (turnAct { s with cur := r })
    | .event (.budgetExpiry _) => true
    | _ => false
  if dog then 2 else if recorded s (runTurn s w) then 0 else 1

/-- The first of the turns of the least rank, with those that are left in their order. -/
def firstTurn (s : State) (t : Turn) : List Turn → Turn × List Turn
  | [] => (t, [])
  | u :: rest =>
    let (v, left) := firstTurn s u rest
    if turnRank s t.who ≤ turnRank s v.who then (t, u :: rest) else (v, t :: left)

/-- The turn that an agenda brings next, with the agenda after it: the turns that follow after no cycle fall into the
same cycle (R383). -/
def nextTurn (s : State) (t : Turn) (rest : List Turn) : Turn × List Turn :=
  let same := rest.takeWhile fun u => u.cycles == 0
  if same.isEmpty then (t, rest)
  else
    let p := firstTurn (tick t.cycles { s with agenda := [] }) { t with cycles := 0 } same
    ({ p.1 with cycles := t.cycles }, p.2 ++ rest.drop same.length)

end Sys2Proof.Machine
end

