-- ==== Sys2Proof/Machine/Step.lean ====
section
/-! DEFINITION. One step of the module: a turn of the agenda, or, where it is empty, one cycle and the turn of the
slot `cur`. -/

namespace Sys2Proof.Machine

/-- One step. -/
def step (s : State) : Host.Outcome State Fault Refusal :=
  match s.agenda with
  | [] => slotStep (tick 1 s)
  | t :: rest =>
    let p := nextTurn s t rest
    runTurn (tick t.cycles { s with agenda := p.2 }) p.1.who

/-- `s` with the instruction of the table's bits placed where the next step fetches it: the line at the placed page,
its translation in the core's instruction TLB, and the slot `cur` READY there (assumption log 5). -/
def State.withFetchWord (s : State) (nbits w : Nat) : State := placeEnc s (encOfTable nbits w)

end Sys2Proof.Machine
end

