-- ==== Sys2Proof/Safety.lean ====
section
/-! DEFINITION. The terms in which statements speak of a step: when an instruction comes to its own rules, what its
completion makes of the slot that issued it, and what it leaves as it was. -/

namespace Sys2Proof.Machine

/-! What an instruction names. -/

/-- The registers of an instruction that may be pending when it issues, its sources before its destinations (R39). -/
def depsOf (sl : Slot) : Instr → List Nat
  | .jal _ a _ _ | .bz _ a _ _ | .bnz _ a _ _ | .ret _ a | .loop _ a _ _ | .loopGtz _ a _ _ | .wait _ a
  | .liImm16 _ a _ | .liImm32 _ a _ | .liImm48 _ a _ | .movaPcl _ a _ | .movaNext _ a | .srRd _ a _ | .ctrRd _ a _ =>
    [a.toNat]
  | .bcc _ _ a b _ _ | .launch _ a b | .send _ a b _ _ _ _ => [a.toNat, b.toNat]
  | .jalr _ a b _ | .alui _ _ a b _ | .aluiw _ _ a b _ | .barCombine _ _ a b _ | .srWr _ a b _ | .srSet _ a b _
  | .srClr _ a b _ => [b.toNat, a.toNat]
  | .spawn _ a b w _ _ => [a.toNat, b.toNat, w.toNat]
  | .alu _ _ a b c | .aluw _ _ a b c | .muldiv _ _ a b c | .tlbProbe _ a b c => [b.toNat, c.toNat, a.toNat]
  | .bit _ f a b c => bitDeps f a b c
  | .sel _ _ a b c d => [b.toNat, c.toNat, d.toNat, a.toNat]
  | .addr _ f a b c d _ _ => (if f = .add3 then [b, c, d] else [b, c]).map (·.toNat) ++ [a.toNat]
  | .ld _ _ a m | .st _ _ a m | .ldu _ _ a m | .stu _ _ a m => [m.b.toNat, m.x.toNat, a.toNat]
  | .vld _ w _ m | .vst _ w _ m => vmemSrcs w m
  | .pref _ _ _ m | .copFlush _ m | .copClean _ m | .copInv _ m | .copZero _ m | .copDemote _ m =>
    [m.b.toNat, m.x.toNat]
  | .keep _ _ b c | .job _ b c | .tlbVa _ _ b c | .mm _ _ _ b c | .mms _ _ _ b c | .mmx _ _ _ b c
  | .mread _ _ _ b c | .mstw _ b c => [b.toNat, c.toNat]
  | .fwaitW _ b _ | .fwaitRw _ b _ | .bind _ _ b _ | .ldirSet _ b | .collMax _ b | .collReduceBsi _ b
  | .collBcast _ b | .collGather _ b | .trcMark _ b | .ctrSel _ _ b => [b.toNat]
  | .tlbAsid _ _ c | .mzero _ _ c => [c.toNat]
  | .amo _ _ w b c _ => b.toNat :: amoRegs w c
  | .amot _ _ w b c d _ => b.toNat :: amoRegs w c ++ [d.toNat]
  | .amof _ _ w a b c _ => b.toNat :: amoRegs w c ++ amoRegs w a
  | .cas _ w a b c d _ => b.toNat :: amoRegs w c ++ amoRegs w d ++ amoRegs w a
  | .cvt _ rm _ _ _ a b c => cvtSrcs sl rm b c ++ [a.toNat]
  | .vcvt _ rm _ _ _ _ _ _ _ d => srSrc sl rm d ++ []
  | .vquant _ rm _ _ _ _ c d => c.toNat :: srSrc sl rm d ++ []
  | .vdeq _ _ _ _ _ c d | .vmxio _ _ _ _ _ _ _ _ c d => [c.toNat, d.toNat]
  | .vbexp _ delta _ a _ c => (if delta then [c.toNat] else []) ++ [a.toNat]
  | .vrng _ _ c => [c.toNat]
  | .vf _ _ v _ _ c | .vfma _ _ _ v _ _ c _ | .vd _ _ v _ _ c | .vi _ _ _ v _ _ c | .vcmp _ _ _ v _ _ c =>
    scSrc v c ++ []
  | .vred _ f _ a _ => if f = .bsiF32 then [a.toNat, a.toNat + 1] else [a.toNat]
  | .vperm _ f _ _ _ _ _ d => (if f.usesG then [d.toNat] else []) ++ []
  | .vmsk _ f a b _ => (if VmskFn.fromG f then [b.toNat] else []) ++ (if VmskFn.toG f then [a.toNat] else [])
  | .vmov _ f _ _ a b c => vmovSrcs f b c ++ vmovDest f a
  | .vbsi _ f _ _ _ _ c => (match f with | .cvtF32 | .cvtF64 => [c.toNat] | _ => []) ++ []
  | _ => []

/-- Whether an instruction is ILLEGAL where it stands, for a reason its encoding does not show: a parking instruction
inside a handler (R110, R382), a state register that does not exist (R396), rounding with DYN under a reserved MODE
(R282), or under SR with a coordinate field that names no general register (R293). -/
def illegalHere (s : State) : Instr → Bool
  | .yield _ => inHandler s
  | .wait _ _ => inHandler s || s.me.team.isSome
  | .srRd _ _ n | .srWr _ _ _ n | .srSet _ _ _ n | .srClr _ _ _ n => srUnassigned n s
  | .cvt _ rm _ _ _ _ _ c => coordBad s.me rm c
  | .vcvt _ rm _ _ _ _ _ _ _ d | .vquant _ rm _ _ _ _ _ d => coordBad s.me rm d
  | .vmxio _ _ rm _ _ _ _ _ _ _ | .vspec _ _ _ rm _ _ _ _ => dynBad s.me rm
  | .vf _ _ v _ _ _ | .vfma _ _ _ v _ _ _ _ | .vd _ _ v _ _ _ => dynBad s.me v.rm
  | .vbsi _ f rm _ _ _ _ => (match f with | .rndF32 | .rndF64 => true | _ => false) && dynBad s.me rm
  | _ => false

/-- Nothing stands between the slot `cur` and the own rules of instruction `i`: the encoding is legal where it stands,
its link ports have neighbours, no register of it is pending, no `once` prefixes it, its block's signature does not fail
at it, and no error of the hardware is about to happen (R31 to R39, R57 to R61, R88, R127). -/
structure Issues (i : Instr) (s : State) : Prop where
  legal : i.wf = true
  allowed : illegalHere s i = false
  ports : (depsOf s.me i).any (portIllegal s.me s.cur.core) = false
  ready : firstPending s.me (depsOf s.me i) = none
  once : onceInst? s = none
  signed : ∃ c, chkComplete s.me.chk i = .ok c
  sound : s.glitches = []

/-- No late vector fault waits for the park that S asks for (R308). -/
def NoLate (sw : Bool) (s : State) : Prop := sw = true → s.me.late = none

/-! What completion makes of the slot. -/

/-- CHKMODE once an instruction has completed (R87, R88). -/
def checked (i : Instr) (old new : ChkMode) : ChkMode :=
  match chkComplete old i with
  | .ok c => chkAfter old new c
  | .fail .. => new

/-- The slot `old` after an instruction that leaves `sl` and goes on at `pc`: the PC moves, the signature checker has
seen it, and a `once` that prefixed it is over. -/
def Slot.retired (i : Instr) (old sl : Slot) (pc : Word) : Slot :=
  { sl with pc := pc, npc := pc, chk := checked i old.chk sl.chk,
            onceArm := if old.onceArm = some old.pc then none else sl.onceArm }

/-- The slot after S: with results outstanding it parks, and else nothing is pending any more (R37, R38). -/
def Slot.parkedBy (sw : Bool) (sl : Slot) : Slot :=
  if !sw then sl
  else if !sl.quiet then sl.parkAs .resume
  else sl.unparked

/-- The slot `cur` after instruction `i` has completed with the slot at `f` of what it was. -/
def State.done (s : State) (i : Instr) (sw : Bool) (pc : Word) (f : Slot → Slot) : Slot :=
  let sl := s.me.started s.now
  (Slot.retired i sl (f sl) pc).parkedBy sw

/-- A slot whose instruction waits at issue. -/
def Slot.waiting (w : StallWhy) (sl : Slot) : Slot := { sl with st := .stalled, stall := w }

/-! What stays. -/

/-- A core without its trace and its counters, which observe and change nothing (R405, R406). -/
def CoreSt.unwatched (x : CoreSt) : CoreSt :=
  { x with trace := [], trcctl := 0, trcpos := 0, trcWrapped := false, trcPost := none, trcSample := 0, ctrs := [] }

/-- The machine without its slots and cores. -/
def State.bare (s : State) : State := { s with slots := [], cores := [] }

/-- From `s` to `t` nothing changes but the slot `cur`, traces and counters: every other slot, every core, every byte of
memory and the whole rest of the machine stay. -/
structure OnlySlot (s t : State) : Prop where
  slots : ∀ r, slotKey r ≠ slotKey s.cur → t.slot r = s.slot r
  cores : ∀ c, (t.core c).unwatched = (s.core c).unwatched
  bytes : ∀ a, t.byte a = s.byte a
  rest : t.bare = s.bare

/-- From `s` to `t`, instruction `i` completes with its own effect `s1` and goes on at `pc`. -/
structure Completed (i : Instr) (sw : Bool) (pc : Word) (s s1 t : State) : Prop where
  slot : t.me = (Slot.retired i (s.me.started s.now) s1.me pc).parkedBy sw
  rest : OnlySlot s1 t

/-! Traps. -/

/-- Nothing stands in the way of the handler once the slot is parked: no late fault, no composition to hand back, no
double trap, and its trap stack `fs` can be reached, no error to be corrected where it still has to be filled (R161,
R308, R377 to R381). -/
structure CanTrap (s : State) (fs : List TrapFrame) : Prop where
  late : s.me.late = none
  single : s.me.curLog2 = 0
  calm : s.me.doubleRisk = false
  room : s.me.depth ≠ 5
  stack : trapStack s s.me = some fs
  clean : s.me.tstack = none → s.soft = []

/-- A slot with the flags that an FPX sets at its trap (R283, R308). -/
def Slot.fpxRaised (t : TrapInfo) (sl : Slot) : Slot := if t.code = 0x0A then sl.raise t.fpflags else sl

/-- The slot that takes a trap: in its handler, or, with results outstanding, parked on its way there (R37, R377). -/
def Slot.taking (sl : Slot) (t : TrapInfo) (fs : List TrapFrame) : Slot :=
  if sl.quiet then (sl.fpxRaised t).trapped t fs else sl.parkAs (.trap t)

/-! What instructions of one shape compute. -/

/-- An integer instruction that is not long-latency: its S bit, its sources, its destination, and the value that R65 to
R67 and R70 to R73 give it in a slot whose sources do not pop. -/
def intForm (sl : Slot) : Instr → Option (Bool × List Reg × Reg × Word)
  | .alu sw f a b c => some (sw, [b, c], a, aluVal f (srcVal sl b) (srcVal sl c))
  | .aluw sw f a b c => some (sw, [b, c], a, aluwVal f (srcVal sl b) (srcVal sl c))
  | .alui sw f a b imm => some (sw, [b], a, aluVal f (srcVal sl b) (imm.signExtend 64))
  | .aluiw sw f a b imm => some (sw, [b], a, aluwVal f (srcVal sl b) (imm.signExtend 64))
  | .liImm16 sw a imm => some (sw, [], a, imm.signExtend 64)
  | .liImm32 sw a imm => some (sw, [], a, imm.signExtend 64)
  | .liImm48 sw a imm => some (sw, [], a, imm.signExtend 64)
  | .bit sw f a b c => some (sw, if f.isBinary then [b, c] else [b], a, bitVal f (srcVal sl b) (srcVal sl c))
  | .sel sw k a b c d => some (sw, [b, c, d], a, if selHolds k (srcVal sl d) then srcVal sl b else srcVal sl c)
  | .addr sw f a b c d sh x =>
    some (sw, if f = .add3 then [b, c, d] else [b, c], a, addrVal f (srcVal sl b) (srcVal sl c) (srcVal sl d) sh x)
  | .movaPcl sw a off => some (sw, [], a, pclVal sl.pc off)
  | .movaNext sw a => some (sw, [], a, sl.npc)
  | _ => none

/-- The function table of R65 for operands of `w` bits: the result before the width mask; `n` is the shift amount. -/
def aluTable (f : AluFn) (w a b n : Nat) : Int :=
  match f with
  | .add => a + b
  | .sub => a - b
  | .and => (a &&& b : Nat)
  | .or => (a ||| b : Nat)
  | .xor => (a ^^^ b : Nat)
  | .andn => (a &&& (2 ^ w - 1 - b) : Nat)
  | .sll => a * 2 ^ n
  | .srl => (a / 2 ^ n : Nat)
  | .sra => sxInt a w / 2 ^ n
  | .rol => (a * 2 ^ n + a / 2 ^ (w - n) : Nat)
  | .ror => (a / 2 ^ n + a * 2 ^ (w - n) : Nat)
  | .slt => if sxInt a w < sxInt b w then 1 else 0
  | .sltu => if a < b then 1 else 0
  | .seq => if a = b then 1 else 0
  | .min => min (sxInt a w) (sxInt b w)
  | .max => max (sxInt a w) (sxInt b w)

/-- The function table of R68 with the corners of R69, before the result is cut to its width. -/
def mulTable (f : MulFn) (a b : Nat) : Int :=
  let quo (x y : Int) : Int := if y = 0 then -1 else x.tdiv y
  let rem (x y : Int) : Int := if y = 0 then x else x - x.tdiv y * y
  let a32 : Nat := a % 2 ^ 32
  let b32 : Nat := b % 2 ^ 32
  match f with
  | .mul => a * b
  | .mulh => sxInt a 64 * sxInt b 64 / 2 ^ 64
  | .mulhu => a * b / 2 ^ 64
  | .mulhsu => sxInt a 64 * b / 2 ^ 64
  | .div => quo (sxInt a 64) (sxInt b 64)
  | .divu => quo a b
  | .rem => rem (sxInt a 64) (sxInt b 64)
  | .remu => rem a b
  | .mulw => a32 * b32
  | .divw => quo (sxInt a32 32) (sxInt b32 32)
  | .divuw => quo a32 b32
  | .remw => rem (sxInt a32 32) (sxInt b32 32)
  | .remuw => rem a32 b32

/-- Whether a function of `muldiv` works on bits [31:0] and gives a sign-extended 32-bit result. -/
def mulNarrow : MulFn → Bool
  | .mulw | .divw | .divuw | .remw | .remuw => true
  | _ => false

/-- The number of set bits of a mask below place `i`. -/
def rankBelow (m : Word) (i : Nat) : Nat := ((natsFrom 0 i).filter fun j => m.getLsbD j).length

/-- A slot with a long-latency result outstanding, its registers pending (R38). -/
def Slot.awaiting (o : Outst) (regs : List Nat) (sl : Slot) : Slot :=
  { sl with outst := sl.outst ++ [o], pend := sl.pend ++ regs }

/-- A result whose value is known, outstanding for register `d`, or for `d` and the next. -/
def knownResult (sl : Slot) (i : Instr) (d : Nat) (pair : Bool) (v hi : Word) : Outst :=
  { dest := d, pair := pair, what := .value v hi, major := majorOf i, func := funcOfInstr i, pc := sl.pc,
    once := onceNo sl, ticket := none }

/-- A control transfer (R80 to R83): its S bit, whether it is taken, its target, and what it does to the slot's
registers. -/
def xferForm (sl : Slot) : Instr → Option (Bool × Bool × Word × (Slot → Slot))
  | .br sw l h => some (sw, true, relTarget sl.pc (l.signExtend 64) h, id)
  | .jal sw a l h => some (sw, true, relTarget sl.pc (l.signExtend 64) h, fun u => u.setG a.toNat sl.npc)
  | .bcc sw c a b l h => some (sw, bccHolds c (sl.g a.toNat) (sl.g b.toNat), relTarget sl.pc (l.signExtend 64) h, id)
  | .bz sw a l h => some (sw, sl.g a.toNat == 0, relTarget sl.pc (l.signExtend 64) h, id)
  | .bnz sw a l h => some (sw, sl.g a.toNat != 0, relTarget sl.pc (l.signExtend 64) h, id)
  | .jalr sw a b o =>
    some (sw, true, sl.g b.toNat + o.signExtend 64 <<< 6, fun u => u.setG a.toNat sl.npc)
  | .ret sw a => some (sw, true, sl.g a.toNat, id)
  | .loop sw a l h =>
    some (sw, sl.g a.toNat - 1 != 0, relTarget sl.pc (l.signExtend 64) h, fun u => u.setG a.toNat (sl.g a.toNat - 1))
  | .loopGtz sw a l h =>
    some (sw, (0 : Word).slt (sl.g a.toNat - 1), relTarget sl.pc (l.signExtend 64) h,
      fun u => u.setG a.toNat (sl.g a.toNat - 1))
  | _ => none

/-- A slot with one more outgoing entry (R106). -/
def Slot.entered (w : OutWhat) (sl : Slot) : Slot :=
  { sl with outg := sl.outg ++ [{ idx := sl.nextIdx, what := w }], nextIdx := sl.nextIdx + 1 }

/-- A command for engine queue `q`, where fewer than 16 are outstanding and no earlier push to the queue is still to come
(R255, R348, R359). -/
def commandForm (s : State) (q : Nat) (word : Word) (cap : List Nat) : Option OutWhat :=
  if 16 ≤ outstanding s s.me q ∨ (s.me.outst.any fun o => o.dest == 52 + q) = true then none
  else some (.engine q word (nextQseq s s.me q) (captures s.me ++ cap))

/-- A matrix instruction's command: its block aligned, with what R348 captures. -/
def matrixForm (s : State) (op : Nat) (t : BitVec 2) (clr : Bool) (b c : Reg) : Option OutWhat :=
  if (s.me.g b.toNat).toNat % 64 ≠ 0 then none
  else commandForm s 1 (s.me.g b.toNat) (matrixCap op t clr (c != 0) (s.me.g c.toNat))

/-- A collective's command: its descriptor aligned (R359). -/
def collForm (s : State) (op : Nat) (b : Reg) : Option OutWhat :=
  if (s.me.g b.toNat).toNat % 64 ≠ 0 then none else commandForm s 3 (s.me.g b.toNat) [op]

/-- A `send` that passes the checks of R250. -/
def sendForm (s : State) (a b : Reg) (rep rmo res : Bool) (delta : BitVec 16) : Option OutWhat :=
  let ga := s.me.g a.toNat
  let gb := s.me.g b.toNat
  if sendBad ga.toNat rmo res = true ∨ (rmo = false ∧ natBits ga.toNat 37 32 < 8 ∧ s.me.super = false) ∨
      (res = true ∧ gb.toNat % 64 ≠ 0) ∨ (rmo = true ∧ gb.toNat % 8 ≠ 0) ∨ 2 ^ 64 ≤ s.me.ts.toNat + delta.toNat ∨
      (s.me.outst.any fun o => o.dest == 57) = true then none
  else
    some (.send (sendD0 ga.toNat s.me.outb.length rep rmo res (inOrdered s && delta == 0))
      (s.me.ts + delta.setWidth 64) gb s.me.outb)

/-- An instruction that only enters an outgoing entry, where its checks pass: its S bit, whether the entry is a message
or command that needs room in the return buffer, what else it does to the slot, and the entry. -/
def outForm (s : State) : Instr → Option (Bool × Bool × (Slot → Slot) × OutWhat)
  | .send sw a b rep rmo res delta =>
    (sendForm s a b rep rmo res delta).map fun w => (sw, true, Slot.outbSent, w)
  | .job sw b c =>
    if (s.me.g b.toNat).toNat % 64 ≠ 0 then none
    else some (sw, true, id, .job (s.me.g b.toNat) (jobTarget s (s.me.g c.toNat)) (captures s.me))
  | .unbind sw ch cl => if firmwareChannel s ch then none else some (sw, false, id, .unbind ch.toNat cl)
  | .unkeep sw n => if keepGranted s n.toNat then some (sw, false, id, .unkeep n.toNat (dieOf s.cur.core)) else none
  | .collMax sw b => (collForm s 0 b).map fun w => (sw, true, id, w)
  | .collReduceBsi sw b => (collForm s 1 b).map fun w => (sw, true, id, w)
  | .collBcast sw b => (collForm s 2 b).map fun w => (sw, true, id, w)
  | .collGather sw b => (collForm s 3 b).map fun w => (sw, true, id, w)
  | .mm sw t clr b c => (matrixForm s 0x78 t clr b c).map fun w => (sw, true, id, w)
  | .mms sw t clr b c => (matrixForm s 0x79 t clr b c).map fun w => (sw, true, id, w)
  | .mmx sw t clr b c => (matrixForm s 0x7A t clr b c).map fun w => (sw, true, id, w)
  | .mzero sw t c => (commandForm s 1 0 (matrixCap 0x7B t false true (s.me.g c.toNat))).map fun w => (sw, true, id, w)
  | .mread sw t clr b c => (matrixForm s 0x7C t clr b c).map fun w => (sw, true, id, w)
  | .mstw sw b c => (matrixForm s 0x7D 0 false b c).map fun w => (sw, true, id, w)
  | _ => none

/-- A vector instruction that accesses no memory: its S bit, the scalar registers captured at dispatch, and the scalar
registers that its result is for (R304, R306). -/
def vecForm (sl : Slot) : Instr → Option (Bool × List Nat × List Nat)
  | .vcvt sw rm _ _ _ _ _ _ _ d => some (sw, srSrc sl rm d, [])
  | .vquant sw rm _ _ _ _ c d => some (sw, c.toNat :: srSrc sl rm d, [])
  | .vdeq sw _ _ _ _ c d | .vmxio sw _ _ _ _ _ _ _ c d => some (sw, [c.toNat, d.toNat], [])
  | .vbexp sw delta _ a _ c => some (sw, if delta then [c.toNat] else [], [a.toNat])
  | .vrng sw _ c => some (sw, [c.toNat], [])
  | .vf sw _ v _ _ c | .vfma sw _ _ v _ _ c _ | .vd sw _ v _ _ c | .vi sw _ _ v _ _ c | .vcmp sw _ _ v _ _ c =>
    some (sw, if v.sc then [c.toNat] else [], [])
  | .vsel sw _ _ _ _ _ | .vspec sw _ _ _ _ _ _ _ => some (sw, [], [])
  | .vred sw f _ a _ => some (sw, [], if f = .bsiF32 then [a.toNat, a.toNat + 1] else [a.toNat])
  | .vperm sw f _ _ _ _ _ d => some (sw, if f.usesG then [d.toNat] else [], [])
  | .vmsk sw f a b _ => some (sw, if VmskFn.fromG f then [b.toNat] else [], if VmskFn.toG f then [a.toNat] else [])
  | .vmov sw f _ _ a b c => some (sw, vmovSrcs f b c, vmovDest f a)
  | .vbsi sw f _ _ _ _ c => some (sw, match f with | .cvtF32 | .cvtF64 => [c.toNat] | _ => [], [])
  | _ => none

/-- A slot with a vector instruction dispatched: it takes the next VSEQ and enters the ring (R304, R306). -/
def Slot.ringed (o : VecOp) (dests : List Nat) (sl : Slot) : Slot :=
  { sl with vq := sl.vq ++ [o], vseq := sl.vseq + 1, pend := sl.pend ++ dests.filter fun d => d != 0 }

/-! Parking instructions. -/

/-- A parking instruction whose checks at issue pass (R37, R107, R392, R393). -/
def mayPark (s : State) : Instr → Bool
  | .yield _ => s.me.ts != 0xFFFFFFFFFFFFFFFF
  | .endAct _ | .wait .. | .compose .. | .release _ | .trap .. | .brk .. => true
  | .tret .. => s.me.super && s.me.depth != 0 && !s.me.trapa.toNat.testBit 0
  | .mchkAbort _ => s.me.super
  | _ => false

/-- The slot at the end of the park of instruction `i`, the checker having seen it (R37, R88). -/
def Slot.parkOver (sl : Slot) (i : Instr) : Slot :=
  { sl.unparked with chk := checked i sl.chk sl.chk, onceArm := if sl.onceArm = some sl.pc then none else sl.onceArm }

/-- A slot that hands its composition back, and then does what `c` says (R146). -/
def Slot.handingBack (c : ParkCont) (sl : Slot) : Slot := { sl with st := .releasing, stall := .none, cont := c }

/-- A slot that claims a composition for instruction `i` (R147). -/
def Slot.claiming (i : Instr) (sl : Slot) : Slot := { sl with st := .composing, cont := .after i }

/-- The terminators (R124). -/
def isTerm : Instr → Bool
  | .yield _ | .endAct _ | .wait .. => true
  | _ => false

/-- `trap` and `brk`: their code and their number (R373, R391). -/
def softForm : Instr → Option (Nat × Nat)
  | .trap _ n => some (0x0C, n.toNat)
  | .brk _ n => some (0x0B, n.toNat)
  | _ => none

/-- The slot that starts an aborted activation again: its trigger, counted once more, and nothing of what it did
(R98, R198, R386). -/
structure Slot.Restarts (old : Slot) (redo : Trigger) (t : Slot) : Prop where
  filling : t.st = .filling
  starting : t.act = .starting
  strand : t.strand = old.strand
  key : t.trig.key = redo.key
  payload : t.trig.payload = redo.payload
  conflicts : t.trig.conflicts = redo.conflicts
  redeliveries : t.trig.redeliveries = redo.redeliveries
  regs : t.regs = [] ∧ t.vregs = [] ∧ t.masks = []
  effects : t.buf = [] ∧ t.outg = [] ∧ t.outst = [] ∧ t.vq = [] ∧ t.readset = [] ∧ t.nextIdx = 0

/-- The containment notice of the activation of the slot `cur` (R385). -/
def noticeOf (s : State) (m : McInfo) (redone : Bool) (k : Nat) : FwMsg :=
  { die := dieOf s.cur.core, chan := 2, note := .containment (containmentWords m s.me redone k) }

/-- The policy of R386 lets the activation of the slot `cur`, outside a team, run again: none of its effects is published
yet (R195), and neither its core nor another member of its composition is to be fenced (R145, R389). -/
structure RunsAgain (s : State) : Prop where
  own : s.me.team = none
  revocable : s.me.irrev = false ∧ s.me.phase = 0
  allowed : (cpol s (dieOf s.cur.core) s.me.part.toNat).testBit 0 = true
  left : s.me.trig.redeliveries < natBits (cpol s (dieOf s.cur.core) s.me.part.toNat) 7 4
  open_ : fenceBit s s.cur.core = false
  apart : s.me.curLog2 = 0 ∨ (memberCores s.me s.cur.core).any (fenceBit s) = false

/-! Ordering, link directions, state registers, channels, barriers. -/

/-- An instruction without an effect of its own where it stands: its S bit, and whether nothing is left that it waits for
(R212 to R215); `sig` (R88) and, outside a team, a `once` that may stand where it does (R127) never wait. -/
def orderForm (s : State) : Instr → Option (Bool × Bool)
  | .fence sw scp _ earlier =>
    some (sw, scp == 0 ||
      !((earlier.getLsbD 0 && loadsLeft s) || (earlier.getLsbD 1 && storesLeft s) || vecMemPending s.me))
  | .tfence sw => some (sw, s.me.team.isNone || !vecMemPending s.me)
  | .fwaitW sw b n =>
    some (sw, s.jobs.all fun j => j.iss.domain != s.me.domain || !anyMeets j.wr [fwaitRegion (s.me.g b.toNat) n])
  | .fwaitRw sw b n =>
    some (sw, s.jobs.all fun j =>
      j.iss.domain != s.me.domain || !anyMeets (j.rd ++ j.wr) [fwaitRegion (s.me.g b.toNat) n])
  | .fwaitAll sw => some (sw, s.jobs.all fun j => j.iss.domain != s.me.domain)
  | .irrev sw => some (sw, s.me.irrev)
  | .sig sw _ => some (sw, true)
  | .once sw => if s.me.team = none ∧ onceBad s = false then some (sw, true) else none
  | _ => none

/-- What `ldir` makes of the direction of each port, where it may (R263). -/
def ldirForm (sl : Slot) : Instr → Option (Bool × (Nat → Nat))
  | .ldirSet sw b =>
    let v := (sl.g b.toNat).toNat
    if v < 2 ^ 12 ∧ (∀ k, k < 4 → natBits v (3 * k + 2) (3 * k) ≤ 4) ∧
        (∀ k, k < 4 → ∀ j, j < 4 → k ≠ j → natBits v (3 * k + 2) (3 * k) ≠ 0 →
          natBits v (3 * k + 2) (3 * k) ≠ natBits v (3 * j + 2) (3 * j)) then
      some (sw, fun k => natBits v (3 * k + 2) (3 * k))
    else none
  | .ldirSwap sw => some (sw, fun k => portDir sl (match k with | 0 => 1 | 1 => 0 | k => k))
  | .ldirRev sw => some (sw, fun k => match portDir sl k with | 1 => 3 | 3 => 1 | 2 => 4 | 4 => 2 | d => d)
  | _ => none

/-- A slot with another LDIR. -/
def Slot.withLdir (v : Word) (sl : Slot) : Slot := { sl with ldir := v }

/-- A state register that program mode may not touch with this function (R396). -/
def srPrivileged (n : Nat) (writes : Bool) : Bool :=
  decide ((0x10 ≤ n ∧ n ≤ 0x15) ∨ n = 0x17 ∨ (0x100 ≤ n ∧ n ≤ 0x11F)) || (writes && (n == 0x0F || n == 0x16))

/-- `sr`: its function code, its S bit, its destination, its source and its number (R407). -/
def srForm : Instr → Option (Nat × Bool × Reg × Reg × Nat)
  | .srRd sw a n => some (0, sw, a, 0, n.toNat)
  | .srWr sw a b n => some (1, sw, a, b, n.toNat)
  | .srSet sw a b n => some (2, sw, a, b, n.toNat)
  | .srClr sw a b n => some (3, sw, a, b, n.toNat)
  | _ => none

/-- An `sr` may act: no vector instruction is left, no late fault, the mode may, and a write passes the rules of WSP and
LDIR (R263, R396, R407). -/
structure SrActs (s : State) (i : Instr) (f n : Nat) (new : Word) : Prop where
  drained : s.me.vq = []
  punctual : s.me.late = none
  mode : s.me.super = true ∨ srPrivileged n (f != 0) = false
  value : f = 0 ∨ srWriteTrap s i n new = none
  alone : n = 0 → f = 0 ∨ s.me.curLog2 = 0

/-- The channel instructions: S, the channel, and what becomes of the mask and of the binding's priority (R253). -/
def chanForm : Instr → Option (Bool × BitVec 6 × Option Bool × Option (BitVec 3))
  | .chanMask sw ch => some (sw, ch, some true, none)
  | .chanUnmask sw ch => some (sw, ch, some false, none)
  | .chanPrio sw ch p => some (sw, ch, none, some p)
  | _ => none

/-- `trc`: S, and what becomes of EN and FROZEN; `trc.mark` leaves both (R408). -/
def trcForm (x : CoreSt) : Instr → Option (Bool × Bool × Bool × Bool)
  | .trcOn sw => some (sw, true, true, false)
  | .trcOff sw => some (sw, true, false, trcFrozenBit x)
  | .trcFreeze sw => some (sw, true, trcOnBit x, true)
  | .trcMark sw _ => some (sw, false, trcOnBit x, trcFrozenBit x)
  | _ => none

/-- The selection register of a counter: 0 to 3 of the core, 4 to 11 of its cluster (R406, R409). -/
def selWord (s : State) (n : Nat) : Word :=
  if n < 4 then smGet 0 (s.core s.cur.core).ctrSel n else smGet 0 (s.cluster (clusterOf s.cur.core)).ccSel (n - 4)

/-- A member of a team that has arrived at barrier `b` with kind `k` and value `v`, its arrival noted under `key`
(R233). -/
def arrivedAt (s : State) (t b key k : Nat) (v : Word) : State :=
  let tm := s.getTeam t
  let x := smGet Barrier.reset tm.bars b
  (s.setMe { s.me with barArr := s.me.barArr ++ [(key, x.phase)] }).setTeam t
    { tm with bars := rmSet tm.bars b { x with arr := x.arr ++ [(s.me.tidx, k, v)] } }

/-! Memory. -/

/-- The effective address of an operand with access size 2^k (R167). -/
def effAddr (sl : Slot) (m : MemOp) (k : Nat) : Word :=
  sl.g m.b.toNat + sl.g m.x.toNat <<< k + (m.d9.signExtend 64) <<< k

/-- The parts `ps` of an access translate one after the other, which takes the machine from `s` to `t` (R169, R183). -/
def Translates (acc : Access) : List (Nat × Nat) → State → State → List MPart → Prop
  | [], s, t, ps => t = s ∧ ps = []
  | (va, n) :: rest, s, t, ps =>
    ∃ e pa u qs, translate s (slotCtx s s.cur false) acc va n = (u, .ok e pa) ∧ Translates acc rest u t qs ∧
      ps = { va := va, pa := pa, n := n, e := e } :: qs

/-- The parts of an access lie on pages that agree, outside the frames of running strands (R36, R169). -/
def Accessible (s : State) (ps : List MPart) : Prop :=
  (ps.all fun p => ps.all (samePage p)) = true ∧
    (ps.all fun p => p.view != 0 || !inLiveFrame s p.pa p.n) = true

/-- No part is a device register. -/
def plainParts (ps : List MPart) : Bool := ps.all fun p => p.kind != .io

/-- A core, a cluster and a die without what their caches, TLBs, predictors, traces and counters hold. -/
def CoreSt.uncached (x : CoreSt) : CoreSt :=
  { x.unwatched with itlb := [], dtlb := [], l1d := [], l1i := [], predictor := [] }

def ClusterSt.uncached (x : ClusterSt) : ClusterSt :=
  { x with tlb := [], cmLines := [], rdcLines := [], retLines := [], waferLines := [], cctrs := [] }

def DieSt.uncached (x : DieSt) : DieSt := { x with tlb := [], tableCache := [] }

/-- The machine without slots, cores, clusters, dies, bytes of memory, and the count of free choices. -/
def State.shell (s : State) : State := { s with slots := [], cores := [], clusters := [], dies := [], mem := [], free := 0 }

/-- From `s` to `t` nothing changes but bytes of memory, what caches, TLBs, traces and counters hold, and the slot
`cur`. -/
structure OnlyCaches (s t : State) : Prop where
  slots : ∀ r, slotKey r ≠ slotKey s.cur → t.slot r = s.slot r
  cores : ∀ c, (t.core c).uncached = (s.core c).uncached
  clusters : ∀ c, (t.cluster c).uncached = (s.cluster c).uncached
  dies : ∀ d, (t.die d).uncached = (s.die d).uncached
  rest : t.shell = s.shell

/-- A slot that has read parts: the lines that a revocable activation adds to its read set (R197). -/
def Slot.noting (s : State) (ps : List MPart) (sl : Slot) : Slot :=
  if sl.irrev then sl
  else
    { sl with
      readset := ps.foldl (fun r p => addLines r (readLines s p)) sl.readset
      readva := ps.foldl (fun r p => if (readLines s p).isEmpty then r else addLines r [lineOf p.va]) sl.readva }

/-- A load: S, destination, operand, log2 of its size, whether it extends the sign, whether it must be aligned (R170). -/
def loadForm : Instr → Option (Bool × Reg × MemOp × Nat × Bool × Bool)
  | .ld sw w a m => some (sw, a, m, (LdW.spec w).1, (LdW.spec w).2, true)
  | .ldu sw w a m => some (sw, a, m, (LdW.spec w).1, (LdW.spec w).2, false)
  | _ => none

/-- A store: S, source, operand, log2 of its size, whether it must be aligned (R170). -/
def storeForm : Instr → Option (Bool × Reg × MemOp × Nat × Bool)
  | .st sw w a m => some (sw, a, m, StW.log2 w, true)
  | .stu sw w a m => some (sw, a, m, StW.log2 w, false)
  | _ => none

/-- A slot with stores of a value to parts entered in its buffer, the lowest bytes in the first part (R195), with how
caches treat their lines (R156). -/
def Slot.stored (evp : Nat) (ps : List MPart) (v : Nat) (sl : Slot) : Slot :=
  { sl with
    buf := sl.buf ++ (partVals ps v).map fun q => .store q.1.pa q.1.va q.1.n q.2 (q.1.attr evp)
    trans := sl.trans ++ ps.map fun p => usedOf p.e }

/-- A byte of memory after values have been stored in parts one after the other; `old` is the byte before. -/
def byteAfter (qs : List (MPart × Nat)) (a : Nat) (old : Byte) : Byte :=
  qs.foldl (fun b q => if q.1.pa ≤ a ∧ a < q.1.pa + q.1.n then BitVec.ofNat 8 (q.2 / 256 ^ (a - q.1.pa)) else b) old

/-- Nobody outside the own team has read a line and could still be aborted for it (R200). -/
def unread (s : State) (ps : List MPart) : Bool :=
  ps.all fun p => (readersOf s [lineOf p.pa] (selfSlots s s.cur)).isEmpty

/-- A line operation: S, its function code and its operand (R175). -/
def copForm : Instr → Option (Bool × Nat × MemOp)
  | .copFlush sw m => some (sw, 0, m)
  | .copClean sw m => some (sw, 1, m)
  | .copInv sw m => some (sw, 2, m)
  | .copZero sw m => some (sw, 3, m)
  | .copDemote sw m => some (sw, 4, m)
  | _ => none

/-- How a line operation translates. -/
def copAccess (f : Nat) : Access := if f = 3 then .zero else if f = 4 then .demote else .cop

/-- The line that a part lies in. -/
def MPart.wholeLine (q : MPart) : MPart := { q with va := q.va / 64 * 64, pa := q.pa / 64 * 64, n := 64 }

/-- The eight stores of zeros of `cop.zero`. -/
def zeroStores (evp : Nat) (p : MPart) : List BufEntry :=
  (natsFrom 0 8).map fun k => .store (p.pa + 8 * k) (p.va + 8 * k) 8 0 (p.attr evp)

/-- A slot with a line operation entered in its buffer. -/
def Slot.copEntered (f evp : Nat) (p : MPart) (sl : Slot) : Slot :=
  { sl with
    buf := sl.buf ++ if f = 3 then zeroStores evp p else [.cop f p.pa p.va]
    trans := sl.trans ++ List.replicate (if f = 3 then 8 else 1) (usedOf p.e) }

/-- Instructions that enter an outgoing entry after an access has been translated: S, the access and its pieces, and the
entry it comes to, where its checks pass (R126, R158, R252). -/
def entryForm (s : State) : Instr → Option (Bool × Access × List (Nat × Nat) × (State → List MPart → Option OutWhat))
  | .launch sw a b =>
    let ga := s.me.g a.toNat
    let gb := s.me.g b.toNat
    if ga.toNat % 64 ≠ 0 ∨ (gb ≠ 0 ∧ natBits gb.toNat 37 32 < 8) then none
    else some (sw, .load, [(ga.toNat, 64)], fun _ ps => ps.head?.map fun p => .launch p.pa gb p.view (ptePa p.pte))
  | .bind sw ch b cl =>
    let gb := s.me.g b.toNat
    if gb.toNat % 32 ≠ 0 ∨ (ch.toNat < 8 ∧ s.me.super = false) then none
    else some (sw, .load, [(gb.toNat, 32)], fun t ps =>
      if loadWait t ps = none ∧ (ps.any fun p => partAborts t p) = false then
        (bindingOf t (leOf (ps.flatMap (partBytes t)))).map fun v => .bind ch.toNat cl v
      else none)
  | .keep sw n b c =>
    let gb := s.me.g b.toNat
    let gc := s.me.g c.toNat
    if keepGranted s n.toNat = false ∨ gb.toNat % 64 ≠ 0 ∨ gc.toNat % 64 ≠ 0 ∨ gc = 0 then none
    else some (sw, .keep, [(gb.toNat, 1)], fun _ ps => ps.head?.bind fun p =>
      if p.kind = .device ∧ gb.toNat / p.e.size = (gb.toNat + gc.toNat - 1) / p.e.size then
        some (.keep n.toNat (BitVec.ofNat 64 (2 ^ 63 + p.pa)) (BitVec.ofNat 64 (p.pa + gc.toNat - 64)) (paDie p.pa))
      else none)
  | _ => none

/-- A slot whose effect went through the page entries of parts, which an invalidation then waits for (R193). -/
def Slot.through (ps : List MPart) (sl : Slot) : Slot := { sl with trans := sl.trans ++ ps.map fun p => usedOf p.e }

/-- A direct write of the lines of parts touches no lost line, whose blocking it could end (R162). -/
def noneLost (s : State) (ps : List MPart) : Bool := ps.all fun p => !lostLine s p.pa

/-- The outstanding load of parts: one across a line boundary keeps them, since each reads at a time of its own (R168).
-/
def loadResult (sl : Slot) (i : Instr) (a : Reg) (sg : Bool) (ps : List MPart) (v : Word) : Outst :=
  { knownResult sl i a.toNat false v 0 with split := if ps.length = 1 then none else some (sg, ps) }

/-! Atomics. -/

/-- A posted atomic: S, operation, width, address register, operand register, descriptor register (R220). -/
def postForm : Instr → Option (Bool × AmoOp × AmoW × Reg × Reg × Option Reg)
  | .amo sw op w b c _ => some (sw, op, w, b, c, none)
  | .amot sw op w b c d _ => some (sw, op, w, b, c, some d)
  | _ => none

/-- A fetching atomic: S, operation, width, destination, address register, operand register, new value of `cas`, and its
ordering (R221, R228). -/
def fetchForm : Instr → Option (Bool × AmoOp × AmoW × Reg × Reg × Reg × Option Reg × AmoOrd)
  | .amof sw op w a b c o => some (sw, op, w, a, b, c, none, o)
  | .cas sw w a b c d o => some (sw, .add, w, a, b, c, some d, o)
  | _ => none

/-- The operand of an atomic: a register, or a pair with its first register low (R226). -/
def atomVal (sl : Slot) (w : AmoW) (r : Reg) : BitVec 128 :=
  if w = .q then (sl.g (r.toNat + 1)).append (sl.g r.toNat) else (srcVal sl r).setWidth 128

/-- A slot with a posted atomic in its buffer. -/
def Slot.posted (a : AtomReq) (p : MPart) (sl : Slot) : Slot :=
  { sl with buf := sl.buf ++ [.amo a], trans := sl.trans ++ [usedOf p.e] }

/-- The function table of R225 on bit patterns of one width. -/
def amoTable {b : Nat} (op : AmoOp) (m v : BitVec b) : BitVec b :=
  match op with
  | .add => m + v
  | .and => m &&& v
  | .or => m ||| v
  | .xor => m ^^^ v
  | .min => if v.slt m then v else m
  | .max => if m.slt v then v else m
  | .minu => if v.ult m then v else m
  | .maxu => if m.ult v then v else m
  | .swap => v
  | .bsiadd => m

/-! Vector accesses. -/

/-- The lanes and addresses of a vector access (R172): all lanes for c and the active ones for the others. -/
def elemsOf (sl : Slot) (w : VecW) (m : MemOp) : List VElem :=
  let lg := VecW.lg w
  let base := sl.g m.b.toNat + (m.d9.signExtend 64) <<< lg
  (vmemLanes sl w).map fun l =>
    velem w l (match w with
      | .c | .cm => effAddr sl m 7 + BitVec.ofNat 64 (4 * l)
      | .s32 | .s64 => base + BitVec.ofNat 64 (l * (sl.g m.x.toNat).toNat)
      | .x32 | .x64 => BitVec.ofNat 64 ((base.toNat + laneOf (sl.v m.x.toNat) (8 * 2 ^ lg) l % 2 ^ 32 * 2 ^ lg) % 2 ^ 64))

/-- A vector access that comes to its elements: room in the ring, mask and index there, every element aligned,
translated and outside frames and device registers (R36, R169, R173, R399). -/
structure VecAccess (s : State) (acc : Access) (w : VecW) (m : MemOp) (t : State) (ps : List MPart) : Prop where
  room : s.me.vq.length < 32
  drained : w = .c ∨ s.me.vq = []
  aligned : ((elemsOf s.me w m).all fun x => x.va % 2 ^ VecW.lg w == 0) = true
  reached : Translates acc ((elemsOf s.me w m).map fun x => (x.va, 2 ^ VecW.lg w)) s t ps
  alike : VecW.isC w = true → (ps.all fun p => ps.all (samePage p)) = true
  free : (ps.all fun p => p.view != 0 || !inLiveFrame t p.pa p.n) = true
  plain : plainParts ps = true

/-- A slot after an instruction that takes only its VSEQ (R306, R308). -/
def Slot.vseqTaken (sl : Slot) : Slot := { sl with vseq := sl.vseq + 1 }

/-- A slot with a `vst`'s entries reserved, and the page entries that its elements went through (R173, R190). -/
def Slot.reserving (w : VecW) (qs : List (VElem × MPart)) (sl : Slot) : Slot :=
  { sl with
    reserved := sl.reserved + (match w with | .s32 | .x32 => 32 | _ => 16)
    trans := sl.trans ++ usedEntries qs }

/-- A core without its channels' masks and bindings. -/
def CoreSt.besideChannels (x : CoreSt) : CoreSt := { x.unwatched with masked := 0, handlers := [], tabOld := none }

/-- The issue of the instruction at the PC of slot `cur` of `s`, counted in `t` by the core that executes it (R406). -/
def countIssueOf (s t : State) : State := countCore t (ownerCore s.me s.cur.core s.me.pc.toNat) 1 1

/-- A slot that has noted an arrival, and one that has dropped it (R233). -/
def Slot.noteArr (key ph : Nat) (sl : Slot) : Slot := { sl with barArr := sl.barArr ++ [(key, ph)] }

def Slot.dropArr (key : Nat) (sl : Slot) : Slot := { sl with barArr := sl.barArr.filter fun p => p.1 != key }

/-- The machine with the slot `cur` waiting. -/
def stalledFor (w : StallWhy) (s : State) : State := s.setMe (s.me.waiting w)

/-- What `tlb.probe` answers: a leaf's entry, or a fault's cause in [63:56]; nothing where the walk meets an abort
completion (R193). -/
def probeAnswer (s : State) (gb gc : Word) : Option Word :=
  match walkDie s (dieOf s.cur.core) (probeRoot s.me.xroot gc) gb.toNat with
  | .leaf pte _ size _ => some (probeWord pte size gb.toNat)
  | .fault cause => some (BitVec.ofNat 64 (cause * 2 ^ 56))
  | .abort _ => none

/-- A slot with a doubleword appended to outb, and one whose inb has come to `rest` (R32). -/
def Slot.appended (v : Word) (sl : Slot) : Slot := { sl with outb := sl.outb ++ [v] }

def Slot.inboxTaken (rest : List Word) (sl : Slot) : Slot := { sl with inbox := rest }

/-- A slot whose instruction has been fetched: its successor is known, and the fetch at a trap vector is over. -/
def Slot.fetchedAt (npc : Word) (sl : Slot) : Slot := { sl with npc := npc, vecFetch := false }

/-- The machine with what is left of its agenda. -/
def withAgenda (s : State) (a : List Turn) : State := { s with agenda := a }

/-- Memory, the flash copy of it, and the memory of every image are in canonical form. -/
def State.memoryCanonical (s : State) : Bool :=
  Memory.wf s.mem && Memory.wf s.safe && s.images.all fun p => Memory.wf p.2.mem

/-! Events. -/

/-- The machine with the turn of slot `r`. -/
def State.turn (s : State) (r : SlotRef) : State := { s with cur := r }

/-- From `s` to `t` nothing changes but slot `r`, traces and counters. -/
def OnlyAt (r : SlotRef) (s t : State) : Prop := OnlySlot (s.turn r) (t.turn r) ∧ t.cur = s.cur

/-- A slot whose ring has come to `rest`. -/
def Slot.ringLeft (rest : List VecOp) (sl : Slot) : Slot := { sl with vq := rest }

/-- A slot to which result number `k` has returned: a pair goes to two registers (R38). -/
def Slot.returned (k : Nat) (o : Outst) (v hi : Word) (sl : Slot) : Slot :=
  let u := ({ sl with outst := dropAt sl.outst k } : Slot).setG o.dest v
  if o.pair then u.setG (o.dest + 1) hi else u

/-- A slot whose stall is over. -/
def Slot.awake (sl : Slot) : Slot := { sl with st := sl.readySt, stall := .none }

/-- A slot whose instruction no longer waits for its invalidation (R193). -/
def Slot.resumed (sl : Slot) : Slot := { sl with st := sl.readySt, stall := .none, cont := .resume }

/-- Whether the reason of a stall is one that STALL_END ends as such: the waits for the commit token and for an
invalidation have events of their own, and the wait of `sr` ends with a park (R309). -/
def plainStall : StallWhy → Bool
  | .commitToken | .tlbInval | .srVector => false
  | _ => true

/-- The bytes of a frame at `w` that the start of an activation rewrites: the link to its record, TS and SID, and the
reserved words (R35). -/
def roByte (w y : Nat) : Prop :=
  (w ≤ y ∧ y < w + 8) ∨ (w + 0x190 ≤ y ∧ y < w + 0x1A0) ∨ (w + 0x1E0 ≤ y ∧ y < w + 0x200)

/-- Memory from `s` to `t` stays but for A, or A and D, of one table entry (R187). -/
def OnlyAd (s t : State) : Prop :=
  ∃ w, (∀ a, a ≠ w → t.byte a = s.byte a) ∧
    (t.byte w = s.byte w ∨ t.byte w = s.byte w ||| 0x40 ∨ t.byte w = s.byte w ||| 0xC0)

/-- An own-line atomic of slot `r` that can be performed at once: nothing before it in the buffer, no trigger, no
error, and nobody who has read its line (R200, R218, R219). -/
structure OwnLineComes (s : State) (r : SlotRef) (o : Outst) (a : AtomReq) : Prop where
  runs : (s.slot r).act ≠ .none ∧ (s.slot r).buf = []
  first : (s.slot r).outst.find? isOwn = some o
  own : o.what = .own a
  plain : a.trig = none
  readable : lineAborts s a.pa = false ∧ s.soft = []
  unread : readersOf s [lineOf a.pa] (selfSlots s r) = []

/-- The claim of slot `r`, which asks for 2^lg cores by `compose` number `i`, is the one that its cluster grants now
(R147). -/
structure ClaimsNow (s : State) (r : SlotRef) (i : Instr) (lg : Nat) : Prop where
  claims : claims s r = some (i, lg)
  turn : claimant s (clusterOf r.core) = some r ∧ claimedNow s (clusterOf r.core) = false
  signed : ∃ c, chkComplete (s.slot r).chk i = .ok c
  sound : s.glitches = []

/-- The record of a doubleword that reaches a member disturbed (R137). -/
def operandRecord (s : State) (r : SlotRef) (sender receiver : Nat) (sent arrived : Word) (major func : Nat) : McInfo :=
  { type := 1, sev := 1, unit := 1, agent := coreAgent s receiver, lane := 63, major := major, func := func,
    res := resByte (res arrived.toNat) (res sent.toNat), pc := (s.slot r).pc, info := BitVec.ofNat 64 (sender % 16) }

/-- The functions of `vi` that set no flag and whose lanes are plain arithmetic on bit patterns. -/
def plainVi : ViFn → Bool
  | .mulh | .mulhu | .sll | .srl | .sra | .adds | .addus | .subs | .subus | .abs => false
  | _ => true

/-- Their values (R315). -/
def viTable {w : Nat} (f : ViFn) (x y : BitVec w) : BitVec w :=
  match f with
  | .add => x + y
  | .sub => x - y
  | .mul => x * y
  | .and => x &&& y
  | .or => x ||| y
  | .xor => x ^^^ y
  | .andn => x &&& ~~~y
  | .min => if y.slt x then y else x
  | .max => if x.slt y then y else x
  | .minu => if y.ult x then y else x
  | .maxu => if x.ult y then y else x
  | _ => x

/-! Commit. -/

/-- Whether a buffer holds nothing but stores. -/
def onlyStores (b : List BufEntry) : Bool := b.all fun e => match e with | .store .. => true | _ => false

/-- A byte of memory after the stores of a buffer, in order; `old` is the byte before. -/
def bufAfter (b : List BufEntry) (a : Nat) (old : Byte) : Byte :=
  b.foldl (fun x e => match e with
    | .store pa _ n v _ => if pa ≤ a ∧ a < pa + n then BitVec.ofNat 8 (v / 256 ^ (a - pa)) else x
    | _ => x) old

/-- The activation of slot `r`, outside a team, has or can have the commit token, and nothing stands against its
publication: no job that it would disturb, no glaze, no SID to be taken, no far atomic on its way, no other reader of
what it writes (R105, R199 to R206, R363). -/
structure Publishes (s : State) (r : SlotRef) : Prop where
  own : (s.slot r).team = none
  held : (s.slot r).act ≠ .none
  token : tokenFor s r = true
  clear : actDisturbs s r = false
  open_ : glazeHolds s (s.slot r).key.ts = false
  named : needsSid (s.slot r) = false
  sids : sidsLeft s (s.slot r).domain (sidsWanted s r) = true
  fresh : (s.slot r).phase = 0
  settled : farWaits s r = false
  stores : onlyStores (s.slot r).buf = true
  unread : readersOf s (bufLines (s.slot r).buf) [r] = []

/-- Where a strand goes by its activation's terminator (R124). -/
def termSt : Option Instr → StrandSt
  | some (.endAct _) => .done
  | some (.wait ..) => .waiting
  | _ => .ready

/-! Messages. -/

/-- A message `p` that can leave the fabric at position `k`, on its way out, from a sender that this module has not
accepted it from before (R239, R369). -/
structure Lands (s : State) (k : Nat) (p : Packet) : Prop where
  here : arriving s k = some p
  outward : p.bounced = false
  new : replayed s p = false

/-- A message that is not remote memory, at a core that looks at it now (R237, R241, R390, R404). -/
structure Reaches (s : State) (k core : Nat) (p : Packet) : Prop where
  lands : Lands s k p
  plain : p.rmo = false
  at_ : agentCore? s p.dest = some core
  first : queueFirst s core p = false
  header : headerOk p = true ∧ p.xform = 0
  out : swappedOut s core = false

/-- A message that starts an activation of a binding outside a team at a core: the FREE slot and the pool entry that it
gets, by the binding and the mask with which the cycle began (R97, R99, R147, R241, R242). -/
structure Starts (s : State) (core : Nat) (p : Packet) (r : SlotRef) (i : Nat) (b : Binding) : Prop where
  plain : p.resume = false
  bound : bindingNow s core p.chan = some b
  solo : b.team ≤ 1
  unmasked : maskedNow s core p.chan = false
  admitted : admits s core = true
  slot : triggerSlot s core = some r
  entry : usableEntry s core = some i
  live : (s.dom b.domain.toNat).live = true ∧ domCancelled s b.domain = false
  apart : (s.dom b.domain.toNat).ordered = false ∨
    natBits p.osid.toNat 39 28 ≠ (s.dom b.domain.toNat).sidBase.toNat ∨ p.zd = false
  open_ : glazeHolds s (raised s b.domain p).d1 = false

/-- Slot `r` of `t` holds the activation that a message started through binding `b`, on a fresh strand with the pool
entry `i` of `s` (R35, R99 to R102). -/
structure Begun (s t : State) (p : Packet) (r : SlotRef) (i : Nat) (b : Binding) : Prop where
  filling : (t.slot r).st = .filling
  starting : (t.slot r).act = .starting
  key : (t.slot r).key = msgKey (raised s b.domain p)
  ts : (t.slot r).ts = (raised s b.domain p).d1
  inbox : (t.slot r).inbox = p.payload
  channel : (t.slot r).chn = BitVec.ofNat 6 p.chan
  domain : (t.slot r).domain = b.domain
  prio : (t.slot r).prio = b.prio
  frame : (t.slot r).wsp = poolFrame s (clusterOf r.core) i
  strand : (t.slot r).strand = poolRecord s (clusterOf r.core) i
  entry : (t.strand (poolRecord s (clusterOf r.core) i)).pc = b.entry
  taken : (t.cluster (clusterOf r.core)).taken.contains i = true

/-- The 4 KiB frames of a page with a size code: 4 KiB, 64 KiB, 2 MiB or 1 GiB (R181). -/
def framesOf (size : Nat) : Nat :=
  match size with
  | 1 => 16
  | 2 => 512
  | 3 => 2 ^ 18
  | _ => 1

/-- The answer of a home to a far-atomic request: on channel 2 a reply, on 3 a NACK (R246). -/
def answerTo (p : Packet) (chan : Nat) (pl : List Word) : Packet :=
  { src := p.dest, d0 := mkD0 p.src chan 1 pl.length 8, d1 := p.d1, d2 := mkD2 p.osid p.sidx 0, d3 := 0, payload := pl }

/-- The acknowledgement of a landing (R249). -/
def landAnswer (p : Packet) : Packet :=
  { src := p.dest, d0 := mkD0 p.src 3 1 1 0, d1 := p.d1, d2 := mkD2 p.osid p.sidx 0, d3 := 0, payload := [p.d3] }

/-- The message of a `send` as its activation's slot issues it (R106, R237). -/
def sentMsg (s : State) (r : SlotRef) (i : Nat) (d0 d1 d3 : Word) (payload : List Word) : Packet :=
  { src := coreAgent s r.core, d0 := d0, d1 := d1, d2 := mkD2 (s.slot r).sid i 0, d3 := d3, payload := payload }

/-! Launches. -/

/-- A launch as the dispatcher keeps it once it has accepted its record (R112, R115). -/
def waitingLaunch (part : Nat) (b : BitVec 512) (queue tt parent : Option Nat) : Launch :=
  { part := part, lid := recLid b, record := b, queue := queue, ttEntry := tt, parent := parent, st := .waiting,
    domain := 0, faulted := false, cancelled := none }

/-- A record that the dispatcher accepts and does not cancel at once (R113, R115). -/
def accepted (s : State) (part : Nat) (b : BitVec 512) : Prop := recStatus s part b = 1 ∧ depsFailed s part b = false

/-- The reply of the dispatcher to a device-side launch, with a launch identifier and a status (R126). -/
def launchAnswer (s : State) (d : Delivery) (lid status : Nat) : Packet :=
  { src := dispatcher s (agentDie d.src),
    d0 := mkD0 (BitVec.ofNat 32 d.reply.toNat) (natBits d.reply.toNat 37 32) 1 1 0,
    d1 := d.key.ts, d2 := mkD2 d.key.sid d.key.idx.toNat 0, d3 := 0, payload := [lidWord lid status] }

/-- The message that a completed launch sends to its target (R115). -/
def endAnswer (s : State) (b : BitVec 512) (status : Nat) : Packet :=
  { src := dispatcher s 0, d0 := mkD0 (BitVec.ofNat 32 (recCtval b)) (recCtchan b) 1 1 0,
    d1 := BitVec.ofNat 64 (recTs b), d2 := mkD2 (recSid b) 0 0, d3 := 0, payload := [lidWord (recLid b) status] }

/-- A launch that can start: it waits, its dependencies have ended DONE, and neither a swap nor a glaze holds it (R115,
R363, R404). -/
structure CanStart (s : State) (part lid : Nat) (l : Launch) : Prop where
  found : findLaunch s part lid = some l
  waits : l.st = .waiting ∧ l.cancelled = none
  alive : depsFailed s l.part l.record = false
  met : depsMet s l.part l.record = true
  present : partOut s l.part = false
  open_ : glazeHolds s (BitVec.ofNat 64 (recTs l.record)) = false

/-- An enabled entry of the time-triggered table at address `a`, due and without a launch or a held firing of its own;
its record is `b`, and reading it takes the machine to `u` (R118, R119). -/
structure Fires (s u : State) (part e a : Nat) (b : BitVec 512) : Prop where
  entry : ttAddr s part e = some a
  enabled : ttEn s a = 1
  due : ttNext s a ≤ s.timeNs
  present : partOut s part = false
  rule : ttRule s a < 3
  read : readRecord s part (ttRec s a) = (u, some b)
  open_ : glazeHolds u (BitVec.ofNat 64 (recTs b)) = false
  none_ : ttLive u part e = none
  unheld : smHas (u.getPart part).held e = false
  ok : accepted u part b
  unread : readersOf u [lineOf a] [] = []

/-! Engines. -/

/-- No collective command waits for its predecessors. -/
def noneReady (s : State) : Bool := s.jobs.all fun k => k.st != .ready

/-- The reply message of a command, where its block asks for one (R259). -/
def jobReply (j : Job) (w : Word) : List NetItem :=
  match replyOf (engineUnit j.agent) j.card with
  | some (c, k, a) =>
    [.msg { src := j.agent, d0 := mkD0 (BitVec.ofNat 32 a) c k (w :: j.record).length 0, d1 := j.iss.ts + 1,
            d2 := mkD2 j.iss.sid (BitVec.ofNat 16 j.iss.idx).toNat 0, d3 := 0, payload := w :: j.record }]
  | none => []

/-- In `t` command `j` of `s` has been reported with its status: it is no longer incomplete, its completion word has
reached the token store of the strand that issued it, and its reply has left behind what the fabric of `s` kept (R255,
R256, R259). -/
structure Reported (s t : State) (net : List NetItem) (j : Job) : Prop where
  gone : t.jobs = s.jobs.filter fun k => k.id != j.id
  token : j.iss.queue < 4 → (t.strand j.iss.strand).toks =
    updFirst (fun x => x.queue == j.iss.queue && x.qseq == j.iss.qseq)
      (fun x => { x with done := some (completionWord j j.status j.cause) }) (s.strand j.iss.strand).toks
  reply : t.net = net ++ jobReply j (completionWord j j.status j.cause)

/-- How far the command with a number has come, and its status. -/
def jobAt (t : State) (id : Nat) : Option (JobSt × Nat) := (jobById t id).map fun q => (q.st, q.status)

/-- Job `j` of the copy engine or the atomic unit of a cluster has its turn: its card is read, none of its writes is
visible yet, its predecessors have completed, and its footprints translate to the pieces `rp`, all readable, and `wp`,
which takes the machine to `u` (R206, R259). -/
structure JobRuns (s u : State) (cl id op : Nat) (j : Job) (rp wp : List Piece) : Prop where
  found : jobById s id = some j
  cluster : agentModCluster j.agent = cl
  engine : engineUnit j.agent ≠ 16 ∧ engineUnit j.agent ≠ 0
  taken : j.st = .read
  code : jcOp j.card = op
  free : jobFree s j = true
  fresh : j.todo = none
  start : startPieces s j (jobReads j.card) (jobWrites j.card) noDevice = (u, .go rp wp)
  kept : jobById u id = some j
  readable : rp.any (pieceAborts u) = false
  sound : u.glitches = []

/-- What ACC and MAXI write: the units of `n` bytes of `a` combined with those of `b` (R258). -/
def mergedBytes (n : Nat) (f : Nat → Nat → Nat) (a b : List Byte) : List Byte :=
  (natsFrom 0 (min a.length b.length / n)).flatMap fun i =>
    leBytes (f (leOf ((b.drop (n * i)).take n)) (leOf ((a.drop (n * i)).take n))) n

/-- The bytes behind pieces in order. -/
def dataOf (u : State) (ps : List Piece) : List Byte := ps.flatMap (pieceBytes u)

/-- The head command of a partition at a matrix array has its turn: it passes R332, none of its writes is visible yet,
its predecessors have completed, its tile is VALID where it needs it and the partition's own, and its operands
translate to `rp` and `wp`, all readable, which takes the machine to `u` (R206, R327, R328, R334). -/
structure MatrixRuns (s u : State) (op cl part : Nat) (j : Job) (rp wp : List Piece) : Prop where
  head : maHead s cl part = some j
  taken : j.st = .read
  code : mcOp j.card = op
  ok : matrixOk j = true
  free : jobFree s j = true
  fresh : j.todo = none
  valid : needsValid j.card = true → (tileOf s cl (mcAcc j.card)).valid = true
  owned : op = 0x7D ∨ ownsTile s cl j = true
  start : startPieces s j (mcReads j.card) (mcWrites j.card) matrixRegion = (u, .go rp wp)
  kept : jobById u j.id = some j
  readable : rp.any (pieceAborts u) = false
  sound : u.glitches = []

/-- The A and B operands of `mm` from the bytes of its panels (R333). -/
def mmA (c bs : List Byte) : Nat → Nat → Num := panelElem (mcM c) (mcFa c) (mcK c) (mcBa c) bs

def mmB (c bs : List Byte) : Nat → Nat → Num :=
  panelElem (mcN c) (mcFb c) (mcK c) (mcBb c)
    (behindA c bs (panelRegions (mcA c) (mcM c) (mcFa c) (mcK c) (mcAp c)).length)

/-- A command of an engine at position `k` of the fabric that its inbox can take (R239, R255). -/
structure Inbox (s : State) (k : Nat) (want : Nat → Bool) (j : Job) : Prop where
  here : commandAt s k want = some j
  first : cmdBehind s k j (cmdSrc s k) = false
  room : inboxCount s j.agent < 64

/-- The machine once a command of a matrix array has left the fabric and stands last in its inbox (R328). -/
def queuedAt (s : State) (k : Nat) (j : Job) : State :=
  { s with net := dropAt s.net k, jobs := (s.jobs.filter fun q => q.id != j.id) ++ [j] }

/-- A collective command whose descriptor has been read, waiting for its predecessors (R259, R361). -/
def readyColl (u : State) (j : Job) (b : List Byte) : State :=
  updJob (tookBlock u j b) j.id fun q => { q with st := .ready }

/-- The instance that a contribution opens, with it as the first one accepted (R353, R354). -/
def firstInst (s : State) (die : Nat) (c : Contrib) : Inst :=
  { newInst s die c with fixed := true, op := c.op, count := c.count, x := c.x, root := c.root, accepted := [c] }

/-- A contribution at position `k` that opens its instance at its group's coordinator, on die `die` of this module
(R353 to R355). -/
structure OpensInst (s : State) (k die : Nat) (c : Contrib) : Prop where
  here : s.net[k]? = some (.contrib (dieAgent s die 0).toNat c)
  engine : cleHere s (dieAgent s die 0).toNat = true ∧ agentDie (BitVec.ofNat 32 (dieAgent s die 0).toNat) = die
  coord : gIsCoord s die c.group = true
  new : (s.die die).outcomes.contains (c.group, c.cseq) = false ∧
    (s.die die).served.contains (c.group, c.cseq, c.leaf, c.job) = false
  first : findInst s die c.group c.cseq = none
  member : (awaited s die (newInst s die c)).contains c.rank = true
  whole : c.aborted = false
  calm : noneReady s = true

/-! Links, firmware and the module. -/

/-- From `s` to `t` no slot and no byte of memory changes. -/
def Keeps (s t : State) : Prop := (∀ q, t.slot q = s.slot q) ∧ ∀ y, t.byte y = s.byte y

/-- From `s` to `t` no slot, no byte of memory and no link instance but one changes. -/
def KeepsLinks (die inst : Nat) (s t : State) : Prop :=
  Keeps s t ∧ ∀ d i, 16 * d + i ≠ 16 * die + inst → t.link d i = s.link d i

/-- The entry of the crumb log for a packet that leaves (R365). -/
def crumbOf (s : State) (p : Packet) (deferred : Bool) : Crumb :=
  { epoch := s.epoch, deferred := deferred, item := .msg p, offset := crumbEnd s, size := crumbSize p }

/-- Whether the pool holds a complete image of an epoch of a module (R363 step 7, R364). -/
def imageThere (s : State) (m epoch : Nat) : Bool :=
  [2 * m, 2 * m + 1].any fun k => slotComplete s k m && slotEpoch s k == epoch

/-- A packet at position `k` of the fabric that is on its way to another module and that no earlier one of its pair holds
back (R239, R264). -/
structure Departs (s : State) (k m : Nat) (p : Packet) : Prop where
  here : s.net[k]? = some (.msg p)
  away : agentModule (headsFor p) = m ∧ m ≠ s.modNo
  first : behindAnother s k p = false

/-- A good flit at an instance that is up (R265 to R267). -/
structure Receives (s : State) (die inst : Nat) (f : BitVec 512) : Prop where
  there : die < 4 ∧ inst < 16
  up : (s.link die inst).up = true
  good : flGood f = true

/-- The command mailbox takes commands, and the command names an existing partition and queue number (R413, R414). -/
structure MailboxTakes (s : State) (part q : Nat) : Prop where
  up : hostUp s = true
  part : part < 256
  queue : q < 16

/-- A registered queue of a partition, whose header is at `h`, with no launch of it left and nobody reading its header
(R121, R415). -/
structure QueueIdle (s : State) (part q h : Nat) : Prop where
  takes : MailboxTakes s part q
  found : queueOf s part q = some h
  none_ : (s.launches.all fun l => !(l.part == part && l.queue == some q)) = true
  unread : readersOf s [lineOf (h + 0x40), lineOf (h + 0x51)] [] = []

end Sys2Proof.Machine
end

