-- ==== Sys2Proof/Certificates/Slice0/Obligations.lean ====
section
/-! DEFINITION. The statements for the provers. -/

open Sys2Proof Sys2Proof.Machine

/-- Integer results (R31, R38, R64 to R67, R70 to R73). -/
def Obligations.IntegerResult : Prop :=
  ∀ (s : State) (i : Instr) (sw : Bool) (srcs : List Reg) (d : Reg) (v : Word),
    intForm s.me i = some (sw, srcs, d, v) → srcs.all (fun r => !isPop r) = true → d.toNat ≤ 47 →
    Issues i s → NoLate sw s →
    ∃ t, exec i s = .next t ∧ t.me = s.done i sw s.me.npc (fun sl => sl.setG d.toNat v) ∧ OnlySlot s t

/-- The values of `alu` and `aluw`, of `muldiv`, and of `bit` (R65, R68 to R70). -/
def Obligations.IntegerValues : Prop :=
  (∀ (f : AluFn) (a b : Word),
    aluVal f a b = BitVec.ofInt 64 (aluTable f 64 a.toNat b.toNat (b.toNat % 64)) ∧
    aluwVal f a b =
      (BitVec.ofInt 32 (aluTable f 32 (a.toNat % 2 ^ 32) (b.toNat % 2 ^ 32) (b.toNat % 32))).signExtend 64) ∧
  (∀ (f : MulFn) (a b : Word),
    mulVal f a b = if mulNarrow f then (BitVec.ofInt 32 (mulTable f a.toNat b.toNat)).signExtend 64
                   else BitVec.ofInt 64 (mulTable f a.toNat b.toNat)) ∧
  (∀ b c : Word,
    (b = 0 → bitVal .clz b c = 64 ∧ bitVal .ctz b c = 64) ∧
    (b ≠ 0 → ∃ h, h < 64 ∧ b.getLsbD h = true ∧ (∀ j, h < j → b.getLsbD j = false) ∧
      bitVal .clz b c = BitVec.ofNat 64 (63 - h)) ∧
    (b ≠ 0 → ∃ l, l < 64 ∧ b.getLsbD l = true ∧ (∀ j, j < l → b.getLsbD j = false) ∧
      bitVal .ctz b c = BitVec.ofNat 64 l) ∧
    bitVal .popc b c = BitVec.ofNat 64 (rankBelow b 64) ∧
    (∀ i, i < 64 → (bitVal .brev b c).getLsbD (63 - i) = b.getLsbD i) ∧
    (∀ i j, i < 8 → j < 8 → (bitVal .bswap b c).getLsbD (8 * (7 - i) + j) = b.getLsbD (8 * i + j)) ∧
    (bitVal .sxb b c).toInt = sxInt (b.toNat % 2 ^ 8) 8 ∧ (bitVal .sxh b c).toInt = sxInt (b.toNat % 2 ^ 16) 16 ∧
    (bitVal .sxw b c).toInt = sxInt (b.toNat % 2 ^ 32) 32 ∧ (bitVal .zxb b c).toNat = b.toNat % 2 ^ 8 ∧
    (bitVal .zxh b c).toNat = b.toNat % 2 ^ 16 ∧ (bitVal .zxw b c).toNat = b.toNat % 2 ^ 32 ∧
    (∀ i, i < 64 → c.getLsbD i = true → (bitVal .bext b c).getLsbD (rankBelow c i) = b.getLsbD i) ∧
    (∀ j, rankBelow c 64 ≤ j → (bitVal .bext b c).getLsbD j = false) ∧
    (∀ i, i < 64 → (bitVal .bdep b c).getLsbD i = (c.getLsbD i && b.getLsbD (rankBelow c i))))

/-- Control transfers; a taken one to a misaligned target writes nothing and takes ALIGN (R24, R75 to R83). -/
def Obligations.TransferResult : Prop :=
  (∀ (s : State) (i : Instr) (sw taken : Bool) (tgt : Word) (f : Slot → Slot),
     xferForm s.me i = some (sw, taken, tgt, f) → Issues i s → NoLate sw s →
     (taken = true → tgt.toNat.testBit 0 = false) →
     ∃ t, exec i s = .next t ∧ t.me = s.done i sw (if taken then tgt else s.me.npc) f ∧ OnlySlot s t) ∧
  (∀ (s : State) (i : Instr) (sw : Bool) (tgt : Word) (f : Slot → Slot) (fs : List TrapFrame),
     xferForm s.me i = some (sw, true, tgt, f) → Issues i s → tgt.toNat.testBit 0 = true → CanTrap s fs →
     ∃ t, exec i s = .next t ∧ t.me = (s.me.started s.now).taking (faultOf (issueMark s) i 2 0 tgt) fs ∧ OnlySlot s t)

/-- Every instruction that is not legal where it stands takes ILLEGAL and does nothing else (R42, R261, R373, R377). -/
def Obligations.IllegalTaken : Prop :=
  ∀ (s : State) (i : Instr) (fs : List TrapFrame),
    isEvent i = false →
    (i.wf = false ∨ illegalHere s i = true ∨ (depsOf s.me i).any (portIllegal s.me s.cur.core) = true) →
    CanTrap s fs →
    ∃ t, exec i s = .next t ∧ t.me = (s.me.started s.now).taking (faultOf (issueMark s) i 1 0 0) fs ∧ OnlySlot s t

/-- Every instruction that names a pending register takes DEPEND with the first such register, and does nothing else
(R39, R373, R377). -/
def Obligations.DependTaken : Prop :=
  ∀ (s : State) (i : Instr) (r : Nat) (fs : List TrapFrame),
    isEvent i = false → i.wf = true → illegalHere s i = false →
    (depsOf s.me i).any (portIllegal s.me s.cur.core) = false → firstPending s.me (depsOf s.me i) = some r →
    CanTrap s fs →
    ∃ t, exec i s = .next t ∧
      t.me = (s.me.started s.now).taking (faultOf (issueMark s) i 6 0 (BitVec.ofNat 64 r)) fs ∧ OnlySlot s t

/-- `muldiv` completes with its result outstanding (R38, R40, R68). -/
def Obligations.MulDivResult : Prop :=
  ∀ (s : State) (sw : Bool) (f : MulFn) (a b c : Reg),
    isPop b = false → isPop c = false → a.toNat ≤ 47 → outLimit s.me = false →
    Issues (.muldiv sw f a b c) s → NoLate sw s →
    ∃ t, exec (.muldiv sw f a b c) s = .next t ∧ OnlySlot s t ∧
      t.me = s.done (.muldiv sw f a b c) sw s.me.npc (fun sl =>
        sl.awaiting (knownResult sl (.muldiv sw f a b c) a.toNat false
          (mulVal f (srcVal s.me b) (srcVal s.me c)) 0) (pendsFor a.toNat false))

/-- An instruction that issues a message, a command or a binding completes with its outgoing entry, which is issued at
once by an irrevocable activation and kept for the commit by any other (R102, R106, R195, R205). -/
def Obligations.OutgoingEntry : Prop :=
  ∀ (s : State) (i : Instr) (sw msg : Bool) (f : Slot → Slot) (w : OutWhat),
    outForm s i = some (sw, msg, f, w) → Issues i s → outWait s.me = none →
    (msg = true → s.me.irrev = true → retFull s s.cur.core = false) →
    (sw = true → (addOut ((issueMark s).setMe (f (s.me.started s.now))) w).me.late = none) →
    ∃ t, exec i s = .next t ∧
      Completed i sw s.me.npc s (addOut ((issueMark s).setMe (f (s.me.started s.now))) w) t ∧
      (s.me.irrev = false →
        t.me = s.done i sw s.me.npc (fun u => (f u).entered w) ∧ OnlySlot s t)

/-- A vector instruction that accesses no memory completes at dispatch, with VSEQ advanced and its scalar operands
captured (R304, R306). -/
def Obligations.VectorDispatch : Prop :=
  ∀ (s : State) (i : Instr) (sw : Bool) (srcs dests : List Nat),
    vecForm s.me i = some (sw, srcs, dests) → Issues i s → NoLate sw s → s.me.vq.length < 32 →
    (isScalarMove i = true → outLimit s.me = false) →
    ∃ t, exec i s = .next t ∧ OnlySlot s t ∧
      t.me = s.done i sw s.me.npc (fun sl => sl.ringed (vecOp sl i srcs []) dests)

/-- A parking instruction with results outstanding parks its slot, and acts at the end of the park (R37). -/
def Obligations.ParkingWaits : Prop :=
  ∀ (s : State) (i : Instr),
    mayPark s i = true → Issues i s → s.me.quiet = false →
    ∃ t, exec i s = .next t ∧ OnlySlot s t ∧ t.me = (s.me.started s.now).parkAs (.after i)

/-- A terminator ends its activation: the slot is CLOSING with the PC that follows, its outb is gone, and it takes its
place in the order of ends (R102, R107, R110, R124). -/
def Obligations.TerminatorEnds : Prop :=
  ∀ (s : State) (i : Instr),
    isTerm i = true → mayPark s i = true → Issues i s → s.me.quiet = true → s.me.late = none → s.me.curLog2 = 0 →
    ∃ t u, exec i s = .next t ∧ OnlySlot s.countEnd u ∧
      u.me = ((s.me.started s.now).parkOver i).closed i (termMask s i) s.seqNext ∧
      t = match s.me.team with
          | none => u
          | some k => barCheck u k

/-- A terminator or `release` in a composed core hands the composition back before it acts (R145, R146, R148). -/
def Obligations.HandsBackFirst : Prop :=
  ∀ (s : State) (i : Instr),
    (isTerm i = true ∨ ∃ sw, i = .release sw) → mayPark s i = true → Issues i s → s.me.quiet = true →
    s.me.late = none → s.me.curLog2 ≠ 0 →
    ∃ t, exec i s = .next t ∧ OnlySlot s t ∧ t.me = (s.me.started s.now).handingBack (.after i)

/-- `trap` and `brk` enter the handler with their code and number, to resume at the next PC (R373, R377, R391). -/
def Obligations.SoftTrapEnters : Prop :=
  ∀ (s : State) (i : Instr) (code n : Nat) (fs : List TrapFrame),
    softForm i = some (code, n) → Issues i s → s.me.quiet = true → CanTrap s fs →
    ∃ t, exec i s = .next t ∧ OnlySlot s t ∧
      t.me = ((s.me.started s.now).parkOver i).trapped
        { code := code, resume := s.me.npc, cause := n, lane := 63, vseq := 0, fpflags := 0, major := majorOf i,
          func := funcOfInstr i, trapp := 0 } fs

/-- `tret` returns to the interrupted level: its trap registers, CHKMODE, mode and PC, and g1 to g6 unless `kr` (R392).
-/
def Obligations.TretReturns : Prop :=
  ∀ (s : State) (sw kr : Bool) (fs : List TrapFrame),
    mayPark s (.tret sw kr) = true → Issues (.tret sw kr) s → s.me.quiet = true → s.me.late = none →
    trapStack s s.me = some fs →
    ∃ t, exec (.tret sw kr) s = .next t ∧ OnlySlot s t ∧
      let f := fs.getD (s.me.depth - 1) TrapFrame.zero
      t.me = resumeLevel ((s.me.started s.now).unparked.withStack fs) f kr ∧
      t.me.pc = s.me.trapa ∧ t.me.super = s.me.trapc.toNat.testBit 12 ∧ t.me.trapc = f.trapc ∧
      t.me.trapa = f.trapa ∧ t.me.trapv = f.trapv ∧ t.me.trapp = f.trapp ∧ t.me.chk = chkOfWord f.chk ∧
      (kr = true → t.me.regs = s.me.regs) ∧
      (kr = false → t.me.g 1 = f.g1 ∧ t.me.g 2 = f.g2 ∧ t.me.g 3 = f.g3 ∧ t.me.g 4 = f.g4 ∧ t.me.g 5 = f.g5 ∧
        t.me.g 6 = f.g6 ∧ ∀ r, 6 < r → t.me.g r = s.me.g r)

/-- `compose` begins its claim, or, in a composition, a team or a handler, does nothing; `release` outside a composition
only goes on (R145, R147, R148, R382). -/
def Obligations.ComposeBegins : Prop :=
  ∀ (s : State) (sw : Bool),
    s.me.quiet = true → s.me.late = none →
    (∀ lg, Issues (.compose sw lg) s →
      ∃ t, exec (.compose sw lg) s = .next t ∧ OnlySlot s t ∧
        t.me = if s.me.curLog2 = 0 ∧ s.me.team = none ∧ s.me.depth = 0
               then ((s.me.started s.now).unparked).claiming (.compose sw lg)
               else ((s.me.started s.now).parkOver (.compose sw lg)).goTo s.me.npc) ∧
    (Issues (.release sw) s → s.me.curLog2 = 0 →
      ∃ t, exec (.release sw) s = .next t ∧ OnlySlot s t ∧
        t.me = ((s.me.started s.now).parkOver (.release sw)).goTo s.me.npc)

/-- `mchk.abort` and `mchk.inject` end the activation with their record: where the policy allows it, it starts again
with one more redelivery, and the management core gets the notice (R384 to R386, R393, R394). -/
def Obligations.MachineCheckRestarts : Prop :=
  ∀ (s : State) (i : Instr) (m : McInfo),
    ((∃ sw, i = .mchkAbort sw ∧ s.me.quiet = true ∧ m = abortRecord (issueMark s) s.cur 0) ∨
      ∃ sw b, i = .mchkInject sw b ∧ s.me.pend.contains b.toNat = false ∧ injectOk (s.me.g b.toNat).toNat = true ∧
        m = injectRecord (issueMark s) (s.me.g b.toNat).toNat) →
    s.me.super = true → Issues i s → RunsAgain s →
    ∃ t, exec i s = .next t ∧
      s.me.Restarts { s.me.trig with redeliveries := s.me.trig.redeliveries + 1 } t.me ∧
      t.fw = s.fw ++ [noticeOf s m true (s.me.trig.redeliveries + 1)] ∧
      (∀ r, slotKey r ≠ slotKey s.cur → s.me.curLog2 = 0 → t.slot r = s.slot r)

/-- `fence`, `tfence`, `fwait` and `irrev` complete with no effect of their own once nothing is left that they wait
for, and wait at issue till then; `sig`, and `once` outside a team, only complete (R88, R127, R212 to R215). -/
def Obligations.OrderingResult : Prop :=
  ∀ (s : State) (i : Instr) (sw ready : Bool),
    orderForm (issueMark s) i = some (sw, ready) → Issues i s → NoLate sw s →
    ∃ t, exec i s = .next t ∧ OnlySlot s t ∧
      (ready = true → t.me = s.done i sw s.me.npc id) ∧
      (ready = false → ∃ w, t.me = (s.me.started s.now).waiting w)

/-- A `sig` at which the open block's CRC differs from the expected one ends the activation under the policy of
machine checks, with a SIGNATURE record (R88, R89). -/
def Obligations.SignatureFails : Prop :=
  ∀ (s : State) (sw : Bool) (crc : BitVec 16),
    onceInst? s = none → s.me.chk.en = true → s.me.chk.isOpen = true → s.me.chk.run ≠ s.me.chk.expect →
    exec (.sig sw crc) s =
      .next (countIssueOf s (errorAbort (issueMark s) s.cur
        { type := 3, sev := 1, unit := 4, agent := checkAgent s s.cur, lane := 63, major := 0x08, func := 1, res := 0,
          pc := s.me.pc, info := BitVec.ofNat 64 (s.me.chk.run.toNat + s.me.chk.expect.toNat * 2 ^ 16) }))

/-- `once` in a team numbers the instances of its member, makes the first member to reach one its performer, and is
ILLEGAL for a member that reaches it elsewhere (R127). -/
def Obligations.OnceInTeam : Prop :=
  ∀ (s : State) (sw : Bool) (k : Nat),
    s.me.team = some k → onceBad (issueMark s) = false → Issues (.once sw) s → NoLate sw s →
    (((s.getTeam k).onces.find? fun o => o.k == s.me.onceN + 1) = none →
      ∃ t, exec (.once sw) s = .next t ∧ Completed (.once sw) sw s.me.npc s
        (armOnce ((issueMark s).setTeam k { s.getTeam k with onces := (s.getTeam k).onces ++
          [{ k := s.me.onceN + 1, pc := s.me.npc, performer := slotKey s.cur, done := false, dest := 0, value := 0,
             value2 := 0 }] }) (s.me.onceN + 1)) t) ∧
    (∀ o, ((s.getTeam k).onces.find? fun o => o.k == s.me.onceN + 1) = some o → o.pc = s.me.npc →
      ∃ t, exec (.once sw) s = .next t ∧ OnlySlot s t ∧
        t.me = s.done (.once sw) sw s.me.npc
          (fun sl => { sl with onceN := s.me.onceN + 1, onceArm := some s.me.npc })) ∧
    (∀ o fs, ((s.getTeam k).onces.find? fun o => o.k == s.me.onceN + 1) = some o → o.pc ≠ s.me.npc → CanTrap s fs →
      ∃ t, exec (.once sw) s = .next t ∧ OnlySlot s t ∧
        t.me = (s.me.started s.now).taking (faultOf (issueMark s) (.once sw) 1 0 0) fs)

/-- `ldir` sets, exchanges or reverses the directions of the ports, and changes nothing else (R263). -/
def Obligations.LinkDirections : Prop :=
  ∀ (s : State) (i : Instr) (sw : Bool) (dir : Nat → Nat),
    ldirForm s.me i = some (sw, dir) → Issues i s → NoLate sw s →
    ∃ t, exec i s = .next t ∧ OnlySlot s t ∧
      t.me = s.done i sw s.me.npc (fun sl => sl.withLdir t.me.ldir) ∧
      (∀ k, k < 4 → portDir t.me k = dir k) ∧ t.me.ldir.toNat < 2 ^ 12

/-- `sr` gives the old value to gA and writes the register under its own rules; what a write leaves in each state
register of the slot: reserved bits, RO registers and RO fields stay (R35, R87, R375, R376, R396, R407). -/
def Obligations.StateRegister : Prop :=
  (∀ (s : State) (i : Instr) (f n : Nat) (sw : Bool) (a b : Reg) (new : Word),
     srForm i = some (f, sw, a, b, n) → new = srNew f (srRead (issueMark s) n) (s.me.g b.toNat) →
     Issues i s → SrActs (issueMark s) i f n new →
     ∃ t, exec i s = .next t ∧
       Completed i sw s.me.npc s
         (let s1 := (issueMark s).setMe ((s.me.started s.now).setG a.toNat (srRead (issueMark s) n))
          noteRd (if f = 0 then s1 else srPut s1 n new) n) t) ∧
  (∀ (s : State) (v : Word),
     (srPut s 0x04 v).me.prio = v.setWidth 3 ∧ (srPut s 0x06 v).me.ldir = v ∧
     srRead (srPut s 0x07 v) 0x07 = v &&& 0xF ∧ srRead (srPut s 0x08 v) 0x08 = v &&& 0x3F3F ∧
     srRead (srPut s 0x09 v) 0x09 = v ∧ srRead (srPut s 0x0A v) 0x0A = v ∧ srRead (srPut s 0x0B v) 0x0B = v ∧
     srRead (srPut s 0x0C v) 0x0C = v ∧ srRead (srPut s 0x10 v) 0x10 = v &&& 0xFFFFFFFFFFFFFFC0 ∧
     (∀ k, k < 64 → (srRead (srPut s 0x11 v) 0x11).getLsbD k =
       if k = 12 then v.getLsbD 12 else (srRead s 0x11).getLsbD k) ∧
     srRead (srPut s 0x12 v) 0x12 = v ∧ srRead (srPut s 0x13 v) 0x13 = v &&& 0x0000FFFF3FFFFFFF ∧
     srRead (srPut s 0x14 v) 0x14 = v ∧ srRead (srPut s 0x17 v) 0x17 = v &&& 0xFFFFFFFFFFFFF000 ∧
     (srPut s 0x16 v).me.chk = { s.me.chk with en := v.getLsbD 0, isOpen := false } ∧
     (s.me.super = false → (s.bud s.me) ≤ v.toNat → srPut s 0x05 v = s) ∧
     (∀ n ∈ [0x01, 0x02, 0x03, 0x0E, 0x15, 0x18, 0x19, 0x1A], srPut s n v = s) ∧
     (∀ n, n < 0x1B → n ≠ 0 → n ≠ 0x0F → OnlySlot s (srPut s n v) ∧ (srPut s n v).me.regs = s.me.regs))

/-- What program mode may not do takes ACCESS with cause 31 and does nothing: privileged state registers, `trc`, `tlb`
and the counters without PGM, `mchk` (R193, R374, R393, R394, R396, R408, R409). -/
def Obligations.PrivilegeTaken : Prop :=
  ∀ (s : State) (i : Instr) (fs : List TrapFrame),
    s.me.super = false → Issues i s → CanTrap s fs → s.me.quiet = true → s.me.depth < 5 →
    ((∃ f sw a b n, srForm i = some (f, sw, a, b, n) ∧ srPrivileged n (f != 0) = true) ∨
      (∃ sw, i = .trcOn sw ∨ i = .trcOff sw ∨ i = .trcFreeze sw ∨ i = .mchkAbort sw) ∨
      (∃ sw b, i = .mchkInject sw b) ∨
      (∃ sw sc b c, i = .tlbVa sw sc b c ∨ i = .tlbAsid sw sc c ∨ i = .tlbAll sw sc) ∨
      (∃ sw a b c, i = .tlbProbe sw a b c) ∨
      (∃ sw n b, (i = .ctrSel sw n b ∨ i = .ctrClr sw n) ∧
        (4 ≤ n.toNat ∨ (selWord s n.toNat).toNat.testBit 8 = false))) →
    ∃ t, exec i s = .next t ∧ OnlySlot s t ∧
      t.me.pc = s.me.tvb ∧ t.me.super = true ∧ t.me.trapa = s.me.pc ∧ t.me.trapp = 0 ∧ t.me.depth = s.me.depth + 1 ∧
      natBits t.me.trapc.toNat 7 0 = 4 ∧ natBits t.me.trapv.toNat 7 0 = 31 ∧ t.me.regs = s.me.regs ∧
      t.me.outst = [] ∧ t.me.outg = s.me.outg ∧ t.me.buf = s.me.buf

/-- `chan` masks, unmasks or sets the priority of a channel of the issuing core, and of no other core (R253). -/
def Obligations.ChannelControl : Prop :=
  ∀ (s : State) (i : Instr) (sw : Bool) (ch : BitVec 6) (m : Option Bool) (p : Option (BitVec 3)),
    chanForm i = some (sw, ch, m, p) → Issues i s → NoLate sw s → (s.me.super = true ∨ 8 ≤ ch.toNat) →
    ∃ t, exec i s = .next t ∧ t.me = s.done i sw s.me.npc id ∧
      (∀ r, slotKey r ≠ slotKey s.cur → t.slot r = s.slot r) ∧ (∀ a, t.byte a = s.byte a) ∧ t.bare = s.bare ∧
      (∀ c, c ≠ s.cur.core → (t.core c).unwatched = (s.core c).unwatched) ∧
      (t.core s.cur.core).besideChannels = (s.core s.cur.core).besideChannels ∧
      (∀ k, k < 64 → (t.core s.cur.core).masked.getLsbD k =
        if k = ch.toNat then m.getD ((s.core s.cur.core).masked.getLsbD k) else (s.core s.cur.core).masked.getLsbD k) ∧
      (∀ k, binding? (t.core s.cur.core) k =
        if k = ch.toNat then (binding? (s.core s.cur.core) k).map fun b => { b with prio := p.getD b.prio }
        else binding? (s.core s.cur.core) k)

/-- `trc` sets EN and FROZEN of the issuing core's trace; `ctr.rd` gives the count, `ctr.sel` selects the event and
`ctr.clr` clears the count (R408, R409). -/
def Obligations.TraceAndCounters : Prop :=
  (∀ (s : State) (i : Instr) (sw priv en frozen : Bool),
     trcForm (s.core s.cur.core) i = some (sw, priv, en, frozen) → Issues i s → NoLate sw s →
     (priv = true → s.me.super = true) → (s.core s.cur.core).trcPost = none → s.me.quiet = true →
     (priv = false → (s.core s.cur.core).trctrig.toNat.testBit 63 = false) →
     ∃ t, exec i s = .next t ∧ t.me = s.done i sw s.me.npc id ∧ OnlySlot s t ∧
       trcOnBit (t.core s.cur.core) = en ∧ trcFrozenBit (t.core s.cur.core) = frozen) ∧
  (∀ (s : State) (sw : Bool) (n : BitVec 4),
     (∀ a : Reg, Issues (.ctrRd sw a n) s → NoLate sw s →
       ∃ t, exec (.ctrRd sw a n) s = .next t ∧ OnlySlot s t ∧
         t.me = s.done (.ctrRd sw a n) sw s.me.npc (fun sl => sl.setG a.toNat (ctrValue s n.toNat))) ∧
     (∀ b : Reg, Issues (.ctrSel sw n b) s → NoLate sw s →
       (s.me.super = true ∨ (n.toNat < 4 ∧ (selWord s n.toNat).toNat.testBit 8 = true)) →
       ∃ t, exec (.ctrSel sw n b) s = .next t ∧ t.me = s.done (.ctrSel sw n b) sw s.me.npc id ∧
         selWord t n.toNat = (selWord s n.toNat &&& 0x100) ||| (s.me.g b.toNat &&& 0x3F) ∧
         (∀ k, k < 12 → k ≠ n.toNat → selWord t k = selWord s k)) ∧
     (Issues (.ctrClr sw n) s → NoLate sw s →
       (s.me.super = true ∨ (n.toNat < 4 ∧ (selWord s n.toNat).toNat.testBit 8 = true)) →
       ((s.core (ownerCore s.me s.cur.core s.me.pc.toNat)).ctrSel.all fun p => natBits p.2.toNat 5 0 != 1) = true →
       ∃ t, exec (.ctrClr sw n) s = .next t ∧ t.me = s.done (.ctrClr sw n) sw s.me.npc id ∧ ctrValue t n.toNat = 0))

/-! Memory. -/

/-- A load gives, as a long-latency result, the bytes of its own activation's stores over memory, and notes its lines in
the read set; no byte of memory changes (R38, R170, R171, R196, R197). -/
def Obligations.LoadResult : Prop :=
  ∀ (s s1 : State) (i : Instr) (sw sg al : Bool) (a : Reg) (m : MemOp) (lg : Nat) (ps : List MPart),
    loadForm i = some (sw, a, m, lg, sg, al) → a.toNat ≤ 47 → Issues i s → NoLate sw s → s.soft = [] →
    (al = true → (effAddr s.me m lg).toNat % 2 ^ lg = 0) →
    Translates .load (splitLine (effAddr s.me m lg).toNat (2 ^ lg)) (issueMark s) s1 ps → Accessible s1 ps →
    plainParts ps = true → outLimit s.me = false → ordWait s1 m.ord m.scp ps = none → loadWait s1 ps = none →
    (ps.all fun p => !partAborts s1 p) = true →
    ∃ t, exec i s = .next t ∧ OnlyCaches s1 t ∧ (∀ x, t.byte x = s1.byte x) ∧
      t.me = (Slot.retired i (s.me.started s.now)
        (let u := s1.me.noting s1 ps
         u.awaiting (loadResult u i a sg ps (extendLoad (2 ^ lg) sg (leOf (ps.flatMap (partBytes s1)))))
           (pendsFor a.toNat false)) s.me.npc).parkedBy sw

/-- A misaligned `ld` or `st` takes ALIGN with its address, and an access that does not translate takes XLATE or ACCESS
with its cause; neither writes a register or a byte of its target (R171, R185, R186). -/
def Obligations.AccessFaults : Prop :=
  ∀ (s : State) (i : Instr) (m : MemOp) (lg : Nat) (al store : Bool),
    ((∃ sw a sg, loadForm i = some (sw, a, m, lg, sg, al) ∧ store = false) ∨
      (∃ sw a, storeForm i = some (sw, a, m, lg, al) ∧ store = true)) → Issues i s →
    (∀ fs, al = true → (effAddr s.me m lg).toNat % 2 ^ lg ≠ 0 → CanTrap s fs →
      ∃ t, exec i s = .next t ∧ OnlySlot s t ∧
        t.me = (s.me.started s.now).taking (faultOf (issueMark s) i 2 0 (effAddr s.me m lg)) fs) ∧
    (∀ s1 va n rest code cause fs, (al = true → (effAddr s.me m lg).toNat % 2 ^ lg = 0) →
      splitLine (effAddr s.me m lg).toNat (2 ^ lg) = (va, n) :: rest →
      translate (issueMark s) (slotCtx s s.cur false) (if store then .store else .load) va n =
        (s1, .fault code cause) → CanTrap s1 fs →
      ∃ t, exec i s = .next t ∧ OnlySlot s1 t ∧
        t.me = (s.me.started s.now).taking (faultOf (issueMark s) i code cause (BitVec.ofNat 64 va)) fs)

/-- A store of a revocable activation outside scratch is entered in its buffer, and memory stays; a direct store, of an
irrevocable activation or to scratch, writes its bytes and no other (R102, R150, R170, R195). -/
def Obligations.StoreResult : Prop :=
  ∀ (s s1 : State) (i : Instr) (sw al : Bool) (a : Reg) (m : MemOp) (lg : Nat) (ps : List MPart),
    storeForm i = some (sw, a, m, lg, al) → isPop a = false → Issues i s → NoLate sw s →
    (al = true → (effAddr s.me m lg).toNat % 2 ^ lg = 0) →
    Translates .store (splitLine (effAddr s.me m lg).toNat (2 ^ lg)) (issueMark s) s1 ps → Accessible s1 ps →
    plainParts ps = true → storeWait s1 ps ps.length = none →
    (storesDirect s1 ps = false →
      ∃ t, exec i s = .next t ∧ OnlySlot s1 t ∧
        t.me = (Slot.retired i (s.me.started s.now)
          (s1.me.stored m.evp.toNat ps (srcVal s.me a).toNat) s.me.npc).parkedBy sw) ∧
    (storesDirect s1 ps = true → ordWait s1 m.ord m.scp ps = none → unread s1 ps = true →
      (s.me.team = none ∨ (ps.all fun p => p.kind != .scratch) = true) →
      ∃ t, exec i s = .next t ∧ OnlyCaches s1 t ∧
        (∀ x, t.byte x = byteAfter (partVals ps (srcVal s.me a).toNat) x (s1.byte x)) ∧
        t.me = (Slot.retired i (s.me.started s.now) s1.me s.me.npc).parkedBy sw)

/-- Supervisor `ld.d` and `st.d` of an irrevocable activation reach the device registers (R399). -/
def Obligations.DeviceAccess : Prop :=
  ∀ (s s1 : State) (sw : Bool) (a : Reg) (m : MemOp) (p : MPart),
    s.me.super = true → s.me.irrev = true → atomsBusy s.me = false → mulPending s.me = false →
    heldMeets s1 [p] = false → (effAddr s.me m 3).toNat % 8 = 0 → p.kind = .io →
    (∀ v, Issues (.ld sw .d a m) s → NoLate sw s → a.toNat ≤ 47 → outLimit s.me = false →
      Translates .load [((effAddr s.me m 3).toNat, 8)] (issueMark s) s1 [p] → Accessible s1 [p] →
      devRead s1 p.pa = some v →
      ∃ t, exec (.ld sw .d a m) s = .next t ∧ OnlySlot s1 t ∧
        t.me = (Slot.retired (.ld sw .d a m) (s.me.started s.now)
          (s1.me.awaiting (knownResult s1.me (.ld sw .d a m) a.toNat false v 0)
            (pendsFor a.toNat false)) s.me.npc).parkedBy sw) ∧
    (∀ s2, Issues (.st sw .d a m) s → isPop a = false → (sw = true → s2.me.late = none) →
      Translates .store [((effAddr s.me m 3).toNat, 8)] (issueMark s) s1 [p] → Accessible s1 [p] →
      (devRead s1 p.pa).isSome = true → devWrite s1 p.pa (srcVal s.me a) = some s2 → s2.cur = s1.cur →
      ∃ t, exec (.st sw .d a m) s = .next t ∧ Completed (.st sw .d a m) sw s.me.npc s s2 t)

/-- A translation leaves every slot, and of memory all but the A and D bits of one table entry; what it allows, the
entry allows (R183 to R187). -/
def Obligations.TranslationRules : Prop :=
  ∀ (s t : State) (r : SlotRef) (fetch : Bool) (acc : Access) (va n : Nat) (x : TrRes),
    translate s (slotCtx s r fetch) acc va n = (t, x) →
    (∀ q, t.slot q = s.slot q) ∧ (∀ c, (t.core c).uncached = (s.core c).uncached) ∧
    (∀ c, (t.cluster c).uncached = (s.cluster c).uncached) ∧ (∀ d, (t.die d).uncached = (s.die d).uncached) ∧
    t.shell = s.shell ∧
    (∃ w, (∀ a, a ≠ w → t.byte a = s.byte a) ∧
      (t.byte w = s.byte w ∨ t.byte w = s.byte w ||| 0x40 ∨ t.byte w = s.byte w ||| 0xC0)) ∧
    (∀ e pa, x = .ok e pa → canonical va = true ∧ pa % e.size = va % 2 ^ 57 % e.size ∧
      ((s.slot r).super = true ∨ pteP e.pte.toNat = true) ∧ (acc.reads = true → pteR e.pte.toNat = true) ∧
      (acc.writes = true → pteW e.pte.toNat = true ∧ pteView e.pte.toNat = 0) ∧
      (acc = .fetch → pteX e.pte.toNat = true))

/-- `pref` changes no register, no byte of memory and no other slot, whatever its address; of the lines it drops,
firmware hears where an abort completion met one (R162, R174). -/
def Obligations.PrefetchHarmless : Prop :=
  ∀ (s : State) (sw : Bool) (f : PrefFn) (lgk : BitVec 3) (m : MemOp),
    Issues (.pref sw f lgk m) s → NoLate sw s →
    ∃ t ns, exec (.pref sw f lgk m) s = .next t ∧ OnlyCaches { s with fw := s.fw ++ ns } t ∧
      (∀ n ∈ ns, ∃ d l, n = { die := d, chan := 2, note := .memoryAbort l }) ∧ (∀ x, t.byte x = s.byte x) ∧
      t.me = s.done (.pref sw f lgk m) sw s.me.npc id

/-- The line operations: entered in the buffer of a revocable activation, performed at once by an irrevocable one, where
`cop.zero` clears the 64 bytes of its line and the others change no byte (R175, R195). -/
def Obligations.LineOperations : Prop :=
  ∀ (s s1 : State) (i : Instr) (sw : Bool) (f : Nat) (m : MemOp) (q : MPart),
    copForm i = some (sw, f, m) → Issues i s → NoLate sw s →
    Translates (copAccess f) [((effAddr s.me m 6).toNat, 1)] (issueMark s) s1 [q] → q.wholeLine.kind ≠ .io →
    (f = 3 → inLiveFrame s1 q.wholeLine.pa 64 = false) → storeWait s1 [q.wholeLine] (if f = 3 then 8 else 1) = none →
    (storesDirect s1 [q.wholeLine] = false →
      ∃ t, exec i s = .next t ∧ OnlySlot s1 t ∧
        t.me = (Slot.retired i (s.me.started s.now)
          (s1.me.copEntered f m.evp.toNat q.wholeLine) s.me.npc).parkedBy sw) ∧
    (storesDirect s1 [q.wholeLine] = true → unread s1 [q.wholeLine] = true → s.me.team = none →
      (f = 3 → noneLost s1 [q.wholeLine] = true) →
      ∃ t, exec i s = .next t ∧ OnlyCaches s1 t ∧
        t.me = (Slot.retired i (s.me.started s.now) s1.me s.me.npc).parkedBy sw ∧
        ∀ x, t.byte x = if f = 3 ∧ q.wholeLine.pa ≤ x ∧ x < q.wholeLine.pa + 64 then 0 else s1.byte x)

/-- `launch`, `bind` and `keep` enter their outgoing entry once their access has been translated (R126, R158, R252). -/
def Obligations.TranslatedEntry : Prop :=
  ∀ (s s1 : State) (i : Instr) (sw : Bool) (acc : Access) (cuts : List (Nat × Nat)) (g : State → List MPart → Option OutWhat)
    (ps : List MPart) (w : OutWhat),
    entryForm s i = some (sw, acc, cuts, g) → Issues i s → NoLate sw s → s.soft = [] →
    Translates acc cuts (issueMark s) s1 ps → (acc = .load → Accessible s1 ps ∧ plainParts ps = true) →
    g s1 ps = some w → s.me.irrev = false → s.me.nextIdx < 64 →
    ∃ t, exec i s = .next t ∧ OnlyCaches s1 t ∧ (∀ x, t.byte x = s1.byte x) ∧
      t.me = (Slot.retired i (s.me.started s.now)
        (Slot.entered w (match i with | .bind .. => s1.me.noting s1 ps | _ => s1.me.through ps)) s.me.npc).parkedBy sw

/-- `spawn` reserves a pool entry and enters its outgoing entry (R125). -/
def Obligations.SpawnReserves : Prop :=
  ∀ (s : State) (sw : Bool) (a b w : Reg) (prio : BitVec 3) (delta : BitVec 16) (k : Nat),
    Issues (.spawn sw a b w prio delta) s → NoLate sw s → (s.me.g a.toNat).toNat % 2 = 0 →
    ((s.dom s.me.domain.toNat).ordered = true → delta ≠ 0) → s.me.ts.toNat + delta.toNat < 2 ^ 64 →
    s.me.irrev = false → s.me.nextIdx < 64 → spawnEntry s s.cur.core = some k →
    ∃ t, exec (.spawn sw a b w prio delta) s = .next t ∧
      OnlySlot (takeEntry s (clusterOf s.cur.core) k) t ∧
      t.me = s.done (.spawn sw a b w prio delta) sw s.me.npc
        (Slot.entered (.spawn (s.me.g a.toNat) (s.me.g b.toNat) (s.me.g w.toNat) (s.me.ts + delta.setWidth 64) prio k))

/-! Atomics. -/

/-- What an atomic makes of memory and its operand (R225). -/
def Obligations.AtomicValues : Prop :=
  (∀ (op : AmoOp) (m v : BitVec 32), op ≠ .bsiadd → amoNew op 32 m.toNat v.toNat = (amoTable op m v).toNat) ∧
  (∀ (op : AmoOp) (m v : BitVec 64), op ≠ .bsiadd → amoNew op 64 m.toNat v.toNat = (amoTable op m v).toNat) ∧
  (∀ (op : AmoOp) (m v : BitVec 128), op ≠ .bsiadd → amoNew op 128 m.toNat v.toNat = (amoTable op m v).toNat)

/-- A posted `amo` of a revocable activation outside scratch is entered in its buffer; a direct one at a point next to
the core replaces its target by the value of R225 and nothing else (R217, R220, R227). -/
def Obligations.AtomicPosted : Prop :=
  ∀ (s s1 : State) (sw : Bool) (op : AmoOp) (w : AmoW) (b c : Reg) (o : AmoOrd) (p : MPart) (x : AtomReq),
    Issues (.amo sw op w b c o) s → NoLate sw s → s.soft = [] → isPop c = false →
    (s.me.g b.toNat).toNat % amoBytes w = 0 →
    Translates .atomic [((s.me.g b.toNat).toNat, amoBytes w)] (issueMark s) s1 [p] → Accessible s1 [p] →
    p.kind ≠ .host → p.kind ≠ .io → storeWait s1 [p] 1 = none →
    x = { pa := p.pa, va := p.va, op := op, w := w, v := atomVal s.me w c, cas := none, trig := none, idx := 0,
          attr := p.attr o.evp.toNat } →
    (storesDirect s1 [p] = false →
      ∃ t, exec (.amo sw op w b c o) s = .next t ∧ OnlySlot s1 t ∧
        t.me = (Slot.retired (.amo sw op w b c o) (s.me.started s.now) (s1.me.posted x p) s.me.npc).parkedBy sw) ∧
    (storesDirect s1 [p] = true → ordWait s1 o.ord o.scp [p] = none → s.me.team = none → unread s1 [p] = true →
      lineAborts s1 p.pa = false →
      (p.kind = .scratch ∨ goesFar s1 (queueCore s1 s.cur p.va) p.pa = false ∧
        (kindOf p.pa = .device → holdsM s1 (queueCore s1 s.cur p.va) (lineOf p.pa) = true)) →
      ∃ t, exec (.amo sw op w b c o) s = .next t ∧ OnlyCaches s1 t ∧
        t.me = (Slot.retired (.amo sw op w b c o) (s.me.started s.now) s1.me s.me.npc).parkedBy sw ∧
        ∀ y, t.byte y = byteAfter [(p, amoNew op (8 * amoBytes w) (s1.load p.pa (amoBytes w)) (atomVal s.me w c).toNat)] y
          (s1.byte y))

/-- `amot` reads its trigger descriptor as it issues and enters the buffer with it, under an index of its own (R220,
R230). -/
def Obligations.TriggeredPosted : Prop :=
  ∀ (s s1 s2 : State) (sw : Bool) (op : AmoOp) (w : AmoW) (b c d : Reg) (o : AmoOrd) (p : MPart) (ds : List MPart)
    (x : AtomReq) (desc : BitVec 256),
    Issues (.amot sw op w b c d o) s → NoLate sw s → s.soft = [] → isPop c = false →
    (s.me.g b.toNat).toNat % amoBytes w = 0 → (s.me.g d.toNat).toNat % 32 = 0 →
    Translates .atomic [((s.me.g b.toNat).toNat, amoBytes w)] (issueMark s) s1 [p] → Accessible s1 [p] →
    p.kind ≠ .host → p.kind ≠ .io → Translates .load [((s.me.g d.toNat).toNat, 32)] s1 s2 ds → Accessible s2 ds →
    plainParts ds = true → loadWait s2 ds = none → (ds.all fun q => !partAborts s2 q) = true →
    desc = BitVec.ofNat 256 (leOf (ds.flatMap (partBytes s2))) → descBad s2 desc = false →
    storesDirect s2 [p] = false → storeWait s2 [p] 1 = none → s.me.nextIdx < 64 →
    x = { pa := p.pa, va := p.va, op := op, w := w, v := atomVal s.me w c, cas := none, trig := some desc,
          idx := BitVec.ofNat 16 s.me.nextIdx, attr := p.attr o.evp.toNat } →
    ∃ t, exec (.amot sw op w b c d o) s = .next t ∧ OnlyCaches s2 t ∧ (∀ y, t.byte y = s2.byte y) ∧
      t.me = (Slot.retired (.amot sw op w b c d o) (s.me.started s.now)
        (((s2.me.noting s2 ds).entered .amot).posted x p) s.me.npc).parkedBy sw

/-- `amof` and `cas` of an irrevocable activation: at a point next to the core the target takes its new value and the
old one is the result; a line that is not held is fetched first (R217, R221, R227). -/
def Obligations.AtomicFetched : Prop :=
  ∀ (s s1 : State) (i : Instr) (sw : Bool) (op : AmoOp) (w : AmoW) (a b c : Reg) (d : Option Reg) (o : AmoOrd) (p : MPart)
    (x : AtomReq) (old : Nat),
    fetchForm i = some (sw, op, w, a, b, c, d, o) → Issues i s → NoLate sw s → s.me.irrev = true → s.soft = [] →
    isPop c = false → (∀ n, d = some n → isPop n = false) → a.toNat ≤ 46 → (s.me.g b.toNat).toNat % amoBytes w = 0 →
    Translates .atomic [((s.me.g b.toNat).toNat, amoBytes w)] (issueMark s) s1 [p] → Accessible s1 [p] →
    p.kind ≠ .host → p.kind ≠ .io → outLimit s.me = false → ordWait s1 o.ord o.scp [p] = none →
    storeWait s1 [p] 1 = none → goesFar s1 (queueCore s1 s.cur p.va) p.pa = false → lineAborts s1 p.pa = false →
    x = { pa := p.pa, va := p.va, op := op, w := w, v := atomVal s.me w c, cas := d.map (atomVal s.me w), trig := none,
          idx := 0, attr := p.attr o.evp.toNat } →
    old = s1.load p.pa (amoBytes w) →
    (p.kind = .device → holdsM s1 (queueCore s1 s.cur p.va) (lineOf p.pa) = false →
      ∃ t, exec i s = .next t ∧ OnlyCaches s1 t ∧ (∀ y, t.byte y = s1.byte y) ∧
        t.me = (Slot.retired i (s.me.started s.now)
          (s1.me.awaiting { knownResult s1.me i a.toNat (w == .q) 0 0 with what := .own x }
            (pendsFor a.toNat (w == .q))) s.me.npc).parkedBy sw) ∧
    ((p.kind = .device → holdsM s1 (queueCore s1 s.cur p.va) (lineOf p.pa) = true) → s.me.team = none →
      unread s1 [p] = true →
      ∃ t, exec i s = .next t ∧ OnlyCaches s1 t ∧
        t.me = (Slot.retired i (s.me.started s.now)
          (s1.me.awaiting (knownResult s1.me i a.toNat (w == .q) (BitVec.ofNat 64 (old % 2 ^ 64))
              (BitVec.ofNat 64 (old / 2 ^ 64)))
            (pendsFor a.toNat (w == .q))) s.me.npc).parkedBy sw ∧
        ∀ y, t.byte y = byteAfter [(p, match d with
            | some n => if old = (atomVal s.me w c).toNat % 2 ^ (8 * amoBytes w)
                        then (atomVal s.me w n).toNat % 2 ^ (8 * amoBytes w) else old
            | none => amoNew op (8 * amoBytes w) old (atomVal s.me w c).toNat)] y (s1.byte y))

/-! Vector memory. -/

/-- `vld` reads its elements as it is dispatched, takes the next VSEQ and enters the ring with them; behind a late vector
fault it takes its VSEQ only (R172, R173, R197, R306, R308). -/
def Obligations.VectorLoad : Prop :=
  ∀ (s s1 : State) (sw : Bool) (w : VecW) (a : Reg) (m : MemOp) (ps : List MPart),
    Issues (.vld sw w a m) s → NoLate sw s → s.soft = [] → VecAccess (issueMark s) .load w m s1 ps →
    (s.me.late.isSome = true →
      ∃ t, exec (.vld sw w a m) s = .next t ∧ OnlySlot s1 t ∧
        t.me = (Slot.retired (.vld sw w a m) (s.me.started s.now) s1.me.vseqTaken
          s.me.npc).parkedBy sw) ∧
    (s.me.late = none → (storesDirect s1 ps = true → s.me.vq = []) → ordWait s1 m.ord m.scp ps = none →
      loadWait s1 ps = none →
      (ps.all fun p => !partAborts s1 p) = true →
      ∃ t, exec (.vld sw w a m) s = .next t ∧ OnlyCaches s1 t ∧ (∀ x, t.byte x = s1.byte x) ∧
        t.me = (Slot.retired (.vld sw w a m) (s.me.started s.now)
          ((s1.me.noting s1 (notedParts ps [])).ringed
            (vecOp s.me (.vld sw w a m) [] (((elemsOf s.me w m).zip ps).map fun q =>
              (q.1.i, q.1.va, leOf (partBytes s1 q.2)))) []) s.me.npc).parkedBy sw)

/-- `vst` of a revocable activation outside scratch reserves its entries and enters the ring; an irrevocable one stores
its elements as it is dispatched, each active lane to its address and nothing else (R173, R195, R306). -/
def Obligations.VectorStore : Prop :=
  ∀ (s s1 : State) (sw : Bool) (w : VecW) (a : Reg) (m : MemOp) (ps : List MPart),
    Issues (.vst sw w a m) s → NoLate sw s → s.me.late = none → VecAccess (issueMark s) .store w m s1 ps →
    ordWait s1 m.ord m.scp ps = none → storeWait s1 ps (vstCount w) = none →
    (storesDirect s1 ps = false →
      ∃ t, exec (.vst sw w a m) s = .next t ∧ OnlySlot s1 t ∧
        t.me = (Slot.retired (.vst sw w a m) (s.me.started s.now)
          ((s1.me.ringed { vecOp s.me (.vst sw w a m) [] (((elemsOf s.me w m).zip ps).map fun q =>
              (q.1.i, q.2.va, q.2.pa)) with attrs := ps.map fun p => p.attr m.evp.toNat } []).reserving w ((elemsOf s.me w m).zip ps)) s.me.npc).parkedBy sw) ∧
    (s.me.irrev = true → s.me.vq = [] → s.me.team = none → unread s1 ps = true → noneLost s1 ps = true →
      ∃ t, exec (.vst sw w a m) s = .next t ∧ OnlyCaches s1 t ∧
        t.me = (Slot.retired (.vst sw w a m) (s.me.started s.now) s1.me.vseqTaken
          s.me.npc).parkedBy sw ∧
        ∀ x, t.byte x = byteAfter (((elemsOf s.me w m).zip ps).map fun q =>
          (q.2, laneOf (s.me.v a.toNat) (8 * 2 ^ VecW.lg w) q.1.i)) x (s1.byte x))

/-! Barriers, TLB maintenance, conversions, ports. -/

/-- Barriers: outside a team an arrival alone is noted and nothing waits; a member that arrives waits until its phase
is complete, and a combining form then has the phase's result. A phase is complete when every member has arrived or
ended; its result combines the arrivals' values, and the next phase begins with nobody there (R233). -/
def Obligations.Barriers : Prop :=
  (∀ (s : State) (sw : Bool) (b : BitVec 2),
     (s.me.team = none → arrivalOf s.me b.toNat = none → NoLate sw s →
       (Issues (.barArrive sw b) s →
         ∃ t, exec (.barArrive sw b) s = .next t ∧ OnlySlot s t ∧
           t.me = s.done (.barArrive sw b) sw s.me.npc (Slot.noteArr b.toNat 0)) ∧
       (Issues (.barSync sw b) s → arrivalOf s.me (b.toNat + 4) = none →
         ∃ t, exec (.barSync sw b) s = .next t ∧ OnlySlot s t ∧ t.me = s.done (.barSync sw b) sw s.me.npc id) ∧
       (∀ f a c, Issues (.barCombine sw f a c b) s → arrivalOf s.me (b.toNat + 4) = none → isPop c = false →
         a.toNat ≤ 47 →
         ∃ t, exec (.barCombine sw f a c b) s = .next t ∧ OnlySlot s t ∧
           t.me = s.done (.barCombine sw f a c b) sw s.me.npc (fun sl => sl.setG a.toNat (srcVal s.me c)))) ∧
     (∀ ph, s.me.team = none → arrivalOf s.me b.toNat = some ph → Issues (.barWait sw b) s → NoLate sw s →
       ∃ t, exec (.barWait sw b) s = .next t ∧ OnlySlot s t ∧
         t.me = s.done (.barWait sw b) sw s.me.npc (Slot.dropArr b.toNat)) ∧
     (∀ k, s.me.team = some k → releaseWait s = none → arrivalOf s.me b.toNat = none → NoLate sw s →
       (Issues (.barArrive sw b) s →
         ∃ t, exec (.barArrive sw b) s = .next t ∧
           Completed (.barArrive sw b) sw s.me.npc s (barCheck (arrivedAt (issueMark s) k b.toNat b.toNat 0 0) k) t) ∧
       (Issues (.barSync sw b) s → arrivalOf s.me (b.toNat + 4) = none →
         exec (.barSync sw b) s =
           .next (stalledFor (.barrier b.toNat) (barCheck (arrivedAt (issueMark s) k b.toNat (b.toNat + 4) 0 0) k))) ∧
       (∀ f a c, Issues (.barCombine sw f a c b) s → arrivalOf s.me (b.toNat + 4) = none → isPop c = false →
         a.toNat ≤ 47 →
         exec (.barCombine sw f a c b) s =
           .next (stalledFor (.barrier b.toNat)
             (barCheck (arrivedAt (issueMark s) k b.toNat (b.toNat + 4) (barKind f) (srcVal s.me c)) k)))) ∧
     (∀ k ph x, s.me.team = some k → x = smGet Barrier.reset (s.getTeam k).bars b.toNat → ph < x.phase →
       x.mixed = false → NoLate sw s →
       (arrivalOf s.me b.toNat = some ph → Issues (.barWait sw b) s →
         ∃ t, exec (.barWait sw b) s = .next t ∧ OnlySlot s t ∧
           t.me = s.done (.barWait sw b) sw s.me.npc (Slot.dropArr b.toNat)) ∧
       (arrivalOf s.me (b.toNat + 4) = some ph →
         (Issues (.barSync sw b) s →
           ∃ t, exec (.barSync sw b) s = .next t ∧ OnlySlot s t ∧
             t.me = s.done (.barSync sw b) sw s.me.npc (Slot.dropArr (b.toNat + 4))) ∧
         (∀ f a c, Issues (.barCombine sw f a c b) s → a.toNat ≤ 47 →
           ∃ t, exec (.barCombine sw f a c b) s = .next t ∧ OnlySlot s t ∧
             t.me = s.done (.barCombine sw f a c b) sw s.me.npc
               (fun sl => (sl.dropArr (b.toNat + 4)).setG a.toNat x.result)))) ∧
     (∀ k ph, s.me.team = some k → (smGet Barrier.reset (s.getTeam k).bars b.toNat).phase ≤ ph →
       arrivalOf s.me b.toNat = some ph → Issues (.barWait sw b) s →
       ∃ t, exec (.barWait sw b) s = .next t ∧ OnlySlot s t ∧
         t.me = (s.me.started s.now).waiting (.barrier b.toNat))) ∧
  (∀ (s : State) (k b : Nat) (x : Barrier) (kind : Nat),
     smGet Barrier.reset (s.getTeam k).bars b = x → smHas (s.getTeam k).bars b = true → x.arr ≠ [] →
     (x.arr.all fun e => e.2.1 == kind) = true →
     let y := smGet Barrier.reset ((barCheck s k).getTeam k).bars b
     ((∀ r ∈ (s.getTeam k).slots, (s.slot r).term.isSome = true ∨ ∃ e ∈ x.arr, e.1 = (s.slot r).tidx) →
       y.phase = x.phase + 1 ∧ y.arr = [] ∧ y.mixed = false ∧
       (kind = 1 → (∀ e ∈ x.arr, e.2.2.toInt ≤ y.result.toInt) ∧ ∃ e ∈ x.arr, y.result = e.2.2) ∧
       (kind = 2 → (∀ e ∈ x.arr, y.result.toInt ≤ e.2.2.toInt) ∧ ∃ e ∈ x.arr, y.result = e.2.2) ∧
       (kind = 3 → y.result = BitVec.ofNat 64 (x.arr.map fun e => e.2.2.toNat).sum) ∧
       (kind = 4 → ∀ i, i < 64 → (y.result.getLsbD i = true ↔ ∃ e ∈ x.arr, e.2.2.getLsbD i = true))) ∧
     ((∃ r ∈ (s.getTeam k).slots, (s.slot r).term.isSome = false ∧ ∀ e ∈ x.arr, e.1 ≠ (s.slot r).tidx) → y = x))

/-- `tlb` drops what it names from every TLB in its scope, and completes where no uncommitted activation holds effects
that went through it; `tlb.probe` answers what a walk finds and changes no byte of memory (R188, R193). -/
def Obligations.TlbMaintenance : Prop :=
  ∀ (s : State) (i : Instr), s.me.super = true → Issues i s →
    (∀ sc d, tlbDropOf s.me i = some (sc, d) → NoLate (tlbMarked i) s → tlbOthers (issueMark s) sc = [] →
      ∃ t, exec i s = .next t ∧ OnlyCaches s t ∧ (∀ x, t.byte x = s.byte x) ∧
        t.me = s.done i (tlbMarked i) s.me.npc id ∧
        ∀ c, inTlbScope sc s.cur.core c = true →
          (∀ e ∈ (t.core c).itlb ++ (t.core c).dtlb, d.hitsEntry e = false) ∧
          (sc ≠ .core → ∀ e ∈ (t.cluster (clusterOf c)).tlb, d.hitsEntry e = false) ∧
          (sc = .die ∨ sc = .module → ∀ e ∈ (t.die (dieOf c)).tlb, d.hitsEntry e = false)) ∧
    (∀ sw a b c, i = .tlbProbe sw a b c → NoLate sw s →
      ∀ w, probeAnswer s (s.me.g b.toNat) (s.me.g c.toNat) = some w →
        ∃ t, exec i s = .next t ∧ OnlyCaches s t ∧ (∀ x, t.byte x = s.byte x) ∧
          t.me = s.done i sw s.me.npc (fun sl => sl.setG a.toNat w))

/-- `cvt` gives the converted value as a long-latency result and raises its flags; where an enabled flag would be set it
takes FPX with the flags set and no result (R283, R293, R294). -/
def Obligations.CvtResult : Prop :=
  ∀ (s : State) (sw : Bool) (rm : BitVec 3) (sat : Bool) (dst src : Fmt) (a b c : Reg) (v fl : Nat),
    Issues (.cvt sw rm sat dst src a b c) s → outLimit s.me = false →
    cvtElem dst src (effMode s.me rm) (effSat s.me rm sat)
      (drawWord (effMode s.me rm) s.me.fonKey (s.me.g c.toNat).toNat) (s.me.g b.toNat).toNat = (v, fl) →
    (fl &&& s.me.flagEn = 0 → v < 2 ^ dst.width → a.toNat ≤ 47 → NoLate sw s →
      ∃ t, exec (.cvt sw rm sat dst src a b c) s = .next t ∧ OnlySlot s t ∧
        t.me = s.done (.cvt sw rm sat dst src a b c) sw s.me.npc (fun sl =>
          (sl.raise fl).awaiting (knownResult sl (.cvt sw rm sat dst src a b c) a.toNat false
            (fmtWord dst v) 0) (pendsFor a.toNat false))) ∧
    (∀ fs, fl &&& s.me.flagEn ≠ 0 → CanTrap s fs →
      ∃ t, exec (.cvt sw rm sat dst src a b c) s = .next t ∧ OnlySlot s t ∧
        t.me = (s.me.started s.now).taking
          { faultOf (issueMark s) (.cvt sw rm sat dst src a b c) 0x0A 0 0 with fpflags := fl } fs)

/-- Port registers: an integer result for outb is appended there, and a source inb takes the next doubleword of the
payload (R32, R33, R250). -/
def Obligations.PortOperands : Prop :=
  ∀ (s : State) (i : Instr) (sw : Bool),
    (∀ srcs d v, intForm s.me i = some (sw, srcs, d, v) → srcs.all (fun r => !isPop r) = true → d.toNat = 57 →
      Issues i s → NoLate sw s → outbCount s.me < 32 → mulPending s.me = false →
      (s.me.outst.all fun o => o.dest != 57) = true →
      ∃ t, exec i s = .next t ∧ OnlySlot s t ∧ t.me = s.done i sw s.me.npc (Slot.appended v)) ∧
    (∀ f a c v rest, i = .alu sw f a 56 c → isPop c = false → a.toNat ≤ 47 → Issues i s → NoLate sw s →
      s.me.inbox = v :: rest → outLimit s.me = false → popWaiting s.me 56 = false →
      ∃ t, exec i s = .next t ∧ OnlySlot s t ∧
        t.me = s.done i sw s.me.npc (fun sl =>
          (sl.inboxTaken rest).awaiting (knownResult sl i a.toNat false (aluVal f v (srcVal s.me c)) 0)
            (pendsFor a.toNat false)))

/-- A double trap halts the slot with MC2 written, and its activation runs again elsewhere (R380, R381, R386). -/
def Obligations.DoubleTrapHalts : Prop :=
  ∀ (s : State) (i : Instr) (code n : Nat),
    softForm i = some (code, n) → Issues i s → s.me.quiet = true → s.me.late = none → s.me.curLog2 = 0 →
    s.me.doubleRisk = true → s.me.vecFetch = false → RunsAgain s →
    ∃ t, exec i s = .next t ∧ t.me.st = .halted ∧ t.me.act = .none ∧
      t.me.mc2 = BitVec.ofNat 64 (2 ^ 63 + 4 * 2 ^ 16 + code) ∧
      t.me.trapc = s.me.trapc ∧ t.me.trapa = s.me.trapa ∧ t.me.trapv = s.me.trapv ∧ t.me.trapp = s.me.trapp

/-! Encodings, steps, reset. -/

/-- Encoding and decoding undo each other: every well-formed instruction is read back from its words, and what words are
read as is written as those words. -/
def Obligations.EncodeDecode : Prop :=
  (∀ (i : Instr) (e : Enc), i.wf = true → encode i = some e → decode e = .ok i) ∧
  (∀ (e : Enc) (i : Instr), e.tail.toNat < 2 ^ (16 * hdTl e.head) → decode e = .ok i →
    i.wf = true ∧ encode i = some e)

/-- A step of the slot `cur` runs the instruction that the halfwords at its PC decode to, with NPC at its sequence
successor; an event of the agenda happens in the machine as its cycles have left it (R20 to R28, R41, R92). -/
def Obligations.StepRunsDecoded : Prop :=
  (∀ (s u s1 : State) (e : TlbEntry) (pa : Nat) (w : Enc) (i : Instr),
    s.agenda = [] → u = tick 1 s → plan u s.cur = .issue → u.soft = [] →
    translate u (slotCtx u s.cur true) .fetch (u.me.pc.toNat / 64 * 64) 64 = (s1, .ok e pa) →
    (u.me.vecFetch = true → u.me.tvb ≠ 0) → lineAborts s1 pa = false →
    decodeLine (lineHalves s1 pa) (natBits u.me.pc.toNat 5 1) = some w → decode w = .ok i →
    ∃ s2, step s = exec i s2 ∧ OnlyCaches s1 s2 ∧ (∀ x, s2.byte x = s1.byte x) ∧
      s2.me = s1.me.fetchedAt (seqPc (u.me.pc &&& ~~~(63 : Word)) (lineHalves s1 pa) (natBits u.me.pc.toNat 5 1))) ∧
  (∀ (s : State) (t : Turn) (rest : List Turn) (e : Instr),
    s.agenda = t :: rest → t.who = .event e → (∀ u, rest.head? = some u → u.cycles ≠ 0) →
    canHappen (tick t.cycles (withAgenda s rest)) e = true →
    step s = exec e (tick t.cycles (withAgenda s rest)))

/-- After reset every slot is FREE with its registers at their reset values, no memory is written, no channel is masked
or bound, and composition is limited to 16 cores (R87, R92, R142, R253, R375, R396; that unwritten memory reads 0 is the
model's choice, assumption 4). -/
def Obligations.ResetState : Prop :=
  (∀ r : SlotRef, State.reset.slot r = Slot.reset) ∧ Slot.reset.st = .free ∧ Slot.reset.rmode = 0 ∧
  Slot.reset.fflags = 0 ∧ Slot.reset.user = 0 ∧ Slot.reset.vseq = 0 ∧ Slot.reset.trapc = 0 ∧ Slot.reset.mc2 = 0 ∧
  Slot.reset.chk = { expect := 0, run := 0xFFFF, isOpen := false, en := false } ∧ Slot.reset.super = false ∧
  (∀ c : Nat, (State.reset.core c).masked = 0 ∧ (State.reset.core c).handlers = [] ∧ (State.reset.core c).maxLog2 = 4) ∧
  (∀ a : Nat, State.reset.byte a = 0) ∧ State.reset.memoryCanonical = true ∧ State.reset.now = 0

/-- Every step keeps memory, and the flash and images that a reset or a swap brings back, in canonical form. -/
def Obligations.MemoryStaysCanonical : Prop :=
  ∀ s t : State, s.memoryCanonical = true → step s = .next t → t.memoryCanonical = true

/-! Events. -/

/-- Vector instructions complete in their order: the lanes of `vi` take their values, those of `vld` what was read, the
entries of `vst` enter the buffer, and one behind a late fault is discarded (R303 to R308, R312, R315). -/
def Obligations.VectorLanes : Prop :=
  ∀ (s : State) (r : SlotRef) (o : VecOp) (rest : List VecOp),
    r.core < 5120 → r.slot < 8 → (s.slot r).vq = o :: rest → (s.slot r).phase ≠ 1 → s.glitches = [] →
    ((s.slot r).late.isSome = true → (∀ sw w a m, o.instr ≠ .vst sw w a m) →
      ∃ t, exec (.vectorCompletion r) s = .next t ∧ OnlyAt r s t ∧ t.slot r = (s.slot r).ringLeft rest) ∧
    (∀ sw f wide v a b c, (s.slot r).late = none → o.instr = .vi sw f wide v a b c → plainVi f = true →
      ∃ t, exec (.vectorCompletion r) s = .next t ∧ OnlyAt r s t ∧
        t.slot r = ((s.slot r).ringLeft rest).setV a.toNat ((t.slot r).v a.toNat) ∧
        (wide = false → ∀ i, i < 32 → laneOf ((t.slot r).v a.toNat) 32 i =
          if laneActive ((s.slot r).k v.km.toNat) 32 i = true then
            (viTable f (BitVec.ofNat 32 (laneOf ((s.slot r).v b.toNat) 32 i))
              (BitVec.ofNat 32 (cLane (s.slot r) o v c 32 i))).toNat
          else if v.z then 0 else laneOf ((s.slot r).v a.toNat) 32 i) ∧
        (wide = true → ∀ i, i < 16 → laneOf ((t.slot r).v a.toNat) 64 i =
          if laneActive ((s.slot r).k v.km.toNat) 16 i = true then
            (viTable f (BitVec.ofNat 64 (laneOf ((s.slot r).v b.toNat) 64 i))
              (BitVec.ofNat 64 (cLane (s.slot r) o v c 64 i))).toNat
          else if v.z then 0 else laneOf ((s.slot r).v a.toNat) 64 i)) ∧
    (∀ sw w a m, (s.slot r).late = none → o.instr = .vld sw w a m → (o.elems.map fun e => e.1).Nodup →
      (∀ e ∈ o.elems, e.1 < vlanes w ∧ e.2.2 < 2 ^ (8 * 2 ^ VecW.lg w)) →
      ∃ t, exec (.vectorCompletion r) s = .next t ∧ OnlyAt r s t ∧
        t.slot r = ((s.slot r).ringLeft rest).setV a.toNat ((t.slot r).v a.toNat) ∧
        ∀ i, i < vlanes w → laneOf ((t.slot r).v a.toNat) (8 * 2 ^ VecW.lg w) i =
          match o.elems.find? (fun e => e.1 == i) with
          | some e => e.2.2
          | none => laneOf ((s.slot r).v a.toNat) (8 * 2 ^ VecW.lg w) i) ∧
    (∀ sw w a m, (s.slot r).late = none → o.instr = .vst sw w a m →
      ∃ t, exec (.vectorCompletion r) s = .next t ∧ OnlyAt r s t ∧
        (t.slot r).buf = (s.slot r).buf ++ vstEntries w ((s.slot r).v a.toNat) o ∧ (t.slot r).vq = rest ∧
        (t.slot r).regs = (s.slot r).regs ∧ (t.slot r).vregs = (s.slot r).vregs)

/-- What happens to a slot: results return, parks and stalls end, a trap is entered, a bank is filled, the watchdog
expires, a walk fills the TLBs, an invalidation completes, an atomic whose line has come is performed, compositions are
claimed and handed back, operands and doublewords arrive (R35, R37, R38, R92, R100, R101, R137, R146, R147, R183 to
R188, R193, R219, R261, R309, R377). -/
def Obligations.SlotEvents : Prop :=
  ∀ (s : State) (r : SlotRef), r.core < 5120 → r.slot < 8 →
    (∀ k o v hi, (s.slot r).outst[k]? = some o → o.what = .value v hi → o.dest ≤ 47 → (s.slot r).phase ≠ 1 →
      (o.once = 0 ∨ (s.slot r).team = none) →
      ∃ t, exec (.longLatencyResult r k) s = .next t ∧ OnlyAt r s t ∧ t.slot r = (s.slot r).returned k o v hi) ∧
    ((s.slot r).st = .parked → (s.slot r).quiet = true → (s.slot r).phase ≠ 1 → (s.slot r).cont = .resume →
      (s.slot r).late = none →
      ∃ t, exec (.parkEnd r) s = .next t ∧ OnlyAt r s t ∧ t.slot r = (s.slot r).unparked) ∧
    ((s.slot r).st = .stalled → (s.slot r).phase ≠ 1 →
      (plainStall (s.slot r).stall = true → retFull s r.core = false →
        ∃ t, exec (.stallEnd r) s = .next t ∧ OnlyAt r s t ∧ t.slot r = (s.slot r).awake) ∧
      ((s.slot r).stall = .srVector → (s.slot r).vq = [] → (s.slot r).late = none →
        ∃ t, exec (.stallEnd r) s = .next t ∧ OnlyAt r s t ∧ t.slot r = (s.slot r).awake.parkedBy true)) ∧
    (∀ ti fs, (s.slot r).st = .parked → (s.slot r).quiet = true → (s.slot r).phase ≠ 1 → (s.slot r).cont = .trap ti →
      CanTrap (s.turn r) fs →
      ∃ t, exec (.trapEntry r) s = .next t ∧ OnlyAt r s t ∧
        t.slot r = ((s.slot r).fpxRaised ti).trapped ti fs) ∧
    ((s.slot r).st = .filling → s.soft = [] →
      ∃ t, exec (.fillingComplete r) s = .next t ∧ (t.slot r).st = .ready ∧ (t.slot r).budAt = s.now ∧
        (t.slot r).pc = BitVec.ofNat 64 (s.load ((s.slot r).wsp + 0x180) 8) ∧
        (∀ g, 1 ≤ g → g ≤ 47 → (t.slot r).g g = BitVec.ofNat 64 (s.load ((s.slot r).wsp + 8 * g) 8)) ∧
        (t.slot r).act = (s.slot r).act ∧ (t.slot r).ts = (s.slot r).ts ∧ (t.slot r).inbox = (s.slot r).inbox ∧
        (∀ q, slotKey q ≠ slotKey r → t.slot q = s.slot q) ∧
        (∀ y, ¬ roByte (s.slot r).wsp y → t.byte y = s.byte y) ∧
        t.load ((s.slot r).wsp + 0x190) 8 = (s.strand (s.slot r).strand).ts.toNat ∧
        t.load ((s.slot r).wsp + 0x198) 8 = (s.strand (s.slot r).strand).sid.toNat) ∧
    ((s.slot r).helperOf = none → watched (s.slot r) = true → s.bud (s.slot r) = 0 → RunsAgain (s.turn r) →
      ∃ t, exec (.budgetExpiry r) s = .next t ∧
        (s.slot r).Restarts { (s.slot r).trig with redeliveries := (s.slot r).trig.redeliveries + 1 } (t.slot r) ∧
        t.fw = s.fw ++ [noticeOf (s.turn r) (abortRecord (s.turn r) r 5) true ((s.slot r).trig.redeliveries + 1)]) ∧
    (∀ va store, (s.slot r).act ≠ .none → (s.slot r).helperOf = none →
      ∃ t, exec (.pageWalk r va store) s = .next t ∧ (∀ q, t.slot q = s.slot q) ∧ t.shell = s.shell ∧ OnlyAd s t ∧
        ∀ w pte a size ptrs, canonical va.toNat = true → tlbLookup s (slotCtx s r false) va.toNat = none →
          walkFill (s.turn r) (slotCtx s r false) va.toNat = (w, .leaf pte a size ptrs) →
          ∃ e ∈ (t.die (dieOf r.core)).tlb, e.vpage = va.toNat % 2 ^ 57 / size ∧ e.size = size) ∧
    (∀ i x, (s.slot r).st = .stalled → (s.slot r).stall = .tlbInval → (s.slot r).cont = .after i →
      tlbDropOf (s.slot r) i = some x → tlbComplete (s.turn r) x.1 = true → NoLate (tlbMarked i) (s.turn r) →
      (∃ c, chkComplete (s.slot r).chk i = .ok c) →
      ∃ t, exec (.tlbInvalidationComplete r) s = .next t ∧ OnlyAt r s t ∧
        t.slot r = (Slot.retired i (s.slot r).resumed (s.slot r).resumed (s.slot r).npc).parkedBy (tlbMarked i)) ∧
    (∀ o a, OwnLineComes s r o a →
      ∃ t, exec (.localAtomicPerform r) s = .next t ∧ (∀ q, slotKey q ≠ slotKey r → t.slot q = s.slot q) ∧
        (∀ y, t.byte y = if a.pa ≤ y ∧ y < a.pa + amoBytes a.w then
            BitVec.ofNat 8 (atomNew a (s.load a.pa (amoBytes a.w)) / 256 ^ (y - a.pa)) else s.byte y) ∧
        (t.slot r).outst = updFirst isOwn
          (fun o => { o with what := .value (oldValue a.w (s.load a.pa (amoBytes a.w)))
                                            (oldHigh (s.load a.pa (amoBytes a.w))) }) (s.slot r).outst) ∧
    (∀ i lg, ClaimsNow s r i lg →
      ∃ t, exec (.composeClaim r) s = .next t ∧ (t.slot r).pc = (s.slot r).npc ∧
        (t.slot r).st = (if shapeFor s r lg = 0 then .ready else .lead) ∧ (t.slot r).cont = .resume ∧
        (t.slot r).regs = (s.slot r).regs ∧
        (shapeFor s r lg ≠ 0 → (t.slot r).curLog2 = BitVec.ofNat 3 (shapeFor s r lg)) ∧
        (shapeFor s r lg = 0 → (t.slot r).curLog2 = (s.slot r).curLog2)) ∧
    ((s.slot r).st = .releasing → (s.slot r).phase ≠ 1 → (s.slot r).cont = .resume → (s.slot r).curLog2 ≠ 0 →
      (s.slot r).helperOf = none →
      ∃ t, exec (.handBack r none) s = .next t ∧ (t.slot r).curLog2 = 0 ∧ (t.slot r).st = .ready ∧
        (t.slot r).regs = (s.slot r).regs ∧ ∀ q, slotKey q ≠ slotKey r → (t.slot q).helperOf ≠ some r) ∧
    (∀ a b v w ma fu, (s.slot r).curLog2 ≠ 0 → (shapeMembers r.core (s.slot r).curLog2.toNat).contains a = true →
      (shapeMembers r.core (s.slot r).curLog2.toNat).contains b = true →
      consumes (s.turn r) ma.toNat fu.toNat = true →
      (res v.toNat = res w.toNat → exec (.operandArrival r a b v w ma fu) s = .next s) ∧
      (res v.toNat ≠ res w.toNat → RunsAgain (s.turn r) →
        ∃ t, exec (.operandArrival r a b v w ma fu) s = .next t ∧
          (s.slot r).Restarts { (s.slot r).trig with redeliveries := (s.slot r).trig.redeliveries + 1 } (t.slot r) ∧
          t.fw = s.fw ++ [noticeOf (s.turn r) (operandRecord s r a b v w ma.toNat fu.toNat) true
            ((s.slot r).trig.redeliveries + 1)])) ∧
    (∀ dir v rest, ((s.core r.core).linkbuf.filter fun p => p.1 == dir.toNat).length < 16 →
      takeFirst dir.toNat (s.core r.core).linkfly = some (v, rest) →
      ∃ t, exec (.linkPortArrival r.core dir) s = .next t ∧
        (t.core r.core).linkbuf = (s.core r.core).linkbuf ++ [(dir.toNat, v)] ∧ (t.core r.core).linkfly = rest ∧
        (∀ c, c ≠ r.core → t.core c = s.core c) ∧ (∀ q, t.slot q = s.slot q) ∧ (∀ y, t.byte y = s.byte y))

/-- How activations come to slots and leave them (R96, R108 to R110, R121, R124, R195, R204, R205). -/
def Obligations.PlacementAndCommit : Prop :=
  ∀ (s : State) (r : SlotRef), r.core < 5120 → r.slot < 8 →
    (∀ a tr, (s.slot r).st = .free → admits s r.core = true → (s.cluster (clusterOf r.core)).ready = [a] →
      (s.strand a).trig = some tr → (s.strand a).home = clusterOf r.core → glazeHolds s tr.key.ts = false →
      (tr.redeliveries = 0 ∨ tr.ranOn = r.core) → frameElsewhere (s.strand a).wsp r.core = false →
      ∃ t, exec (.readyRecordPickup r) s = .next t ∧ (t.slot r).st = .filling ∧ (t.slot r).act = .starting ∧
        (t.slot r).strand = a ∧ (t.slot r).key = tr.key ∧ (t.slot r).ts = tr.key.ts ∧
        (t.slot r).inbox = tr.payload ∧ (t.slot r).wsp = (s.strand a).wsp ∧ (t.strand a).st = .running ∧
        (t.cluster (clusterOf r.core)).ready = [] ∧ (∀ q, slotKey q ≠ slotKey r → t.slot q = s.slot q)) ∧
    (∀ cl k w cores, (s.cluster cl).waitTeams[k]? = some w → placeOk s cl k w.team cores = true →
      ∃ t, exec (.teamPlacement cl k cores) s = .next t ∧ (t.getTeam w.team).running = true ∧
        (t.getTeam w.team).slots.map (·.core) = cores ∧
        (∀ q ∈ (t.getTeam w.team).slots, (t.slot q).st = .filling ∧ (t.slot q).act = .starting) ∧
        ∀ c, ((t.cluster c).waitTeams.any fun x => x.team == w.team) = false) ∧
    (∀ cl w, (s.cluster cl).drain = none → oldestTeam (s.cluster cl).waitTeams = some w →
      horizon s cl < s.now - w.at_ →
      ∃ t, exec (.placementHorizonExpiry cl) s = .next t ∧ (t.cluster cl).drain = some w.team ∧
        (t.cluster cl).waitTeams = (s.cluster cl).waitTeams ∧ (∀ c, c ≠ cl → t.cluster c = s.cluster c) ∧
        (∀ q, t.slot q = s.slot q) ∧ ∀ y, t.byte y = s.byte y) ∧
    (∀ cl k, (s.cluster cl).drain = some k →
      (((s.cluster cl).waitTeams.any fun w => w.team == k) = false →
        ∃ t, exec (.drainEnd cl) s = .next t ∧ (t.cluster cl).drain = none ∧
          (t.cluster cl).waitTeams = (s.cluster cl).waitTeams ∧ (∀ q, t.slot q = s.slot q) ∧
          ∀ y, t.byte y = s.byte y) ∧
      (((s.cluster cl).waitTeams.any fun w => w.team == k) = true → atBoundary s cl = true →
        teamFits s cl k = false →
        (1 < waitsIn s k →
          ∃ t, exec (.drainEnd cl) s = .next t ∧ (t.cluster cl).drain = none ∧
            (t.cluster cl).waitTeams = (s.cluster cl).waitTeams.filter (fun x => x.team != k) ∧
            (∀ q, t.slot q = s.slot q) ∧ ∀ y, t.byte y = s.byte y) ∧
        (waitsIn s k ≤ 1 →
          ∃ t, exec (.drainEnd cl) s = .next t ∧
            t.fw.getLast? = some ⟨0, 0, .launchFault (s.dom (s.getTeam k).domain.toNat).lid⟩))) ∧
    (Publishes s r → (s.slot r).st = .closing →
      ∃ t, exec (.commit r) s = .next t ∧
        (t.dom (s.slot r).domain.toNat).holder = none ∧
        (t.dom (s.slot r).domain.toNat).lastKey = some (s.slot r).key ∧
        ((s.slot r).outg ≠ [] →
          (∀ y, t.byte y = bufAfter (s.slot r).buf y (s.byte y)) ∧ (t.slot r).act = .committed ∧
          (t.slot r).phase = 2 ∧ (t.slot r).buf = [] ∧ (t.slot r).outg = (s.slot r).outg) ∧
        ((s.slot r).outg = [] →
          (t.slot r).st = .free ∧ (t.slot r).act = .none ∧
          (t.strand (s.slot r).strand).st =
            if domCancelled s (s.slot r).domain = true then .done else termSt (s.slot r).term)) ∧
    (∀ i d0 d1 d3 payload rest, (s.slot r).team = none → (s.slot r).phase = 2 →
      (s.slot r).outg = ⟨i, .send d0 d1 d3 payload⟩ :: rest → retFull s r.core = false →
      ∃ t, exec (.commitEntryIssue r) s = .next t ∧ t.net = s.net ++ [.msg (sentMsg s r i d0 d1 d3 payload)] ∧
        (∀ q, slotKey q ≠ slotKey r → t.slot q = s.slot q) ∧
        (rest ≠ [] → OnlySlot { s.turn r with net := t.net } (t.turn r) ∧ (t.slot r).outg = rest ∧
          (t.slot r).phase = 2) ∧
        (rest = [] → (t.slot r).st = .free ∧ (t.slot r).act = .none)) ∧
    (Publishes s r → (s.slot r).st = .stalled → (s.slot r).stall = .commitToken → (s.slot r).act ≠ .irrevocable →
      (s.slot r).outg = [] → vstWaits s r = false →
      ∃ t, exec (.irrevocableDrain r) s = .next t ∧ (t.slot r).act = .irrevocable ∧
        (t.slot r).st = (s.slot r).readySt ∧ (t.slot r).buf = [] ∧ (t.slot r).regs = (s.slot r).regs ∧
        (t.slot r).pc = (s.slot r).pc ∧ (∀ y, t.byte y = bufAfter (s.slot r).buf y (s.byte y)) ∧
        (t.dom (s.slot r).domain.toNat).holder = some (tokenNo s r))

/-- Messages at their NI, in pending queues and in return buffers (R99, R239 to R244), and landings (R247 to R249). -/
def Obligations.MessageEvents : Prop :=
  ∀ (s : State) (k core : Nat) (p : Packet),
    (∀ r i b, Reaches s k core p → fenced s core = false → Starts s core p r i b →
      ∃ t, exec (.messageArrival k) s = .next t ∧ Begun s t p r i b ∧ t.net = dropAt s.net k) ∧
    (Reaches s k core p → fenced s core = true →
      ∃ t, exec (.messageArrival k) s = .next t ∧ t.net = dropAt s.net k ++ [.msg (bouncePacket p 4)] ∧
        (∀ q, t.slot q = s.slot q) ∧ ∀ y, t.byte y = s.byte y) ∧
    (Reaches s k core p → fenced s core = false → p.resume = false → bindingNow s core p.chan = none →
      ∃ t, exec (.messageArrival k) s = .next t ∧ (∀ q, t.slot q = s.slot q) ∧ (∀ y, t.byte y = s.byte y) ∧
        ((queuedFor s core p.chan).length < 16 →
          t.net = dropAt s.net k ∧ (t.core core).pendq = (s.core core).pendq ++ [(p.chan, p)]) ∧
        (16 ≤ (queuedFor s core p.chan).length →
          t.net = dropAt s.net k ++ [.msg (bouncePacket p 2)] ∧ (t.core core).pendq = (s.core core).pendq)) ∧
    (∀ ch r i b, core < 5120 → fenced s core = false → swappedOut s core = false → (s.core core).pendq = [(ch.toNat, p)] →
      p.chan = ch.toNat → Starts s core p r i b →
      ∃ t, exec (.pendingQueueRetake core ch) s = .next t ∧ Begun s t p r i b ∧ t.net = s.net ∧
        (t.core core).pendq = []) ∧
    (arriving s k = some p → p.bounced = true →
      (1 ≤ p.reason ∧ p.reason ≤ 3 ∧ p.retry < 32 → retFull s (niOf p.src) = false →
        ∃ t, exec (.bounceReturn k) s = .next t ∧ t.net = dropAt s.net k ∧
          (t.core (niOf p.src)).retbuf =
            (s.core (niOf p.src)).retbuf ++ [{ pkt := p, at_ := s.now, times := p.retry }] ∧
          (∀ q, t.slot q = s.slot q)) ∧
      ((p.reason = 0 ∨ 4 ≤ p.reason ∨ 32 ≤ p.retry) →
        ∃ t, exec (.bounceReturn k) s = .next t ∧ t.net = dropAt s.net k ∧
          t.fw = s.fw ++ [⟨agentDie p.src, 1, .returned p.reason (returnedWords p p.reason)⟩] ∧
          (∀ q, t.slot q = s.slot q))) ∧
    (∀ a id j, s.net[k]? = some (.cmdBack a id) → jobById s id = some j → j.bounces < 32 → retFull s (niOf a) = false →
      ∃ t, exec (.bounceReturn k) s = .next t ∧ t.net = dropAt s.net k ∧
        (t.core (niOf a)).retbuf = (s.core (niOf a)).retbuf ++
          [{ pkt := fullCommand a j, at_ := s.now, times := j.bounces, job := some id }] ∧
        t.jobs = s.jobs ∧ ∀ q, t.slot q = s.slot q) ∧
    (∀ m, (s.core core).retbuf[k]? = some m → m.at_ + 256 * 2 ^ min m.times 8 ≤ s.now → noneReady s = true →
      ∃ t, exec (.bounceResend core k) s = .next t ∧
        t.net = s.net ++ [match m.job with | some id => .cmd m.pkt.src id | none => .msg (resent m.pkt)] ∧
        (t.core core).retbuf = dropAt (s.core core).retbuf k ∧ (∀ q, t.slot q = s.slot q)) ∧
    (∀ (r : SlotRef) since i fs, r.core < 5120 → r.slot < 8 → (s.slot r).st = .stalled →
      (s.slot r).stall = .bounceRoom since → peekInstr (s.turn r) (s.slot r).pc = some (some i) →
      since + 16384 ≤ s.now → retFull s r.core = true → CanTrap (s.turn r) fs →
      ∃ t, exec (.bounceOverflow r) s = .next t ∧ OnlyAt r s t ∧
        t.slot r = (s.slot r).taking (faultOf (s.turn r) i 8 0 0) fs) ∧
    (Lands s k p → p.rmo = true → p.chan = 0 → ownEvent p = true → headerOk p = true → p.xform = 0 →
      1 ≤ p.len → p.d3.toNat % 8 = 0 → p.payload.length = p.len → (p.wantsReply = true → niFull s p.dest = false) →
      (landInside s (agentModCluster p.dest) (landWrites p.d3.toNat (bytesOfWords p.payload)) = false →
        ∃ t, exec (.landArrival k) s = .next t ∧ t.net = dropAt s.net k ++ [.msg (bouncePacket p 8)] ∧
          ∀ y, t.byte y = s.byte y) ∧
      (landInside s (agentModCluster p.dest) (landWrites p.d3.toNat (bytesOfWords p.payload)) = true →
        (∀ j, j < p.len → readersOf s [lineOf (p.d3.toNat + 8 * j)] [] = []) →
        ∃ t, exec (.landArrival k) s = .next t ∧ (∀ q, t.slot q = s.slot q) ∧
          (∀ y, t.byte y = if p.d3.toNat ≤ y ∧ y < p.d3.toNat + 8 * p.len then
              BitVec.ofNat 8 ((p.payload.getD ((y - p.d3.toNat) / 8) 0).toNat / 256 ^ ((y - p.d3.toNat) % 8))
            else s.byte y) ∧
          t.net = dropAt s.net k ++ if p.wantsReply then [.msg (landAnswer p)] else []))

/-- Far atomics at their home and on their way back (R191, R222 to R224, R227, R246). -/
def Obligations.FarAtomicEvents : Prop :=
  ∀ (s : State) (k core : Nat) (p : Packet),
    (∀ h, Lands s k p → p.rmo = true → p.chan = 1 → ownEvent p = true → headerOk p = true → p.moved = false →
      homeSrc? (s.cluster (agentModCluster p.dest)) p.src = some h →
      (p.sidx = h.exp → forwardOf s (atomOf p.payload).pa = none → (atomOf p.payload).trig = none →
        lineAborts s (atomOf p.payload).pa = false → h.exp < 2 ^ 16 →
        readersOf s [lineOf (atomOf p.payload).pa] (requester s p).1 = [] →
        ∃ t busy, exec (.farAtomicRequest k) s = .next t ∧ (∀ q, t.slot q = s.slot q) ∧
          (let a := atomOf p.payload
           let m := s.load a.pa (amoBytes a.w)
           (∀ y, t.byte y = if a.pa ≤ y ∧ y < a.pa + amoBytes a.w then
              BitVec.ofNat 8 (atomNew a m / 256 ^ (y - a.pa)) else s.byte y) ∧
           t.net = dropAt s.net k ++ [.msg (answerTo p 2 (if wantsOld p.payload then
              [BitVec.ofNat 64 m, BitVec.ofNat 64 (m / 2 ^ 64), busy] else [0, 0, busy]))]) ∧
          (homeSrc? (t.cluster (agentModCluster p.dest)) p.src).map (·.exp) = some ((h.exp + 1) % 2 ^ 16)) ∧
      (∀ rep, trigHeld s p = false → 1 ≤ (h.exp + 2 ^ 16 - p.sidx) % 2 ^ 16 → (h.exp + 2 ^ 16 - p.sidx) % 2 ^ 16 ≤ 32 →
        h.replies.find? (fun r => r.1 == p.sidx) = some rep →
        ∃ t, exec (.farAtomicRequest k) s = .next t ∧ (∀ y, t.byte y = s.byte y) ∧ (∀ q, t.slot q = s.slot q) ∧
          t.net = dropAt s.net k ++ [.msg (answerTo p 2 rep.2.2)])) ∧
    (∀ q o, Lands s k p → p.rmo = true → p.chan = 2 → ownEvent p = true →
      headerOk p = true → agentCore? s p.dest = some core → findReq s core p = some q → q.live = true → q.fetch = true →
      (s.slot q.slot).outst.find? (isFar q) = some o → (p.payload.getD 2 0).toNat.testBit 1 = false →
      ∃ t, exec (.farAtomicReply k) s = .next t ∧ t.net = dropAt s.net k ∧
        (∀ r, slotKey r ≠ slotKey q.slot → t.slot r = s.slot r) ∧
        (t.core core).far = (s.core core).far.filter (fun r => !sameReq q r) ∧
        (let m := (p.payload.getD 0 0).toNat + (p.payload.getD 1 0).toNat * 2 ^ 64
         (t.slot q.slot).outst = updFirst (isFar q) (fun o => { o with what := .value (oldValue q.req.w m) (oldHigh m) })
           (s.slot q.slot).outst)) ∧
    (Lands s k p → p.rmo = true → p.chan = 3 → ownEvent p = true → headerOk p = true →
      agentCore? s p.dest = some core →
      (∀ q, (p.payload.getD 0 0).toNat % 16 = 1 →
        ((s.core core).far.find? fun q => q.pkt.dest == p.src) = some q →
        ∃ t, exec (.nackResync k) s = .next t ∧ t.net = dropAt s.net k ++ [.msg (withFirst q.pkt)] ∧
          (∀ r, t.slot r = s.slot r)) ∧
      (∀ q, (p.payload.getD 0 0).toNat % 16 = 2 → findReq s core p = some q →
        ∃ t, exec (.nackMoved k) s = .next t ∧ (∀ r, t.slot r = s.slot r) ∧
          t.net = dropAt s.net k ++
            [.msg (redirected s q.pkt ((p.payload.getD 1 0).toNat / 4096 * 4096 + q.req.pa % 4096))]) ∧
      ((p.payload.getD 0 0).toNat % 16 = 3 →
        ∃ t, exec (.nackBusy k) s = .next t ∧ t.net = dropAt s.net k ∧ t.cores = s.cores ∧ t.slots = s.slots)) ∧
    (∀ home q, ((s.core core).far.filter fun q => q.home == home) = [q] → q.sentAt + 26400 ≤ s.now → q.retry < 8 →
      ∃ t, exec (.farAtomicTimeout core home) s = .next t ∧ t.net = s.net ++ [.msg (retryReq s q).pkt] ∧
        ((t.core core).far.filter fun q => q.home == home) = [retryReq s q] ∧ (∀ r, t.slot r = s.slot r)) ∧
    (∀ cl src, ∃ t, exec (.homeStateReclaim cl src) s = .next t ∧
      (∀ h, h ∈ (t.cluster cl).homes ↔
        h ∈ (s.cluster cl).homes ∧ ¬(h.src = src ∧ h.lastAt + 3300000 ≤ s.now)) ∧
      ∀ c, c ≠ cl → t.cluster c = s.cluster c) ∧
    (∀ cl m, (s.cluster cl).movedReplies[k]? = some m → m.at_ + 3300000 ≤ s.now →
      ∃ t, exec (.movedEntryExpiry cl k) s = .next t ∧ (t.cluster cl).movedReplies = dropAt (s.cluster cl).movedReplies k ∧
        ∀ c, c ≠ cl → t.cluster c = s.cluster c) ∧
    (∀ cl old size new h n l pl, old < 2 ^ 44 → (s.cluster cl).homes = [h] → h.replies = [(n, l, pl)] →
      old ≤ l / 64 → l / 64 < old + framesOf size →
      ∃ t, exec (.replyCacheMigration cl (old + size * 2 ^ 44) new) s = .next t ∧
        (let c := homeCluster ((new + (l / 64 - old)) * 4096 + l * 64 % 4096)
         (t.cluster c).movedReplies = (s.cluster c).movedReplies ++ [⟨h.src, cl, n, pl, s.now⟩]) ∧
        (t.cluster cl).homes.map (fun g => (g.replies, g.movedTo)) = [([], (n, new + (l / 64 - old)) :: h.movedTo)]) ∧
    (∀ die old size new, old < 2 ^ 44 → ((s.die die).forward.filter fun f => f.1 != old).length < 32 →
      ∃ t, exec (.forwardingTableEntry die (old + size * 2 ^ 44) new true) s = .next t ∧
        (old, new, framesOf size) ∈ (t.die die).forward ∧
        (∀ f ∈ (t.die die).forward, f.1 = old → f.2 = (new, framesOf size)) ∧
        ∀ f, f.1 ≠ old → (f ∈ (t.die die).forward ↔ f ∈ (s.die die).forward)) ∧
    (∀ die old size new, old < 2 ^ 44 →
      ∃ t, exec (.forwardingTableEntry die (old + size * 2 ^ 44) new false) s = .next t ∧
        ∀ f, f ∈ (t.die die).forward ↔ f ∈ (s.die die).forward ∧ f.1 ≠ old)

/-- Launches from their record to their completion (R103 to R105, R108, R112 to R120, R126). -/
def Obligations.LaunchEvents : Prop :=
  ∀ (s u : State) (part : Nat) (b : BitVec 512),
    (∀ k d, s.net[k]? = some (.delivery d) → parentGone s d.part d.parent = false → d.reply ≠ 0 →
      niFull s (dispatcher s (agentDie d.src)) = false →
      (d.readable = true → accepted s d.part d.record →
        ∃ t, exec (.launchDelivery k) s = .next t ∧
          t.launches = s.launches ++ [waitingLaunch d.part d.record none none (some d.parent)] ∧
          t.net = dropAt s.net k ++ [.msg (launchAnswer s d (recLid d.record) 1)]) ∧
      (d.readable = false →
        ∃ t, exec (.launchDelivery k) s = .next t ∧ t.launches = s.launches ∧
          t.net = dropAt s.net k ++ [.msg (launchAnswer s d 0 4)])) ∧
    (∀ q h, ((s.getPart part).queues.find? fun x => x.1 == q) = some (q, h) → qState s h = 0 → qHead s h ≠ qTail s h →
      (qTail s h + 2 ^ 64 - qHead s h) % 2 ^ 64 ≤ 2 ^ qLog s h →
      readRecord s part ((qBase s h + 64 * (qHead s h % 2 ^ qLog s h)) % 2 ^ 64) = (u, some b) → accepted u part b →
      readersOf u [lineOf (h + 0x40), lineOf (h + 0x47)] [] = [] →
      ∃ t, exec (.launchQueueTake part q) s = .next t ∧
        t.launches = u.launches ++ [waitingLaunch part b (some q) none none] ∧
        t.load (h + 0x40) 8 = (qHead s h + 1) % 2 ^ 64) ∧
    (∀ lid l core r i, CanStart s part lid l → recKind l.record = 0 → freeSlot s core = some r →
      usableEntry s core = some i → (recClusters l.record).contains (clusterOf core) = true → admits s core = true →
      ∃ t, exec (.launchStart part lid core) s = .next t ∧ (t.slot r).st = .filling ∧ (t.slot r).act = .starting ∧
        (t.slot r).key = ⟨BitVec.ofNat 64 (recTs l.record), 0, 0⟩ ∧ (t.slot r).domain = BitVec.ofNat 32 (nextDomain s) ∧
        (t.slot r).super = false ∧ (t.slot r).strand = poolRecord s (clusterOf r.core) i ∧
        (t.slot r).sid = BitVec.ofNat 40 (recSidbase l.record % 2 ^ 12 * 2 ^ 28 + 1) ∧
        (t.strand (poolRecord s (clusterOf r.core) i)).pc = BitVec.ofNat 64 (recEntry l.record) ∧
        (t.dom (nextDomain s)).live = true ∧ (t.dom (nextDomain s)).ordered = !(recMode l.record).testBit 0 ∧
        (t.dom (nextDomain s)).counter = recTeam l.record ∧ t.domNext = nextDomain s + 1) ∧
    (∀ lid l core, CanStart s part lid l → recKind l.record = 1 →
      ∃ t, exec (.launchStart part lid core) s = .next t ∧ (t.dom (nextDomain s)).live = true ∧
        (t.getTeam s.seqNext).n = recTeam l.record ∧
        (t.getTeam s.seqNext).entry = BitVec.ofNat 64 (recEntry l.record) ∧
        ∀ c ∈ recClusters l.record, ∃ w, w.team = s.seqNext ∧
          (t.cluster c).waitTeams = (s.cluster c).waitTeams ++ [w]) ∧
    (∀ lid l core, CanStart s part lid l → recKind l.record = 2 → niFull s (dispatcher s 0) = false →
      ∃ t j, exec (.launchStart part lid core) s = .next t ∧ t.jobs = s.jobs ++ [j] ∧
        j.cmd = BitVec.ofNat 64 (recEntry l.record) ∧ j.iss.launch = l.lid ∧
        j.agent = clusterAgent s ((recClusters l.record).headD 0) 17 ∧ (t.dom (nextDomain s)).live = true) ∧
    (∀ lid l, findLaunch s part lid = some l → l.st = .live → l.domain ≠ 0 → quiescent s l.domain = true →
      l.cancelled = none → l.faulted = false → recCtaddr l.record = 0 →
      (recCtchan l.record = 0 ∨
        (8 ≤ recCtchan l.record ∧ recCtchan l.record ≤ 63 ∧ niFull s (dispatcher s 0) = false)) →
      ∃ t, exec (.launchCompletion part lid) s = .next t ∧
        t.completed = ((⟨l.part, l.lid, 0, false⟩ : Ended) ::
          s.completed.filter fun c => !(c.part == l.part && c.lid == l.lid)).take 4096 ∧
        t.launches = s.launches.filter (fun x => !(x.part == l.part && x.lid == l.lid)) ∧
        (t.dom l.domain.toNat).live = false ∧
        t.net = s.net ++ if recCtchan l.record = 0 then [] else [.msg (endAnswer s l.record 0)]) ∧
    (∀ e a, Fires s u part e a b →
      ∃ t, exec (.ttFiring part e) s = .next t ∧
        t.launches = u.launches ++ [waitingLaunch part b none (some e) none] ∧
        (ttPeriod u a = 0 → ttEn t a = 0) ∧
        (ttPeriod u a ≠ 0 → ttNext t a =
          (ttNext u a + ((u.timeNs - ttNext u a) / ttPeriod u a + 1) * ttPeriod u a) % 2 ^ 64)) ∧
    (∀ e, ttLive s part e = none → smHas (s.getPart part).held e = true →
      accepted s part (smGet 0 (s.getPart part).held e) →
      ∃ t, exec (.ttHeldLaunch part e) s = .next t ∧ smHas (t.getPart part).held e = false ∧
        t.launches = s.launches ++ [waitingLaunch part (smGet 0 (s.getPart part).held e) none (some e) none])

/-- Jobs of the copy engine and the atomic unit (R206, R255 to R259). -/
def Obligations.JobEvents : Prop :=
  ∀ (s u : State) (cl id k : Nat) (j : Job) (rp wp : List Piece),
    (∀ b, Inbox s k (fun x => x == 17 || x == 18) j → readCard (takeNet s k) j = (u, .ok b) → jobById u j.id = some j →
      ∃ t, exec (.jobCardArrival k) s = .next t ∧ t.net = u.net ∧
        (jobCardOk (engineUnit j.agent) b = true →
          (jobById t j.id).map (fun q => (q.st, q.card)) = some (.read, b)) ∧
        (jobCardOk (engineUnit j.agent) b = false → jobAt t j.id = some (.finished, 5))) ∧
    (∀ a, s.net[k]? = some (.cmd a j.id) → commandAt s k (fun x => x == 17 || x == 18) = some j →
      cmdBehind s k j (cmdSrc s k) = false → 64 ≤ inboxCount s j.agent →
      ∃ t, exec (.jobCardArrival k) s = .next t ∧ t.net = dropAt s.net k ++ [.cmdBack a j.id] ∧ t.jobs = s.jobs ∧
        t.slots = s.slots ∧ t.mem = s.mem) ∧
    (JobRuns s u cl id 0 j rp wp →
      ∃ t, exec (.jobCopy cl id) s = .next t ∧ t.mem = (writePieces u wp (dataOf u rp)).mem ∧
        jobAt t id = some (.finished, 0) ∧ t.slots = u.slots) ∧
    (JobRuns s u cl id 1 j rp wp →
      ∃ t, exec (.jobFill cl id) s = .next t ∧ jobAt t id = some (.finished, 0) ∧ t.slots = u.slots ∧
        t.mem = (writePieces u wp ((natsFrom 0 (wp.foldl (fun n p => n + p.n) 0)).map fun i =>
          BitVec.ofNat 8 (jcParam j.card / 256 ^ (i % 8)))).mem) ∧
    (JobRuns s u cl id 2 j rp wp → niFull u j.agent = false →
      ∃ t, exec (.jobRput cl id) s = .next t ∧ t.mem = u.mem ∧ jobAt t id = some (.finished, 0) ∧
        ((jcRegion j.card 1).rows = 1 → 1 ≤ (jcRegion j.card 1).rowBytes → (jcRegion j.card 1).rowBytes ≤ 256 →
          (dataOf u rp).length = (jcRegion j.card 1).rowBytes →
          t.net = u.net ++ [.msg (rputMsg j ((jcRegion j.card 1).row 0) (dataOf u rp))]) ∧
        t.net = (rputAll u j ((jcRegion j.card 1).rowList.flatMap fun a =>
          landPieces ((jcRegion j.card 1).rowBytes / 256 + 1) a (jcRegion j.card 1).rowBytes) (dataOf u rp)).net) ∧
    (JobRuns s u cl id 3 j rp wp →
      ∃ t, exec (.jobStage cl id) s = .next t ∧ t.mem = u.mem ∧ jobAt t id = some (.finished, 0) ∧
        t.slots = u.slots ∧ t.net = u.net) ∧
    (JobRuns s u cl id 8 j rp wp → wp.any (pieceAborts u) = false →
      ∃ t, exec (.jobAcc cl id) s = .next t ∧ jobAt t id = some (.finished, 0) ∧ t.slots = u.slots ∧
        t.mem = (writePieces u wp (mergedBytes 16 bsiAddBits (dataOf u rp) (dataOf u wp))).mem) ∧
    (JobRuns s u cl id 9 j rp wp → wp.any (pieceAborts u) = false →
      ∃ t, exec (.jobMaxi cl id) s = .next t ∧ jobAt t id = some (.finished, 0) ∧ t.slots = u.slots ∧
        t.mem = (writePieces u wp (mergedBytes 8
          (fun m v => if sxInt m 64 < sxInt v 64 then v else m) (dataOf u rp) (dataOf u wp))).mem) ∧
    (jobById s id = some j → agentModCluster j.agent = cl → engineUnit j.agent ≠ 16 → engineUnit j.agent ≠ 0 →
      j.st = .finished → noneReady s = true →
      (reportWaits s j = false → j.parent = none → (j.status ≠ 0 ∨ jcMm j.card = false) → (launchJob j = false ∨ j.status = 0) →
        ∃ t, exec (.jobCompletion cl id) s = .next t ∧ Reported s t s.net j ∧ ∀ y, t.byte y = s.byte y) ∧
      (j.status = 0 → jcMm j.card = true → niFull s j.agent = false → (jcOp j.card = 2 → landsLeft s j = false) →
        ∃ t c, exec (.jobCompletion cl id) s = .next t ∧ jobAt t id = some (.running, 0) ∧
          t.jobs.getLast? = some c ∧ c.parent = some j.id ∧ c.card = jcMmBlock j.card ∧
          t.net = s.net ++ [.cmd j.agent c.id])) ∧
    (∀ (p : Piece) bs y, p.n = bs.length →
      (writePieces s [p] bs).byte y = if p.pa ≤ y ∧ y < p.pa + p.n then bs.getD (y - p.pa) 0 else s.byte y)

/-- The matrix array (R326 to R328, R333, R336, R340 to R343, R347, R348). -/
def Obligations.MatrixEvents : Prop :=
  ∀ (s u : State) (cl part k : Nat) (j : Job) (rp wp : List Piece),
    (Inbox s k (fun x => x == 16) j →
      (∀ b, j.parent = none → (j.captured.length < 9 ∨ j.captured.getD 4 0 ≠ 0x7B) →
        readBlock (queuedAt s k j) j 64 = (u, .ok b) → jobById u j.id = some j →
        ∃ t, exec (.matrixCommandArrival k) s = .next t ∧
          (jobById t j.id).map (fun q => (q.st, q.card)) = some (.read, capturedBlock j.captured b)) ∧
      (j.parent ≠ none →
        ∃ t, exec (.matrixCommandArrival k) s = .next t ∧ t.net = dropAt s.net k ∧
          (jobById t j.id).map (fun q => (q.st, q.card)) = some (.read, j.card))) ∧
    (MatrixRuns s u 0x78 cl part j rp wp →
      ∃ t, exec (.maMm cl part) s = .next t ∧ jobAt t j.id = some (.running, 0) ∧ t.mem = u.mem ∧
        tileOf t cl (mcAcc j.card) = accTile (mcM j.card) (mcN j.card) (mcK j.card) (mmA j.card (dataOf u rp))
          (mmB j.card (dataOf u rp)) (startTile u cl j.card)) ∧
    (MatrixRuns s u 0x79 cl part j rp wp →
      groupsOk (spnCount (mcSpn j.card)) (mcFa j.card) (mcK j.card) (mcM j.card) (dataOf u rp) = true →
      ∃ t, exec (.maMms cl part) s = .next t ∧ jobAt t j.id = some (.running, 0) ∧ t.mem = u.mem ∧
        tileOf t cl (mcAcc j.card) = accTile (mcM j.card) (mcN j.card) (mcK j.card)
          (sparseElem (spnCount (mcSpn j.card)) (mcFa j.card) (mcK j.card) (mcBa j.card) (dataOf u rp))
          (panelElem (mcN j.card) (mcFb j.card) (mcK j.card) (mcBb j.card) (behindA j.card (dataOf u rp) 1))
          (startTile u cl j.card)) ∧
    (MatrixRuns s u 0x7A cl part j rp wp → xmxOk (mcK j.card) (mcM j.card + mcN j.card) (dataOf u rp) = true →
      ∃ t, exec (.maMmx cl part) s = .next t ∧ jobAt t j.id = some (.running, 0) ∧ t.mem = u.mem ∧
        tileOf t cl (mcAcc j.card) = accTile (mcM j.card) (mcN j.card) (mcK j.card)
          (xmxElem (mcK j.card) (mcBa j.card) (dataOf u rp))
          (xmxElem (mcK j.card) (mcBb j.card) (behindA j.card (dataOf u rp) 1)) (startTile u cl j.card)) ∧
    (MatrixRuns s u 0x7B cl part j rp wp →
      ∃ t, exec (.maMzero cl part) s = .next t ∧ jobAt t j.id = some (.running, 0) ∧ t.mem = u.mem ∧
        (tileOf t cl (mcAcc j.card)).e = BitVec.ofInt 16 (mcFl j.card) ∧
        (tileOf t cl (mcAcc j.card)).valid = true ∧
        ∀ x, (tileOf t cl (mcAcc j.card)).int x = 0 ∧ (tileOf t cl (mcAcc j.card)).cls x = 0) ∧
    (MatrixRuns s u 0x7C cl part j rp wp →
      ∃ t, exec (.maMread cl part) s = .next t ∧ jobAt t j.id = some (.running, 0) ∧
        t.mem = (writePieces u wp ((readRows j (tileOf u cl (mcAcc j.card))).flatMap id)).mem ∧
        (tileOf t cl (mcAcc j.card)).e = (tileOf u cl (mcAcc j.card)).e ∧
        (mcClr j.card = false → tileOf t cl (mcAcc j.card) = tileOf u cl (mcAcc j.card)) ∧
        (mcClr j.card = true →
          ∀ x, (tileOf t cl (mcAcc j.card)).int x = 0 ∧ (tileOf t cl (mcAcc j.card)).cls x = 0)) ∧
    (MatrixRuns s u 0x7D cl part j rp wp →
      ∃ t, exec (.maMstw cl part) s = .next t ∧ jobAt t j.id = some (.running, 0) ∧
        t.mem = (writePieces u wp ((pairedRows j (dataOf u rp)).flatMap id)).mem) ∧
    (maHead s cl part = some j → j.st = .running → j.parent = none → noneReady s = true → launchJob j = false →
      reportWaits s j = false →
      ∃ t, exec (.matrixCommandCompletion cl part) s = .next t ∧ Reported s t s.net j ∧
        ∀ y, t.byte y = s.byte y) ∧
    (∃ t, exec (.maSlotBoundary cl) s = .next t ∧ (∀ q, t.slot q = s.slot q) ∧ (∀ c, c ≠ cl → t.cluster c = s.cluster c) ∧
      ((s.cluster cl).maSlot = s.now / 1024 % 16 → (t.cluster cl).maSlot = (s.cluster cl).maSlot) ∧
      ((s.cluster cl).maSlot ≠ s.now / 1024 % 16 → (t.cluster cl).maSlot = ((s.cluster cl).maSlot + 1) % 16))

/-- Collectives (R351 to R357). -/
def Obligations.CollectiveEvents : Prop :=
  ∀ (s u w : State) (k die g : Nat) (j : Job) (c : Contrib),
    (∀ b q rp wp, Inbox s k (fun x => x == 0) j → niFull s j.agent = false → readBlock (takeNet s k) j 64 = (u, .ok b) →
      jobById (readyColl u j b) j.id = some q →
      collCheck (tookBlock u j b) (agentDie j.agent) { j with card := b } (collOp j) = none →
      ((readyColl u j b).jobs.filter fun x => engineUnit x.agent == 0 && x.st == .ready) = [q] →
      jobFree (readyColl u j b) q = true → startPieces (readyColl u j b) q q.rd q.wr notDevice = (w, .go rp wp) →
      jobById w j.id = some q → rp.any (pieceAborts w) = false →
      ∃ t, exec (.collCommandArrival k) s = .next t ∧ jobAt t j.id = some (.running, q.status) ∧
        t.net = w.net ++ [.contrib (gcoord w (agentDie q.agent) (cdGid q.card)).toNat
          (contribOf q (some (dataOf w rp)))] ∧
        (t.die (agentDie q.agent)).leaf = (w.die (agentDie q.agent)).leaf ++ [contribOf q (some (dataOf w rp))]) ∧
    (OpensInst s k die c →
      (instDone s die (firstInst s die c) = false →
        ∃ t, exec (.collContribution k) s = .next t ∧ t.net = dropAt s.net k ∧
          (t.die die).insts = (s.die die).insts ++ [firstInst s die c]) ∧
      (instDone s die (firstInst s die c) = true → c.op = 0 → leafHere s c.leaf = false → s.glitches = [] →
        ∃ t n, exec (.collContribution k) s = .next t ∧ t.net = dropAt s.net k ++ [.notice n] ∧
          n.rank = c.rank ∧ n.cseq = c.cseq ∧ n.job = c.job ∧ n.status = 0 ∧
          n.dst = some (resultPieces (firstInst s die c) [c] (decide ([c.rank] ≠ openSetNow s die c.group c.cseq))) ∧
          (t.die die).outcomes.contains (c.group, c.cseq) = true)) ∧
    (∀ n, s.net[k]? = some (.notice n) → cleHere s n.leaf = true → n.status ≠ 4 → n.dst = none → n.outcome = [] →
      ((s.die (agentDie (BitVec.ofNat 32 n.leaf))).leaf.find?
        (noticeFits (s.die (agentDie (BitVec.ofNat 32 n.leaf))).replay n)) = some c →
      jobById s c.job = some j → j.parent = none → launchJob j = false → noneReady s = true → reportWaits s j = false →
      ∃ t, exec (.completionNotice k) s = .next t ∧
        Reported s t (dropAt s.net k) { j with status := n.status, cause := 0, record := [] } ∧
        (t.die (agentDie (BitVec.ofNat 32 n.leaf))).leaf =
          (s.die (agentDie (BitVec.ofNat 32 n.leaf))).leaf.filter fun d => d.job != c.job) ∧
    (∀ cseq i, die < 4 → g < 64 → findInst s die g cseq = some i → gtime s die g ≠ 0 → i.notified = false →
      i.openedAt + 3300 * gtime s die g < s.now →
      ∃ t, exec (.collInstanceTimeout die g cseq) s = .next t ∧ t.fw = s.fw ++ [⟨die, 0, .collTimeout g cseq⟩] ∧
        (∀ q, t.slot q = s.slot q)) ∧
    (∀ v : Word, die < 4 → g < 64 → noneReady s = true →
      (v.toNat % 2 ^ 32 = (ggen s die g + 1) % 2 ^ 32 → ((s.die die).insts.all fun i => i.group != g) = true →
        ((s.die die).pendingCoord.all fun p => p.1 != g) = true →
        ∃ t, exec (.ggenWrite die g v) s = .next t ∧ ggen t die g = v.toNat % 2 ^ 32 ∧
          bitmapOf t die g = s.load (gmapAddr s die g) ((groupNrank s die g + 7) / 8) % 2 ^ groupNrank s die g) ∧
      (v.toNat % 2 ^ 32 ≠ (ggen s die g + 1) % 2 ^ 32 →
        ∃ t, exec (.ggenWrite die g v) s = .next t ∧ ggen t die g = ggen s die g ∧
          bitmapOf t die g = bitmapOf s die g))

/-- The link layer: packets leave for other modules, flits arrive, and instances replay, degrade and retrain (R264 to
R269, R365). -/
def Obligations.LinkEvents : Prop :=
  ∀ (s : State) (die inst k : Nat) (p : Packet) (f : BitVec 512),
    (∀ m, Departs s k m p →
      (∀ i, s.down.contains m = false → s.routed.contains m = true → gletosInst s p = some i →
        ∃ t, exec (.gletosPacketSend k) s = .next t ∧ t.net = dropAt s.net k ∧ (∀ q, t.slot q = s.slot q) ∧
          t.link (edgeDie s p) i = linkEnqueue s.now (s.link (edgeDie s p) i) p ∧
          (crumbOn s = true → s.crumbBroken = false → crumbFull s (crumbSize p) = false →
            t.crumbs = s.crumbs ++ [crumbOf s p false])) ∧
      (s.down.contains m = true → crumbOn s = true → s.crumbBroken = false → crumbFull s (crumbSize p) = false →
        ∃ t, exec (.gletosPacketSend k) s = .next t ∧ t.net = dropAt s.net k ∧ (∀ q, t.slot q = s.slot q) ∧
          t.crumbs = s.crumbs ++ [crumbOf s p true] ∧ t.links = s.links)) ∧
    (Receives s die inst f → flSeq f = (s.link die inst).expSeq →
      (∀ q, flType f = 4 → packetOf (flData f) = some q →
        ∃ t, exec (.linkDataFlit die inst f) s = .next t ∧ KeepsLinks die inst s t ∧
          t.net = s.net ++ [.msg { q with at_ := some die }] ∧
          (t.link die inst).expSeq = (s.link die inst).expSeq + 1) ∧
      (flType f = 1 →
        ∃ t, exec (.linkDataFlit die inst f) s = .next t ∧ KeepsLinks die inst s t ∧ t.net = s.net ∧
          partialOf (t.link die inst) (flVn f) = flData f ∧
          (t.link die inst).expSeq = (s.link die inst).expSeq + 1) ∧
      (∀ q, flType f = 3 → packetOf (partialOf (s.link die inst) (flVn f) ++ flData f) = some q →
        ∃ t, exec (.linkDataFlit die inst f) s = .next t ∧ KeepsLinks die inst s t ∧
          t.net = s.net ++ [.msg { q with at_ := some die }])) ∧
    (die < 4 → inst < 16 → (s.link die inst).up = true → flGood f = false → lthr s die inst = 0 →
      ∃ t, exec (.linkDataFlit die inst f) s = .next t ∧ KeepsLinks die inst s t ∧ t.net = s.net ∧
        lerr t die inst = (lerr s die inst + 1) % 2 ^ 32 ∧ (t.link die inst).nackSent = true ∧
        (t.link die inst).expSeq = (s.link die inst).expSeq ∧
        (t.link die inst).wire = (s.link die inst).wire ++
          if (s.link die inst).nackSent then [] else [ctlFlit (s.link die inst) 6 (s.link die inst).expSeq]) ∧
    (Receives s die inst f → flType f = 5 → (s.link die inst).queued = [] →
      ∃ t, exec (.linkIdleFlit die inst f) s = .next t ∧ KeepsLinks die inst s t ∧ t.net = s.net ∧
        (t.link die inst).replay = ackDrop (flAck f) (s.link die inst).replay ∧
        (t.link die inst).stopped = flStop f ∧ (t.link die inst).wire = (s.link die inst).wire) ∧
    (Receives s die inst f → flType f = 6 → (s.link die inst).queued = [] → (s.link die inst).dstate = .none →
      ∃ t, exec (.linkNackFlit die inst f) s = .next t ∧ KeepsLinks die inst s t ∧ t.net = s.net ∧
        (t.link die inst).replay = ackDrop (flAck f) (s.link die inst).replay ∧
        (t.link die inst).wire = (s.link die inst).wire ++ ackDrop (flAck f) (s.link die inst).replay) ∧
    (die < 4 → inst < 16 → (s.link die inst).sends = true → (s.link die inst).replay ≠ [] →
      (s.link die inst).lastProgress + 6600 ≤ s.now →
      ∃ t, exec (.linkReplayTimeout die inst) s = .next t ∧ KeepsLinks die inst s t ∧ t.net = s.net ∧
        (t.link die inst).wire = (s.link die inst).wire ++ (s.link die inst).replay ∧
        (t.link die inst).replay = (s.link die inst).replay) ∧
    (Receives s die inst f → flType f = 7 → (s.link die inst).queued = [] → (s.link die inst).degraded = false →
      ∃ t, exec (.degradeRequest die inst f) s = .next t ∧ KeepsLinks die inst s t ∧
        (t.link die inst).dstate = .training ∧
        (t.link die inst).wire = (s.link die inst).wire ++ [ctlFlit (s.link die inst) 8 (s.link die inst).nextSeq]) ∧
    (Receives s die inst f → flType f = 8 → (s.link die inst).dstate = .asked →
      ∃ t, exec (.degradeAcknowledge die inst f) s = .next t ∧ KeepsLinks die inst s t ∧
        (t.link die inst).dstate = .training ∧ (t.link die inst).wire = (s.link die inst).wire) ∧
    (∀ lo hi, die < 4 → inst < 16 → (s.link die inst).up = true → (s.link die inst).dstate = .training →
      ∃ t, exec (.retrainComplete die inst lo hi true) s = .next t ∧ KeepsLinks die inst s t ∧
        (t.link die inst).dstate = .none ∧
        (t.link die inst).wire = (s.link die inst).wire ++ (s.link die inst).replay ∧
        ((s.link die inst).toFull = true → (t.link die inst).degraded = false ∧ t.fw = s.fw) ∧
        ((s.link die inst).toFull = false →
          (t.link die inst).degraded = true ∧ (t.link die inst).half = decide (hi < lo) ∧
          t.fw = s.fw ++ [⟨die, 2, .linkDegrade die inst⟩])) ∧
    (die < 4 → inst < 16 → (s.link die inst).windowStart + lwin s die inst * 3300 ≤ s.now →
      ∃ t, exec (.linkWindowExpiry die inst) s = .next t ∧ KeepsLinks die inst s t ∧ lerr t die inst = 0 ∧
        (t.link die inst).windowStart = s.now) ∧
    (die < 4 → inst < 16 → (s.link die inst).sends = true →
      ((s.link die inst).degraded = false →
        ∃ t, exec (.lcmdForceDegrade die inst) s = .next t ∧ KeepsLinks die inst s t ∧
          (t.link die inst).dstate = .asked ∧
          (t.link die inst).wire = (s.link die inst).wire ++
            [ctlFlit (s.link die inst) 7 (s.link die inst).nextSeq]) ∧
      ∃ t, exec (.lcmdRetrain die inst) s = .next t ∧ KeepsLinks die inst s t ∧
        (t.link die inst).dstate = .training ∧ (t.link die inst).toFull = true)

/-- What firmware and the host's mailbox write (R121, R155, R162, R363, R364, R367, R380, R389, R390, R398, R404, R406,
R413 to R418). -/
def Obligations.FirmwareEvents : Prop :=
  ∀ (s : State) (cl die i part q : Nat) (v w : Word),
    (∀ line, holdsDirty (s.cluster cl) line = true →
      (∃ t, exec (.dirtyWriteback cl line false) s = .next t ∧ Keeps s t ∧ t.dev = s.dev ∧
        holdsDirty (t.cluster cl) line = false) ∧
      (i < 16 → (s.devGet (clDev cl 0 (0x100 + 8 * i))).toNat.testBit 63 = false →
        (∀ j, j < i → (s.devGet (clDev cl 0 (0x100 + 8 * j))).toNat.testBit 63 = true) →
        ∃ t, exec (.dirtyWriteback cl line true) s = .next t ∧ Keeps s t ∧
          holdsDirty (t.cluster cl) line = false ∧ t.devGet (clDev cl 0 (0x100 + 8 * i)) =
            BitVec.ofNat 64 (2 ^ 63 + line % 2 ^ 42 * 64))) ∧
    (cl < 320 →
      (∃ t, exec (.cmsplitWrite cl v) s = .next t ∧ Keeps s t ∧ t.dev = s.dev ∧
        (t.cluster cl).pendingSplit =
          if splitOk v.toNat then some (v &&& 0x1F1F1F1F) else (s.cluster cl).pendingSplit) ∧
      ((s.cluster cl).pendingSplit = some w →
        ∃ t, exec (.cmsplitApply cl) s = .next t ∧ (∀ r, t.slot r = s.slot r) ∧ t.devGet (clDev cl 0 0) = w ∧
          (t.cluster cl).pendingSplit = none ∧ (t.cluster cl).cmLines = [] ∧
          ∀ y, t.byte y =
            if scratchBase cl + splitKeeps (s.devGet (clDev cl 0 0)).toNat w.toNat ≤ y ∧ y < scratchBase cl + 2 ^ 22
            then 0 else s.byte y) ∧
      (i < 16 →
        ∃ t, exec (.lostClear cl i) s = .next t ∧ Keeps s t ∧ t.devGet (clDev cl 0 (0x100 + 8 * i)) =
          s.devGet (clDev cl 0 (0x100 + 8 * i)) &&& 0x7FFFFFFFFFFFFFFF)) ∧
    (die < 4 → i < 20 →
      ∃ t, exec (.fenceWrite die i v) s = .next t ∧ Keeps s t ∧ t.devGet (dieDev die 1 (0x800 + 8 * i)) = v ∧
        (∀ j, j < 64 → v.getLsbD j = true → (s.devGet (dieDev die 1 (0x800 + 8 * i))).getLsbD j = false →
          inComposition s (1280 * die + 64 * i + j) = false → (t.core (1280 * die + 64 * i + j)).pendq = [])) ∧
    (∀ r : SlotRef, r.core < 5120 → r.slot < 8 →
      ∃ t, exec (.mc2Clear r) s = .next t ∧ OnlyAt r s t ∧
        (t.slot r).mc2 = (s.slot r).mc2 &&& 0x7FFFFFFFFFFFFFFF ∧
        (t.slot r).st = if (s.slot r).st = .halted then .free else (s.slot r).st) ∧
    (die < 4 → part < 256 →
      ((s.devGet (pswapReg die part)).getLsbD 3 = false →
        ∃ t, exec (.pswapOut die part) s = .next t ∧ Keeps s t ∧ t.devGet (pswapReg die part) = 5 ∧
          ∀ c ∈ partClusters s die part, (t.cluster c).noAdmit = true) ∧
      ((s.devGet (pswapReg die part)).getLsbD 3 = false →
        ∃ t, exec (.pswapIn die part) s = .next t ∧ Keeps s t ∧ t.clusters = s.clusters ∧
          t.devGet (pswapReg die part) = ((s.devGet (pswapReg die part) &&& 0xC) ||| 2)) ∧
      ((s.devGet (pswapReg die part)).getLsbD 2 = true →
        ((partClusters s die part).all fun c => atBoundary s c && decide ((s.cluster c).shadow.length < 2)) = true →
        ∃ t, exec (.swapContextMove die part) s = .next t ∧ Keeps s t ∧
          t.devGet (pswapReg die part) = ((s.devGet (pswapReg die part) &&& 3) ||| 8) ∧
          ∀ c ∈ partClusters s die part, ∃ sh, (t.cluster c).shadow = (s.cluster c).shadow ++ [sh] ∧ sh.part = part ∧
            sh.ready = (s.cluster c).ready ∧ (t.cluster c).ready = [] ∧
            ∀ x ∈ coresOf c, smGet [] sh.handlers x = (s.core x).handlers ∧ (t.core x).handlers = []) ∧
      ((s.devGet (pswapReg die part)).getLsbD 3 = true →
        ∃ t, exec (.pswapIn die part) s = .next t ∧ Keeps s t ∧ t.devGet (pswapReg die part) = 2 ∧
          ∀ c ∈ clustersOfDie die, ∀ sh, (s.cluster c).shadow.find? (fun h => h.part == part) = some sh →
            (t.cluster c).part = BitVec.ofNat 8 part ∧ (t.cluster c).noAdmit = false ∧
            (t.cluster c).ready = sh.ready ∧ ∀ x ∈ coresOf c, (t.core x).handlers = smGet [] sh.handlers x)) ∧
    (∀ core, core < 5120 →
      ∃ t, exec (.trcctlWrite core v) s = .next t ∧ Keeps s t ∧
        (∀ n, n ≠ 24 → (t.core core).trcctl.getLsbD n =
          (v.getLsbD n && decide (n < 12 ∨ (16 ≤ n ∧ n < 20) ∨ (32 ≤ n ∧ n < 42)))) ∧
        ((t.core core).trcctl.getLsbD 24 = true →
          (s.core core).trcctl.getLsbD 24 = true ∧ (v.getLsbD 0 = true → (s.core core).trcctl.getLsbD 0 = true))) ∧
    (∀ o, die < 4 → o < 0x800 →
      ∃ t, exec (.deviceRegisterWrite die (BitVec.ofNat 29 (127 * 2 ^ 22 + 2 ^ 16 + o)) v) s = .next t ∧ Keeps s t ∧
        t.devGet (dieDev die 1 o) = v &&& 0xF1) ∧
    (∀ h, QueueIdle s part q h →
      (∃ t, exec (.teardown part q) s = .next t ∧ (∀ r, t.slot r = s.slot r) ∧ t.mailbox.hmstat = 2 ∧
        ∀ y, t.byte y = if y = h + 0x51 then 2 else s.byte y) ∧
      ∃ t, exec (.reset part q) s = .next t ∧ (∀ r, t.slot r = s.slot r) ∧ t.mailbox.hmstat = 2 ∧
        t.byte (h + 0x51) = 0 ∧ qHead t h = qTail s h ∧ qTail t h = qTail s h) ∧
    (MailboxTakes s part q →
      (∀ h, regqCheck s part q v = .ok h →
        ∃ t, exec (.regq part q v) s = .next t ∧ Keeps s t ∧ t.mailbox.hmstat = 2 ∧
          (t.getPart part).queues = (s.getPart part).queues ++ [(q, h)]) ∧
      (∀ n, regqCheck s part q v = .error n →
        ∃ t, exec (.regq part q v) s = .next t ∧ Keeps s t ∧ t.parts = s.parts ∧
          t.mailbox.hmstat = BitVec.ofNat 64 (3 + 256 * n))) ∧
    (hostUp s = true →
      (s.glaze = .idle →
        ∃ t, exec (.glaze v w) s = .next t ∧ Keeps s t ∧ t.glaze = .holding ∧ t.glazeG = v ∧
          t.glazeEpoch = w.toNat % 2 ^ 32 ∧ t.fw = s.fw ++ [⟨0, 0, .glaze v w⟩] ∧ t.mailbox.hmstat = 2) ∧
      (∃ t, exec (.timesync v w) s = .next t ∧ Keeps s t ∧ t.mailbox.hmstat = 2 ∧ t.time.synced = true ∧
        t.time.rate = max (-500000) (min 500000 w.toInt) ∧
        (s.time.synced = false ∧ 10000000 < v.toInt →
          t.time.units = s.time.units + v.toNat * 33000000000 ∧ t.time.slew = 0) ∧
        (s.time.synced = true ∨ v.toInt ≤ 10000000 →
          t.time.units = s.time.units ∧ t.time.slew = v.toInt * 33000000000)) ∧
      (∀ c p n : BitVec 8, refusedCommand s c.toNat p.toNat (n.toNat % 16) = true →
        ∃ t, exec (.hmcmdRefused c p n) s = .next t ∧ Keeps s t ∧ t.mailbox.hmstat = 0x103)) ∧
    (s.glaze = .holding → workBelow s s.glazeG.toNat = false →
      ∃ t, exec .glazeSave s = .next t ∧ Keeps s t ∧ t.glaze = .writing ∧
        smHas t.images (imageSlot s) = true ∧ bytesLE t.safe (imageBase (imageSlot s)) 4 = 0x5A414C47 ∧
        bytesLE t.safe (imageBase (imageSlot s) + 6) 2 = 0) ∧
    (s.glaze = .writing → s.modNo < 2 ^ 32 → s.glazeEpoch < 2 ^ 32 →
      (∀ k, k / 2 = s.modNo → slotComplete s k s.modNo = true → slotEpoch s k < s.glazeEpoch) →
      ∃ t, exec .glazeImageComplete s = .next t ∧ Keeps s t ∧ t.glaze = .idle ∧ t.epoch = s.glazeEpoch ∧ t.receipts = [] ∧
        bytesLE t.safe (imageBase (imageSlot s) + 6) 2 = 1 ∧
        ((∀ m ∈ s.routed, m ≠ s.modNo → imageThere s m s.glazeEpoch = true) →
          ∀ c, c ∈ t.crumbs ↔ c ∈ s.crumbs ∧ s.glazeEpoch ≤ c.epoch) ∧
        (∀ m ∈ s.routed, m ≠ s.modNo → imageThere s m s.glazeEpoch = false → t.crumbs = s.crumbs)) ∧
    (s.glaze = .idle →
      ∃ t, exec .glazeImageComplete s = .next t ∧ Keeps s t ∧ t.glaze = .idle ∧
        (epochComplete s s.epoch = true → ∀ c, c ∈ t.crumbs ↔ c ∈ s.crumbs ∧ s.epoch ≤ c.epoch) ∧
        (epochComplete s s.epoch = false → t = s)) ∧
    (∃ t, exec (.heartbeatMiss part) s = .next t ∧ Keeps s t ∧ t.fw = s.fw ++ [⟨0, 0, .moduleFailed part⟩])

/-- The host port, boot, identity, protection and the spare (R153, R161 to R163, R210, R364, R367 to R370, R411, R412,
R419 to R423). -/
def Obligations.ModuleEvents : Prop :=
  ∀ (s : State) (o n m slot die : Nat),
    (hostUp s = true → o < 768 * 2 ^ 30 →
      (∃ t, exec (.hostMemRead o) s = .next t ∧ Keeps s t ∧
        (s.bad.contains (hdmPa o / 64) = true →
          t.fw = s.fw ++ [⟨hdmPa o / 2 ^ 46, 2, .memoryAbort (hdmPa o / 64)⟩])) ∧
      (∀ v, o % 64 + n ≤ 64 →
        ∃ t, exec (.hostMemWrite o n v) s = .next t ∧ (∀ q, t.slot q = s.slot q) ∧
          ∀ y, t.byte y = if hdmPa o ≤ y ∧ y < hdmPa o + n then BitVec.ofNat 8 (v.toNat / 256 ^ (y - hdmPa o))
            else s.byte y)) ∧
    (∀ line, kindOf (64 * line) = .host →
      ∃ t, exec (.cxlCacheSnoop line) s = .next t ∧ Keeps s t ∧
        (∀ c, c ≠ 5120 → (t.core c).l1d = (s.core c).l1d.filter (fun x => x.line != line)) ∧
        ∀ c, (t.cluster c).rdcLines = dropLine (s.cluster c).rdcLines line) ∧
    (s.flash.minVersion ≤ s.flash.fwVersion →
      (∃ t, exec (.coldReset true true) s = .next t ∧ t.bootStep = 6 ∧ t.recovery = false ∧
        (∀ q, t.slot q = Slot.reset) ∧ (∀ y, t.byte y = 0) ∧ t.flash = s.flash) ∧
      (∃ t, exec (.hotReset true true) s = .next t ∧ t.bootStep = 6 ∧ t.recovery = false ∧
        (∀ q, t.slot q = Slot.reset) ∧ (∀ y, t.byte y = 0) ∧ t.flash = s.flash) ∧
      (∃ t, exec (.coldReset true false) s = .next t ∧ t.bootStep = 2 ∧ t.recovery = true)) ∧
    (∃ t, exec (.coldReset false true) s = .next t ∧ t.bootStep = 1 ∧ t.recovery = true) ∧
    (s.recovery = true →
      ∃ t, exec (.recoveryImage true true) s = .next t ∧ t.bootStep = 6 ∧ t.recovery = false ∧
        t.flash.minVersion ≤ t.flash.fwVersion) ∧
    ((∃ t, exec .getVersion s = .next t ∧ Keeps s t ∧ t.doe = s.doe ++ [.getVersion]) ∧
      (∃ t, exec .getCapabilities s = .next t ∧ Keeps s t ∧ t.doe = s.doe ++ [.getCapabilities]) ∧
      (∃ t, exec .negotiateAlgorithms s = .next t ∧ Keeps s t ∧ t.doe = s.doe ++ [.negotiateAlgorithms]) ∧
      (∃ t, exec .getDigests s = .next t ∧ Keeps s t ∧ t.doe = s.doe ++ [.getDigests]) ∧
      (∃ t, exec .getCertificate s = .next t ∧ Keeps s t ∧ t.doe = s.doe ++ [.getCertificate]) ∧
      (∀ x, ∃ t, exec (.challenge x) s = .next t ∧ Keeps s t ∧ t.doe = s.doe ++ [.challenge x]) ∧
      (∃ t, exec .getMeasurements s = .next t ∧ Keeps s t ∧ t.doe = s.doe ++ [.getMeasurements]) ∧
      ∃ t, exec .cdatRequest s = .next t ∧ Keeps s t ∧ t.doe = s.doe ++ [.cdat]) ∧
    (die < 4 →
      (∃ t, exec (.thermalThrottle die) s = .next t ∧ Keeps s t ∧ (t.die die).halfClock = true) ∧
      (∃ t, exec (.throttleClear die) s = .next t ∧ Keeps s t ∧ (t.die die).halfClock = false) ∧
      ∃ t, exec (.rebuild die slot) s = .next t ∧ Keeps s t ∧
        (∀ x, x ∈ (t.die die).lostStacks ↔ x ∈ (s.die die).lostStacks ∧ x ≠ slot) ∧
        ∀ x, x ∈ (t.die die).badUnits ↔ x ∈ (s.die die).badUnits ∧ x % 4 ≠ slot) ∧
    (∃ t, exec .thermalTrip s = .next t ∧ Keeps s t ∧ t.tripped = true ∧ t.fw = s.fw ++ [⟨0, 2, .thermalTrip⟩] ∧
      ∀ d i, d < 4 → 8 ≤ i → i < 16 → (t.link d i).up = false) ∧
    (m ≠ s.modNo → s.down.contains m = false →
      ∃ t, exec (.moduleDown m) s = .next t ∧ Keeps s t ∧ t.down = s.down ++ [m] ∧
        t.fw = s.fw ++ if s.crumbBroken then [⟨0, 0, .brokenLogFault m⟩] else []) ∧
    (s.down.contains m = false → s.spare = none → imageComplete s slot m = true →
      ∃ t, exec (.spareLoad m slot) s = .next t ∧ Keeps s t ∧ t.modNo = m ∧ t.spare = some ⟨slot, false⟩ ∧
        ∀ d, d < 4 → (t.die d).replay = true) ∧
    (∀ image, s.spare = some ⟨slot, false⟩ → s.images.find? (fun e => e.1 == slot) = some (slot, image) →
      ∃ t, exec .spareLoadComplete s = .next t ∧ t.spare = some ⟨slot, true⟩ ∧ t.mem = image.mem ∧
        t.slots = image.slots ∧ t.dev = image.dev ∧ t.launches = image.launches ∧ t.net = image.net ∧
        ∀ d, d < 4 → (t.die d).replay = true) ∧
    (∀ rest c p i, s.spare = none → s.down = m :: rest → crumbsTo s m false = [c] → c.item = .msg p →
      gletosInst s p = some i →
      ∃ t, exec .spareLoadComplete s = .next t ∧ Keeps s t ∧ t.crumbs = s.crumbs ∧
        t.link (edgeDie s p) i = linkEnqueue s.now (s.link (edgeDie s p) i) p) ∧
    (s.spare = some ⟨slot, true⟩ → inboundLeft s = false →
      ∃ t, exec .replayEnd s = .next t ∧ Keeps s t ∧ t.spare = none ∧ (∀ d, d < 4 → (t.die d).replay = false) ∧
        ∀ c, (t.core c).farNext = []) ∧
    (∀ rest, s.spare = none → s.down = m :: rest → streamLeft s = false →
      ∃ t, exec .replayEnd s = .next t ∧ Keeps s t ∧ t.down.contains m = false ∧ t.routed.contains m = true ∧
        t.net = s.net ++ (crumbsTo s m true).map (fun c => c.item))

/-- Worked values of the manual: heads with their tails and the instructions that they stand for (02, 03, 05; R66), the
CRC-32 of nine characters (R266), and the Fondant words of a test key with the generator's states (R291). -/
def Obligations.WorkedExamples : Prop :=
  (decode ⟨0x6541, 0x000080000000⟩ = .ok (.liImm48 false 1 0x80000000) ∧
    decode ⟨0x2542, 0xFFFD⟩ = .ok (.liImm16 false 2 (-3)) ∧
    decode ⟨0x2403, 0x0420⟩ = .ok (.alu false .add 3 1 2) ∧
    decode ⟨0x2405, 0x0C44⟩ = .ok (.alu false .xor 5 3 4) ∧
    decode ⟨0x4085, 0x12000040⟩ = .ok (.bcc false .ltu 5 4 2 0) ∧
    decode ⟨0xC040, 0xFFFFFFE0⟩ = .ok (.br true (-1) 0) ∧
    decode ⟨0x2404, 0xE000⟩ = .ok (.alu false .add 4 56 0) ∧
    decode ⟨0x41C1, 0x00000002⟩ = .ok (.loop false 1 0 2) ∧
    decode ⟨0x44C2, 0x0580000C⟩ = .ok (.alui false .sll 2 1 12) ∧
    decode ⟨0x0280, 0⟩ = .ok (.endAct false)) ∧
  crc32 [0x31, 0x32, 0x33, 0x34, 0x35, 0x36, 0x37, 0x38, 0x39] = 0xCBF43926 ∧
  (∀ k0 k3 : FonKey, k0 = ⟨0x08090A0B0C0D0E0F, 0x0001020304050607, 7, 0⟩ → k3 = { k0 with step := 3 } →
    fondant k0 0 = 0x18BF3A4FE237A009D4C384A0D058484E ∧ fonWord k0 0 = 0x484E ∧ fonWord k0 5 = 0xE237 ∧
    fondant k3 2 = 0xF966A812F4DA9DC595B4293F0DB30103 ∧ fonWord k3 17 = 0x0DB3 ∧ fonWord k3 22 = 0xA812) ∧
  fonRounds 1 ⟨0x0C0D0E0F, 0x08090A0B, 0x04050607, 0x9E367BBD⟩ = ⟨0x1416181A, 0x59A2C6FA, 0x67AC9027, 0x63A78A20⟩ ∧
  fonRounds 10 ⟨0x0C0D0E0F, 0x08090A0B, 0x04050607, 0x9E367BBD⟩ = ⟨0xC44B3A3F, 0xCCBA7A95, 0xDE329A02, 0x18BE384C⟩
end

