-- ==== Sys2Proof/Laws/Maps.lean ====
section
/-! SUPPORT. What the operations on sorted tables do: reading back, reading elsewhere, and keeping the canonical form. -/

namespace Sys2Proof.Machine

variable {α : Type}

theorem smGet_smDel_same (d : α) (m : List (Nat × α)) (k : Nat) : smGet d (smDel m k) k = d := by
  induction m with
  | nil => rfl
  | cons p r ih =>
    obtain ⟨j, v⟩ := p
    by_cases h : j = k <;> simp [smDel, smGet, h, ih]

theorem smGet_smDel_other (d : α) (m : List (Nat × α)) (k j : Nat) (h : j ≠ k) :
    smGet d (smDel m k) j = smGet d m j := by
  induction m with
  | nil => rfl
  | cons p r ih =>
    obtain ⟨i, v⟩ := p
    by_cases hi : i = k
    · subst hi; simp [smDel, smGet, Ne.symm h, ih]
    · by_cases hj : i = j <;> simp_all [smDel, smGet]

theorem smHas_smDel (m : List (Nat × α)) (k : Nat) : smHas (smDel m k) k = false := by
  induction m with
  | nil => rfl
  | cons p r ih =>
    obtain ⟨j, v⟩ := p
    by_cases h : j = k <;> simp [smDel, smHas, h, ih]

theorem smGet_smIns (d : α) (m : List (Nat × α)) (k j : Nat) (v : α) (hk : smHas m k = false) :
    smGet d (smIns m k v) j = if k = j then v else smGet d m j := by
  induction m with
  | nil => simp [smIns, smGet]
  | cons p r ih =>
    obtain ⟨i, u⟩ := p
    simp only [smHas, Bool.or_eq_false_iff, beq_eq_false_iff_ne] at hk
    by_cases h : k < i
    · simp only [smIns, h, if_true]; rfl
    · simp only [smIns, h, if_false, smGet, ih hk.2]
      by_cases hj : i = j
      · subst hj; simp [Ne.symm hk.1]
      · simp [hj]

/-- A table of records reads back what was written, and elsewhere what it read before. -/
theorem smGet_rmSet (d : α) (m : List (Nat × α)) (k j : Nat) (v : α) :
    smGet d (rmSet m k v) j = if k = j then v else smGet d m j := by
  rw [rmSet, smGet_smIns _ _ _ _ _ (smHas_smDel m k)]
  by_cases h : k = j
  · simp [h]
  · simp [h, smGet_smDel_other _ _ _ _ (Ne.symm h)]

@[simp] theorem smGet_rmSet_same (d : α) (m : List (Nat × α)) (k : Nat) (v : α) : smGet d (rmSet m k v) k = v := by
  simp [smGet_rmSet]

theorem smDel_eq_self (m : List (Nat × α)) (k : Nat) (h : smHas m k = false) : smDel m k = m := by
  induction m with
  | nil => rfl
  | cons p r ih =>
    obtain ⟨j, v⟩ := p
    simp only [smHas, Bool.or_eq_false_iff, beq_eq_false_iff_ne] at h
    simp only [smDel, h.1, if_false, ih h.2]

theorem smDel_smIns (m : List (Nat × α)) (k : Nat) (v : α) (h : smHas m k = false) : smDel (smIns m k v) k = m := by
  induction m with
  | nil => simp [smIns, smDel]
  | cons p r ih =>
    obtain ⟨j, u⟩ := p
    have hd := smDel_eq_self _ _ h
    simp only [smHas, Bool.or_eq_false_iff, beq_eq_false_iff_ne] at h
    by_cases hk : k < j
    · simp only [smIns, hk, if_true]
      rw [smDel, if_pos rfl, hd]
    · simp only [smIns, hk, if_false, smDel, h.1, ih h.2]

/-- The last write of a key stands. -/
theorem rmSet_rmSet (m : List (Nat × α)) (k : Nat) (v w : α) : rmSet (rmSet m k v) k w = rmSet m k w := by
  rw [rmSet, rmSet, rmSet, smDel_smIns _ _ _ (smHas_smDel m k)]

/-- A scalar table reads back what was written, and elsewhere what it read before. -/
theorem smGet_smSet [DecidableEq α] (d : α) (m : List (Nat × α)) (k j : Nat) (v : α) :
    smGet d (smSet d m k v) j = if k = j then v else smGet d m j := by
  by_cases hv : v = d
  · by_cases h : k = j
    · subst h; simp [smSet, hv, smGet_smDel_same]
    · simp [smSet, hv, h, smGet_smDel_other _ _ _ _ (Ne.symm h)]
  · simp only [smSet, hv, if_false]; exact smGet_rmSet d m k j v

@[simp] theorem smGet_smSet_same [DecidableEq α] (d : α) (m : List (Nat × α)) (k : Nat) (v : α) :
    smGet d (smSet d m k v) k = v := by simp [smGet_smSet]

/-! The canonical form, as a statement about the first key and the rest. -/

/-- Keys above `b`, strictly rising, values not the default. -/
def smAbove [DecidableEq α] (d : α) (b : Nat) : List (Nat × α) → Prop
  | [] => True
  | (j, v) :: r => b ≤ j ∧ v ≠ d ∧ smAbove d (j + 1) r

theorem smAbove_mono [DecidableEq α] {d : α} {b c : Nat} {m : List (Nat × α)} (h : smAbove d c m) (hb : b ≤ c) :
    smAbove d b m := by
  cases m with
  | nil => trivial
  | cons p r => obtain ⟨j, v⟩ := p; exact ⟨Nat.le_trans hb h.1, h.2⟩

theorem smWf_iff [DecidableEq α] (d : α) (m : List (Nat × α)) : smWf d m = true ↔ smAbove d 0 m := by
  have key : ∀ (r : List (Nat × α)) (j : Nat) (v : α) (b : Nat), b ≤ j →
      (smWf d ((j, v) :: r) = true ↔ smAbove d b ((j, v) :: r)) := by
    intro r
    induction r with
    | nil => intro j v b hb; simp [smWf, smAbove, hb]
    | cons p r ih =>
      obtain ⟨k, u⟩ := p
      intro j v b hb
      simp only [smWf, Bool.and_eq_true, decide_eq_true_eq, bne_iff_ne]
      constructor
      · rintro ⟨⟨h1, h2⟩, h3⟩; exact ⟨hb, h2, (ih k u (j + 1) h1).mp h3⟩
      · rintro ⟨-, h2, h3⟩; exact ⟨⟨h3.1, h2⟩, (ih k u (j + 1) h3.1).mpr h3⟩
  cases m with
  | nil => simp [smWf, smAbove]
  | cons p r => obtain ⟨j, v⟩ := p; exact key r j v 0 (Nat.zero_le _)

theorem smAbove_smDel [DecidableEq α] {d : α} {b k : Nat} {m : List (Nat × α)} (h : smAbove d b m) :
    smAbove d b (smDel m k) := by
  induction m generalizing b with
  | nil => trivial
  | cons p r ih =>
    obtain ⟨j, v⟩ := p
    obtain ⟨h1, h2, h3⟩ := h
    by_cases hj : j = k
    · simp only [smDel, hj, if_true]; exact smAbove_mono (ih h3) (Nat.le_succ_of_le h1)
    · simp only [smDel, hj, if_false]; exact ⟨h1, h2, ih h3⟩

theorem smAbove_smIns [DecidableEq α] {d : α} {b k : Nat} {v : α} {m : List (Nat × α)} (h : smAbove d b m) (hk : b ≤ k)
    (hv : v ≠ d) (hn : smHas m k = false) : smAbove d b (smIns m k v) := by
  induction m generalizing b with
  | nil => exact ⟨hk, hv, trivial⟩
  | cons p r ih =>
    obtain ⟨j, u⟩ := p
    obtain ⟨h1, h2, h3⟩ := h
    simp only [smHas, Bool.or_eq_false_iff, beq_eq_false_iff_ne] at hn
    by_cases hj : k < j
    · simp only [smIns, hj, if_true]; exact ⟨hk, hv, hj, h2, h3⟩
    · simp only [smIns, hj, if_false]
      exact ⟨h1, h2, ih h3 (Nat.lt_of_le_of_ne (Nat.not_lt.mp hj) hn.1) hn.2⟩

theorem smAbove_smSet [DecidableEq α] {d : α} {b k : Nat} {v : α} {m : List (Nat × α)} (h : smAbove d b m) (hk : b ≤ k) :
    smAbove d b (smSet d m k v) := by
  by_cases hv : v = d
  · simp only [smSet, hv, if_true]; exact smAbove_smDel h
  · simp only [smSet, hv, if_false]; exact smAbove_smIns (smAbove_smDel h) hk hv (smHas_smDel m k)

/-- Writing a scalar table keeps its canonical form. -/
theorem smWf_smSet [DecidableEq α] {d : α} {m : List (Nat × α)} (h : smWf d m = true) (k : Nat) (v : α) :
    smWf d (smSet d m k v) = true :=
  (smWf_iff d _).mpr (smAbove_smSet ((smWf_iff d m).mp h) (Nat.zero_le k))

theorem smWf_smDel [DecidableEq α] {d : α} {m : List (Nat × α)} (h : smWf d m = true) (k : Nat) :
    smWf d (smDel m k) = true :=
  (smWf_iff d _).mpr (smAbove_smDel ((smWf_iff d m).mp h))

theorem smAbove_filter [DecidableEq α] {d : α} {b : Nat} {m : List (Nat × α)} (p : Nat × α → Bool) (h : smAbove d b m) :
    smAbove d b (m.filter p) := by
  induction m generalizing b with
  | nil => trivial
  | cons q r ih =>
    obtain ⟨j, v⟩ := q
    obtain ⟨h1, h2, h3⟩ := h
    by_cases hp : p (j, v) = true
    · rw [List.filter_cons_of_pos hp]; exact ⟨h1, h2, ih h3⟩
    · rw [List.filter_cons_of_neg hp]; exact smAbove_mono (ih h3) (Nat.le_succ_of_le h1)

/-- Leaving entries out of a scalar table keeps its canonical form. -/
theorem smWf_filter [DecidableEq α] {d : α} {m : List (Nat × α)} (p : Nat × α → Bool) (h : smWf d m = true) :
    smWf d (m.filter p) = true :=
  (smWf_iff d _).mpr (smAbove_filter p ((smWf_iff d m).mp h))

/-- Canonical tables that read alike are the same table. -/
theorem smAbove_ext [DecidableEq α] {d : α} {b : Nat} {m n : List (Nat × α)} (hm : smAbove d b m) (hn : smAbove d b n)
    (h : ∀ k, smGet d m k = smGet d n k) : m = n := by
  have low : ∀ (l : List (Nat × α)) (c k : Nat), smAbove d c l → k < c → smGet d l k = d := by
    intro l
    induction l with
    | nil => intros; rfl
    | cons p r ih =>
      obtain ⟨j, v⟩ := p
      intro c k hl hk
      have hj : j ≠ k := Nat.ne_of_gt (Nat.lt_of_lt_of_le hk hl.1)
      simp only [smGet, hj, if_false]
      exact ih (j + 1) k hl.2.2 (Nat.lt_succ_of_lt (Nat.lt_of_lt_of_le hk hl.1))
  induction m generalizing b n with
  | nil =>
    cases n with
    | nil => rfl
    | cons p r => obtain ⟨j, v⟩ := p; have := h j; simp [smGet] at this; exact absurd this.symm hn.2.1
  | cons p r ih =>
    obtain ⟨j, v⟩ := p
    cases n with
    | nil => have := h j; simp [smGet] at this; exact absurd this hm.2.1
    | cons q t =>
      obtain ⟨k, u⟩ := q
      have hjk : j = k := by
        rcases Nat.lt_trichotomy j k with hlt | heq | hgt
        · have hj := h j
          simp only [smGet, if_true, Nat.ne_of_gt hlt, if_false] at hj
          rw [low t (k + 1) j hn.2.2 (Nat.lt_succ_of_lt hlt)] at hj
          exact absurd hj hm.2.1
        · exact heq
        · have hk := h k
          simp only [smGet, if_true, Nat.ne_of_gt hgt, if_false] at hk
          rw [low r (j + 1) k hm.2.2 (Nat.lt_succ_of_lt hgt)] at hk
          exact absurd hk.symm hn.2.1
      subst hjk
      have hv : v = u := by have := h j; simpa [smGet] using this
      subst hv
      rw [ih hm.2.2 hn.2.2 fun i => ?_]
      by_cases hi : j = i
      · subst hi
        rw [low r (j + 1) j hm.2.2 (Nat.lt_succ_self j), low t (j + 1) j hn.2.2 (Nat.lt_succ_self j)]
      · have := h i; simpa [smGet, hi] using this

end Sys2Proof.Machine
end

