-- ==== Sys2Proof/Laws/Bytes.lean ====
section
/-! SUPPORT. What the operations on memory do: each byte after a store, and the canonical form kept by every one. -/

namespace Sys2Proof.Machine

theorem writeLE_get (m : List Host.Cell) (a n v y : Nat) :
    smGet 0 (writeLE m a n v) y = if a ≤ y ∧ y < a + n then BitVec.ofNat 8 (v / 256 ^ (y - a)) else smGet 0 m y := by
  induction n generalizing m a v with
  | zero => rw [if_neg (by omega)]; rfl
  | succ n ih =>
    rw [writeLE, ih]
    by_cases h : a + 1 ≤ y ∧ y < a + 1 + n
    · rw [if_pos h, if_pos ⟨by omega, by omega⟩, Nat.div_div_eq_div_mul,
        show y - a = (y - (a + 1)) + 1 from by omega, Nat.pow_succ, Nat.mul_comm]
    · rw [if_neg h, smGet_smSet]
      by_cases e : a = y
      · subst e; simp
      · rw [if_neg e, if_neg (by omega)]

theorem writeLE_wf (m : List Host.Cell) (a n v : Nat) (h : Memory.wf m = true) : Memory.wf (writeLE m a n v) = true := by
  induction n generalizing m a v with
  | zero => exact h
  | succ n ih => exact ih _ _ _ (smWf_smSet h a _)

/-- A byte after a store of `n` bytes. -/
theorem byte_storeAt (s : State) (a n v y : Nat) :
    (s.storeAt a n v).byte y = if a ≤ y ∧ y < a + n then BitVec.ofNat 8 (v / 256 ^ (y - a)) else s.byte y :=
  writeLE_get s.mem a n v y

theorem wf_storeAt (s : State) (a n v : Nat) (h : Memory.wf s.mem = true) : Memory.wf (s.storeAt a n v).mem = true :=
  writeLE_wf s.mem a n v h

theorem byte_zeroRange (s : State) (a n y : Nat) :
    (s.zeroRange a n).byte y = if a ≤ y ∧ y < a + n then 0 else s.byte y := by
  have key : ∀ m : List Host.Cell,
      smGet 0 (m.filter fun c => decide (c.1 < a ∨ a + n ≤ c.1)) y = if a ≤ y ∧ y < a + n then 0 else smGet 0 m y := by
    intro m
    induction m with
    | nil => simp [smGet]
    | cons p r ih =>
      obtain ⟨j, v⟩ := p
      by_cases hp : j < a ∨ a + n ≤ j
      · rw [List.filter_cons_of_pos (by simpa using hp)]
        by_cases hj : j = y
        · subst hj; rw [if_neg (by omega)]; simp [smGet]
        · simp only [smGet, hj, if_false, ih]
      · rw [List.filter_cons_of_neg (by simpa using hp), ih]
        by_cases hj : j = y
        · subst hj; rw [if_pos (by omega), if_pos (by omega)]
        · simp only [smGet, hj, if_false]
  exact key s.mem

theorem wf_zeroRange (s : State) (a n : Nat) (h : Memory.wf s.mem = true) : Memory.wf (s.zeroRange a n).mem = true :=
  smWf_filter _ h

/-- A byte after a list of bytes has been stored. -/
theorem byte_storeBytes (s : State) (a : Nat) (bs : List Byte) (y : Nat) :
    (s.storeBytes a bs).byte y = if a ≤ y ∧ y < a + bs.length then bs.getD (y - a) 0 else s.byte y := by
  induction bs generalizing s a with
  | nil => rw [if_neg (by simp only [List.length_nil]; omega)]; rfl
  | cons b r ih =>
    rw [State.storeBytes, ih, byte_storeAt]
    by_cases h : a + 1 ≤ y ∧ y < a + 1 + r.length
    · rw [if_pos h, if_pos ⟨by omega, by simp only [List.length_cons]; omega⟩,
        show y - a = (y - (a + 1)) + 1 from by omega, List.getD_cons_succ]
    · rw [if_neg h]
      by_cases e : y = a
      · subst e; simp
      · rw [if_neg (by omega), if_neg (by simp only [List.length_cons]; omega)]

theorem wf_storeBytes (s : State) (a : Nat) (bs : List Byte) (h : Memory.wf s.mem = true) :
    Memory.wf (s.storeBytes a bs).mem = true := by
  induction bs generalizing s a with
  | nil => exact h
  | cons b r ih => exact ih _ _ (wf_storeAt s a 1 _ h)

/-! Engines and landings. -/

@[simp] theorem mem_devSet (s : State) (a : Nat) (v : Word) : (s.devSet a v).mem = s.mem := rfl
@[simp] theorem mem_setCluster (s : State) (c : Nat) (x : ClusterSt) : (s.setCluster c x).mem = s.mem := rfl
@[simp] theorem mem_setCore (s : State) (c : Nat) (x : CoreSt) : (s.setCore c x).mem = s.mem := rfl
@[simp] theorem mem_setSlot (s : State) (r : SlotRef) (x : Slot) : (s.setSlot r x).mem = s.mem := rfl
@[simp] theorem mem_fwTell (s : State) (d c : Nat) (n : FwNote) : (s.fwTell d c n).mem = s.mem := rfl

theorem foldl_mem {β : Type} (f : State → β → State) (hf : ∀ u b, (f u b).mem = u.mem) (bs : List β) (s : State) :
    (bs.foldl f s).mem = s.mem := by
  induction bs generalizing s with
  | nil => rfl
  | cons b r ih => rw [List.foldl_cons, ih, hf]

@[simp] theorem mem_invalidateOthers (s : State) (k l : Nat) : (invalidateOthers s k l).mem = s.mem := rfl

@[simp] theorem mem_dropCopies (s : State) (pa n : Nat) : (dropCopies s pa n).mem = s.mem :=
  foldl_mem _ (fun u l => mem_invalidateOthers u 5120 l) _ s

@[simp] theorem mem_healLost (s : State) (ps : List (Nat × Nat)) : (healLost s ps).mem = s.mem := by
  unfold healLost
  apply foldl_mem
  intro u p
  rw [apply_ite State.mem]
  apply ite_eq_right_iff.mpr
  intro _
  apply foldl_mem
  intro v i
  simp only []
  rw [apply_ite State.mem, mem_devSet, ite_self]

/-- A byte after an engine, the host or the dispatcher has written a list of bytes. -/
theorem byte_engStore (s : State) (a : Nat) (bs : List Byte) (y : Nat) :
    (engStore s a bs).byte y = if a ≤ y ∧ y < a + bs.length then bs.getD (y - a) 0 else s.byte y := by
  unfold engStore
  cases bs with
  | nil => simp only [List.isEmpty_nil, if_true, List.length_nil]; rw [if_neg (by omega)]
  | cons b r =>
    rw [if_neg (by simp)]
    have h := byte_storeBytes (dropCopies s a (b :: r).length) a (b :: r) y
    simp only [State.byte, mem_dropCopies, mem_healLost] at h ⊢
    exact h

theorem wf_engStore (s : State) (a : Nat) (bs : List Byte) (h : Memory.wf s.mem = true) :
    Memory.wf (engStore s a bs).mem = true := by
  unfold engStore
  split
  · exact h
  · rw [mem_healLost]; exact wf_storeBytes _ _ _ (by rw [mem_dropCopies]; exact h)

theorem wf_writePieces (s : State) (ps : List Piece) (bs : List Byte) (h : Memory.wf s.mem = true) :
    Memory.wf (writePieces s ps bs).mem = true := by
  unfold writePieces writeBlocks
  generalize pieceWrites ps bs = ws
  induction ws generalizing s with
  | nil => exact h
  | cons w r ih => exact ih _ (wf_engStore s _ _ h)

end Sys2Proof.Machine
end

