-- ==== Sys2Proof/Laws/Checks.lean ====
section
/-! SUPPORT. A right result passes its check (R58 to R60): the predicted residues are those of the results, and equal
patterns have equal parities. -/

namespace Sys2Proof.Machine

theorem predAdd_right (a b : Nat) (ha : a < 2 ^ 64) (hb : b < 2 ^ 64) : predAdd 64 a b = res ((a + b) % 2 ^ 64) := by
  simp only [predAdd, resOfInt, res]
  have h : (a + b) / 2 ^ 64 % 2 = (a + b) / 2 ^ 64 := Nat.mod_eq_of_lt (by omega)
  rw [h]
  omega

theorem predAdd32_right (a b : Nat) (ha : a < 2 ^ 32) (hb : b < 2 ^ 32) : predAdd 32 a b = res ((a + b) % 2 ^ 32) := by
  simp only [predAdd, resOfInt, res]
  have h : (a + b) / 2 ^ 32 % 2 = (a + b) / 2 ^ 32 := Nat.mod_eq_of_lt (by omega)
  rw [h]
  omega

theorem predSub_right (a b : Nat) (ha : a < 2 ^ 64) (hb : b < 2 ^ 64) :
    predSub 64 a b = res ((2 ^ 64 + a - b) % 2 ^ 64) := by
  have e : (2 : Nat) ^ 64 % 15 = 1 := rfl
  simp only [predSub, resOfInt, res, e]
  by_cases h : a < b
  · rw [if_pos h, Nat.mod_eq_of_lt (a := 2 ^ 64 + a - b) (by omega)]; omega
  · rw [if_neg h, show (2 ^ 64 + a - b) % 2 ^ 64 = a - b from by omega]; omega

theorem predSub32_right (a b : Nat) (ha : a < 2 ^ 32) (hb : b < 2 ^ 32) :
    predSub 32 a b = res ((2 ^ 32 + a - b) % 2 ^ 32) := by
  have e : (2 : Nat) ^ 32 % 15 = 1 := rfl
  simp only [predSub, resOfInt, res, e]
  by_cases h : a < b
  · rw [if_pos h, Nat.mod_eq_of_lt (a := 2 ^ 32 + a - b) (by omega)]; omega
  · rw [if_neg h, show (2 ^ 32 + a - b) % 2 ^ 32 = a - b from by omega]; omega

theorem predShift_right (x s : Nat) : predShift x s = res (x * 2 ^ s % 2 ^ 64) := by
  have h : res x * 2 ^ s % 15 = x * 2 ^ s % 15 := by simp [res, Nat.mod_mul_mod]
  simp only [predShift, resOfInt, res] at *
  omega

/-- A carry out of bit 63 takes 1 off the residue. -/
theorem carry_res (x : Nat) : (((x % 2 ^ 64 : Nat) : Int)) % 15 = ((x : Int) - ((x / 2 ^ 64 : Nat) : Int)) % 15 := by
  omega

theorem resOfInt_congr (i j : Int) (h : i % 15 = j % 15) : resOfInt i = resOfInt j := by
  simp only [resOfInt, h]

theorem res_eq (x : Nat) : res x = resOfInt x := by simp only [res, resOfInt]; omega

theorem predAgu_right (base index s disp : Nat) :
    predAgu base index s disp = res ((base + index * 2 ^ s % 2 ^ 64 + disp) % 2 ^ 64) := by
  simp only [predAgu, predShift_right]
  generalize index * 2 ^ s % 2 ^ 64 = x
  have h1 := carry_res (base + x)
  have h2 := carry_res ((base + x) % 2 ^ 64 + disp)
  rw [Nat.mod_add_mod] at h2
  rw [res_eq ((base + x + disp) % 2 ^ 64)]
  apply resOfInt_congr
  rw [h2]
  generalize (base + x) / 2 ^ 64 = c1 at *
  generalize ((base + x) % 2 ^ 64 + disp) / 2 ^ 64 = c2 at *
  generalize (base + x) % 2 ^ 64 = y at *
  simp only [res]
  omega

theorem predAdd3_right (base index s d disp : Nat) :
    predAdd3 base index s d disp = res ((base + index * 2 ^ s % 2 ^ 64 + d + disp) % 2 ^ 64) := by
  simp only [predAdd3, predShift_right]
  generalize index * 2 ^ s % 2 ^ 64 = x
  have h1 := carry_res (base + x)
  have h2 := carry_res ((base + x) % 2 ^ 64 + d)
  have h3 := carry_res (((base + x) % 2 ^ 64 + d) % 2 ^ 64 + disp)
  rw [Nat.mod_add_mod, show (base + x) % 2 ^ 64 + d + disp = (base + x) % 2 ^ 64 + (d + disp) from by omega,
    Nat.mod_add_mod, ← Nat.add_assoc] at h3
  rw [res_eq ((base + x + d + disp) % 2 ^ 64)]
  apply resOfInt_congr
  rw [h3]
  generalize (((base + x) % 2 ^ 64 + d) % 2 ^ 64 + disp) / 2 ^ 64 = c3 at *
  generalize ((base + x) % 2 ^ 64 + d) % 2 ^ 64 = z at *
  generalize ((base + x) % 2 ^ 64 + d) / 2 ^ 64 = c2 at *
  generalize (base + x) / 2 ^ 64 = c1 at *
  generalize (base + x) % 2 ^ 64 = y at *
  simp only [res]
  omega

theorem predAguDec_right (base index s disp : Nat) (h : base < 2 ^ 64) :
    predAguDec base index s disp = res ((2 ^ 64 + base - index * 2 ^ s % 2 ^ 64 + disp) % 2 ^ 64) := by
  simp only [predAguDec, predShift_right]
  have hx : index * 2 ^ s % 2 ^ 64 < 2 ^ 64 := Nat.mod_lt _ (by decide)
  generalize index * 2 ^ s % 2 ^ 64 = x at *
  have h2 := carry_res ((2 ^ 64 + base - x) % 2 ^ 64 + disp)
  rw [Nat.mod_add_mod] at h2
  rw [res_eq ((2 ^ 64 + base - x + disp) % 2 ^ 64)]
  apply resOfInt_congr
  rw [h2]
  have h3 : ((((2 ^ 64 + base - x) % 2 ^ 64 : Nat) : Int)) = (base : Int) - x + if base < x then 2 ^ 64 else 0 := by
    split <;> omega
  generalize ((2 ^ 64 + base - x) % 2 ^ 64 + disp) / 2 ^ 64 = c2 at *
  rw [Int.natCast_add, h3]
  simp only [res]
  split <;> omega

/-- A result that is its unit's right one passes a check by parity or by counting twice. -/
theorem checkFails_same (v : Nat) : checkFails .parity v v = none ∧ checkFails .count v v = none := by
  have h : parityMask v v = 0 := by simp [parityMask, natsFrom]
  simp [checkFails, h]

/-- A result whose residue is the predicted one passes. -/
theorem checkFails_residue (p r v : Nat) (h : res v = p) : checkFails (.residue p) r v = none := by
  simp [checkFails, h]

/-- An undisturbed unit hands on what it computed. -/
theorem runUnit_sound (s : State) (core : Nat) (u : UnitOf) (v : Word) (h : s.glitches = []) :
    runUnit s core u v = .ok s v := by simp [runUnit, glitchAt, h]

end Sys2Proof.Machine
end

