-- ==== Sys2Proof/Laws/State.lean ====
section
/-! SUPPORT. State as a record: what each update leaves of each field, and what is read back. -/

namespace Sys2Proof.Machine

/-! `setSlot`. -/

@[simp] theorem setSlot_now (s : State) (r : SlotRef) (x : Slot) : (s.setSlot r x).now = s.now := rfl
@[simp] theorem setSlot_time (s : State) (r : SlotRef) (x : Slot) : (s.setSlot r x).time = s.time := rfl
@[simp] theorem setSlot_modNo (s : State) (r : SlotRef) (x : Slot) : (s.setSlot r x).modNo = s.modNo := rfl
@[simp] theorem setSlot_cur (s : State) (r : SlotRef) (x : Slot) : (s.setSlot r x).cur = s.cur := rfl
@[simp] theorem setSlot_agenda (s : State) (r : SlotRef) (x : Slot) : (s.setSlot r x).agenda = s.agenda := rfl
@[simp] theorem setSlot_mem (s : State) (r : SlotRef) (x : Slot) : (s.setSlot r x).mem = s.mem := rfl
@[simp] theorem setSlot_safe (s : State) (r : SlotRef) (x : Slot) : (s.setSlot r x).safe = s.safe := rfl
@[simp] theorem setSlot_bad (s : State) (r : SlotRef) (x : Slot) : (s.setSlot r x).bad = s.bad := rfl
@[simp] theorem setSlot_soft (s : State) (r : SlotRef) (x : Slot) : (s.setSlot r x).soft = s.soft := rfl
@[simp] theorem setSlot_dev (s : State) (r : SlotRef) (x : Slot) : (s.setSlot r x).dev = s.dev := rfl
@[simp] theorem setSlot_cores (s : State) (r : SlotRef) (x : Slot) : (s.setSlot r x).cores = s.cores := rfl
@[simp] theorem setSlot_clusters (s : State) (r : SlotRef) (x : Slot) : (s.setSlot r x).clusters = s.clusters := rfl
@[simp] theorem setSlot_dies (s : State) (r : SlotRef) (x : Slot) : (s.setSlot r x).dies = s.dies := rfl
@[simp] theorem setSlot_parts (s : State) (r : SlotRef) (x : Slot) : (s.setSlot r x).parts = s.parts := rfl
@[simp] theorem setSlot_strands (s : State) (r : SlotRef) (x : Slot) : (s.setSlot r x).strands = s.strands := rfl
@[simp] theorem setSlot_domains (s : State) (r : SlotRef) (x : Slot) : (s.setSlot r x).domains = s.domains := rfl
@[simp] theorem setSlot_teams (s : State) (r : SlotRef) (x : Slot) : (s.setSlot r x).teams = s.teams := rfl
@[simp] theorem setSlot_launches (s : State) (r : SlotRef) (x : Slot) : (s.setSlot r x).launches = s.launches := rfl
@[simp] theorem setSlot_completed (s : State) (r : SlotRef) (x : Slot) : (s.setSlot r x).completed = s.completed := rfl
@[simp] theorem setSlot_jobs (s : State) (r : SlotRef) (x : Slot) : (s.setSlot r x).jobs = s.jobs := rfl
@[simp] theorem setSlot_jobNext (s : State) (r : SlotRef) (x : Slot) : (s.setSlot r x).jobNext = s.jobNext := rfl
@[simp] theorem setSlot_domNext (s : State) (r : SlotRef) (x : Slot) : (s.setSlot r x).domNext = s.domNext := rfl
@[simp] theorem setSlot_seqNext (s : State) (r : SlotRef) (x : Slot) : (s.setSlot r x).seqNext = s.seqNext := rfl
@[simp] theorem setSlot_net (s : State) (r : SlotRef) (x : Slot) : (s.setSlot r x).net = s.net := rfl
@[simp] theorem setSlot_links (s : State) (r : SlotRef) (x : Slot) : (s.setSlot r x).links = s.links := rfl
@[simp] theorem setSlot_down (s : State) (r : SlotRef) (x : Slot) : (s.setSlot r x).down = s.down := rfl
@[simp] theorem setSlot_fw (s : State) (r : SlotRef) (x : Slot) : (s.setSlot r x).fw = s.fw := rfl
@[simp] theorem setSlot_mailbox (s : State) (r : SlotRef) (x : Slot) : (s.setSlot r x).mailbox = s.mailbox := rfl
@[simp] theorem setSlot_doe (s : State) (r : SlotRef) (x : Slot) : (s.setSlot r x).doe = s.doe := rfl
@[simp] theorem setSlot_flash (s : State) (r : SlotRef) (x : Slot) : (s.setSlot r x).flash = s.flash := rfl
@[simp] theorem setSlot_bootStep (s : State) (r : SlotRef) (x : Slot) : (s.setSlot r x).bootStep = s.bootStep := rfl
@[simp] theorem setSlot_recovery (s : State) (r : SlotRef) (x : Slot) : (s.setSlot r x).recovery = s.recovery := rfl
@[simp] theorem setSlot_glaze (s : State) (r : SlotRef) (x : Slot) : (s.setSlot r x).glaze = s.glaze := rfl
@[simp] theorem setSlot_glazeG (s : State) (r : SlotRef) (x : Slot) : (s.setSlot r x).glazeG = s.glazeG := rfl
@[simp] theorem setSlot_glazeEpoch (s : State) (r : SlotRef) (x : Slot) : (s.setSlot r x).glazeEpoch = s.glazeEpoch := rfl
@[simp] theorem setSlot_epoch (s : State) (r : SlotRef) (x : Slot) : (s.setSlot r x).epoch = s.epoch := rfl
@[simp] theorem setSlot_images (s : State) (r : SlotRef) (x : Slot) : (s.setSlot r x).images = s.images := rfl
@[simp] theorem setSlot_crumbs (s : State) (r : SlotRef) (x : Slot) : (s.setSlot r x).crumbs = s.crumbs := rfl
@[simp] theorem setSlot_crumbBroken (s : State) (r : SlotRef) (x : Slot) : (s.setSlot r x).crumbBroken = s.crumbBroken := rfl
@[simp] theorem setSlot_crumb75 (s : State) (r : SlotRef) (x : Slot) : (s.setSlot r x).crumb75 = s.crumb75 := rfl
@[simp] theorem setSlot_receipts (s : State) (r : SlotRef) (x : Slot) : (s.setSlot r x).receipts = s.receipts := rfl
@[simp] theorem setSlot_spare (s : State) (r : SlotRef) (x : Slot) : (s.setSlot r x).spare = s.spare := rfl
@[simp] theorem setSlot_routed (s : State) (r : SlotRef) (x : Slot) : (s.setSlot r x).routed = s.routed := rfl
@[simp] theorem setSlot_tripped (s : State) (r : SlotRef) (x : Slot) : (s.setSlot r x).tripped = s.tripped := rfl
@[simp] theorem setSlot_glitches (s : State) (r : SlotRef) (x : Slot) : (s.setSlot r x).glitches = s.glitches := rfl
@[simp] theorem setSlot_free (s : State) (r : SlotRef) (x : Slot) : (s.setSlot r x).free = s.free := rfl
@[simp] theorem setSlot_core (s : State) (r : SlotRef) (x : Slot) (k : Nat) : (s.setSlot r x).core k = s.core k := rfl
@[simp] theorem setSlot_cluster (s : State) (r : SlotRef) (x : Slot) (k : Nat) : (s.setSlot r x).cluster k = s.cluster k := rfl
@[simp] theorem setSlot_die (s : State) (r : SlotRef) (x : Slot) (k : Nat) : (s.setSlot r x).die k = s.die k := rfl
@[simp] theorem setSlot_getPart (s : State) (r : SlotRef) (x : Slot) (k : Nat) : (s.setSlot r x).getPart k = s.getPart k := rfl
@[simp] theorem setSlot_strand (s : State) (r : SlotRef) (x : Slot) (k : Nat) : (s.setSlot r x).strand k = s.strand k := rfl
@[simp] theorem setSlot_dom (s : State) (r : SlotRef) (x : Slot) (k : Nat) : (s.setSlot r x).dom k = s.dom k := rfl
@[simp] theorem setSlot_getTeam (s : State) (r : SlotRef) (x : Slot) (k : Nat) : (s.setSlot r x).getTeam k = s.getTeam k := rfl
@[simp] theorem setSlot_link (s : State) (r : SlotRef) (x : Slot) (k l : Nat) : (s.setSlot r x).link k l = s.link k l := rfl
@[simp] theorem setSlot_devGet (s : State) (r : SlotRef) (x : Slot) (k : Nat) : (s.setSlot r x).devGet k = s.devGet k := rfl
@[simp] theorem setSlot_byte (s : State) (r : SlotRef) (x : Slot) (k : Nat) : (s.setSlot r x).byte k = s.byte k := rfl

/-! `setMe`. -/

@[simp] theorem setMe_now (s : State) (x : Slot) : (s.setMe x).now = s.now := rfl
@[simp] theorem setMe_time (s : State) (x : Slot) : (s.setMe x).time = s.time := rfl
@[simp] theorem setMe_modNo (s : State) (x : Slot) : (s.setMe x).modNo = s.modNo := rfl
@[simp] theorem setMe_cur (s : State) (x : Slot) : (s.setMe x).cur = s.cur := rfl
@[simp] theorem setMe_agenda (s : State) (x : Slot) : (s.setMe x).agenda = s.agenda := rfl
@[simp] theorem setMe_mem (s : State) (x : Slot) : (s.setMe x).mem = s.mem := rfl
@[simp] theorem setMe_safe (s : State) (x : Slot) : (s.setMe x).safe = s.safe := rfl
@[simp] theorem setMe_bad (s : State) (x : Slot) : (s.setMe x).bad = s.bad := rfl
@[simp] theorem setMe_soft (s : State) (x : Slot) : (s.setMe x).soft = s.soft := rfl
@[simp] theorem setMe_dev (s : State) (x : Slot) : (s.setMe x).dev = s.dev := rfl
@[simp] theorem setMe_cores (s : State) (x : Slot) : (s.setMe x).cores = s.cores := rfl
@[simp] theorem setMe_clusters (s : State) (x : Slot) : (s.setMe x).clusters = s.clusters := rfl
@[simp] theorem setMe_dies (s : State) (x : Slot) : (s.setMe x).dies = s.dies := rfl
@[simp] theorem setMe_parts (s : State) (x : Slot) : (s.setMe x).parts = s.parts := rfl
@[simp] theorem setMe_strands (s : State) (x : Slot) : (s.setMe x).strands = s.strands := rfl
@[simp] theorem setMe_domains (s : State) (x : Slot) : (s.setMe x).domains = s.domains := rfl
@[simp] theorem setMe_teams (s : State) (x : Slot) : (s.setMe x).teams = s.teams := rfl
@[simp] theorem setMe_launches (s : State) (x : Slot) : (s.setMe x).launches = s.launches := rfl
@[simp] theorem setMe_completed (s : State) (x : Slot) : (s.setMe x).completed = s.completed := rfl
@[simp] theorem setMe_jobs (s : State) (x : Slot) : (s.setMe x).jobs = s.jobs := rfl
@[simp] theorem setMe_jobNext (s : State) (x : Slot) : (s.setMe x).jobNext = s.jobNext := rfl
@[simp] theorem setMe_domNext (s : State) (x : Slot) : (s.setMe x).domNext = s.domNext := rfl
@[simp] theorem setMe_seqNext (s : State) (x : Slot) : (s.setMe x).seqNext = s.seqNext := rfl
@[simp] theorem setMe_net (s : State) (x : Slot) : (s.setMe x).net = s.net := rfl
@[simp] theorem setMe_links (s : State) (x : Slot) : (s.setMe x).links = s.links := rfl
@[simp] theorem setMe_down (s : State) (x : Slot) : (s.setMe x).down = s.down := rfl
@[simp] theorem setMe_fw (s : State) (x : Slot) : (s.setMe x).fw = s.fw := rfl
@[simp] theorem setMe_mailbox (s : State) (x : Slot) : (s.setMe x).mailbox = s.mailbox := rfl
@[simp] theorem setMe_doe (s : State) (x : Slot) : (s.setMe x).doe = s.doe := rfl
@[simp] theorem setMe_flash (s : State) (x : Slot) : (s.setMe x).flash = s.flash := rfl
@[simp] theorem setMe_bootStep (s : State) (x : Slot) : (s.setMe x).bootStep = s.bootStep := rfl
@[simp] theorem setMe_recovery (s : State) (x : Slot) : (s.setMe x).recovery = s.recovery := rfl
@[simp] theorem setMe_glaze (s : State) (x : Slot) : (s.setMe x).glaze = s.glaze := rfl
@[simp] theorem setMe_glazeG (s : State) (x : Slot) : (s.setMe x).glazeG = s.glazeG := rfl
@[simp] theorem setMe_glazeEpoch (s : State) (x : Slot) : (s.setMe x).glazeEpoch = s.glazeEpoch := rfl
@[simp] theorem setMe_epoch (s : State) (x : Slot) : (s.setMe x).epoch = s.epoch := rfl
@[simp] theorem setMe_images (s : State) (x : Slot) : (s.setMe x).images = s.images := rfl
@[simp] theorem setMe_crumbs (s : State) (x : Slot) : (s.setMe x).crumbs = s.crumbs := rfl
@[simp] theorem setMe_crumbBroken (s : State) (x : Slot) : (s.setMe x).crumbBroken = s.crumbBroken := rfl
@[simp] theorem setMe_crumb75 (s : State) (x : Slot) : (s.setMe x).crumb75 = s.crumb75 := rfl
@[simp] theorem setMe_receipts (s : State) (x : Slot) : (s.setMe x).receipts = s.receipts := rfl
@[simp] theorem setMe_spare (s : State) (x : Slot) : (s.setMe x).spare = s.spare := rfl
@[simp] theorem setMe_routed (s : State) (x : Slot) : (s.setMe x).routed = s.routed := rfl
@[simp] theorem setMe_tripped (s : State) (x : Slot) : (s.setMe x).tripped = s.tripped := rfl
@[simp] theorem setMe_glitches (s : State) (x : Slot) : (s.setMe x).glitches = s.glitches := rfl
@[simp] theorem setMe_free (s : State) (x : Slot) : (s.setMe x).free = s.free := rfl
@[simp] theorem setMe_core (s : State) (x : Slot) (k : Nat) : (s.setMe x).core k = s.core k := rfl
@[simp] theorem setMe_cluster (s : State) (x : Slot) (k : Nat) : (s.setMe x).cluster k = s.cluster k := rfl
@[simp] theorem setMe_die (s : State) (x : Slot) (k : Nat) : (s.setMe x).die k = s.die k := rfl
@[simp] theorem setMe_getPart (s : State) (x : Slot) (k : Nat) : (s.setMe x).getPart k = s.getPart k := rfl
@[simp] theorem setMe_strand (s : State) (x : Slot) (k : Nat) : (s.setMe x).strand k = s.strand k := rfl
@[simp] theorem setMe_dom (s : State) (x : Slot) (k : Nat) : (s.setMe x).dom k = s.dom k := rfl
@[simp] theorem setMe_getTeam (s : State) (x : Slot) (k : Nat) : (s.setMe x).getTeam k = s.getTeam k := rfl
@[simp] theorem setMe_link (s : State) (x : Slot) (k l : Nat) : (s.setMe x).link k l = s.link k l := rfl
@[simp] theorem setMe_devGet (s : State) (x : Slot) (k : Nat) : (s.setMe x).devGet k = s.devGet k := rfl
@[simp] theorem setMe_byte (s : State) (x : Slot) (k : Nat) : (s.setMe x).byte k = s.byte k := rfl

/-! `setCore`. -/

@[simp] theorem setCore_now (s : State) (c : Nat) (x : CoreSt) : (s.setCore c x).now = s.now := rfl
@[simp] theorem setCore_time (s : State) (c : Nat) (x : CoreSt) : (s.setCore c x).time = s.time := rfl
@[simp] theorem setCore_modNo (s : State) (c : Nat) (x : CoreSt) : (s.setCore c x).modNo = s.modNo := rfl
@[simp] theorem setCore_cur (s : State) (c : Nat) (x : CoreSt) : (s.setCore c x).cur = s.cur := rfl
@[simp] theorem setCore_agenda (s : State) (c : Nat) (x : CoreSt) : (s.setCore c x).agenda = s.agenda := rfl
@[simp] theorem setCore_mem (s : State) (c : Nat) (x : CoreSt) : (s.setCore c x).mem = s.mem := rfl
@[simp] theorem setCore_safe (s : State) (c : Nat) (x : CoreSt) : (s.setCore c x).safe = s.safe := rfl
@[simp] theorem setCore_bad (s : State) (c : Nat) (x : CoreSt) : (s.setCore c x).bad = s.bad := rfl
@[simp] theorem setCore_soft (s : State) (c : Nat) (x : CoreSt) : (s.setCore c x).soft = s.soft := rfl
@[simp] theorem setCore_dev (s : State) (c : Nat) (x : CoreSt) : (s.setCore c x).dev = s.dev := rfl
@[simp] theorem setCore_slots (s : State) (c : Nat) (x : CoreSt) : (s.setCore c x).slots = s.slots := rfl
@[simp] theorem setCore_clusters (s : State) (c : Nat) (x : CoreSt) : (s.setCore c x).clusters = s.clusters := rfl
@[simp] theorem setCore_dies (s : State) (c : Nat) (x : CoreSt) : (s.setCore c x).dies = s.dies := rfl
@[simp] theorem setCore_parts (s : State) (c : Nat) (x : CoreSt) : (s.setCore c x).parts = s.parts := rfl
@[simp] theorem setCore_strands (s : State) (c : Nat) (x : CoreSt) : (s.setCore c x).strands = s.strands := rfl
@[simp] theorem setCore_domains (s : State) (c : Nat) (x : CoreSt) : (s.setCore c x).domains = s.domains := rfl
@[simp] theorem setCore_teams (s : State) (c : Nat) (x : CoreSt) : (s.setCore c x).teams = s.teams := rfl
@[simp] theorem setCore_launches (s : State) (c : Nat) (x : CoreSt) : (s.setCore c x).launches = s.launches := rfl
@[simp] theorem setCore_completed (s : State) (c : Nat) (x : CoreSt) : (s.setCore c x).completed = s.completed := rfl
@[simp] theorem setCore_jobs (s : State) (c : Nat) (x : CoreSt) : (s.setCore c x).jobs = s.jobs := rfl
@[simp] theorem setCore_jobNext (s : State) (c : Nat) (x : CoreSt) : (s.setCore c x).jobNext = s.jobNext := rfl
@[simp] theorem setCore_domNext (s : State) (c : Nat) (x : CoreSt) : (s.setCore c x).domNext = s.domNext := rfl
@[simp] theorem setCore_seqNext (s : State) (c : Nat) (x : CoreSt) : (s.setCore c x).seqNext = s.seqNext := rfl
@[simp] theorem setCore_net (s : State) (c : Nat) (x : CoreSt) : (s.setCore c x).net = s.net := rfl
@[simp] theorem setCore_links (s : State) (c : Nat) (x : CoreSt) : (s.setCore c x).links = s.links := rfl
@[simp] theorem setCore_down (s : State) (c : Nat) (x : CoreSt) : (s.setCore c x).down = s.down := rfl
@[simp] theorem setCore_fw (s : State) (c : Nat) (x : CoreSt) : (s.setCore c x).fw = s.fw := rfl
@[simp] theorem setCore_mailbox (s : State) (c : Nat) (x : CoreSt) : (s.setCore c x).mailbox = s.mailbox := rfl
@[simp] theorem setCore_doe (s : State) (c : Nat) (x : CoreSt) : (s.setCore c x).doe = s.doe := rfl
@[simp] theorem setCore_flash (s : State) (c : Nat) (x : CoreSt) : (s.setCore c x).flash = s.flash := rfl
@[simp] theorem setCore_bootStep (s : State) (c : Nat) (x : CoreSt) : (s.setCore c x).bootStep = s.bootStep := rfl
@[simp] theorem setCore_recovery (s : State) (c : Nat) (x : CoreSt) : (s.setCore c x).recovery = s.recovery := rfl
@[simp] theorem setCore_glaze (s : State) (c : Nat) (x : CoreSt) : (s.setCore c x).glaze = s.glaze := rfl
@[simp] theorem setCore_glazeG (s : State) (c : Nat) (x : CoreSt) : (s.setCore c x).glazeG = s.glazeG := rfl
@[simp] theorem setCore_glazeEpoch (s : State) (c : Nat) (x : CoreSt) : (s.setCore c x).glazeEpoch = s.glazeEpoch := rfl
@[simp] theorem setCore_epoch (s : State) (c : Nat) (x : CoreSt) : (s.setCore c x).epoch = s.epoch := rfl
@[simp] theorem setCore_images (s : State) (c : Nat) (x : CoreSt) : (s.setCore c x).images = s.images := rfl
@[simp] theorem setCore_crumbs (s : State) (c : Nat) (x : CoreSt) : (s.setCore c x).crumbs = s.crumbs := rfl
@[simp] theorem setCore_crumbBroken (s : State) (c : Nat) (x : CoreSt) : (s.setCore c x).crumbBroken = s.crumbBroken := rfl
@[simp] theorem setCore_crumb75 (s : State) (c : Nat) (x : CoreSt) : (s.setCore c x).crumb75 = s.crumb75 := rfl
@[simp] theorem setCore_receipts (s : State) (c : Nat) (x : CoreSt) : (s.setCore c x).receipts = s.receipts := rfl
@[simp] theorem setCore_spare (s : State) (c : Nat) (x : CoreSt) : (s.setCore c x).spare = s.spare := rfl
@[simp] theorem setCore_routed (s : State) (c : Nat) (x : CoreSt) : (s.setCore c x).routed = s.routed := rfl
@[simp] theorem setCore_tripped (s : State) (c : Nat) (x : CoreSt) : (s.setCore c x).tripped = s.tripped := rfl
@[simp] theorem setCore_glitches (s : State) (c : Nat) (x : CoreSt) : (s.setCore c x).glitches = s.glitches := rfl
@[simp] theorem setCore_free (s : State) (c : Nat) (x : CoreSt) : (s.setCore c x).free = s.free := rfl
@[simp] theorem setCore_slot (s : State) (c : Nat) (x : CoreSt) (q : SlotRef) : (s.setCore c x).slot q = s.slot q := rfl
@[simp] theorem setCore_me (s : State) (c : Nat) (x : CoreSt) : (s.setCore c x).me = s.me := rfl
@[simp] theorem setCore_cluster (s : State) (c : Nat) (x : CoreSt) (k : Nat) : (s.setCore c x).cluster k = s.cluster k := rfl
@[simp] theorem setCore_die (s : State) (c : Nat) (x : CoreSt) (k : Nat) : (s.setCore c x).die k = s.die k := rfl
@[simp] theorem setCore_getPart (s : State) (c : Nat) (x : CoreSt) (k : Nat) : (s.setCore c x).getPart k = s.getPart k := rfl
@[simp] theorem setCore_strand (s : State) (c : Nat) (x : CoreSt) (k : Nat) : (s.setCore c x).strand k = s.strand k := rfl
@[simp] theorem setCore_dom (s : State) (c : Nat) (x : CoreSt) (k : Nat) : (s.setCore c x).dom k = s.dom k := rfl
@[simp] theorem setCore_getTeam (s : State) (c : Nat) (x : CoreSt) (k : Nat) : (s.setCore c x).getTeam k = s.getTeam k := rfl
@[simp] theorem setCore_link (s : State) (c : Nat) (x : CoreSt) (k l : Nat) : (s.setCore c x).link k l = s.link k l := rfl
@[simp] theorem setCore_devGet (s : State) (c : Nat) (x : CoreSt) (k : Nat) : (s.setCore c x).devGet k = s.devGet k := rfl
@[simp] theorem setCore_byte (s : State) (c : Nat) (x : CoreSt) (k : Nat) : (s.setCore c x).byte k = s.byte k := rfl

/-! `setCluster`. -/

@[simp] theorem setCluster_now (s : State) (c : Nat) (x : ClusterSt) : (s.setCluster c x).now = s.now := rfl
@[simp] theorem setCluster_time (s : State) (c : Nat) (x : ClusterSt) : (s.setCluster c x).time = s.time := rfl
@[simp] theorem setCluster_modNo (s : State) (c : Nat) (x : ClusterSt) : (s.setCluster c x).modNo = s.modNo := rfl
@[simp] theorem setCluster_cur (s : State) (c : Nat) (x : ClusterSt) : (s.setCluster c x).cur = s.cur := rfl
@[simp] theorem setCluster_agenda (s : State) (c : Nat) (x : ClusterSt) : (s.setCluster c x).agenda = s.agenda := rfl
@[simp] theorem setCluster_mem (s : State) (c : Nat) (x : ClusterSt) : (s.setCluster c x).mem = s.mem := rfl
@[simp] theorem setCluster_safe (s : State) (c : Nat) (x : ClusterSt) : (s.setCluster c x).safe = s.safe := rfl
@[simp] theorem setCluster_bad (s : State) (c : Nat) (x : ClusterSt) : (s.setCluster c x).bad = s.bad := rfl
@[simp] theorem setCluster_soft (s : State) (c : Nat) (x : ClusterSt) : (s.setCluster c x).soft = s.soft := rfl
@[simp] theorem setCluster_dev (s : State) (c : Nat) (x : ClusterSt) : (s.setCluster c x).dev = s.dev := rfl
@[simp] theorem setCluster_slots (s : State) (c : Nat) (x : ClusterSt) : (s.setCluster c x).slots = s.slots := rfl
@[simp] theorem setCluster_cores (s : State) (c : Nat) (x : ClusterSt) : (s.setCluster c x).cores = s.cores := rfl
@[simp] theorem setCluster_dies (s : State) (c : Nat) (x : ClusterSt) : (s.setCluster c x).dies = s.dies := rfl
@[simp] theorem setCluster_parts (s : State) (c : Nat) (x : ClusterSt) : (s.setCluster c x).parts = s.parts := rfl
@[simp] theorem setCluster_strands (s : State) (c : Nat) (x : ClusterSt) : (s.setCluster c x).strands = s.strands := rfl
@[simp] theorem setCluster_domains (s : State) (c : Nat) (x : ClusterSt) : (s.setCluster c x).domains = s.domains := rfl
@[simp] theorem setCluster_teams (s : State) (c : Nat) (x : ClusterSt) : (s.setCluster c x).teams = s.teams := rfl
@[simp] theorem setCluster_launches (s : State) (c : Nat) (x : ClusterSt) : (s.setCluster c x).launches = s.launches := rfl
@[simp] theorem setCluster_completed (s : State) (c : Nat) (x : ClusterSt) : (s.setCluster c x).completed = s.completed := rfl
@[simp] theorem setCluster_jobs (s : State) (c : Nat) (x : ClusterSt) : (s.setCluster c x).jobs = s.jobs := rfl
@[simp] theorem setCluster_jobNext (s : State) (c : Nat) (x : ClusterSt) : (s.setCluster c x).jobNext = s.jobNext := rfl
@[simp] theorem setCluster_domNext (s : State) (c : Nat) (x : ClusterSt) : (s.setCluster c x).domNext = s.domNext := rfl
@[simp] theorem setCluster_seqNext (s : State) (c : Nat) (x : ClusterSt) : (s.setCluster c x).seqNext = s.seqNext := rfl
@[simp] theorem setCluster_net (s : State) (c : Nat) (x : ClusterSt) : (s.setCluster c x).net = s.net := rfl
@[simp] theorem setCluster_links (s : State) (c : Nat) (x : ClusterSt) : (s.setCluster c x).links = s.links := rfl
@[simp] theorem setCluster_down (s : State) (c : Nat) (x : ClusterSt) : (s.setCluster c x).down = s.down := rfl
@[simp] theorem setCluster_fw (s : State) (c : Nat) (x : ClusterSt) : (s.setCluster c x).fw = s.fw := rfl
@[simp] theorem setCluster_mailbox (s : State) (c : Nat) (x : ClusterSt) : (s.setCluster c x).mailbox = s.mailbox := rfl
@[simp] theorem setCluster_doe (s : State) (c : Nat) (x : ClusterSt) : (s.setCluster c x).doe = s.doe := rfl
@[simp] theorem setCluster_flash (s : State) (c : Nat) (x : ClusterSt) : (s.setCluster c x).flash = s.flash := rfl
@[simp] theorem setCluster_bootStep (s : State) (c : Nat) (x : ClusterSt) : (s.setCluster c x).bootStep = s.bootStep := rfl
@[simp] theorem setCluster_recovery (s : State) (c : Nat) (x : ClusterSt) : (s.setCluster c x).recovery = s.recovery := rfl
@[simp] theorem setCluster_glaze (s : State) (c : Nat) (x : ClusterSt) : (s.setCluster c x).glaze = s.glaze := rfl
@[simp] theorem setCluster_glazeG (s : State) (c : Nat) (x : ClusterSt) : (s.setCluster c x).glazeG = s.glazeG := rfl
@[simp] theorem setCluster_glazeEpoch (s : State) (c : Nat) (x : ClusterSt) : (s.setCluster c x).glazeEpoch = s.glazeEpoch := rfl
@[simp] theorem setCluster_epoch (s : State) (c : Nat) (x : ClusterSt) : (s.setCluster c x).epoch = s.epoch := rfl
@[simp] theorem setCluster_images (s : State) (c : Nat) (x : ClusterSt) : (s.setCluster c x).images = s.images := rfl
@[simp] theorem setCluster_crumbs (s : State) (c : Nat) (x : ClusterSt) : (s.setCluster c x).crumbs = s.crumbs := rfl
@[simp] theorem setCluster_crumbBroken (s : State) (c : Nat) (x : ClusterSt) : (s.setCluster c x).crumbBroken = s.crumbBroken := rfl
@[simp] theorem setCluster_crumb75 (s : State) (c : Nat) (x : ClusterSt) : (s.setCluster c x).crumb75 = s.crumb75 := rfl
@[simp] theorem setCluster_receipts (s : State) (c : Nat) (x : ClusterSt) : (s.setCluster c x).receipts = s.receipts := rfl
@[simp] theorem setCluster_spare (s : State) (c : Nat) (x : ClusterSt) : (s.setCluster c x).spare = s.spare := rfl
@[simp] theorem setCluster_routed (s : State) (c : Nat) (x : ClusterSt) : (s.setCluster c x).routed = s.routed := rfl
@[simp] theorem setCluster_tripped (s : State) (c : Nat) (x : ClusterSt) : (s.setCluster c x).tripped = s.tripped := rfl
@[simp] theorem setCluster_glitches (s : State) (c : Nat) (x : ClusterSt) : (s.setCluster c x).glitches = s.glitches := rfl
@[simp] theorem setCluster_free (s : State) (c : Nat) (x : ClusterSt) : (s.setCluster c x).free = s.free := rfl
@[simp] theorem setCluster_slot (s : State) (c : Nat) (x : ClusterSt) (q : SlotRef) : (s.setCluster c x).slot q = s.slot q := rfl
@[simp] theorem setCluster_me (s : State) (c : Nat) (x : ClusterSt) : (s.setCluster c x).me = s.me := rfl
@[simp] theorem setCluster_core (s : State) (c : Nat) (x : ClusterSt) (k : Nat) : (s.setCluster c x).core k = s.core k := rfl
@[simp] theorem setCluster_die (s : State) (c : Nat) (x : ClusterSt) (k : Nat) : (s.setCluster c x).die k = s.die k := rfl
@[simp] theorem setCluster_getPart (s : State) (c : Nat) (x : ClusterSt) (k : Nat) : (s.setCluster c x).getPart k = s.getPart k := rfl
@[simp] theorem setCluster_strand (s : State) (c : Nat) (x : ClusterSt) (k : Nat) : (s.setCluster c x).strand k = s.strand k := rfl
@[simp] theorem setCluster_dom (s : State) (c : Nat) (x : ClusterSt) (k : Nat) : (s.setCluster c x).dom k = s.dom k := rfl
@[simp] theorem setCluster_getTeam (s : State) (c : Nat) (x : ClusterSt) (k : Nat) : (s.setCluster c x).getTeam k = s.getTeam k := rfl
@[simp] theorem setCluster_link (s : State) (c : Nat) (x : ClusterSt) (k l : Nat) : (s.setCluster c x).link k l = s.link k l := rfl
@[simp] theorem setCluster_devGet (s : State) (c : Nat) (x : ClusterSt) (k : Nat) : (s.setCluster c x).devGet k = s.devGet k := rfl
@[simp] theorem setCluster_byte (s : State) (c : Nat) (x : ClusterSt) (k : Nat) : (s.setCluster c x).byte k = s.byte k := rfl

/-! `setDie`. -/

@[simp] theorem setDie_now (s : State) (d : Nat) (x : DieSt) : (s.setDie d x).now = s.now := rfl
@[simp] theorem setDie_time (s : State) (d : Nat) (x : DieSt) : (s.setDie d x).time = s.time := rfl
@[simp] theorem setDie_modNo (s : State) (d : Nat) (x : DieSt) : (s.setDie d x).modNo = s.modNo := rfl
@[simp] theorem setDie_cur (s : State) (d : Nat) (x : DieSt) : (s.setDie d x).cur = s.cur := rfl
@[simp] theorem setDie_agenda (s : State) (d : Nat) (x : DieSt) : (s.setDie d x).agenda = s.agenda := rfl
@[simp] theorem setDie_mem (s : State) (d : Nat) (x : DieSt) : (s.setDie d x).mem = s.mem := rfl
@[simp] theorem setDie_safe (s : State) (d : Nat) (x : DieSt) : (s.setDie d x).safe = s.safe := rfl
@[simp] theorem setDie_bad (s : State) (d : Nat) (x : DieSt) : (s.setDie d x).bad = s.bad := rfl
@[simp] theorem setDie_soft (s : State) (d : Nat) (x : DieSt) : (s.setDie d x).soft = s.soft := rfl
@[simp] theorem setDie_dev (s : State) (d : Nat) (x : DieSt) : (s.setDie d x).dev = s.dev := rfl
@[simp] theorem setDie_slots (s : State) (d : Nat) (x : DieSt) : (s.setDie d x).slots = s.slots := rfl
@[simp] theorem setDie_cores (s : State) (d : Nat) (x : DieSt) : (s.setDie d x).cores = s.cores := rfl
@[simp] theorem setDie_clusters (s : State) (d : Nat) (x : DieSt) : (s.setDie d x).clusters = s.clusters := rfl
@[simp] theorem setDie_parts (s : State) (d : Nat) (x : DieSt) : (s.setDie d x).parts = s.parts := rfl
@[simp] theorem setDie_strands (s : State) (d : Nat) (x : DieSt) : (s.setDie d x).strands = s.strands := rfl
@[simp] theorem setDie_domains (s : State) (d : Nat) (x : DieSt) : (s.setDie d x).domains = s.domains := rfl
@[simp] theorem setDie_teams (s : State) (d : Nat) (x : DieSt) : (s.setDie d x).teams = s.teams := rfl
@[simp] theorem setDie_launches (s : State) (d : Nat) (x : DieSt) : (s.setDie d x).launches = s.launches := rfl
@[simp] theorem setDie_completed (s : State) (d : Nat) (x : DieSt) : (s.setDie d x).completed = s.completed := rfl
@[simp] theorem setDie_jobs (s : State) (d : Nat) (x : DieSt) : (s.setDie d x).jobs = s.jobs := rfl
@[simp] theorem setDie_jobNext (s : State) (d : Nat) (x : DieSt) : (s.setDie d x).jobNext = s.jobNext := rfl
@[simp] theorem setDie_domNext (s : State) (d : Nat) (x : DieSt) : (s.setDie d x).domNext = s.domNext := rfl
@[simp] theorem setDie_seqNext (s : State) (d : Nat) (x : DieSt) : (s.setDie d x).seqNext = s.seqNext := rfl
@[simp] theorem setDie_net (s : State) (d : Nat) (x : DieSt) : (s.setDie d x).net = s.net := rfl
@[simp] theorem setDie_links (s : State) (d : Nat) (x : DieSt) : (s.setDie d x).links = s.links := rfl
@[simp] theorem setDie_down (s : State) (d : Nat) (x : DieSt) : (s.setDie d x).down = s.down := rfl
@[simp] theorem setDie_fw (s : State) (d : Nat) (x : DieSt) : (s.setDie d x).fw = s.fw := rfl
@[simp] theorem setDie_mailbox (s : State) (d : Nat) (x : DieSt) : (s.setDie d x).mailbox = s.mailbox := rfl
@[simp] theorem setDie_doe (s : State) (d : Nat) (x : DieSt) : (s.setDie d x).doe = s.doe := rfl
@[simp] theorem setDie_flash (s : State) (d : Nat) (x : DieSt) : (s.setDie d x).flash = s.flash := rfl
@[simp] theorem setDie_bootStep (s : State) (d : Nat) (x : DieSt) : (s.setDie d x).bootStep = s.bootStep := rfl
@[simp] theorem setDie_recovery (s : State) (d : Nat) (x : DieSt) : (s.setDie d x).recovery = s.recovery := rfl
@[simp] theorem setDie_glaze (s : State) (d : Nat) (x : DieSt) : (s.setDie d x).glaze = s.glaze := rfl
@[simp] theorem setDie_glazeG (s : State) (d : Nat) (x : DieSt) : (s.setDie d x).glazeG = s.glazeG := rfl
@[simp] theorem setDie_glazeEpoch (s : State) (d : Nat) (x : DieSt) : (s.setDie d x).glazeEpoch = s.glazeEpoch := rfl
@[simp] theorem setDie_epoch (s : State) (d : Nat) (x : DieSt) : (s.setDie d x).epoch = s.epoch := rfl
@[simp] theorem setDie_images (s : State) (d : Nat) (x : DieSt) : (s.setDie d x).images = s.images := rfl
@[simp] theorem setDie_crumbs (s : State) (d : Nat) (x : DieSt) : (s.setDie d x).crumbs = s.crumbs := rfl
@[simp] theorem setDie_crumbBroken (s : State) (d : Nat) (x : DieSt) : (s.setDie d x).crumbBroken = s.crumbBroken := rfl
@[simp] theorem setDie_crumb75 (s : State) (d : Nat) (x : DieSt) : (s.setDie d x).crumb75 = s.crumb75 := rfl
@[simp] theorem setDie_receipts (s : State) (d : Nat) (x : DieSt) : (s.setDie d x).receipts = s.receipts := rfl
@[simp] theorem setDie_spare (s : State) (d : Nat) (x : DieSt) : (s.setDie d x).spare = s.spare := rfl
@[simp] theorem setDie_routed (s : State) (d : Nat) (x : DieSt) : (s.setDie d x).routed = s.routed := rfl
@[simp] theorem setDie_tripped (s : State) (d : Nat) (x : DieSt) : (s.setDie d x).tripped = s.tripped := rfl
@[simp] theorem setDie_glitches (s : State) (d : Nat) (x : DieSt) : (s.setDie d x).glitches = s.glitches := rfl
@[simp] theorem setDie_free (s : State) (d : Nat) (x : DieSt) : (s.setDie d x).free = s.free := rfl
@[simp] theorem setDie_slot (s : State) (d : Nat) (x : DieSt) (q : SlotRef) : (s.setDie d x).slot q = s.slot q := rfl
@[simp] theorem setDie_me (s : State) (d : Nat) (x : DieSt) : (s.setDie d x).me = s.me := rfl
@[simp] theorem setDie_core (s : State) (d : Nat) (x : DieSt) (k : Nat) : (s.setDie d x).core k = s.core k := rfl
@[simp] theorem setDie_cluster (s : State) (d : Nat) (x : DieSt) (k : Nat) : (s.setDie d x).cluster k = s.cluster k := rfl
@[simp] theorem setDie_getPart (s : State) (d : Nat) (x : DieSt) (k : Nat) : (s.setDie d x).getPart k = s.getPart k := rfl
@[simp] theorem setDie_strand (s : State) (d : Nat) (x : DieSt) (k : Nat) : (s.setDie d x).strand k = s.strand k := rfl
@[simp] theorem setDie_dom (s : State) (d : Nat) (x : DieSt) (k : Nat) : (s.setDie d x).dom k = s.dom k := rfl
@[simp] theorem setDie_getTeam (s : State) (d : Nat) (x : DieSt) (k : Nat) : (s.setDie d x).getTeam k = s.getTeam k := rfl
@[simp] theorem setDie_link (s : State) (d : Nat) (x : DieSt) (k l : Nat) : (s.setDie d x).link k l = s.link k l := rfl
@[simp] theorem setDie_devGet (s : State) (d : Nat) (x : DieSt) (k : Nat) : (s.setDie d x).devGet k = s.devGet k := rfl
@[simp] theorem setDie_byte (s : State) (d : Nat) (x : DieSt) (k : Nat) : (s.setDie d x).byte k = s.byte k := rfl

/-! `setPart`. -/

@[simp] theorem setPart_now (s : State) (p : Nat) (x : Part) : (s.setPart p x).now = s.now := rfl
@[simp] theorem setPart_time (s : State) (p : Nat) (x : Part) : (s.setPart p x).time = s.time := rfl
@[simp] theorem setPart_modNo (s : State) (p : Nat) (x : Part) : (s.setPart p x).modNo = s.modNo := rfl
@[simp] theorem setPart_cur (s : State) (p : Nat) (x : Part) : (s.setPart p x).cur = s.cur := rfl
@[simp] theorem setPart_agenda (s : State) (p : Nat) (x : Part) : (s.setPart p x).agenda = s.agenda := rfl
@[simp] theorem setPart_mem (s : State) (p : Nat) (x : Part) : (s.setPart p x).mem = s.mem := rfl
@[simp] theorem setPart_safe (s : State) (p : Nat) (x : Part) : (s.setPart p x).safe = s.safe := rfl
@[simp] theorem setPart_bad (s : State) (p : Nat) (x : Part) : (s.setPart p x).bad = s.bad := rfl
@[simp] theorem setPart_soft (s : State) (p : Nat) (x : Part) : (s.setPart p x).soft = s.soft := rfl
@[simp] theorem setPart_dev (s : State) (p : Nat) (x : Part) : (s.setPart p x).dev = s.dev := rfl
@[simp] theorem setPart_slots (s : State) (p : Nat) (x : Part) : (s.setPart p x).slots = s.slots := rfl
@[simp] theorem setPart_cores (s : State) (p : Nat) (x : Part) : (s.setPart p x).cores = s.cores := rfl
@[simp] theorem setPart_clusters (s : State) (p : Nat) (x : Part) : (s.setPart p x).clusters = s.clusters := rfl
@[simp] theorem setPart_dies (s : State) (p : Nat) (x : Part) : (s.setPart p x).dies = s.dies := rfl
@[simp] theorem setPart_strands (s : State) (p : Nat) (x : Part) : (s.setPart p x).strands = s.strands := rfl
@[simp] theorem setPart_domains (s : State) (p : Nat) (x : Part) : (s.setPart p x).domains = s.domains := rfl
@[simp] theorem setPart_teams (s : State) (p : Nat) (x : Part) : (s.setPart p x).teams = s.teams := rfl
@[simp] theorem setPart_launches (s : State) (p : Nat) (x : Part) : (s.setPart p x).launches = s.launches := rfl
@[simp] theorem setPart_completed (s : State) (p : Nat) (x : Part) : (s.setPart p x).completed = s.completed := rfl
@[simp] theorem setPart_jobs (s : State) (p : Nat) (x : Part) : (s.setPart p x).jobs = s.jobs := rfl
@[simp] theorem setPart_jobNext (s : State) (p : Nat) (x : Part) : (s.setPart p x).jobNext = s.jobNext := rfl
@[simp] theorem setPart_domNext (s : State) (p : Nat) (x : Part) : (s.setPart p x).domNext = s.domNext := rfl
@[simp] theorem setPart_seqNext (s : State) (p : Nat) (x : Part) : (s.setPart p x).seqNext = s.seqNext := rfl
@[simp] theorem setPart_net (s : State) (p : Nat) (x : Part) : (s.setPart p x).net = s.net := rfl
@[simp] theorem setPart_links (s : State) (p : Nat) (x : Part) : (s.setPart p x).links = s.links := rfl
@[simp] theorem setPart_down (s : State) (p : Nat) (x : Part) : (s.setPart p x).down = s.down := rfl
@[simp] theorem setPart_fw (s : State) (p : Nat) (x : Part) : (s.setPart p x).fw = s.fw := rfl
@[simp] theorem setPart_mailbox (s : State) (p : Nat) (x : Part) : (s.setPart p x).mailbox = s.mailbox := rfl
@[simp] theorem setPart_doe (s : State) (p : Nat) (x : Part) : (s.setPart p x).doe = s.doe := rfl
@[simp] theorem setPart_flash (s : State) (p : Nat) (x : Part) : (s.setPart p x).flash = s.flash := rfl
@[simp] theorem setPart_bootStep (s : State) (p : Nat) (x : Part) : (s.setPart p x).bootStep = s.bootStep := rfl
@[simp] theorem setPart_recovery (s : State) (p : Nat) (x : Part) : (s.setPart p x).recovery = s.recovery := rfl
@[simp] theorem setPart_glaze (s : State) (p : Nat) (x : Part) : (s.setPart p x).glaze = s.glaze := rfl
@[simp] theorem setPart_glazeG (s : State) (p : Nat) (x : Part) : (s.setPart p x).glazeG = s.glazeG := rfl
@[simp] theorem setPart_glazeEpoch (s : State) (p : Nat) (x : Part) : (s.setPart p x).glazeEpoch = s.glazeEpoch := rfl
@[simp] theorem setPart_epoch (s : State) (p : Nat) (x : Part) : (s.setPart p x).epoch = s.epoch := rfl
@[simp] theorem setPart_images (s : State) (p : Nat) (x : Part) : (s.setPart p x).images = s.images := rfl
@[simp] theorem setPart_crumbs (s : State) (p : Nat) (x : Part) : (s.setPart p x).crumbs = s.crumbs := rfl
@[simp] theorem setPart_crumbBroken (s : State) (p : Nat) (x : Part) : (s.setPart p x).crumbBroken = s.crumbBroken := rfl
@[simp] theorem setPart_crumb75 (s : State) (p : Nat) (x : Part) : (s.setPart p x).crumb75 = s.crumb75 := rfl
@[simp] theorem setPart_receipts (s : State) (p : Nat) (x : Part) : (s.setPart p x).receipts = s.receipts := rfl
@[simp] theorem setPart_spare (s : State) (p : Nat) (x : Part) : (s.setPart p x).spare = s.spare := rfl
@[simp] theorem setPart_routed (s : State) (p : Nat) (x : Part) : (s.setPart p x).routed = s.routed := rfl
@[simp] theorem setPart_tripped (s : State) (p : Nat) (x : Part) : (s.setPart p x).tripped = s.tripped := rfl
@[simp] theorem setPart_glitches (s : State) (p : Nat) (x : Part) : (s.setPart p x).glitches = s.glitches := rfl
@[simp] theorem setPart_free (s : State) (p : Nat) (x : Part) : (s.setPart p x).free = s.free := rfl
@[simp] theorem setPart_slot (s : State) (p : Nat) (x : Part) (q : SlotRef) : (s.setPart p x).slot q = s.slot q := rfl
@[simp] theorem setPart_me (s : State) (p : Nat) (x : Part) : (s.setPart p x).me = s.me := rfl
@[simp] theorem setPart_core (s : State) (p : Nat) (x : Part) (k : Nat) : (s.setPart p x).core k = s.core k := rfl
@[simp] theorem setPart_cluster (s : State) (p : Nat) (x : Part) (k : Nat) : (s.setPart p x).cluster k = s.cluster k := rfl
@[simp] theorem setPart_die (s : State) (p : Nat) (x : Part) (k : Nat) : (s.setPart p x).die k = s.die k := rfl
@[simp] theorem setPart_strand (s : State) (p : Nat) (x : Part) (k : Nat) : (s.setPart p x).strand k = s.strand k := rfl
@[simp] theorem setPart_dom (s : State) (p : Nat) (x : Part) (k : Nat) : (s.setPart p x).dom k = s.dom k := rfl
@[simp] theorem setPart_getTeam (s : State) (p : Nat) (x : Part) (k : Nat) : (s.setPart p x).getTeam k = s.getTeam k := rfl
@[simp] theorem setPart_link (s : State) (p : Nat) (x : Part) (k l : Nat) : (s.setPart p x).link k l = s.link k l := rfl
@[simp] theorem setPart_devGet (s : State) (p : Nat) (x : Part) (k : Nat) : (s.setPart p x).devGet k = s.devGet k := rfl
@[simp] theorem setPart_byte (s : State) (p : Nat) (x : Part) (k : Nat) : (s.setPart p x).byte k = s.byte k := rfl

/-! `setStrand`. -/

@[simp] theorem setStrand_now (s : State) (a : Nat) (x : Strand) : (s.setStrand a x).now = s.now := rfl
@[simp] theorem setStrand_time (s : State) (a : Nat) (x : Strand) : (s.setStrand a x).time = s.time := rfl
@[simp] theorem setStrand_modNo (s : State) (a : Nat) (x : Strand) : (s.setStrand a x).modNo = s.modNo := rfl
@[simp] theorem setStrand_cur (s : State) (a : Nat) (x : Strand) : (s.setStrand a x).cur = s.cur := rfl
@[simp] theorem setStrand_agenda (s : State) (a : Nat) (x : Strand) : (s.setStrand a x).agenda = s.agenda := rfl
@[simp] theorem setStrand_mem (s : State) (a : Nat) (x : Strand) : (s.setStrand a x).mem = s.mem := rfl
@[simp] theorem setStrand_safe (s : State) (a : Nat) (x : Strand) : (s.setStrand a x).safe = s.safe := rfl
@[simp] theorem setStrand_bad (s : State) (a : Nat) (x : Strand) : (s.setStrand a x).bad = s.bad := rfl
@[simp] theorem setStrand_soft (s : State) (a : Nat) (x : Strand) : (s.setStrand a x).soft = s.soft := rfl
@[simp] theorem setStrand_dev (s : State) (a : Nat) (x : Strand) : (s.setStrand a x).dev = s.dev := rfl
@[simp] theorem setStrand_slots (s : State) (a : Nat) (x : Strand) : (s.setStrand a x).slots = s.slots := rfl
@[simp] theorem setStrand_cores (s : State) (a : Nat) (x : Strand) : (s.setStrand a x).cores = s.cores := rfl
@[simp] theorem setStrand_clusters (s : State) (a : Nat) (x : Strand) : (s.setStrand a x).clusters = s.clusters := rfl
@[simp] theorem setStrand_dies (s : State) (a : Nat) (x : Strand) : (s.setStrand a x).dies = s.dies := rfl
@[simp] theorem setStrand_parts (s : State) (a : Nat) (x : Strand) : (s.setStrand a x).parts = s.parts := rfl
@[simp] theorem setStrand_domains (s : State) (a : Nat) (x : Strand) : (s.setStrand a x).domains = s.domains := rfl
@[simp] theorem setStrand_teams (s : State) (a : Nat) (x : Strand) : (s.setStrand a x).teams = s.teams := rfl
@[simp] theorem setStrand_launches (s : State) (a : Nat) (x : Strand) : (s.setStrand a x).launches = s.launches := rfl
@[simp] theorem setStrand_completed (s : State) (a : Nat) (x : Strand) : (s.setStrand a x).completed = s.completed := rfl
@[simp] theorem setStrand_jobs (s : State) (a : Nat) (x : Strand) : (s.setStrand a x).jobs = s.jobs := rfl
@[simp] theorem setStrand_jobNext (s : State) (a : Nat) (x : Strand) : (s.setStrand a x).jobNext = s.jobNext := rfl
@[simp] theorem setStrand_domNext (s : State) (a : Nat) (x : Strand) : (s.setStrand a x).domNext = s.domNext := rfl
@[simp] theorem setStrand_seqNext (s : State) (a : Nat) (x : Strand) : (s.setStrand a x).seqNext = s.seqNext := rfl
@[simp] theorem setStrand_net (s : State) (a : Nat) (x : Strand) : (s.setStrand a x).net = s.net := rfl
@[simp] theorem setStrand_links (s : State) (a : Nat) (x : Strand) : (s.setStrand a x).links = s.links := rfl
@[simp] theorem setStrand_down (s : State) (a : Nat) (x : Strand) : (s.setStrand a x).down = s.down := rfl
@[simp] theorem setStrand_fw (s : State) (a : Nat) (x : Strand) : (s.setStrand a x).fw = s.fw := rfl
@[simp] theorem setStrand_mailbox (s : State) (a : Nat) (x : Strand) : (s.setStrand a x).mailbox = s.mailbox := rfl
@[simp] theorem setStrand_doe (s : State) (a : Nat) (x : Strand) : (s.setStrand a x).doe = s.doe := rfl
@[simp] theorem setStrand_flash (s : State) (a : Nat) (x : Strand) : (s.setStrand a x).flash = s.flash := rfl
@[simp] theorem setStrand_bootStep (s : State) (a : Nat) (x : Strand) : (s.setStrand a x).bootStep = s.bootStep := rfl
@[simp] theorem setStrand_recovery (s : State) (a : Nat) (x : Strand) : (s.setStrand a x).recovery = s.recovery := rfl
@[simp] theorem setStrand_glaze (s : State) (a : Nat) (x : Strand) : (s.setStrand a x).glaze = s.glaze := rfl
@[simp] theorem setStrand_glazeG (s : State) (a : Nat) (x : Strand) : (s.setStrand a x).glazeG = s.glazeG := rfl
@[simp] theorem setStrand_glazeEpoch (s : State) (a : Nat) (x : Strand) : (s.setStrand a x).glazeEpoch = s.glazeEpoch := rfl
@[simp] theorem setStrand_epoch (s : State) (a : Nat) (x : Strand) : (s.setStrand a x).epoch = s.epoch := rfl
@[simp] theorem setStrand_images (s : State) (a : Nat) (x : Strand) : (s.setStrand a x).images = s.images := rfl
@[simp] theorem setStrand_crumbs (s : State) (a : Nat) (x : Strand) : (s.setStrand a x).crumbs = s.crumbs := rfl
@[simp] theorem setStrand_crumbBroken (s : State) (a : Nat) (x : Strand) : (s.setStrand a x).crumbBroken = s.crumbBroken := rfl
@[simp] theorem setStrand_crumb75 (s : State) (a : Nat) (x : Strand) : (s.setStrand a x).crumb75 = s.crumb75 := rfl
@[simp] theorem setStrand_receipts (s : State) (a : Nat) (x : Strand) : (s.setStrand a x).receipts = s.receipts := rfl
@[simp] theorem setStrand_spare (s : State) (a : Nat) (x : Strand) : (s.setStrand a x).spare = s.spare := rfl
@[simp] theorem setStrand_routed (s : State) (a : Nat) (x : Strand) : (s.setStrand a x).routed = s.routed := rfl
@[simp] theorem setStrand_tripped (s : State) (a : Nat) (x : Strand) : (s.setStrand a x).tripped = s.tripped := rfl
@[simp] theorem setStrand_glitches (s : State) (a : Nat) (x : Strand) : (s.setStrand a x).glitches = s.glitches := rfl
@[simp] theorem setStrand_free (s : State) (a : Nat) (x : Strand) : (s.setStrand a x).free = s.free := rfl
@[simp] theorem setStrand_slot (s : State) (a : Nat) (x : Strand) (q : SlotRef) : (s.setStrand a x).slot q = s.slot q := rfl
@[simp] theorem setStrand_me (s : State) (a : Nat) (x : Strand) : (s.setStrand a x).me = s.me := rfl
@[simp] theorem setStrand_core (s : State) (a : Nat) (x : Strand) (k : Nat) : (s.setStrand a x).core k = s.core k := rfl
@[simp] theorem setStrand_cluster (s : State) (a : Nat) (x : Strand) (k : Nat) : (s.setStrand a x).cluster k = s.cluster k := rfl
@[simp] theorem setStrand_die (s : State) (a : Nat) (x : Strand) (k : Nat) : (s.setStrand a x).die k = s.die k := rfl
@[simp] theorem setStrand_getPart (s : State) (a : Nat) (x : Strand) (k : Nat) : (s.setStrand a x).getPart k = s.getPart k := rfl
@[simp] theorem setStrand_dom (s : State) (a : Nat) (x : Strand) (k : Nat) : (s.setStrand a x).dom k = s.dom k := rfl
@[simp] theorem setStrand_getTeam (s : State) (a : Nat) (x : Strand) (k : Nat) : (s.setStrand a x).getTeam k = s.getTeam k := rfl
@[simp] theorem setStrand_link (s : State) (a : Nat) (x : Strand) (k l : Nat) : (s.setStrand a x).link k l = s.link k l := rfl
@[simp] theorem setStrand_devGet (s : State) (a : Nat) (x : Strand) (k : Nat) : (s.setStrand a x).devGet k = s.devGet k := rfl
@[simp] theorem setStrand_byte (s : State) (a : Nat) (x : Strand) (k : Nat) : (s.setStrand a x).byte k = s.byte k := rfl

/-! `setDom`. -/

@[simp] theorem setDom_now (s : State) (d : Nat) (x : Domain) : (s.setDom d x).now = s.now := rfl
@[simp] theorem setDom_time (s : State) (d : Nat) (x : Domain) : (s.setDom d x).time = s.time := rfl
@[simp] theorem setDom_modNo (s : State) (d : Nat) (x : Domain) : (s.setDom d x).modNo = s.modNo := rfl
@[simp] theorem setDom_cur (s : State) (d : Nat) (x : Domain) : (s.setDom d x).cur = s.cur := rfl
@[simp] theorem setDom_agenda (s : State) (d : Nat) (x : Domain) : (s.setDom d x).agenda = s.agenda := rfl
@[simp] theorem setDom_mem (s : State) (d : Nat) (x : Domain) : (s.setDom d x).mem = s.mem := rfl
@[simp] theorem setDom_safe (s : State) (d : Nat) (x : Domain) : (s.setDom d x).safe = s.safe := rfl
@[simp] theorem setDom_bad (s : State) (d : Nat) (x : Domain) : (s.setDom d x).bad = s.bad := rfl
@[simp] theorem setDom_soft (s : State) (d : Nat) (x : Domain) : (s.setDom d x).soft = s.soft := rfl
@[simp] theorem setDom_dev (s : State) (d : Nat) (x : Domain) : (s.setDom d x).dev = s.dev := rfl
@[simp] theorem setDom_slots (s : State) (d : Nat) (x : Domain) : (s.setDom d x).slots = s.slots := rfl
@[simp] theorem setDom_cores (s : State) (d : Nat) (x : Domain) : (s.setDom d x).cores = s.cores := rfl
@[simp] theorem setDom_clusters (s : State) (d : Nat) (x : Domain) : (s.setDom d x).clusters = s.clusters := rfl
@[simp] theorem setDom_dies (s : State) (d : Nat) (x : Domain) : (s.setDom d x).dies = s.dies := rfl
@[simp] theorem setDom_parts (s : State) (d : Nat) (x : Domain) : (s.setDom d x).parts = s.parts := rfl
@[simp] theorem setDom_strands (s : State) (d : Nat) (x : Domain) : (s.setDom d x).strands = s.strands := rfl
@[simp] theorem setDom_teams (s : State) (d : Nat) (x : Domain) : (s.setDom d x).teams = s.teams := rfl
@[simp] theorem setDom_launches (s : State) (d : Nat) (x : Domain) : (s.setDom d x).launches = s.launches := rfl
@[simp] theorem setDom_completed (s : State) (d : Nat) (x : Domain) : (s.setDom d x).completed = s.completed := rfl
@[simp] theorem setDom_jobs (s : State) (d : Nat) (x : Domain) : (s.setDom d x).jobs = s.jobs := rfl
@[simp] theorem setDom_jobNext (s : State) (d : Nat) (x : Domain) : (s.setDom d x).jobNext = s.jobNext := rfl
@[simp] theorem setDom_domNext (s : State) (d : Nat) (x : Domain) : (s.setDom d x).domNext = s.domNext := rfl
@[simp] theorem setDom_seqNext (s : State) (d : Nat) (x : Domain) : (s.setDom d x).seqNext = s.seqNext := rfl
@[simp] theorem setDom_net (s : State) (d : Nat) (x : Domain) : (s.setDom d x).net = s.net := rfl
@[simp] theorem setDom_links (s : State) (d : Nat) (x : Domain) : (s.setDom d x).links = s.links := rfl
@[simp] theorem setDom_down (s : State) (d : Nat) (x : Domain) : (s.setDom d x).down = s.down := rfl
@[simp] theorem setDom_fw (s : State) (d : Nat) (x : Domain) : (s.setDom d x).fw = s.fw := rfl
@[simp] theorem setDom_mailbox (s : State) (d : Nat) (x : Domain) : (s.setDom d x).mailbox = s.mailbox := rfl
@[simp] theorem setDom_doe (s : State) (d : Nat) (x : Domain) : (s.setDom d x).doe = s.doe := rfl
@[simp] theorem setDom_flash (s : State) (d : Nat) (x : Domain) : (s.setDom d x).flash = s.flash := rfl
@[simp] theorem setDom_bootStep (s : State) (d : Nat) (x : Domain) : (s.setDom d x).bootStep = s.bootStep := rfl
@[simp] theorem setDom_recovery (s : State) (d : Nat) (x : Domain) : (s.setDom d x).recovery = s.recovery := rfl
@[simp] theorem setDom_glaze (s : State) (d : Nat) (x : Domain) : (s.setDom d x).glaze = s.glaze := rfl
@[simp] theorem setDom_glazeG (s : State) (d : Nat) (x : Domain) : (s.setDom d x).glazeG = s.glazeG := rfl
@[simp] theorem setDom_glazeEpoch (s : State) (d : Nat) (x : Domain) : (s.setDom d x).glazeEpoch = s.glazeEpoch := rfl
@[simp] theorem setDom_epoch (s : State) (d : Nat) (x : Domain) : (s.setDom d x).epoch = s.epoch := rfl
@[simp] theorem setDom_images (s : State) (d : Nat) (x : Domain) : (s.setDom d x).images = s.images := rfl
@[simp] theorem setDom_crumbs (s : State) (d : Nat) (x : Domain) : (s.setDom d x).crumbs = s.crumbs := rfl
@[simp] theorem setDom_crumbBroken (s : State) (d : Nat) (x : Domain) : (s.setDom d x).crumbBroken = s.crumbBroken := rfl
@[simp] theorem setDom_crumb75 (s : State) (d : Nat) (x : Domain) : (s.setDom d x).crumb75 = s.crumb75 := rfl
@[simp] theorem setDom_receipts (s : State) (d : Nat) (x : Domain) : (s.setDom d x).receipts = s.receipts := rfl
@[simp] theorem setDom_spare (s : State) (d : Nat) (x : Domain) : (s.setDom d x).spare = s.spare := rfl
@[simp] theorem setDom_routed (s : State) (d : Nat) (x : Domain) : (s.setDom d x).routed = s.routed := rfl
@[simp] theorem setDom_tripped (s : State) (d : Nat) (x : Domain) : (s.setDom d x).tripped = s.tripped := rfl
@[simp] theorem setDom_glitches (s : State) (d : Nat) (x : Domain) : (s.setDom d x).glitches = s.glitches := rfl
@[simp] theorem setDom_free (s : State) (d : Nat) (x : Domain) : (s.setDom d x).free = s.free := rfl
@[simp] theorem setDom_slot (s : State) (d : Nat) (x : Domain) (q : SlotRef) : (s.setDom d x).slot q = s.slot q := rfl
@[simp] theorem setDom_me (s : State) (d : Nat) (x : Domain) : (s.setDom d x).me = s.me := rfl
@[simp] theorem setDom_core (s : State) (d : Nat) (x : Domain) (k : Nat) : (s.setDom d x).core k = s.core k := rfl
@[simp] theorem setDom_cluster (s : State) (d : Nat) (x : Domain) (k : Nat) : (s.setDom d x).cluster k = s.cluster k := rfl
@[simp] theorem setDom_die (s : State) (d : Nat) (x : Domain) (k : Nat) : (s.setDom d x).die k = s.die k := rfl
@[simp] theorem setDom_getPart (s : State) (d : Nat) (x : Domain) (k : Nat) : (s.setDom d x).getPart k = s.getPart k := rfl
@[simp] theorem setDom_strand (s : State) (d : Nat) (x : Domain) (k : Nat) : (s.setDom d x).strand k = s.strand k := rfl
@[simp] theorem setDom_getTeam (s : State) (d : Nat) (x : Domain) (k : Nat) : (s.setDom d x).getTeam k = s.getTeam k := rfl
@[simp] theorem setDom_link (s : State) (d : Nat) (x : Domain) (k l : Nat) : (s.setDom d x).link k l = s.link k l := rfl
@[simp] theorem setDom_devGet (s : State) (d : Nat) (x : Domain) (k : Nat) : (s.setDom d x).devGet k = s.devGet k := rfl
@[simp] theorem setDom_byte (s : State) (d : Nat) (x : Domain) (k : Nat) : (s.setDom d x).byte k = s.byte k := rfl

/-! `setTeam`. -/

@[simp] theorem setTeam_now (s : State) (t : Nat) (x : Team) : (s.setTeam t x).now = s.now := rfl
@[simp] theorem setTeam_time (s : State) (t : Nat) (x : Team) : (s.setTeam t x).time = s.time := rfl
@[simp] theorem setTeam_modNo (s : State) (t : Nat) (x : Team) : (s.setTeam t x).modNo = s.modNo := rfl
@[simp] theorem setTeam_cur (s : State) (t : Nat) (x : Team) : (s.setTeam t x).cur = s.cur := rfl
@[simp] theorem setTeam_agenda (s : State) (t : Nat) (x : Team) : (s.setTeam t x).agenda = s.agenda := rfl
@[simp] theorem setTeam_mem (s : State) (t : Nat) (x : Team) : (s.setTeam t x).mem = s.mem := rfl
@[simp] theorem setTeam_safe (s : State) (t : Nat) (x : Team) : (s.setTeam t x).safe = s.safe := rfl
@[simp] theorem setTeam_bad (s : State) (t : Nat) (x : Team) : (s.setTeam t x).bad = s.bad := rfl
@[simp] theorem setTeam_soft (s : State) (t : Nat) (x : Team) : (s.setTeam t x).soft = s.soft := rfl
@[simp] theorem setTeam_dev (s : State) (t : Nat) (x : Team) : (s.setTeam t x).dev = s.dev := rfl
@[simp] theorem setTeam_slots (s : State) (t : Nat) (x : Team) : (s.setTeam t x).slots = s.slots := rfl
@[simp] theorem setTeam_cores (s : State) (t : Nat) (x : Team) : (s.setTeam t x).cores = s.cores := rfl
@[simp] theorem setTeam_clusters (s : State) (t : Nat) (x : Team) : (s.setTeam t x).clusters = s.clusters := rfl
@[simp] theorem setTeam_dies (s : State) (t : Nat) (x : Team) : (s.setTeam t x).dies = s.dies := rfl
@[simp] theorem setTeam_parts (s : State) (t : Nat) (x : Team) : (s.setTeam t x).parts = s.parts := rfl
@[simp] theorem setTeam_strands (s : State) (t : Nat) (x : Team) : (s.setTeam t x).strands = s.strands := rfl
@[simp] theorem setTeam_domains (s : State) (t : Nat) (x : Team) : (s.setTeam t x).domains = s.domains := rfl
@[simp] theorem setTeam_launches (s : State) (t : Nat) (x : Team) : (s.setTeam t x).launches = s.launches := rfl
@[simp] theorem setTeam_completed (s : State) (t : Nat) (x : Team) : (s.setTeam t x).completed = s.completed := rfl
@[simp] theorem setTeam_jobs (s : State) (t : Nat) (x : Team) : (s.setTeam t x).jobs = s.jobs := rfl
@[simp] theorem setTeam_jobNext (s : State) (t : Nat) (x : Team) : (s.setTeam t x).jobNext = s.jobNext := rfl
@[simp] theorem setTeam_domNext (s : State) (t : Nat) (x : Team) : (s.setTeam t x).domNext = s.domNext := rfl
@[simp] theorem setTeam_seqNext (s : State) (t : Nat) (x : Team) : (s.setTeam t x).seqNext = s.seqNext := rfl
@[simp] theorem setTeam_net (s : State) (t : Nat) (x : Team) : (s.setTeam t x).net = s.net := rfl
@[simp] theorem setTeam_links (s : State) (t : Nat) (x : Team) : (s.setTeam t x).links = s.links := rfl
@[simp] theorem setTeam_down (s : State) (t : Nat) (x : Team) : (s.setTeam t x).down = s.down := rfl
@[simp] theorem setTeam_fw (s : State) (t : Nat) (x : Team) : (s.setTeam t x).fw = s.fw := rfl
@[simp] theorem setTeam_mailbox (s : State) (t : Nat) (x : Team) : (s.setTeam t x).mailbox = s.mailbox := rfl
@[simp] theorem setTeam_doe (s : State) (t : Nat) (x : Team) : (s.setTeam t x).doe = s.doe := rfl
@[simp] theorem setTeam_flash (s : State) (t : Nat) (x : Team) : (s.setTeam t x).flash = s.flash := rfl
@[simp] theorem setTeam_bootStep (s : State) (t : Nat) (x : Team) : (s.setTeam t x).bootStep = s.bootStep := rfl
@[simp] theorem setTeam_recovery (s : State) (t : Nat) (x : Team) : (s.setTeam t x).recovery = s.recovery := rfl
@[simp] theorem setTeam_glaze (s : State) (t : Nat) (x : Team) : (s.setTeam t x).glaze = s.glaze := rfl
@[simp] theorem setTeam_glazeG (s : State) (t : Nat) (x : Team) : (s.setTeam t x).glazeG = s.glazeG := rfl
@[simp] theorem setTeam_glazeEpoch (s : State) (t : Nat) (x : Team) : (s.setTeam t x).glazeEpoch = s.glazeEpoch := rfl
@[simp] theorem setTeam_epoch (s : State) (t : Nat) (x : Team) : (s.setTeam t x).epoch = s.epoch := rfl
@[simp] theorem setTeam_images (s : State) (t : Nat) (x : Team) : (s.setTeam t x).images = s.images := rfl
@[simp] theorem setTeam_crumbs (s : State) (t : Nat) (x : Team) : (s.setTeam t x).crumbs = s.crumbs := rfl
@[simp] theorem setTeam_crumbBroken (s : State) (t : Nat) (x : Team) : (s.setTeam t x).crumbBroken = s.crumbBroken := rfl
@[simp] theorem setTeam_crumb75 (s : State) (t : Nat) (x : Team) : (s.setTeam t x).crumb75 = s.crumb75 := rfl
@[simp] theorem setTeam_receipts (s : State) (t : Nat) (x : Team) : (s.setTeam t x).receipts = s.receipts := rfl
@[simp] theorem setTeam_spare (s : State) (t : Nat) (x : Team) : (s.setTeam t x).spare = s.spare := rfl
@[simp] theorem setTeam_routed (s : State) (t : Nat) (x : Team) : (s.setTeam t x).routed = s.routed := rfl
@[simp] theorem setTeam_tripped (s : State) (t : Nat) (x : Team) : (s.setTeam t x).tripped = s.tripped := rfl
@[simp] theorem setTeam_glitches (s : State) (t : Nat) (x : Team) : (s.setTeam t x).glitches = s.glitches := rfl
@[simp] theorem setTeam_free (s : State) (t : Nat) (x : Team) : (s.setTeam t x).free = s.free := rfl
@[simp] theorem setTeam_slot (s : State) (t : Nat) (x : Team) (q : SlotRef) : (s.setTeam t x).slot q = s.slot q := rfl
@[simp] theorem setTeam_me (s : State) (t : Nat) (x : Team) : (s.setTeam t x).me = s.me := rfl
@[simp] theorem setTeam_core (s : State) (t : Nat) (x : Team) (k : Nat) : (s.setTeam t x).core k = s.core k := rfl
@[simp] theorem setTeam_cluster (s : State) (t : Nat) (x : Team) (k : Nat) : (s.setTeam t x).cluster k = s.cluster k := rfl
@[simp] theorem setTeam_die (s : State) (t : Nat) (x : Team) (k : Nat) : (s.setTeam t x).die k = s.die k := rfl
@[simp] theorem setTeam_getPart (s : State) (t : Nat) (x : Team) (k : Nat) : (s.setTeam t x).getPart k = s.getPart k := rfl
@[simp] theorem setTeam_strand (s : State) (t : Nat) (x : Team) (k : Nat) : (s.setTeam t x).strand k = s.strand k := rfl
@[simp] theorem setTeam_dom (s : State) (t : Nat) (x : Team) (k : Nat) : (s.setTeam t x).dom k = s.dom k := rfl
@[simp] theorem setTeam_link (s : State) (t : Nat) (x : Team) (k l : Nat) : (s.setTeam t x).link k l = s.link k l := rfl
@[simp] theorem setTeam_devGet (s : State) (t : Nat) (x : Team) (k : Nat) : (s.setTeam t x).devGet k = s.devGet k := rfl
@[simp] theorem setTeam_byte (s : State) (t : Nat) (x : Team) (k : Nat) : (s.setTeam t x).byte k = s.byte k := rfl

/-! `setLink`. -/

@[simp] theorem setLink_now (s : State) (d i : Nat) (x : LinkInst) : (s.setLink d i x).now = s.now := rfl
@[simp] theorem setLink_time (s : State) (d i : Nat) (x : LinkInst) : (s.setLink d i x).time = s.time := rfl
@[simp] theorem setLink_modNo (s : State) (d i : Nat) (x : LinkInst) : (s.setLink d i x).modNo = s.modNo := rfl
@[simp] theorem setLink_cur (s : State) (d i : Nat) (x : LinkInst) : (s.setLink d i x).cur = s.cur := rfl
@[simp] theorem setLink_agenda (s : State) (d i : Nat) (x : LinkInst) : (s.setLink d i x).agenda = s.agenda := rfl
@[simp] theorem setLink_mem (s : State) (d i : Nat) (x : LinkInst) : (s.setLink d i x).mem = s.mem := rfl
@[simp] theorem setLink_safe (s : State) (d i : Nat) (x : LinkInst) : (s.setLink d i x).safe = s.safe := rfl
@[simp] theorem setLink_bad (s : State) (d i : Nat) (x : LinkInst) : (s.setLink d i x).bad = s.bad := rfl
@[simp] theorem setLink_soft (s : State) (d i : Nat) (x : LinkInst) : (s.setLink d i x).soft = s.soft := rfl
@[simp] theorem setLink_dev (s : State) (d i : Nat) (x : LinkInst) : (s.setLink d i x).dev = s.dev := rfl
@[simp] theorem setLink_slots (s : State) (d i : Nat) (x : LinkInst) : (s.setLink d i x).slots = s.slots := rfl
@[simp] theorem setLink_cores (s : State) (d i : Nat) (x : LinkInst) : (s.setLink d i x).cores = s.cores := rfl
@[simp] theorem setLink_clusters (s : State) (d i : Nat) (x : LinkInst) : (s.setLink d i x).clusters = s.clusters := rfl
@[simp] theorem setLink_dies (s : State) (d i : Nat) (x : LinkInst) : (s.setLink d i x).dies = s.dies := rfl
@[simp] theorem setLink_parts (s : State) (d i : Nat) (x : LinkInst) : (s.setLink d i x).parts = s.parts := rfl
@[simp] theorem setLink_strands (s : State) (d i : Nat) (x : LinkInst) : (s.setLink d i x).strands = s.strands := rfl
@[simp] theorem setLink_domains (s : State) (d i : Nat) (x : LinkInst) : (s.setLink d i x).domains = s.domains := rfl
@[simp] theorem setLink_teams (s : State) (d i : Nat) (x : LinkInst) : (s.setLink d i x).teams = s.teams := rfl
@[simp] theorem setLink_launches (s : State) (d i : Nat) (x : LinkInst) : (s.setLink d i x).launches = s.launches := rfl
@[simp] theorem setLink_completed (s : State) (d i : Nat) (x : LinkInst) : (s.setLink d i x).completed = s.completed := rfl
@[simp] theorem setLink_jobs (s : State) (d i : Nat) (x : LinkInst) : (s.setLink d i x).jobs = s.jobs := rfl
@[simp] theorem setLink_jobNext (s : State) (d i : Nat) (x : LinkInst) : (s.setLink d i x).jobNext = s.jobNext := rfl
@[simp] theorem setLink_domNext (s : State) (d i : Nat) (x : LinkInst) : (s.setLink d i x).domNext = s.domNext := rfl
@[simp] theorem setLink_seqNext (s : State) (d i : Nat) (x : LinkInst) : (s.setLink d i x).seqNext = s.seqNext := rfl
@[simp] theorem setLink_net (s : State) (d i : Nat) (x : LinkInst) : (s.setLink d i x).net = s.net := rfl
@[simp] theorem setLink_down (s : State) (d i : Nat) (x : LinkInst) : (s.setLink d i x).down = s.down := rfl
@[simp] theorem setLink_fw (s : State) (d i : Nat) (x : LinkInst) : (s.setLink d i x).fw = s.fw := rfl
@[simp] theorem setLink_mailbox (s : State) (d i : Nat) (x : LinkInst) : (s.setLink d i x).mailbox = s.mailbox := rfl
@[simp] theorem setLink_doe (s : State) (d i : Nat) (x : LinkInst) : (s.setLink d i x).doe = s.doe := rfl
@[simp] theorem setLink_flash (s : State) (d i : Nat) (x : LinkInst) : (s.setLink d i x).flash = s.flash := rfl
@[simp] theorem setLink_bootStep (s : State) (d i : Nat) (x : LinkInst) : (s.setLink d i x).bootStep = s.bootStep := rfl
@[simp] theorem setLink_recovery (s : State) (d i : Nat) (x : LinkInst) : (s.setLink d i x).recovery = s.recovery := rfl
@[simp] theorem setLink_glaze (s : State) (d i : Nat) (x : LinkInst) : (s.setLink d i x).glaze = s.glaze := rfl
@[simp] theorem setLink_glazeG (s : State) (d i : Nat) (x : LinkInst) : (s.setLink d i x).glazeG = s.glazeG := rfl
@[simp] theorem setLink_glazeEpoch (s : State) (d i : Nat) (x : LinkInst) : (s.setLink d i x).glazeEpoch = s.glazeEpoch := rfl
@[simp] theorem setLink_epoch (s : State) (d i : Nat) (x : LinkInst) : (s.setLink d i x).epoch = s.epoch := rfl
@[simp] theorem setLink_images (s : State) (d i : Nat) (x : LinkInst) : (s.setLink d i x).images = s.images := rfl
@[simp] theorem setLink_crumbs (s : State) (d i : Nat) (x : LinkInst) : (s.setLink d i x).crumbs = s.crumbs := rfl
@[simp] theorem setLink_crumbBroken (s : State) (d i : Nat) (x : LinkInst) : (s.setLink d i x).crumbBroken = s.crumbBroken := rfl
@[simp] theorem setLink_crumb75 (s : State) (d i : Nat) (x : LinkInst) : (s.setLink d i x).crumb75 = s.crumb75 := rfl
@[simp] theorem setLink_receipts (s : State) (d i : Nat) (x : LinkInst) : (s.setLink d i x).receipts = s.receipts := rfl
@[simp] theorem setLink_spare (s : State) (d i : Nat) (x : LinkInst) : (s.setLink d i x).spare = s.spare := rfl
@[simp] theorem setLink_routed (s : State) (d i : Nat) (x : LinkInst) : (s.setLink d i x).routed = s.routed := rfl
@[simp] theorem setLink_tripped (s : State) (d i : Nat) (x : LinkInst) : (s.setLink d i x).tripped = s.tripped := rfl
@[simp] theorem setLink_glitches (s : State) (d i : Nat) (x : LinkInst) : (s.setLink d i x).glitches = s.glitches := rfl
@[simp] theorem setLink_free (s : State) (d i : Nat) (x : LinkInst) : (s.setLink d i x).free = s.free := rfl
@[simp] theorem setLink_slot (s : State) (d i : Nat) (x : LinkInst) (q : SlotRef) : (s.setLink d i x).slot q = s.slot q := rfl
@[simp] theorem setLink_me (s : State) (d i : Nat) (x : LinkInst) : (s.setLink d i x).me = s.me := rfl
@[simp] theorem setLink_core (s : State) (d i : Nat) (x : LinkInst) (k : Nat) : (s.setLink d i x).core k = s.core k := rfl
@[simp] theorem setLink_cluster (s : State) (d i : Nat) (x : LinkInst) (k : Nat) : (s.setLink d i x).cluster k = s.cluster k := rfl
@[simp] theorem setLink_die (s : State) (d i : Nat) (x : LinkInst) (k : Nat) : (s.setLink d i x).die k = s.die k := rfl
@[simp] theorem setLink_getPart (s : State) (d i : Nat) (x : LinkInst) (k : Nat) : (s.setLink d i x).getPart k = s.getPart k := rfl
@[simp] theorem setLink_strand (s : State) (d i : Nat) (x : LinkInst) (k : Nat) : (s.setLink d i x).strand k = s.strand k := rfl
@[simp] theorem setLink_dom (s : State) (d i : Nat) (x : LinkInst) (k : Nat) : (s.setLink d i x).dom k = s.dom k := rfl
@[simp] theorem setLink_getTeam (s : State) (d i : Nat) (x : LinkInst) (k : Nat) : (s.setLink d i x).getTeam k = s.getTeam k := rfl
@[simp] theorem setLink_devGet (s : State) (d i : Nat) (x : LinkInst) (k : Nat) : (s.setLink d i x).devGet k = s.devGet k := rfl
@[simp] theorem setLink_byte (s : State) (d i : Nat) (x : LinkInst) (k : Nat) : (s.setLink d i x).byte k = s.byte k := rfl

/-! `devSet`. -/

@[simp] theorem devSet_now (s : State) (a : Nat) (v : Word) : (s.devSet a v).now = s.now := rfl
@[simp] theorem devSet_time (s : State) (a : Nat) (v : Word) : (s.devSet a v).time = s.time := rfl
@[simp] theorem devSet_modNo (s : State) (a : Nat) (v : Word) : (s.devSet a v).modNo = s.modNo := rfl
@[simp] theorem devSet_cur (s : State) (a : Nat) (v : Word) : (s.devSet a v).cur = s.cur := rfl
@[simp] theorem devSet_agenda (s : State) (a : Nat) (v : Word) : (s.devSet a v).agenda = s.agenda := rfl
@[simp] theorem devSet_mem (s : State) (a : Nat) (v : Word) : (s.devSet a v).mem = s.mem := rfl
@[simp] theorem devSet_safe (s : State) (a : Nat) (v : Word) : (s.devSet a v).safe = s.safe := rfl
@[simp] theorem devSet_bad (s : State) (a : Nat) (v : Word) : (s.devSet a v).bad = s.bad := rfl
@[simp] theorem devSet_soft (s : State) (a : Nat) (v : Word) : (s.devSet a v).soft = s.soft := rfl
@[simp] theorem devSet_slots (s : State) (a : Nat) (v : Word) : (s.devSet a v).slots = s.slots := rfl
@[simp] theorem devSet_cores (s : State) (a : Nat) (v : Word) : (s.devSet a v).cores = s.cores := rfl
@[simp] theorem devSet_clusters (s : State) (a : Nat) (v : Word) : (s.devSet a v).clusters = s.clusters := rfl
@[simp] theorem devSet_dies (s : State) (a : Nat) (v : Word) : (s.devSet a v).dies = s.dies := rfl
@[simp] theorem devSet_parts (s : State) (a : Nat) (v : Word) : (s.devSet a v).parts = s.parts := rfl
@[simp] theorem devSet_strands (s : State) (a : Nat) (v : Word) : (s.devSet a v).strands = s.strands := rfl
@[simp] theorem devSet_domains (s : State) (a : Nat) (v : Word) : (s.devSet a v).domains = s.domains := rfl
@[simp] theorem devSet_teams (s : State) (a : Nat) (v : Word) : (s.devSet a v).teams = s.teams := rfl
@[simp] theorem devSet_launches (s : State) (a : Nat) (v : Word) : (s.devSet a v).launches = s.launches := rfl
@[simp] theorem devSet_completed (s : State) (a : Nat) (v : Word) : (s.devSet a v).completed = s.completed := rfl
@[simp] theorem devSet_jobs (s : State) (a : Nat) (v : Word) : (s.devSet a v).jobs = s.jobs := rfl
@[simp] theorem devSet_jobNext (s : State) (a : Nat) (v : Word) : (s.devSet a v).jobNext = s.jobNext := rfl
@[simp] theorem devSet_domNext (s : State) (a : Nat) (v : Word) : (s.devSet a v).domNext = s.domNext := rfl
@[simp] theorem devSet_seqNext (s : State) (a : Nat) (v : Word) : (s.devSet a v).seqNext = s.seqNext := rfl
@[simp] theorem devSet_net (s : State) (a : Nat) (v : Word) : (s.devSet a v).net = s.net := rfl
@[simp] theorem devSet_links (s : State) (a : Nat) (v : Word) : (s.devSet a v).links = s.links := rfl
@[simp] theorem devSet_down (s : State) (a : Nat) (v : Word) : (s.devSet a v).down = s.down := rfl
@[simp] theorem devSet_fw (s : State) (a : Nat) (v : Word) : (s.devSet a v).fw = s.fw := rfl
@[simp] theorem devSet_mailbox (s : State) (a : Nat) (v : Word) : (s.devSet a v).mailbox = s.mailbox := rfl
@[simp] theorem devSet_doe (s : State) (a : Nat) (v : Word) : (s.devSet a v).doe = s.doe := rfl
@[simp] theorem devSet_flash (s : State) (a : Nat) (v : Word) : (s.devSet a v).flash = s.flash := rfl
@[simp] theorem devSet_bootStep (s : State) (a : Nat) (v : Word) : (s.devSet a v).bootStep = s.bootStep := rfl
@[simp] theorem devSet_recovery (s : State) (a : Nat) (v : Word) : (s.devSet a v).recovery = s.recovery := rfl
@[simp] theorem devSet_glaze (s : State) (a : Nat) (v : Word) : (s.devSet a v).glaze = s.glaze := rfl
@[simp] theorem devSet_glazeG (s : State) (a : Nat) (v : Word) : (s.devSet a v).glazeG = s.glazeG := rfl
@[simp] theorem devSet_glazeEpoch (s : State) (a : Nat) (v : Word) : (s.devSet a v).glazeEpoch = s.glazeEpoch := rfl
@[simp] theorem devSet_epoch (s : State) (a : Nat) (v : Word) : (s.devSet a v).epoch = s.epoch := rfl
@[simp] theorem devSet_images (s : State) (a : Nat) (v : Word) : (s.devSet a v).images = s.images := rfl
@[simp] theorem devSet_crumbs (s : State) (a : Nat) (v : Word) : (s.devSet a v).crumbs = s.crumbs := rfl
@[simp] theorem devSet_crumbBroken (s : State) (a : Nat) (v : Word) : (s.devSet a v).crumbBroken = s.crumbBroken := rfl
@[simp] theorem devSet_crumb75 (s : State) (a : Nat) (v : Word) : (s.devSet a v).crumb75 = s.crumb75 := rfl
@[simp] theorem devSet_receipts (s : State) (a : Nat) (v : Word) : (s.devSet a v).receipts = s.receipts := rfl
@[simp] theorem devSet_spare (s : State) (a : Nat) (v : Word) : (s.devSet a v).spare = s.spare := rfl
@[simp] theorem devSet_routed (s : State) (a : Nat) (v : Word) : (s.devSet a v).routed = s.routed := rfl
@[simp] theorem devSet_tripped (s : State) (a : Nat) (v : Word) : (s.devSet a v).tripped = s.tripped := rfl
@[simp] theorem devSet_glitches (s : State) (a : Nat) (v : Word) : (s.devSet a v).glitches = s.glitches := rfl
@[simp] theorem devSet_free (s : State) (a : Nat) (v : Word) : (s.devSet a v).free = s.free := rfl
@[simp] theorem devSet_slot (s : State) (a : Nat) (v : Word) (q : SlotRef) : (s.devSet a v).slot q = s.slot q := rfl
@[simp] theorem devSet_me (s : State) (a : Nat) (v : Word) : (s.devSet a v).me = s.me := rfl
@[simp] theorem devSet_core (s : State) (a : Nat) (v : Word) (k : Nat) : (s.devSet a v).core k = s.core k := rfl
@[simp] theorem devSet_cluster (s : State) (a : Nat) (v : Word) (k : Nat) : (s.devSet a v).cluster k = s.cluster k := rfl
@[simp] theorem devSet_die (s : State) (a : Nat) (v : Word) (k : Nat) : (s.devSet a v).die k = s.die k := rfl
@[simp] theorem devSet_getPart (s : State) (a : Nat) (v : Word) (k : Nat) : (s.devSet a v).getPart k = s.getPart k := rfl
@[simp] theorem devSet_strand (s : State) (a : Nat) (v : Word) (k : Nat) : (s.devSet a v).strand k = s.strand k := rfl
@[simp] theorem devSet_dom (s : State) (a : Nat) (v : Word) (k : Nat) : (s.devSet a v).dom k = s.dom k := rfl
@[simp] theorem devSet_getTeam (s : State) (a : Nat) (v : Word) (k : Nat) : (s.devSet a v).getTeam k = s.getTeam k := rfl
@[simp] theorem devSet_link (s : State) (a : Nat) (v : Word) (k l : Nat) : (s.devSet a v).link k l = s.link k l := rfl
@[simp] theorem devSet_byte (s : State) (a : Nat) (v : Word) (k : Nat) : (s.devSet a v).byte k = s.byte k := rfl

/-! `storeAt`. -/

@[simp] theorem storeAt_now (s : State) (pa n v : Nat) : (s.storeAt pa n v).now = s.now := rfl
@[simp] theorem storeAt_time (s : State) (pa n v : Nat) : (s.storeAt pa n v).time = s.time := rfl
@[simp] theorem storeAt_modNo (s : State) (pa n v : Nat) : (s.storeAt pa n v).modNo = s.modNo := rfl
@[simp] theorem storeAt_cur (s : State) (pa n v : Nat) : (s.storeAt pa n v).cur = s.cur := rfl
@[simp] theorem storeAt_agenda (s : State) (pa n v : Nat) : (s.storeAt pa n v).agenda = s.agenda := rfl
@[simp] theorem storeAt_safe (s : State) (pa n v : Nat) : (s.storeAt pa n v).safe = s.safe := rfl
@[simp] theorem storeAt_bad (s : State) (pa n v : Nat) : (s.storeAt pa n v).bad = s.bad := rfl
@[simp] theorem storeAt_soft (s : State) (pa n v : Nat) : (s.storeAt pa n v).soft = s.soft := rfl
@[simp] theorem storeAt_dev (s : State) (pa n v : Nat) : (s.storeAt pa n v).dev = s.dev := rfl
@[simp] theorem storeAt_slots (s : State) (pa n v : Nat) : (s.storeAt pa n v).slots = s.slots := rfl
@[simp] theorem storeAt_cores (s : State) (pa n v : Nat) : (s.storeAt pa n v).cores = s.cores := rfl
@[simp] theorem storeAt_clusters (s : State) (pa n v : Nat) : (s.storeAt pa n v).clusters = s.clusters := rfl
@[simp] theorem storeAt_dies (s : State) (pa n v : Nat) : (s.storeAt pa n v).dies = s.dies := rfl
@[simp] theorem storeAt_parts (s : State) (pa n v : Nat) : (s.storeAt pa n v).parts = s.parts := rfl
@[simp] theorem storeAt_strands (s : State) (pa n v : Nat) : (s.storeAt pa n v).strands = s.strands := rfl
@[simp] theorem storeAt_domains (s : State) (pa n v : Nat) : (s.storeAt pa n v).domains = s.domains := rfl
@[simp] theorem storeAt_teams (s : State) (pa n v : Nat) : (s.storeAt pa n v).teams = s.teams := rfl
@[simp] theorem storeAt_launches (s : State) (pa n v : Nat) : (s.storeAt pa n v).launches = s.launches := rfl
@[simp] theorem storeAt_completed (s : State) (pa n v : Nat) : (s.storeAt pa n v).completed = s.completed := rfl
@[simp] theorem storeAt_jobs (s : State) (pa n v : Nat) : (s.storeAt pa n v).jobs = s.jobs := rfl
@[simp] theorem storeAt_jobNext (s : State) (pa n v : Nat) : (s.storeAt pa n v).jobNext = s.jobNext := rfl
@[simp] theorem storeAt_domNext (s : State) (pa n v : Nat) : (s.storeAt pa n v).domNext = s.domNext := rfl
@[simp] theorem storeAt_seqNext (s : State) (pa n v : Nat) : (s.storeAt pa n v).seqNext = s.seqNext := rfl
@[simp] theorem storeAt_net (s : State) (pa n v : Nat) : (s.storeAt pa n v).net = s.net := rfl
@[simp] theorem storeAt_links (s : State) (pa n v : Nat) : (s.storeAt pa n v).links = s.links := rfl
@[simp] theorem storeAt_down (s : State) (pa n v : Nat) : (s.storeAt pa n v).down = s.down := rfl
@[simp] theorem storeAt_fw (s : State) (pa n v : Nat) : (s.storeAt pa n v).fw = s.fw := rfl
@[simp] theorem storeAt_mailbox (s : State) (pa n v : Nat) : (s.storeAt pa n v).mailbox = s.mailbox := rfl
@[simp] theorem storeAt_doe (s : State) (pa n v : Nat) : (s.storeAt pa n v).doe = s.doe := rfl
@[simp] theorem storeAt_flash (s : State) (pa n v : Nat) : (s.storeAt pa n v).flash = s.flash := rfl
@[simp] theorem storeAt_bootStep (s : State) (pa n v : Nat) : (s.storeAt pa n v).bootStep = s.bootStep := rfl
@[simp] theorem storeAt_recovery (s : State) (pa n v : Nat) : (s.storeAt pa n v).recovery = s.recovery := rfl
@[simp] theorem storeAt_glaze (s : State) (pa n v : Nat) : (s.storeAt pa n v).glaze = s.glaze := rfl
@[simp] theorem storeAt_glazeG (s : State) (pa n v : Nat) : (s.storeAt pa n v).glazeG = s.glazeG := rfl
@[simp] theorem storeAt_glazeEpoch (s : State) (pa n v : Nat) : (s.storeAt pa n v).glazeEpoch = s.glazeEpoch := rfl
@[simp] theorem storeAt_epoch (s : State) (pa n v : Nat) : (s.storeAt pa n v).epoch = s.epoch := rfl
@[simp] theorem storeAt_images (s : State) (pa n v : Nat) : (s.storeAt pa n v).images = s.images := rfl
@[simp] theorem storeAt_crumbs (s : State) (pa n v : Nat) : (s.storeAt pa n v).crumbs = s.crumbs := rfl
@[simp] theorem storeAt_crumbBroken (s : State) (pa n v : Nat) : (s.storeAt pa n v).crumbBroken = s.crumbBroken := rfl
@[simp] theorem storeAt_crumb75 (s : State) (pa n v : Nat) : (s.storeAt pa n v).crumb75 = s.crumb75 := rfl
@[simp] theorem storeAt_receipts (s : State) (pa n v : Nat) : (s.storeAt pa n v).receipts = s.receipts := rfl
@[simp] theorem storeAt_spare (s : State) (pa n v : Nat) : (s.storeAt pa n v).spare = s.spare := rfl
@[simp] theorem storeAt_routed (s : State) (pa n v : Nat) : (s.storeAt pa n v).routed = s.routed := rfl
@[simp] theorem storeAt_tripped (s : State) (pa n v : Nat) : (s.storeAt pa n v).tripped = s.tripped := rfl
@[simp] theorem storeAt_glitches (s : State) (pa n v : Nat) : (s.storeAt pa n v).glitches = s.glitches := rfl
@[simp] theorem storeAt_free (s : State) (pa n v : Nat) : (s.storeAt pa n v).free = s.free := rfl
@[simp] theorem storeAt_slot (s : State) (pa n v : Nat) (q : SlotRef) : (s.storeAt pa n v).slot q = s.slot q := rfl
@[simp] theorem storeAt_me (s : State) (pa n v : Nat) : (s.storeAt pa n v).me = s.me := rfl
@[simp] theorem storeAt_core (s : State) (pa n v : Nat) (k : Nat) : (s.storeAt pa n v).core k = s.core k := rfl
@[simp] theorem storeAt_cluster (s : State) (pa n v : Nat) (k : Nat) : (s.storeAt pa n v).cluster k = s.cluster k := rfl
@[simp] theorem storeAt_die (s : State) (pa n v : Nat) (k : Nat) : (s.storeAt pa n v).die k = s.die k := rfl
@[simp] theorem storeAt_getPart (s : State) (pa n v : Nat) (k : Nat) : (s.storeAt pa n v).getPart k = s.getPart k := rfl
@[simp] theorem storeAt_strand (s : State) (pa n v : Nat) (k : Nat) : (s.storeAt pa n v).strand k = s.strand k := rfl
@[simp] theorem storeAt_dom (s : State) (pa n v : Nat) (k : Nat) : (s.storeAt pa n v).dom k = s.dom k := rfl
@[simp] theorem storeAt_getTeam (s : State) (pa n v : Nat) (k : Nat) : (s.storeAt pa n v).getTeam k = s.getTeam k := rfl
@[simp] theorem storeAt_link (s : State) (pa n v : Nat) (k l : Nat) : (s.storeAt pa n v).link k l = s.link k l := rfl
@[simp] theorem storeAt_devGet (s : State) (pa n v : Nat) (k : Nat) : (s.storeAt pa n v).devGet k = s.devGet k := rfl

/-! `fwTell`. -/

@[simp] theorem fwTell_now (s : State) (d c : Nat) (n : FwNote) : (s.fwTell d c n).now = s.now := rfl
@[simp] theorem fwTell_time (s : State) (d c : Nat) (n : FwNote) : (s.fwTell d c n).time = s.time := rfl
@[simp] theorem fwTell_modNo (s : State) (d c : Nat) (n : FwNote) : (s.fwTell d c n).modNo = s.modNo := rfl
@[simp] theorem fwTell_cur (s : State) (d c : Nat) (n : FwNote) : (s.fwTell d c n).cur = s.cur := rfl
@[simp] theorem fwTell_agenda (s : State) (d c : Nat) (n : FwNote) : (s.fwTell d c n).agenda = s.agenda := rfl
@[simp] theorem fwTell_mem (s : State) (d c : Nat) (n : FwNote) : (s.fwTell d c n).mem = s.mem := rfl
@[simp] theorem fwTell_safe (s : State) (d c : Nat) (n : FwNote) : (s.fwTell d c n).safe = s.safe := rfl
@[simp] theorem fwTell_bad (s : State) (d c : Nat) (n : FwNote) : (s.fwTell d c n).bad = s.bad := rfl
@[simp] theorem fwTell_soft (s : State) (d c : Nat) (n : FwNote) : (s.fwTell d c n).soft = s.soft := rfl
@[simp] theorem fwTell_dev (s : State) (d c : Nat) (n : FwNote) : (s.fwTell d c n).dev = s.dev := rfl
@[simp] theorem fwTell_slots (s : State) (d c : Nat) (n : FwNote) : (s.fwTell d c n).slots = s.slots := rfl
@[simp] theorem fwTell_cores (s : State) (d c : Nat) (n : FwNote) : (s.fwTell d c n).cores = s.cores := rfl
@[simp] theorem fwTell_clusters (s : State) (d c : Nat) (n : FwNote) : (s.fwTell d c n).clusters = s.clusters := rfl
@[simp] theorem fwTell_dies (s : State) (d c : Nat) (n : FwNote) : (s.fwTell d c n).dies = s.dies := rfl
@[simp] theorem fwTell_parts (s : State) (d c : Nat) (n : FwNote) : (s.fwTell d c n).parts = s.parts := rfl
@[simp] theorem fwTell_strands (s : State) (d c : Nat) (n : FwNote) : (s.fwTell d c n).strands = s.strands := rfl
@[simp] theorem fwTell_domains (s : State) (d c : Nat) (n : FwNote) : (s.fwTell d c n).domains = s.domains := rfl
@[simp] theorem fwTell_teams (s : State) (d c : Nat) (n : FwNote) : (s.fwTell d c n).teams = s.teams := rfl
@[simp] theorem fwTell_launches (s : State) (d c : Nat) (n : FwNote) : (s.fwTell d c n).launches = s.launches := rfl
@[simp] theorem fwTell_completed (s : State) (d c : Nat) (n : FwNote) : (s.fwTell d c n).completed = s.completed := rfl
@[simp] theorem fwTell_jobs (s : State) (d c : Nat) (n : FwNote) : (s.fwTell d c n).jobs = s.jobs := rfl
@[simp] theorem fwTell_jobNext (s : State) (d c : Nat) (n : FwNote) : (s.fwTell d c n).jobNext = s.jobNext := rfl
@[simp] theorem fwTell_domNext (s : State) (d c : Nat) (n : FwNote) : (s.fwTell d c n).domNext = s.domNext := rfl
@[simp] theorem fwTell_seqNext (s : State) (d c : Nat) (n : FwNote) : (s.fwTell d c n).seqNext = s.seqNext := rfl
@[simp] theorem fwTell_net (s : State) (d c : Nat) (n : FwNote) : (s.fwTell d c n).net = s.net := rfl
@[simp] theorem fwTell_links (s : State) (d c : Nat) (n : FwNote) : (s.fwTell d c n).links = s.links := rfl
@[simp] theorem fwTell_down (s : State) (d c : Nat) (n : FwNote) : (s.fwTell d c n).down = s.down := rfl
@[simp] theorem fwTell_mailbox (s : State) (d c : Nat) (n : FwNote) : (s.fwTell d c n).mailbox = s.mailbox := rfl
@[simp] theorem fwTell_doe (s : State) (d c : Nat) (n : FwNote) : (s.fwTell d c n).doe = s.doe := rfl
@[simp] theorem fwTell_flash (s : State) (d c : Nat) (n : FwNote) : (s.fwTell d c n).flash = s.flash := rfl
@[simp] theorem fwTell_bootStep (s : State) (d c : Nat) (n : FwNote) : (s.fwTell d c n).bootStep = s.bootStep := rfl
@[simp] theorem fwTell_recovery (s : State) (d c : Nat) (n : FwNote) : (s.fwTell d c n).recovery = s.recovery := rfl
@[simp] theorem fwTell_glaze (s : State) (d c : Nat) (n : FwNote) : (s.fwTell d c n).glaze = s.glaze := rfl
@[simp] theorem fwTell_glazeG (s : State) (d c : Nat) (n : FwNote) : (s.fwTell d c n).glazeG = s.glazeG := rfl
@[simp] theorem fwTell_glazeEpoch (s : State) (d c : Nat) (n : FwNote) : (s.fwTell d c n).glazeEpoch = s.glazeEpoch := rfl
@[simp] theorem fwTell_epoch (s : State) (d c : Nat) (n : FwNote) : (s.fwTell d c n).epoch = s.epoch := rfl
@[simp] theorem fwTell_images (s : State) (d c : Nat) (n : FwNote) : (s.fwTell d c n).images = s.images := rfl
@[simp] theorem fwTell_crumbs (s : State) (d c : Nat) (n : FwNote) : (s.fwTell d c n).crumbs = s.crumbs := rfl
@[simp] theorem fwTell_crumbBroken (s : State) (d c : Nat) (n : FwNote) : (s.fwTell d c n).crumbBroken = s.crumbBroken := rfl
@[simp] theorem fwTell_crumb75 (s : State) (d c : Nat) (n : FwNote) : (s.fwTell d c n).crumb75 = s.crumb75 := rfl
@[simp] theorem fwTell_receipts (s : State) (d c : Nat) (n : FwNote) : (s.fwTell d c n).receipts = s.receipts := rfl
@[simp] theorem fwTell_spare (s : State) (d c : Nat) (n : FwNote) : (s.fwTell d c n).spare = s.spare := rfl
@[simp] theorem fwTell_routed (s : State) (d c : Nat) (n : FwNote) : (s.fwTell d c n).routed = s.routed := rfl
@[simp] theorem fwTell_tripped (s : State) (d c : Nat) (n : FwNote) : (s.fwTell d c n).tripped = s.tripped := rfl
@[simp] theorem fwTell_glitches (s : State) (d c : Nat) (n : FwNote) : (s.fwTell d c n).glitches = s.glitches := rfl
@[simp] theorem fwTell_free (s : State) (d c : Nat) (n : FwNote) : (s.fwTell d c n).free = s.free := rfl
@[simp] theorem fwTell_slot (s : State) (d c : Nat) (n : FwNote) (q : SlotRef) : (s.fwTell d c n).slot q = s.slot q := rfl
@[simp] theorem fwTell_me (s : State) (d c : Nat) (n : FwNote) : (s.fwTell d c n).me = s.me := rfl
@[simp] theorem fwTell_core (s : State) (d c : Nat) (n : FwNote) (k : Nat) : (s.fwTell d c n).core k = s.core k := rfl
@[simp] theorem fwTell_cluster (s : State) (d c : Nat) (n : FwNote) (k : Nat) : (s.fwTell d c n).cluster k = s.cluster k := rfl
@[simp] theorem fwTell_die (s : State) (d c : Nat) (n : FwNote) (k : Nat) : (s.fwTell d c n).die k = s.die k := rfl
@[simp] theorem fwTell_getPart (s : State) (d c : Nat) (n : FwNote) (k : Nat) : (s.fwTell d c n).getPart k = s.getPart k := rfl
@[simp] theorem fwTell_strand (s : State) (d c : Nat) (n : FwNote) (k : Nat) : (s.fwTell d c n).strand k = s.strand k := rfl
@[simp] theorem fwTell_dom (s : State) (d c : Nat) (n : FwNote) (k : Nat) : (s.fwTell d c n).dom k = s.dom k := rfl
@[simp] theorem fwTell_getTeam (s : State) (d c : Nat) (n : FwNote) (k : Nat) : (s.fwTell d c n).getTeam k = s.getTeam k := rfl
@[simp] theorem fwTell_link (s : State) (d c : Nat) (n : FwNote) (k l : Nat) : (s.fwTell d c n).link k l = s.link k l := rfl
@[simp] theorem fwTell_devGet (s : State) (d c : Nat) (n : FwNote) (k : Nat) : (s.fwTell d c n).devGet k = s.devGet k := rfl
@[simp] theorem fwTell_byte (s : State) (d c : Nat) (n : FwNote) (k : Nat) : (s.fwTell d c n).byte k = s.byte k := rfl

/-! Reading back. -/

theorem slot_setSlot (s : State) (r q : SlotRef) (x : Slot) :
    (s.setSlot r x).slot q = if slotKey r = slotKey q then x else s.slot q := smGet_rmSet _ _ _ _ _

@[simp] theorem slot_setSlot_same (s : State) (r : SlotRef) (x : Slot) : (s.setSlot r x).slot r = x := by
  simp [slot_setSlot]

theorem slot_setMe (s : State) (q : SlotRef) (x : Slot) :
    (s.setMe x).slot q = if slotKey s.cur = slotKey q then x else s.slot q := slot_setSlot _ _ _ _

@[simp] theorem me_setMe (s : State) (x : Slot) : (s.setMe x).me = x := by simp [State.me, slot_setMe]

@[simp] theorem slot_cur (s : State) : s.slot s.cur = s.me := rfl

@[simp] theorem setSlot_cur_me (s : State) (x : Slot) : (s.setSlot s.cur x).me = x := me_setMe s x

theorem me_setSlot (s : State) (r : SlotRef) (x : Slot) :
    (s.setSlot r x).me = if slotKey r = slotKey s.cur then x else s.me := slot_setSlot _ _ _ _

theorem core_setCore (s : State) (c k : Nat) (x : CoreSt) : (s.setCore c x).core k = if c = k then x else s.core k :=
  smGet_rmSet _ _ _ _ _

@[simp] theorem core_setCore_same (s : State) (c : Nat) (x : CoreSt) : (s.setCore c x).core c = x := by
  simp [core_setCore]

theorem cluster_setCluster (s : State) (c k : Nat) (x : ClusterSt) :
    (s.setCluster c x).cluster k = if c = k then x else s.cluster k := smGet_rmSet _ _ _ _ _

@[simp] theorem cluster_setCluster_same (s : State) (c : Nat) (x : ClusterSt) : (s.setCluster c x).cluster c = x := by
  simp [cluster_setCluster]

theorem die_setDie (s : State) (c k : Nat) (x : DieSt) : (s.setDie c x).die k = if c = k then x else s.die k :=
  smGet_rmSet _ _ _ _ _

@[simp] theorem die_setDie_same (s : State) (c : Nat) (x : DieSt) : (s.setDie c x).die c = x := by simp [die_setDie]

theorem getPart_setPart (s : State) (c k : Nat) (x : Part) : (s.setPart c x).getPart k = if c = k then x else s.getPart k :=
  smGet_rmSet _ _ _ _ _

theorem strand_setStrand (s : State) (c k : Nat) (x : Strand) :
    (s.setStrand c x).strand k = if c = k then x else s.strand k := smGet_rmSet _ _ _ _ _

theorem dom_setDom (s : State) (c k : Nat) (x : Domain) : (s.setDom c x).dom k = if c = k then x else s.dom k :=
  smGet_rmSet _ _ _ _ _

theorem getTeam_setTeam (s : State) (c k : Nat) (x : Team) :
    (s.setTeam c x).getTeam k = if c = k then x else s.getTeam k := smGet_rmSet _ _ _ _ _

theorem devGet_devSet (s : State) (a k : Nat) (v : Word) :
    (s.devSet a v).devGet k = if a = k then v else s.devGet k := by
  unfold State.devGet State.devSet
  by_cases h : a = k
  · subst h; simp
  · by_cases hv : v = devReset a
    · simp [smSet, hv, h, smGet_smDel_other _ _ _ _ (Ne.symm h)]
    · simp [smSet, hv, h, smGet_smIns _ _ _ _ _ (smHas_smDel _ _), smGet_smDel_other _ _ _ _ (Ne.symm h)]

@[simp] theorem devGet_devSet_same (s : State) (a : Nat) (v : Word) : (s.devSet a v).devGet a = v := by
  simp [devGet_devSet]

/-! Registers of a slot (R31, R34). -/

theorem g_setG (sl : Slot) (r q : Nat) (v : Word) :
    (sl.setG r v).g q = if q = 0 then 0 else if r = q then v else sl.g q := by
  unfold Slot.setG Slot.g
  by_cases hq : q = 0
  · simp [hq]
  · by_cases hr : r = 0
    · simp [hr, hq, Ne.symm hq]
    · simp [hr, hq, smGet_smSet]

@[simp] theorem g_zero (sl : Slot) : sl.g 0 = 0 := rfl

end Sys2Proof.Machine
end

