-- ==== Sys2Proof/Laws/Slot.lean ====
section
/-! SUPPORT. What the register writes of a slot leave of its other fields. -/

namespace Sys2Proof.Machine

@[simp] theorem setG_st (sl : Slot) (r : Nat) (v : Word) : (sl.setG r v).st = sl.st := by
  unfold Slot.setG; split <;> rfl
@[simp] theorem setG_stall (sl : Slot) (r : Nat) (v : Word) : (sl.setG r v).stall = sl.stall := by
  unfold Slot.setG; split <;> rfl
@[simp] theorem setG_pc (sl : Slot) (r : Nat) (v : Word) : (sl.setG r v).pc = sl.pc := by
  unfold Slot.setG; split <;> rfl
@[simp] theorem setG_npc (sl : Slot) (r : Nat) (v : Word) : (sl.setG r v).npc = sl.npc := by
  unfold Slot.setG; split <;> rfl
@[simp] theorem setG_vregs (sl : Slot) (r : Nat) (v : Word) : (sl.setG r v).vregs = sl.vregs := by
  unfold Slot.setG; split <;> rfl
@[simp] theorem setG_masks (sl : Slot) (r : Nat) (v : Word) : (sl.setG r v).masks = sl.masks := by
  unfold Slot.setG; split <;> rfl
@[simp] theorem setG_ts (sl : Slot) (r : Nat) (v : Word) : (sl.setG r v).ts = sl.ts := by
  unfold Slot.setG; split <;> rfl
@[simp] theorem setG_sid (sl : Slot) (r : Nat) (v : Word) : (sl.setG r v).sid = sl.sid := by
  unfold Slot.setG; split <;> rfl
@[simp] theorem setG_chn (sl : Slot) (r : Nat) (v : Word) : (sl.setG r v).chn = sl.chn := by
  unfold Slot.setG; split <;> rfl
@[simp] theorem setG_prio (sl : Slot) (r : Nat) (v : Word) : (sl.setG r v).prio = sl.prio := by
  unfold Slot.setG; split <;> rfl
@[simp] theorem setG_part (sl : Slot) (r : Nat) (v : Word) : (sl.setG r v).part = sl.part := by
  unfold Slot.setG; split <;> rfl
@[simp] theorem setG_user (sl : Slot) (r : Nat) (v : Word) : (sl.setG r v).user = sl.user := by
  unfold Slot.setG; split <;> rfl
@[simp] theorem setG_smode (sl : Slot) (r : Nat) (v : Word) : (sl.setG r v).smode = sl.smode := by
  unfold Slot.setG; split <;> rfl
@[simp] theorem setG_budSet (sl : Slot) (r : Nat) (v : Word) : (sl.setG r v).budSet = sl.budSet := by
  unfold Slot.setG; split <;> rfl
@[simp] theorem setG_budAt (sl : Slot) (r : Nat) (v : Word) : (sl.setG r v).budAt = sl.budAt := by
  unfold Slot.setG; split <;> rfl
@[simp] theorem setG_budBase (sl : Slot) (r : Nat) (v : Word) : (sl.setG r v).budBase = sl.budBase := by
  unfold Slot.setG; split <;> rfl
@[simp] theorem setG_rmode (sl : Slot) (r : Nat) (v : Word) : (sl.setG r v).rmode = sl.rmode := by
  unfold Slot.setG; split <;> rfl
@[simp] theorem setG_fflags (sl : Slot) (r : Nat) (v : Word) : (sl.setG r v).fflags = sl.fflags := by
  unfold Slot.setG; split <;> rfl
@[simp] theorem setG_ldir (sl : Slot) (r : Nat) (v : Word) : (sl.setG r v).ldir = sl.ldir := by
  unfold Slot.setG; split <;> rfl
@[simp] theorem setG_tensor (sl : Slot) (r : Nat) (v : Word) : (sl.setG r v).tensor = sl.tensor := by
  unfold Slot.setG; split <;> rfl
@[simp] theorem setG_stepR (sl : Slot) (r : Nat) (v : Word) : (sl.setG r v).stepR = sl.stepR := by
  unfold Slot.setG; split <;> rfl
@[simp] theorem setG_seedLo (sl : Slot) (r : Nat) (v : Word) : (sl.setG r v).seedLo = sl.seedLo := by
  unfold Slot.setG; split <;> rfl
@[simp] theorem setG_seedHi (sl : Slot) (r : Nat) (v : Word) : (sl.setG r v).seedHi = sl.seedHi := by
  unfold Slot.setG; split <;> rfl
@[simp] theorem setG_wsp (sl : Slot) (r : Nat) (v : Word) : (sl.setG r v).wsp = sl.wsp := by
  unfold Slot.setG; split <;> rfl
@[simp] theorem setG_curLog2 (sl : Slot) (r : Nat) (v : Word) : (sl.setG r v).curLog2 = sl.curLog2 := by
  unfold Slot.setG; split <;> rfl
@[simp] theorem setG_tvb (sl : Slot) (r : Nat) (v : Word) : (sl.setG r v).tvb = sl.tvb := by
  unfold Slot.setG; split <;> rfl
@[simp] theorem setG_trapc (sl : Slot) (r : Nat) (v : Word) : (sl.setG r v).trapc = sl.trapc := by
  unfold Slot.setG; split <;> rfl
@[simp] theorem setG_trapa (sl : Slot) (r : Nat) (v : Word) : (sl.setG r v).trapa = sl.trapa := by
  unfold Slot.setG; split <;> rfl
@[simp] theorem setG_trapv (sl : Slot) (r : Nat) (v : Word) : (sl.setG r v).trapv = sl.trapv := by
  unfold Slot.setG; split <;> rfl
@[simp] theorem setG_trapp (sl : Slot) (r : Nat) (v : Word) : (sl.setG r v).trapp = sl.trapp := by
  unfold Slot.setG; split <;> rfl
@[simp] theorem setG_mc2 (sl : Slot) (r : Nat) (v : Word) : (sl.setG r v).mc2 = sl.mc2 := by
  unfold Slot.setG; split <;> rfl
@[simp] theorem setG_xroot (sl : Slot) (r : Nat) (v : Word) : (sl.setG r v).xroot = sl.xroot := by
  unfold Slot.setG; split <;> rfl
@[simp] theorem setG_super (sl : Slot) (r : Nat) (v : Word) : (sl.setG r v).super = sl.super := by
  unfold Slot.setG; split <;> rfl
@[simp] theorem setG_chk (sl : Slot) (r : Nat) (v : Word) : (sl.setG r v).chk = sl.chk := by
  unfold Slot.setG; split <;> rfl
@[simp] theorem setG_vseq (sl : Slot) (r : Nat) (v : Word) : (sl.setG r v).vseq = sl.vseq := by
  unfold Slot.setG; split <;> rfl
@[simp] theorem setG_tstack (sl : Slot) (r : Nat) (v : Word) : (sl.setG r v).tstack = sl.tstack := by
  unfold Slot.setG; split <;> rfl
@[simp] theorem setG_pend (sl : Slot) (r : Nat) (v : Word) : (sl.setG r v).pend = sl.pend := by
  unfold Slot.setG; split <;> rfl
@[simp] theorem setG_outst (sl : Slot) (r : Nat) (v : Word) : (sl.setG r v).outst = sl.outst := by
  unfold Slot.setG; split <;> rfl
@[simp] theorem setG_vq (sl : Slot) (r : Nat) (v : Word) : (sl.setG r v).vq = sl.vq := by
  unfold Slot.setG; split <;> rfl
@[simp] theorem setG_late (sl : Slot) (r : Nat) (v : Word) : (sl.setG r v).late = sl.late := by
  unfold Slot.setG; split <;> rfl
@[simp] theorem setG_cont (sl : Slot) (r : Nat) (v : Word) : (sl.setG r v).cont = sl.cont := by
  unfold Slot.setG; split <;> rfl
@[simp] theorem setG_inbox (sl : Slot) (r : Nat) (v : Word) : (sl.setG r v).inbox = sl.inbox := by
  unfold Slot.setG; split <;> rfl
@[simp] theorem setG_inboxN (sl : Slot) (r : Nat) (v : Word) : (sl.setG r v).inboxN = sl.inboxN := by
  unfold Slot.setG; split <;> rfl
@[simp] theorem setG_outb (sl : Slot) (r : Nat) (v : Word) : (sl.setG r v).outb = sl.outb := by
  unfold Slot.setG; split <;> rfl
@[simp] theorem setG_act (sl : Slot) (r : Nat) (v : Word) : (sl.setG r v).act = sl.act := by
  unfold Slot.setG; split <;> rfl
@[simp] theorem setG_trig (sl : Slot) (r : Nat) (v : Word) : (sl.setG r v).trig = sl.trig := by
  unfold Slot.setG; split <;> rfl
@[simp] theorem setG_key (sl : Slot) (r : Nat) (v : Word) : (sl.setG r v).key = sl.key := by
  unfold Slot.setG; split <;> rfl
@[simp] theorem setG_seqNo (sl : Slot) (r : Nat) (v : Word) : (sl.setG r v).seqNo = sl.seqNo := by
  unfold Slot.setG; split <;> rfl
@[simp] theorem setG_strand (sl : Slot) (r : Nat) (v : Word) : (sl.setG r v).strand = sl.strand := by
  unfold Slot.setG; split <;> rfl
@[simp] theorem setG_fresh (sl : Slot) (r : Nat) (v : Word) : (sl.setG r v).fresh = sl.fresh := by
  unfold Slot.setG; split <;> rfl
@[simp] theorem setG_domain (sl : Slot) (r : Nat) (v : Word) : (sl.setG r v).domain = sl.domain := by
  unfold Slot.setG; split <;> rfl
@[simp] theorem setG_buf (sl : Slot) (r : Nat) (v : Word) : (sl.setG r v).buf = sl.buf := by
  unfold Slot.setG; split <;> rfl
@[simp] theorem setG_reserved (sl : Slot) (r : Nat) (v : Word) : (sl.setG r v).reserved = sl.reserved := by
  unfold Slot.setG; split <;> rfl
@[simp] theorem setG_outg (sl : Slot) (r : Nat) (v : Word) : (sl.setG r v).outg = sl.outg := by
  unfold Slot.setG; split <;> rfl
@[simp] theorem setG_nextIdx (sl : Slot) (r : Nat) (v : Word) : (sl.setG r v).nextIdx = sl.nextIdx := by
  unfold Slot.setG; split <;> rfl
@[simp] theorem setG_readset (sl : Slot) (r : Nat) (v : Word) : (sl.setG r v).readset = sl.readset := by
  unfold Slot.setG; split <;> rfl
@[simp] theorem setG_readva (sl : Slot) (r : Nat) (v : Word) : (sl.setG r v).readva = sl.readva := by
  unfold Slot.setG; split <;> rfl
@[simp] theorem setG_term (sl : Slot) (r : Nat) (v : Word) : (sl.setG r v).term = sl.term := by
  unfold Slot.setG; split <;> rfl
@[simp] theorem setG_wmask (sl : Slot) (r : Nat) (v : Word) : (sl.setG r v).wmask = sl.wmask := by
  unfold Slot.setG; split <;> rfl
@[simp] theorem setG_pops (sl : Slot) (r : Nat) (v : Word) : (sl.setG r v).pops = sl.pops := by
  unfold Slot.setG; split <;> rfl
@[simp] theorem setG_pushes (sl : Slot) (r : Nat) (v : Word) : (sl.setG r v).pushes = sl.pushes := by
  unfold Slot.setG; split <;> rfl
@[simp] theorem setG_tokPops (sl : Slot) (r : Nat) (v : Word) : (sl.setG r v).tokPops = sl.tokPops := by
  unfold Slot.setG; split <;> rfl
@[simp] theorem setG_trans (sl : Slot) (r : Nat) (v : Word) : (sl.setG r v).trans = sl.trans := by
  unfold Slot.setG; split <;> rfl
@[simp] theorem setG_ctxs (sl : Slot) (r : Nat) (v : Word) : (sl.setG r v).ctxs = sl.ctxs := by
  unfold Slot.setG; split <;> rfl
@[simp] theorem setG_team (sl : Slot) (r : Nat) (v : Word) : (sl.setG r v).team = sl.team := by
  unfold Slot.setG; split <;> rfl
@[simp] theorem setG_tidx (sl : Slot) (r : Nat) (v : Word) : (sl.setG r v).tidx = sl.tidx := by
  unfold Slot.setG; split <;> rfl
@[simp] theorem setG_onceN (sl : Slot) (r : Nat) (v : Word) : (sl.setG r v).onceN = sl.onceN := by
  unfold Slot.setG; split <;> rfl
@[simp] theorem setG_onceArm (sl : Slot) (r : Nat) (v : Word) : (sl.setG r v).onceArm = sl.onceArm := by
  unfold Slot.setG; split <;> rfl
@[simp] theorem setG_barArr (sl : Slot) (r : Nat) (v : Word) : (sl.setG r v).barArr = sl.barArr := by
  unfold Slot.setG; split <;> rfl
@[simp] theorem setG_ordN (sl : Slot) (r : Nat) (v : Word) : (sl.setG r v).ordN = sl.ordN := by
  unfold Slot.setG; split <;> rfl
@[simp] theorem setG_helperOf (sl : Slot) (r : Nat) (v : Word) : (sl.setG r v).helperOf = sl.helperOf := by
  unfold Slot.setG; split <;> rfl
@[simp] theorem setG_irrevAsked (sl : Slot) (r : Nat) (v : Word) : (sl.setG r v).irrevAsked = sl.irrevAsked := by
  unfold Slot.setG; split <;> rfl
@[simp] theorem setG_vecFetch (sl : Slot) (r : Nat) (v : Word) : (sl.setG r v).vecFetch = sl.vecFetch := by
  unfold Slot.setG; split <;> rfl
@[simp] theorem setG_endNo (sl : Slot) (r : Nat) (v : Word) : (sl.setG r v).endNo = sl.endNo := by
  unfold Slot.setG; split <;> rfl
@[simp] theorem setG_phase (sl : Slot) (r : Nat) (v : Word) : (sl.setG r v).phase = sl.phase := by
  unfold Slot.setG; split <;> rfl
@[simp] theorem setG_lastPc (sl : Slot) (r : Nat) (v : Word) : (sl.setG r v).lastPc = sl.lastPc := by
  unfold Slot.setG; split <;> rfl
@[simp] theorem setK_st (sl : Slot) (r : Nat) (v : BitVec 32) : (sl.setK r v).st = sl.st := by
  unfold Slot.setK; split <;> rfl
@[simp] theorem setK_stall (sl : Slot) (r : Nat) (v : BitVec 32) : (sl.setK r v).stall = sl.stall := by
  unfold Slot.setK; split <;> rfl
@[simp] theorem setK_pc (sl : Slot) (r : Nat) (v : BitVec 32) : (sl.setK r v).pc = sl.pc := by
  unfold Slot.setK; split <;> rfl
@[simp] theorem setK_npc (sl : Slot) (r : Nat) (v : BitVec 32) : (sl.setK r v).npc = sl.npc := by
  unfold Slot.setK; split <;> rfl
@[simp] theorem setK_regs (sl : Slot) (r : Nat) (v : BitVec 32) : (sl.setK r v).regs = sl.regs := by
  unfold Slot.setK; split <;> rfl
@[simp] theorem setK_vregs (sl : Slot) (r : Nat) (v : BitVec 32) : (sl.setK r v).vregs = sl.vregs := by
  unfold Slot.setK; split <;> rfl
@[simp] theorem setK_ts (sl : Slot) (r : Nat) (v : BitVec 32) : (sl.setK r v).ts = sl.ts := by
  unfold Slot.setK; split <;> rfl
@[simp] theorem setK_sid (sl : Slot) (r : Nat) (v : BitVec 32) : (sl.setK r v).sid = sl.sid := by
  unfold Slot.setK; split <;> rfl
@[simp] theorem setK_chn (sl : Slot) (r : Nat) (v : BitVec 32) : (sl.setK r v).chn = sl.chn := by
  unfold Slot.setK; split <;> rfl
@[simp] theorem setK_prio (sl : Slot) (r : Nat) (v : BitVec 32) : (sl.setK r v).prio = sl.prio := by
  unfold Slot.setK; split <;> rfl
@[simp] theorem setK_part (sl : Slot) (r : Nat) (v : BitVec 32) : (sl.setK r v).part = sl.part := by
  unfold Slot.setK; split <;> rfl
@[simp] theorem setK_user (sl : Slot) (r : Nat) (v : BitVec 32) : (sl.setK r v).user = sl.user := by
  unfold Slot.setK; split <;> rfl
@[simp] theorem setK_smode (sl : Slot) (r : Nat) (v : BitVec 32) : (sl.setK r v).smode = sl.smode := by
  unfold Slot.setK; split <;> rfl
@[simp] theorem setK_budSet (sl : Slot) (r : Nat) (v : BitVec 32) : (sl.setK r v).budSet = sl.budSet := by
  unfold Slot.setK; split <;> rfl
@[simp] theorem setK_budAt (sl : Slot) (r : Nat) (v : BitVec 32) : (sl.setK r v).budAt = sl.budAt := by
  unfold Slot.setK; split <;> rfl
@[simp] theorem setK_budBase (sl : Slot) (r : Nat) (v : BitVec 32) : (sl.setK r v).budBase = sl.budBase := by
  unfold Slot.setK; split <;> rfl
@[simp] theorem setK_rmode (sl : Slot) (r : Nat) (v : BitVec 32) : (sl.setK r v).rmode = sl.rmode := by
  unfold Slot.setK; split <;> rfl
@[simp] theorem setK_fflags (sl : Slot) (r : Nat) (v : BitVec 32) : (sl.setK r v).fflags = sl.fflags := by
  unfold Slot.setK; split <;> rfl
@[simp] theorem setK_ldir (sl : Slot) (r : Nat) (v : BitVec 32) : (sl.setK r v).ldir = sl.ldir := by
  unfold Slot.setK; split <;> rfl
@[simp] theorem setK_tensor (sl : Slot) (r : Nat) (v : BitVec 32) : (sl.setK r v).tensor = sl.tensor := by
  unfold Slot.setK; split <;> rfl
@[simp] theorem setK_stepR (sl : Slot) (r : Nat) (v : BitVec 32) : (sl.setK r v).stepR = sl.stepR := by
  unfold Slot.setK; split <;> rfl
@[simp] theorem setK_seedLo (sl : Slot) (r : Nat) (v : BitVec 32) : (sl.setK r v).seedLo = sl.seedLo := by
  unfold Slot.setK; split <;> rfl
@[simp] theorem setK_seedHi (sl : Slot) (r : Nat) (v : BitVec 32) : (sl.setK r v).seedHi = sl.seedHi := by
  unfold Slot.setK; split <;> rfl
@[simp] theorem setK_wsp (sl : Slot) (r : Nat) (v : BitVec 32) : (sl.setK r v).wsp = sl.wsp := by
  unfold Slot.setK; split <;> rfl
@[simp] theorem setK_curLog2 (sl : Slot) (r : Nat) (v : BitVec 32) : (sl.setK r v).curLog2 = sl.curLog2 := by
  unfold Slot.setK; split <;> rfl
@[simp] theorem setK_tvb (sl : Slot) (r : Nat) (v : BitVec 32) : (sl.setK r v).tvb = sl.tvb := by
  unfold Slot.setK; split <;> rfl
@[simp] theorem setK_trapc (sl : Slot) (r : Nat) (v : BitVec 32) : (sl.setK r v).trapc = sl.trapc := by
  unfold Slot.setK; split <;> rfl
@[simp] theorem setK_trapa (sl : Slot) (r : Nat) (v : BitVec 32) : (sl.setK r v).trapa = sl.trapa := by
  unfold Slot.setK; split <;> rfl
@[simp] theorem setK_trapv (sl : Slot) (r : Nat) (v : BitVec 32) : (sl.setK r v).trapv = sl.trapv := by
  unfold Slot.setK; split <;> rfl
@[simp] theorem setK_trapp (sl : Slot) (r : Nat) (v : BitVec 32) : (sl.setK r v).trapp = sl.trapp := by
  unfold Slot.setK; split <;> rfl
@[simp] theorem setK_mc2 (sl : Slot) (r : Nat) (v : BitVec 32) : (sl.setK r v).mc2 = sl.mc2 := by
  unfold Slot.setK; split <;> rfl
@[simp] theorem setK_xroot (sl : Slot) (r : Nat) (v : BitVec 32) : (sl.setK r v).xroot = sl.xroot := by
  unfold Slot.setK; split <;> rfl
@[simp] theorem setK_super (sl : Slot) (r : Nat) (v : BitVec 32) : (sl.setK r v).super = sl.super := by
  unfold Slot.setK; split <;> rfl
@[simp] theorem setK_chk (sl : Slot) (r : Nat) (v : BitVec 32) : (sl.setK r v).chk = sl.chk := by
  unfold Slot.setK; split <;> rfl
@[simp] theorem setK_vseq (sl : Slot) (r : Nat) (v : BitVec 32) : (sl.setK r v).vseq = sl.vseq := by
  unfold Slot.setK; split <;> rfl
@[simp] theorem setK_tstack (sl : Slot) (r : Nat) (v : BitVec 32) : (sl.setK r v).tstack = sl.tstack := by
  unfold Slot.setK; split <;> rfl
@[simp] theorem setK_pend (sl : Slot) (r : Nat) (v : BitVec 32) : (sl.setK r v).pend = sl.pend := by
  unfold Slot.setK; split <;> rfl
@[simp] theorem setK_outst (sl : Slot) (r : Nat) (v : BitVec 32) : (sl.setK r v).outst = sl.outst := by
  unfold Slot.setK; split <;> rfl
@[simp] theorem setK_vq (sl : Slot) (r : Nat) (v : BitVec 32) : (sl.setK r v).vq = sl.vq := by
  unfold Slot.setK; split <;> rfl
@[simp] theorem setK_late (sl : Slot) (r : Nat) (v : BitVec 32) : (sl.setK r v).late = sl.late := by
  unfold Slot.setK; split <;> rfl
@[simp] theorem setK_cont (sl : Slot) (r : Nat) (v : BitVec 32) : (sl.setK r v).cont = sl.cont := by
  unfold Slot.setK; split <;> rfl
@[simp] theorem setK_inbox (sl : Slot) (r : Nat) (v : BitVec 32) : (sl.setK r v).inbox = sl.inbox := by
  unfold Slot.setK; split <;> rfl
@[simp] theorem setK_inboxN (sl : Slot) (r : Nat) (v : BitVec 32) : (sl.setK r v).inboxN = sl.inboxN := by
  unfold Slot.setK; split <;> rfl
@[simp] theorem setK_outb (sl : Slot) (r : Nat) (v : BitVec 32) : (sl.setK r v).outb = sl.outb := by
  unfold Slot.setK; split <;> rfl
@[simp] theorem setK_act (sl : Slot) (r : Nat) (v : BitVec 32) : (sl.setK r v).act = sl.act := by
  unfold Slot.setK; split <;> rfl
@[simp] theorem setK_trig (sl : Slot) (r : Nat) (v : BitVec 32) : (sl.setK r v).trig = sl.trig := by
  unfold Slot.setK; split <;> rfl
@[simp] theorem setK_key (sl : Slot) (r : Nat) (v : BitVec 32) : (sl.setK r v).key = sl.key := by
  unfold Slot.setK; split <;> rfl
@[simp] theorem setK_seqNo (sl : Slot) (r : Nat) (v : BitVec 32) : (sl.setK r v).seqNo = sl.seqNo := by
  unfold Slot.setK; split <;> rfl
@[simp] theorem setK_strand (sl : Slot) (r : Nat) (v : BitVec 32) : (sl.setK r v).strand = sl.strand := by
  unfold Slot.setK; split <;> rfl
@[simp] theorem setK_fresh (sl : Slot) (r : Nat) (v : BitVec 32) : (sl.setK r v).fresh = sl.fresh := by
  unfold Slot.setK; split <;> rfl
@[simp] theorem setK_domain (sl : Slot) (r : Nat) (v : BitVec 32) : (sl.setK r v).domain = sl.domain := by
  unfold Slot.setK; split <;> rfl
@[simp] theorem setK_buf (sl : Slot) (r : Nat) (v : BitVec 32) : (sl.setK r v).buf = sl.buf := by
  unfold Slot.setK; split <;> rfl
@[simp] theorem setK_reserved (sl : Slot) (r : Nat) (v : BitVec 32) : (sl.setK r v).reserved = sl.reserved := by
  unfold Slot.setK; split <;> rfl
@[simp] theorem setK_outg (sl : Slot) (r : Nat) (v : BitVec 32) : (sl.setK r v).outg = sl.outg := by
  unfold Slot.setK; split <;> rfl
@[simp] theorem setK_nextIdx (sl : Slot) (r : Nat) (v : BitVec 32) : (sl.setK r v).nextIdx = sl.nextIdx := by
  unfold Slot.setK; split <;> rfl
@[simp] theorem setK_readset (sl : Slot) (r : Nat) (v : BitVec 32) : (sl.setK r v).readset = sl.readset := by
  unfold Slot.setK; split <;> rfl
@[simp] theorem setK_readva (sl : Slot) (r : Nat) (v : BitVec 32) : (sl.setK r v).readva = sl.readva := by
  unfold Slot.setK; split <;> rfl
@[simp] theorem setK_term (sl : Slot) (r : Nat) (v : BitVec 32) : (sl.setK r v).term = sl.term := by
  unfold Slot.setK; split <;> rfl
@[simp] theorem setK_wmask (sl : Slot) (r : Nat) (v : BitVec 32) : (sl.setK r v).wmask = sl.wmask := by
  unfold Slot.setK; split <;> rfl
@[simp] theorem setK_pops (sl : Slot) (r : Nat) (v : BitVec 32) : (sl.setK r v).pops = sl.pops := by
  unfold Slot.setK; split <;> rfl
@[simp] theorem setK_pushes (sl : Slot) (r : Nat) (v : BitVec 32) : (sl.setK r v).pushes = sl.pushes := by
  unfold Slot.setK; split <;> rfl
@[simp] theorem setK_tokPops (sl : Slot) (r : Nat) (v : BitVec 32) : (sl.setK r v).tokPops = sl.tokPops := by
  unfold Slot.setK; split <;> rfl
@[simp] theorem setK_trans (sl : Slot) (r : Nat) (v : BitVec 32) : (sl.setK r v).trans = sl.trans := by
  unfold Slot.setK; split <;> rfl
@[simp] theorem setK_ctxs (sl : Slot) (r : Nat) (v : BitVec 32) : (sl.setK r v).ctxs = sl.ctxs := by
  unfold Slot.setK; split <;> rfl
@[simp] theorem setK_team (sl : Slot) (r : Nat) (v : BitVec 32) : (sl.setK r v).team = sl.team := by
  unfold Slot.setK; split <;> rfl
@[simp] theorem setK_tidx (sl : Slot) (r : Nat) (v : BitVec 32) : (sl.setK r v).tidx = sl.tidx := by
  unfold Slot.setK; split <;> rfl
@[simp] theorem setK_onceN (sl : Slot) (r : Nat) (v : BitVec 32) : (sl.setK r v).onceN = sl.onceN := by
  unfold Slot.setK; split <;> rfl
@[simp] theorem setK_onceArm (sl : Slot) (r : Nat) (v : BitVec 32) : (sl.setK r v).onceArm = sl.onceArm := by
  unfold Slot.setK; split <;> rfl
@[simp] theorem setK_barArr (sl : Slot) (r : Nat) (v : BitVec 32) : (sl.setK r v).barArr = sl.barArr := by
  unfold Slot.setK; split <;> rfl
@[simp] theorem setK_ordN (sl : Slot) (r : Nat) (v : BitVec 32) : (sl.setK r v).ordN = sl.ordN := by
  unfold Slot.setK; split <;> rfl
@[simp] theorem setK_helperOf (sl : Slot) (r : Nat) (v : BitVec 32) : (sl.setK r v).helperOf = sl.helperOf := by
  unfold Slot.setK; split <;> rfl
@[simp] theorem setK_irrevAsked (sl : Slot) (r : Nat) (v : BitVec 32) : (sl.setK r v).irrevAsked = sl.irrevAsked := by
  unfold Slot.setK; split <;> rfl
@[simp] theorem setK_vecFetch (sl : Slot) (r : Nat) (v : BitVec 32) : (sl.setK r v).vecFetch = sl.vecFetch := by
  unfold Slot.setK; split <;> rfl
@[simp] theorem setK_endNo (sl : Slot) (r : Nat) (v : BitVec 32) : (sl.setK r v).endNo = sl.endNo := by
  unfold Slot.setK; split <;> rfl
@[simp] theorem setK_phase (sl : Slot) (r : Nat) (v : BitVec 32) : (sl.setK r v).phase = sl.phase := by
  unfold Slot.setK; split <;> rfl
@[simp] theorem setK_lastPc (sl : Slot) (r : Nat) (v : BitVec 32) : (sl.setK r v).lastPc = sl.lastPc := by
  unfold Slot.setK; split <;> rfl
@[simp] theorem setV_st (sl : Slot) (r : Nat) (v : BitVec 1024) : (sl.setV r v).st = sl.st := rfl
@[simp] theorem setV_stall (sl : Slot) (r : Nat) (v : BitVec 1024) : (sl.setV r v).stall = sl.stall := rfl
@[simp] theorem setV_pc (sl : Slot) (r : Nat) (v : BitVec 1024) : (sl.setV r v).pc = sl.pc := rfl
@[simp] theorem setV_npc (sl : Slot) (r : Nat) (v : BitVec 1024) : (sl.setV r v).npc = sl.npc := rfl
@[simp] theorem setV_regs (sl : Slot) (r : Nat) (v : BitVec 1024) : (sl.setV r v).regs = sl.regs := rfl
@[simp] theorem setV_masks (sl : Slot) (r : Nat) (v : BitVec 1024) : (sl.setV r v).masks = sl.masks := rfl
@[simp] theorem setV_ts (sl : Slot) (r : Nat) (v : BitVec 1024) : (sl.setV r v).ts = sl.ts := rfl
@[simp] theorem setV_sid (sl : Slot) (r : Nat) (v : BitVec 1024) : (sl.setV r v).sid = sl.sid := rfl
@[simp] theorem setV_chn (sl : Slot) (r : Nat) (v : BitVec 1024) : (sl.setV r v).chn = sl.chn := rfl
@[simp] theorem setV_prio (sl : Slot) (r : Nat) (v : BitVec 1024) : (sl.setV r v).prio = sl.prio := rfl
@[simp] theorem setV_part (sl : Slot) (r : Nat) (v : BitVec 1024) : (sl.setV r v).part = sl.part := rfl
@[simp] theorem setV_user (sl : Slot) (r : Nat) (v : BitVec 1024) : (sl.setV r v).user = sl.user := rfl
@[simp] theorem setV_smode (sl : Slot) (r : Nat) (v : BitVec 1024) : (sl.setV r v).smode = sl.smode := rfl
@[simp] theorem setV_budSet (sl : Slot) (r : Nat) (v : BitVec 1024) : (sl.setV r v).budSet = sl.budSet := rfl
@[simp] theorem setV_budAt (sl : Slot) (r : Nat) (v : BitVec 1024) : (sl.setV r v).budAt = sl.budAt := rfl
@[simp] theorem setV_budBase (sl : Slot) (r : Nat) (v : BitVec 1024) : (sl.setV r v).budBase = sl.budBase := rfl
@[simp] theorem setV_rmode (sl : Slot) (r : Nat) (v : BitVec 1024) : (sl.setV r v).rmode = sl.rmode := rfl
@[simp] theorem setV_fflags (sl : Slot) (r : Nat) (v : BitVec 1024) : (sl.setV r v).fflags = sl.fflags := rfl
@[simp] theorem setV_ldir (sl : Slot) (r : Nat) (v : BitVec 1024) : (sl.setV r v).ldir = sl.ldir := rfl
@[simp] theorem setV_tensor (sl : Slot) (r : Nat) (v : BitVec 1024) : (sl.setV r v).tensor = sl.tensor := rfl
@[simp] theorem setV_stepR (sl : Slot) (r : Nat) (v : BitVec 1024) : (sl.setV r v).stepR = sl.stepR := rfl
@[simp] theorem setV_seedLo (sl : Slot) (r : Nat) (v : BitVec 1024) : (sl.setV r v).seedLo = sl.seedLo := rfl
@[simp] theorem setV_seedHi (sl : Slot) (r : Nat) (v : BitVec 1024) : (sl.setV r v).seedHi = sl.seedHi := rfl
@[simp] theorem setV_wsp (sl : Slot) (r : Nat) (v : BitVec 1024) : (sl.setV r v).wsp = sl.wsp := rfl
@[simp] theorem setV_curLog2 (sl : Slot) (r : Nat) (v : BitVec 1024) : (sl.setV r v).curLog2 = sl.curLog2 := rfl
@[simp] theorem setV_tvb (sl : Slot) (r : Nat) (v : BitVec 1024) : (sl.setV r v).tvb = sl.tvb := rfl
@[simp] theorem setV_trapc (sl : Slot) (r : Nat) (v : BitVec 1024) : (sl.setV r v).trapc = sl.trapc := rfl
@[simp] theorem setV_trapa (sl : Slot) (r : Nat) (v : BitVec 1024) : (sl.setV r v).trapa = sl.trapa := rfl
@[simp] theorem setV_trapv (sl : Slot) (r : Nat) (v : BitVec 1024) : (sl.setV r v).trapv = sl.trapv := rfl
@[simp] theorem setV_trapp (sl : Slot) (r : Nat) (v : BitVec 1024) : (sl.setV r v).trapp = sl.trapp := rfl
@[simp] theorem setV_mc2 (sl : Slot) (r : Nat) (v : BitVec 1024) : (sl.setV r v).mc2 = sl.mc2 := rfl
@[simp] theorem setV_xroot (sl : Slot) (r : Nat) (v : BitVec 1024) : (sl.setV r v).xroot = sl.xroot := rfl
@[simp] theorem setV_super (sl : Slot) (r : Nat) (v : BitVec 1024) : (sl.setV r v).super = sl.super := rfl
@[simp] theorem setV_chk (sl : Slot) (r : Nat) (v : BitVec 1024) : (sl.setV r v).chk = sl.chk := rfl
@[simp] theorem setV_vseq (sl : Slot) (r : Nat) (v : BitVec 1024) : (sl.setV r v).vseq = sl.vseq := rfl
@[simp] theorem setV_tstack (sl : Slot) (r : Nat) (v : BitVec 1024) : (sl.setV r v).tstack = sl.tstack := rfl
@[simp] theorem setV_pend (sl : Slot) (r : Nat) (v : BitVec 1024) : (sl.setV r v).pend = sl.pend := rfl
@[simp] theorem setV_outst (sl : Slot) (r : Nat) (v : BitVec 1024) : (sl.setV r v).outst = sl.outst := rfl
@[simp] theorem setV_vq (sl : Slot) (r : Nat) (v : BitVec 1024) : (sl.setV r v).vq = sl.vq := rfl
@[simp] theorem setV_late (sl : Slot) (r : Nat) (v : BitVec 1024) : (sl.setV r v).late = sl.late := rfl
@[simp] theorem setV_cont (sl : Slot) (r : Nat) (v : BitVec 1024) : (sl.setV r v).cont = sl.cont := rfl
@[simp] theorem setV_inbox (sl : Slot) (r : Nat) (v : BitVec 1024) : (sl.setV r v).inbox = sl.inbox := rfl
@[simp] theorem setV_inboxN (sl : Slot) (r : Nat) (v : BitVec 1024) : (sl.setV r v).inboxN = sl.inboxN := rfl
@[simp] theorem setV_outb (sl : Slot) (r : Nat) (v : BitVec 1024) : (sl.setV r v).outb = sl.outb := rfl
@[simp] theorem setV_act (sl : Slot) (r : Nat) (v : BitVec 1024) : (sl.setV r v).act = sl.act := rfl
@[simp] theorem setV_trig (sl : Slot) (r : Nat) (v : BitVec 1024) : (sl.setV r v).trig = sl.trig := rfl
@[simp] theorem setV_key (sl : Slot) (r : Nat) (v : BitVec 1024) : (sl.setV r v).key = sl.key := rfl
@[simp] theorem setV_seqNo (sl : Slot) (r : Nat) (v : BitVec 1024) : (sl.setV r v).seqNo = sl.seqNo := rfl
@[simp] theorem setV_strand (sl : Slot) (r : Nat) (v : BitVec 1024) : (sl.setV r v).strand = sl.strand := rfl
@[simp] theorem setV_fresh (sl : Slot) (r : Nat) (v : BitVec 1024) : (sl.setV r v).fresh = sl.fresh := rfl
@[simp] theorem setV_domain (sl : Slot) (r : Nat) (v : BitVec 1024) : (sl.setV r v).domain = sl.domain := rfl
@[simp] theorem setV_buf (sl : Slot) (r : Nat) (v : BitVec 1024) : (sl.setV r v).buf = sl.buf := rfl
@[simp] theorem setV_reserved (sl : Slot) (r : Nat) (v : BitVec 1024) : (sl.setV r v).reserved = sl.reserved := rfl
@[simp] theorem setV_outg (sl : Slot) (r : Nat) (v : BitVec 1024) : (sl.setV r v).outg = sl.outg := rfl
@[simp] theorem setV_nextIdx (sl : Slot) (r : Nat) (v : BitVec 1024) : (sl.setV r v).nextIdx = sl.nextIdx := rfl
@[simp] theorem setV_readset (sl : Slot) (r : Nat) (v : BitVec 1024) : (sl.setV r v).readset = sl.readset := rfl
@[simp] theorem setV_readva (sl : Slot) (r : Nat) (v : BitVec 1024) : (sl.setV r v).readva = sl.readva := rfl
@[simp] theorem setV_term (sl : Slot) (r : Nat) (v : BitVec 1024) : (sl.setV r v).term = sl.term := rfl
@[simp] theorem setV_wmask (sl : Slot) (r : Nat) (v : BitVec 1024) : (sl.setV r v).wmask = sl.wmask := rfl
@[simp] theorem setV_pops (sl : Slot) (r : Nat) (v : BitVec 1024) : (sl.setV r v).pops = sl.pops := rfl
@[simp] theorem setV_pushes (sl : Slot) (r : Nat) (v : BitVec 1024) : (sl.setV r v).pushes = sl.pushes := rfl
@[simp] theorem setV_tokPops (sl : Slot) (r : Nat) (v : BitVec 1024) : (sl.setV r v).tokPops = sl.tokPops := rfl
@[simp] theorem setV_trans (sl : Slot) (r : Nat) (v : BitVec 1024) : (sl.setV r v).trans = sl.trans := rfl
@[simp] theorem setV_ctxs (sl : Slot) (r : Nat) (v : BitVec 1024) : (sl.setV r v).ctxs = sl.ctxs := rfl
@[simp] theorem setV_team (sl : Slot) (r : Nat) (v : BitVec 1024) : (sl.setV r v).team = sl.team := rfl
@[simp] theorem setV_tidx (sl : Slot) (r : Nat) (v : BitVec 1024) : (sl.setV r v).tidx = sl.tidx := rfl
@[simp] theorem setV_onceN (sl : Slot) (r : Nat) (v : BitVec 1024) : (sl.setV r v).onceN = sl.onceN := rfl
@[simp] theorem setV_onceArm (sl : Slot) (r : Nat) (v : BitVec 1024) : (sl.setV r v).onceArm = sl.onceArm := rfl
@[simp] theorem setV_barArr (sl : Slot) (r : Nat) (v : BitVec 1024) : (sl.setV r v).barArr = sl.barArr := rfl
@[simp] theorem setV_ordN (sl : Slot) (r : Nat) (v : BitVec 1024) : (sl.setV r v).ordN = sl.ordN := rfl
@[simp] theorem setV_helperOf (sl : Slot) (r : Nat) (v : BitVec 1024) : (sl.setV r v).helperOf = sl.helperOf := rfl
@[simp] theorem setV_irrevAsked (sl : Slot) (r : Nat) (v : BitVec 1024) : (sl.setV r v).irrevAsked = sl.irrevAsked := rfl
@[simp] theorem setV_vecFetch (sl : Slot) (r : Nat) (v : BitVec 1024) : (sl.setV r v).vecFetch = sl.vecFetch := rfl
@[simp] theorem setV_endNo (sl : Slot) (r : Nat) (v : BitVec 1024) : (sl.setV r v).endNo = sl.endNo := rfl
@[simp] theorem setV_phase (sl : Slot) (r : Nat) (v : BitVec 1024) : (sl.setV r v).phase = sl.phase := rfl
@[simp] theorem setV_lastPc (sl : Slot) (r : Nat) (v : BitVec 1024) : (sl.setV r v).lastPc = sl.lastPc := rfl

end Sys2Proof.Machine
end

