-- ==== Sys2Proof/Laws/Issue.lean ====
section
/-! SUPPORT. What the frame around every instruction does: issue, completion, S, and a transfer. -/

namespace Sys2Proof.Machine

/-! OnlySlot. -/

theorem OnlySlot.refl (s : State) : OnlySlot s s := ⟨fun _ _ => rfl, fun _ => rfl, fun _ => rfl, rfl⟩

theorem OnlySlot.cur {s t : State} (h : OnlySlot s t) : t.cur = s.cur := congrArg (·.cur) h.rest

theorem OnlySlot.seqNext {s t : State} (h : OnlySlot s t) : t.seqNext = s.seqNext := congrArg (·.seqNext) h.rest

theorem OnlySlot.fw {s t : State} (h : OnlySlot s t) : t.fw = s.fw := congrArg (·.fw) h.rest

theorem OnlySlot.dev {s t : State} (h : OnlySlot s t) : t.dev = s.dev := congrArg (·.dev) h.rest

theorem OnlySlot.mem {s t : State} (h : OnlySlot s t) : t.mem = s.mem := congrArg (·.mem) h.rest

theorem OnlySlot.now {s t : State} (h : OnlySlot s t) : t.now = s.now := congrArg (·.now) h.rest

theorem OnlySlot.glitches {s t : State} (h : OnlySlot s t) : t.glitches = s.glitches := congrArg (·.glitches) h.rest

/-- The trap stack of a bank depends on nothing that another slot or a core holds. -/
theorem OnlySlot.trapStack {s t : State} (h : OnlySlot s t) (sl : Slot) : trapStack t sl = trapStack s sl := by
  have h1 : Machine.trapStack t sl = Machine.trapStack t.bare sl := rfl
  rw [h1, h.rest]
  rfl

theorem OnlySlot.trans {s t u : State} (h : OnlySlot s t) (k : OnlySlot t u) : OnlySlot s u :=
  ⟨fun r hr => (k.slots r (h.cur ▸ hr)).trans (h.slots r hr), fun c => (k.cores c).trans (h.cores c),
   fun a => (k.bytes a).trans (h.bytes a), k.rest.trans h.rest⟩

theorem onlySlot_setMe (s : State) (x : Slot) : OnlySlot s (s.setMe x) :=
  ⟨fun r hr => by rw [slot_setMe, if_neg (Ne.symm hr)], fun _ => rfl, fun _ => rfl, rfl⟩

theorem onlySlot_setSlot_cur (s : State) (x : Slot) : OnlySlot s (s.setSlot s.cur x) := onlySlot_setMe s x

/-- A core replaced by one that differs in its trace and counters. -/
theorem onlySlot_setCore (s : State) (c : Nat) (x : CoreSt) (h : x.unwatched = (s.core c).unwatched) :
    OnlySlot s (s.setCore c x) :=
  ⟨fun _ _ => rfl, fun k => by rw [core_setCore]; split <;> simp_all, fun _ => rfl, rfl⟩

@[simp] theorem me_setCore (s : State) (c : Nat) (x : CoreSt) : (s.setCore c x).me = s.me := rfl

theorem onlySlot_countCore (s : State) (c ev k : Nat) : OnlySlot s (countCore s c ev k) := by
  unfold countCore
  dsimp only
  split
  · exact OnlySlot.refl s
  · exact onlySlot_setCore s c _ (by rfl)

@[simp] theorem me_countCore (s : State) (c ev k : Nat) : (countCore s c ev k).me = s.me := by
  unfold countCore; dsimp only; split <;> rfl

@[simp] theorem slot_countCore (s : State) (c ev k : Nat) (r : SlotRef) : (countCore s c ev k).slot r = s.slot r := by
  unfold countCore; dsimp only; split <;> rfl

theorem unwatched_traceInto (n : Nat) (x : CoreSt) (ev slot data : Nat) :
    (traceInto n x ev slot data).unwatched = x.unwatched := by
  unfold traceInto
  dsimp only
  repeat' split
  all_goals rfl

theorem onlySlot_traceEv (s : State) (r : SlotRef) (ev data : Nat) : OnlySlot s (traceEv s r ev data) := by
  unfold traceEv
  dsimp only
  split
  · exact onlySlot_setCore s _ _ (unwatched_traceInto _ _ _ _ _)
  · exact OnlySlot.refl s

@[simp] theorem slot_traceEv (s : State) (r q : SlotRef) (ev data : Nat) : (traceEv s r ev data).slot q = s.slot q := by
  unfold traceEv; dsimp only; split <;> rfl

@[simp] theorem cur_traceEv (s : State) (r : SlotRef) (ev data : Nat) : (traceEv s r ev data).cur = s.cur :=
  (onlySlot_traceEv s r ev data).cur

@[simp] theorem me_traceEv (s : State) (r : SlotRef) (ev data : Nat) : (traceEv s r ev data).me = s.me := by
  rw [State.me, cur_traceEv, slot_traceEv]; rfl

theorem onlySlot_traceAccess (s : State) (r : SlotRef) (va : Nat) : OnlySlot s (traceAccess s r va) := by
  unfold traceAccess
  dsimp only
  split
  · split
    · exact (onlySlot_setCore s _ _ (by rfl)).trans (onlySlot_traceEv _ _ _ _)
    · exact onlySlot_setCore s _ _ (by rfl)
  · exact OnlySlot.refl s

@[simp] theorem slot_traceAccess (s : State) (r q : SlotRef) (va : Nat) : (traceAccess s r va).slot q = s.slot q := by
  unfold traceAccess
  dsimp only
  split
  · split <;> simp
  · rfl

/-! Issue. -/

@[simp] theorem me_issueMark (s : State) : (issueMark s).me = s.me.started s.now := me_setMe s _

theorem setMe_setMe (s : State) (x y : Slot) : (s.setMe x).setMe y = s.setMe y := by
  simp only [State.setMe, State.setSlot, rmSet_rmSet]

/-- The slot as issue leaves it, written once more. -/
theorem issueMark_setMe (s : State) : (issueMark s).setMe (s.me.started s.now) = issueMark s := setMe_setMe s _ _

@[simp] theorem cur_issueMark (s : State) : (issueMark s).cur = s.cur := rfl

@[simp] theorem glitches_issueMark (s : State) : (issueMark s).glitches = s.glitches := rfl

@[simp] theorem core_issueMark (s : State) (c : Nat) : (issueMark s).core c = s.core c := rfl

theorem onlySlot_issueMark (s : State) : OnlySlot s (issueMark s) := onlySlot_setMe s _

theorem onceInst_issueMark (s : State) : onceInst? (issueMark s) = onceInst? s := by
  unfold onceInst?
  simp only [me_issueMark, Slot.started]
  rfl

theorem firstPending_started (sl : Slot) (n : Nat) (rs : List Nat) :
    firstPending (sl.started n) rs = firstPending sl rs := rfl

theorem depsOf_started (sl : Slot) (n : Nat) (i : Instr) : depsOf (sl.started n) i = depsOf sl i := by
  cases i <;> rfl

theorem illegalHere_issueMark (s : State) (i : Instr) : illegalHere (issueMark s) i = illegalHere s i := by
  cases i <;> simp only [illegalHere, inHandler, me_issueMark] <;> rfl

theorem portIllegal_started (sl : Slot) (n core r : Nat) : portIllegal (sl.started n) core r = portIllegal sl core r := rfl

/-- The checks of an instruction that comes to its own rules find nothing. -/
theorem issueChecks_none {i : Instr} {pre : State → Bool} {deps : List Nat} {s : State} (h : Issues i s)
    (hd : deps = depsOf s.me i) (hp : pre (issueMark s) = illegalHere (issueMark s) i) :
    issueChecks i pre deps (issueMark s) = none := by
  have hports : (depsOf s.me i).any (portIllegal (issueMark s).me (issueMark s).cur.core) = false := by
    rw [me_issueMark]; exact h.ports
  have hready : firstPending (issueMark s).me (depsOf s.me i) = none := by
    rw [me_issueMark, firstPending_started]; exact h.ready
  rw [illegalHere_issueMark, h.allowed] at hp
  simp only [issueChecks, hd, h.legal, hports, hp, hready, Bool.not_true, Bool.or_self, Option.map_none]
  rfl

/-- An instruction whose own rules come, comes to its body, whatever the answer. -/
theorem runChecked_body {i : Instr} {sw : Bool} {pre : State → Bool} {deps : List Nat} {body : State → Res} {s : State}
    (h : Issues i s) (hd : deps = depsOf s.me i) (hp : pre (issueMark s) = illegalHere (issueMark s) i) :
    runChecked i sw pre deps body s = settleIssue i sw (issueMark s) (body (issueMark s)) := by
  have honce : onceInst? (issueMark s) = none := by rw [onceInst_issueMark]; exact h.once
  simp only [runChecked, issueChecks_none h hd hp, honce]

theorem runInstr_body {i : Instr} {sw : Bool} {deps : List Nat} {body : State → Res} {s : State} (h : Issues i s)
    (hd : deps = depsOf s.me i) (hp : illegalHere (issueMark s) i = false) :
    runInstr i sw deps body s = settleIssue i sw (issueMark s) (body (issueMark s)) :=
  runChecked_body h hd hp.symm

/-! Completion. -/

theorem cur_setMe' (s : State) (x : Slot) : (s.setMe x).cur = s.cur := rfl

/-- What S asks for. -/
theorem switchAfter_spec (s : State) (sw : Bool) (hl : sw = true → s.me.late = none) :
    (switchAfter s sw).me = s.me.parkedBy sw ∧ OnlySlot s (switchAfter s sw) := by
  unfold switchAfter Slot.parkedBy
  cases sw with
  | false => exact ⟨rfl, OnlySlot.refl s⟩
  | true =>
    by_cases hq : s.me.quiet
    · simp only [hq, Bool.not_true, Bool.false_eq_true, if_false]
      split
      · simp_all
      · exact ⟨setSlot_cur_me s _, onlySlot_setSlot_cur s _⟩
    · simp only [hq, Bool.not_true, Bool.not_false, Bool.false_eq_true, if_false, if_true]
      exact ⟨setSlot_cur_me s _, onlySlot_setSlot_cur s _⟩

/-- Moving on: the PC, then what S asks for. -/
theorem advance_spec (s : State) (pc : Word) (sw : Bool) (hl : sw = true → s.me.late = none) :
    (advance s pc sw).me = (s.me.goTo pc).parkedBy sw ∧ OnlySlot s (advance s pc sw) := by
  have h := switchAfter_spec (s.setMe (s.me.goTo pc)) sw (by simpa [Slot.goTo] using hl)
  rw [me_setMe] at h
  exact ⟨h.1, (onlySlot_setMe s _).trans h.2⟩

theorem chkAfter_checked {i : Instr} {old new c : ChkMode} (h : chkComplete old i = .ok c) :
    chkAfter old new c = checked i old new := by simp [checked, h]

theorem passed_goTo {i : Instr} {old new : Slot} {c : ChkMode} {pc : Word} (h : chkComplete old.chk i = .ok c) :
    (Slot.passed old new c).goTo pc = Slot.retired i old new pc := by
  simp [Slot.passed, Slot.goTo, Slot.retired, chkAfter_checked h]

/-- The completion of an instruction that falls through with the state `s1` of its own effect. -/
theorem settle_done {i : Instr} {sw : Bool} {s s1 : State} {c : ChkMode}
    (hc : chkComplete s.me.chk i = .ok c) (hl : sw = true → s1.me.late = none) :
    (settleIssue i sw s (.done s1)).me = (Slot.retired i s.me s1.me s.me.npc).parkedBy sw ∧
      OnlySlot s1 (settleIssue i sw s (.done s1)) := by
  simp only [settleIssue, settle, completeWith, hc]
  have h := advance_spec (s1.setMe (Slot.passed s.me s1.me c)) s.me.npc sw (by simpa [Slot.passed] using hl)
  rw [me_setMe, passed_goTo hc] at h
  exact ⟨by rw [me_countCore, h.1], ((onlySlot_setMe s1 _).trans h.2).trans (onlySlot_countCore _ _ _ _)⟩

/-- The completion of an instruction that transfers to `pc`. -/
theorem settle_jump {i : Instr} {sw : Bool} {s s1 : State} {pc : Word} {c : ChkMode}
    (hc : chkComplete s.me.chk i = .ok c) (hl : sw = true → s1.me.late = none) :
    (settleIssue i sw s (.jump s1 pc)).me = (Slot.retired i s.me s1.me pc).parkedBy sw ∧
      OnlySlot s1 (settleIssue i sw s (.jump s1 pc)) := by
  simp only [settleIssue, settle, completeWith, hc]
  have h := advance_spec (traceEv (s1.setMe (Slot.passed s.me s1.me c)) s.cur 1 pc.toNat) pc sw
    (by simpa [Slot.passed] using hl)
  rw [me_traceEv, me_setMe, passed_goTo hc] at h
  exact ⟨by rw [me_countCore, h.1],
    (((onlySlot_setMe s1 _).trans (onlySlot_traceEv _ _ _ _)).trans h.2).trans (onlySlot_countCore _ _ _ _)⟩

/-- An instruction whose body completes with `s1`. -/
theorem runChecked_done {i : Instr} {sw : Bool} {pre : State → Bool} {deps : List Nat} {body : State → Res}
    {s s1 : State} (h : Issues i s) (hd : deps = depsOf s.me i)
    (hp : pre (issueMark s) = illegalHere (issueMark s) i) (hb : body (issueMark s) = .done s1)
    (hl : sw = true → s1.me.late = none) :
    Completed i sw s.me.npc s s1 (runChecked i sw pre deps body s) := by
  obtain ⟨c, hc⟩ := h.signed
  rw [runChecked_body h hd hp, hb]
  have hk := settle_done (i := i) (sw := sw) (s := issueMark s) (s1 := s1) (c := c) (by rw [me_issueMark]; exact hc) hl
  exact ⟨by rw [hk.1, me_issueMark]; rfl, hk.2⟩

/-- An instruction whose body transfers to `pc` with `s1`. -/
theorem runChecked_jump {i : Instr} {sw : Bool} {pre : State → Bool} {deps : List Nat} {body : State → Res}
    {s s1 : State} {pc : Word} (h : Issues i s) (hd : deps = depsOf s.me i)
    (hp : pre (issueMark s) = illegalHere (issueMark s) i) (hb : body (issueMark s) = .jump s1 pc)
    (hl : sw = true → s1.me.late = none) :
    Completed i sw pc s s1 (runChecked i sw pre deps body s) := by
  obtain ⟨c, hc⟩ := h.signed
  rw [runChecked_body h hd hp, hb]
  have hk := settle_jump (i := i) (sw := sw) (s := issueMark s) (s1 := s1) (pc := pc) (c := c)
    (by rw [me_issueMark]; exact hc) hl
  exact ⟨by rw [hk.1, me_issueMark], hk.2⟩

/-- A completion whose effect is on the slot alone. -/
theorem Completed.ofSlot {i : Instr} {sw : Bool} {pc : Word} {s s1 t : State} {f : Slot → Slot}
    (h : Completed i sw pc s s1 t) (hx : s1.me = f (s.me.started s.now)) (ho : OnlySlot (issueMark s) s1) :
    t.me = s.done i sw pc f ∧ OnlySlot s t := by
  refine ⟨?_, ((onlySlot_issueMark s).trans ho).trans h.rest⟩
  rw [h.slot, hx]
  rfl

/-- An instruction whose body only changes its slot, by `f`, and completes. -/
theorem runChecked_slot {i : Instr} {sw : Bool} {pre : State → Bool} {deps : List Nat} {body : State → Res} {s : State}
    {f : Slot → Slot} (h : Issues i s) (hd : deps = depsOf s.me i)
    (hp : pre (issueMark s) = illegalHere (issueMark s) i)
    (hb : body (issueMark s) = .done ((issueMark s).setMe (f (s.me.started s.now)))) (hl : NoLate sw s)
    (hf : (f (s.me.started s.now)).late = s.me.late) :
    (runChecked i sw pre deps body s).me = s.done i sw s.me.npc f ∧ OnlySlot s (runChecked i sw pre deps body s) :=
  (runChecked_done h hd hp hb (by rw [me_setMe, hf]; exact hl)).ofSlot (me_setMe _ _) (onlySlot_setMe _ _)

theorem runInstr_slot {i : Instr} {sw : Bool} {deps : List Nat} {body : State → Res} {s : State} {f : Slot → Slot}
    (h : Issues i s) (hd : deps = depsOf s.me i) (hp : illegalHere (issueMark s) i = false)
    (hb : body (issueMark s) = .done ((issueMark s).setMe (f (s.me.started s.now)))) (hl : NoLate sw s)
    (hf : (f (s.me.started s.now)).late = s.me.late) :
    (runInstr i sw deps body s).me = s.done i sw s.me.npc f ∧ OnlySlot s (runInstr i sw deps body s) :=
  runChecked_slot h hd hp.symm hb hl hf

/-- An effect that others see at once comes about where the instruction's signature does not fail (R88). -/
theorem guardEffects_signed {i : Instr} {s s1 : State} {c : ChkMode} (h : chkComplete s.me.chk i = .ok c) :
    guardEffects i s s1 = s1 := by
  simp [guardEffects, h]

/-- An instruction whose body waits. -/
theorem runChecked_stall {i : Instr} {sw : Bool} {pre : State → Bool} {deps : List Nat} {body : State → Res}
    {s s1 : State} {w : StallWhy} (h : Issues i s) (hd : deps = depsOf s.me i)
    (hp : pre (issueMark s) = illegalHere (issueMark s) i) (hb : body (issueMark s) = .stall s1 w) :
    runChecked i sw pre deps body s = s1.setMe (s1.me.waiting w) := by
  obtain ⟨c, hc⟩ := h.signed
  rw [runChecked_body h hd hp, hb]
  simp only [settleIssue, settle, guardEffects_signed (i := i) (s := issueMark s) (c := c) (by rw [me_issueMark]; exact hc),
    ite_self]
  rfl

/-! Traps. -/

theorem trapStack_issueMark (s : State) (sl : Slot) : trapStack (issueMark s) sl = trapStack s sl := rfl

/-- What entering a handler makes of the slot whose trap stack is there. -/
theorem enterTrap_spec {s : State} {t : TrapInfo} {fs : List TrapFrame} (h2 : (s.slot s.cur).doubleRisk = false)
    (h3 : (s.slot s.cur).depth ≠ 5) (h4 : trapStack s (s.slot s.cur) = some fs)
    (h5 : (s.slot s.cur).tstack = none → s.soft = []) :
    (enterTrap s s.cur t).me = s.me.trapped t fs ∧ OnlySlot s (enterTrap s s.cur t) := by
  have hs : (if (s.slot s.cur).tstack.isNone then softFix s ((s.slot s.cur).wsp + 0x1220) 480 else s) = s := by
    cases hx : (s.slot s.cur).tstack with
    | some _ => simp
    | none => simp [softFix, h5 hx]
  simp only [enterTrap, h2, Bool.false_eq_true, if_false, h3, h4, hs]
  exact ⟨by rw [me_traceEv, setSlot_cur_me]; rfl, (onlySlot_setSlot_cur s _).trans (onlySlot_traceEv _ _ _ _)⟩

/-- The flags of an FPX are all that its trap sets before the handler is entered (R283). -/
theorem raiseFpx_spec (s : State) (t : TrapInfo) :
    (raiseFpx s s.cur t).me = s.me.fpxRaised t ∧ OnlySlot s (raiseFpx s s.cur t) ∧ (raiseFpx s s.cur t).cur = s.cur ∧
      (raiseFpx s s.cur t).soft = s.soft ∧ ∀ sl, trapStack (raiseFpx s s.cur t) sl = trapStack s sl := by
  unfold raiseFpx Slot.fpxRaised
  split
  · exact ⟨setSlot_cur_me s _, onlySlot_setSlot_cur s _, rfl, rfl, fun _ => rfl⟩
  · exact ⟨rfl, OnlySlot.refl s, rfl, rfl, fun _ => rfl⟩

/-- A slot that can reach its handler takes a trap. -/
theorem takeTrap_spec {s : State} {t : TrapInfo} {fs : List TrapFrame} (h : CanTrap s fs) :
    (takeTrap s s.cur t).me = s.me.taking t fs ∧ OnlySlot s (takeTrap s s.cur t) := by
  unfold takeTrap Slot.taking
  by_cases hq : s.me.quiet
  · have hq' : (s.slot s.cur).quiet = true := hq
    have hc : (s.slot s.cur).late = none := h.late
    obtain ⟨hm, ho, hu, hf, hk⟩ := raiseFpx_spec s t
    have hm' : (raiseFpx s s.cur t).slot s.cur = s.me.fpxRaised t := by
      rw [← hm]; show _ = (raiseFpx s s.cur t).slot (raiseFpx s s.cur t).cur; rw [hu]
    have hx : ∀ {α : Type} (f : Slot → α), (∀ n, f (s.me.raise n) = f s.me) → f (s.me.fpxRaised t) = f s.me := by
      intro α f hr; unfold Slot.fpxRaised; split <;> simp [hr]
    rw [if_pos hq', if_pos hq]
    simp only [enterTrapLate, hc, toHandler, hm', hx (·.curLog2) (fun _ => rfl)]
    rw [if_pos h.single]
    have he := enterTrap_spec (s := raiseFpx s s.cur t) (t := t) (fs := fs)
      (by rw [hu, hm', hx (·.doubleRisk) (fun _ => rfl)]; exact h.calm)
      (by rw [hu, hm', hx (·.depth) (fun _ => rfl)]; exact h.room)
      (by rw [hu, hm', hk]; unfold trapStack; rw [hx (·.tstack) (fun _ => rfl), hx (·.wsp) (fun _ => rfl)]; exact h.stack)
      (by rw [hu, hm', hx (·.tstack) (fun _ => rfl), hf]; exact h.clean)
    rw [hu, hm] at he
    exact ⟨he.1, ho.trans he.2⟩
  · have hq' : (s.slot s.cur).quiet = false := by simpa using hq
    rw [hq', if_neg hq, if_neg (by simp)]
    exact ⟨setSlot_cur_me s _, onlySlot_setSlot_cur s _⟩

theorem CanTrap.marked {s : State} {fs : List TrapFrame} (h : CanTrap s fs) : CanTrap (issueMark s) fs :=
  ⟨by rw [me_issueMark]; exact h.late, by rw [me_issueMark]; exact h.single, by rw [me_issueMark]; exact h.calm,
   by rw [me_issueMark]; exact h.room, by rw [me_issueMark]; exact h.stack, by rw [me_issueMark]; exact h.clean⟩

/-- What an instruction that raises a trap at its issue comes to. -/
theorem settle_trap {i : Instr} {sw : Bool} {s : State} {t : TrapInfo} {fs : List TrapFrame} (h : CanTrap s fs) :
    (settleIssue i sw (issueMark s) (.trap t)).me = (s.me.started s.now).taking t fs ∧
      OnlySlot s (settleIssue i sw (issueMark s) (.trap t)) := by
  have hk := takeTrap_spec (t := t) h.marked
  rw [cur_issueMark, me_issueMark] at hk
  simp only [settleIssue, settle, cur_issueMark]
  exact ⟨by rw [me_countCore, hk.1], ((onlySlot_issueMark s).trans hk.2).trans (onlySlot_countCore _ _ _ _)⟩

/-- An instruction whose own rules raise a trap. -/
theorem runChecked_trap {i : Instr} {sw : Bool} {pre : State → Bool} {deps : List Nat} {body : State → Res} {s : State}
    {t : TrapInfo} {fs : List TrapFrame} (h : Issues i s) (hd : deps = depsOf s.me i)
    (hp : pre (issueMark s) = illegalHere (issueMark s) i) (hb : body (issueMark s) = .trap t) (hk : CanTrap s fs) :
    (runChecked i sw pre deps body s).me = (s.me.started s.now).taking t fs ∧
      OnlySlot s (runChecked i sw pre deps body s) := by
  rw [runChecked_body h hd hp, hb]
  exact settle_trap hk

/-- An instruction that is found wanting before its own rules. -/
theorem runChecked_early {i : Instr} {sw : Bool} {pre : State → Bool} {deps : List Nat} {body : State → Res} {s : State}
    {t : TrapInfo} {fs : List TrapFrame} (hb : issueChecks i pre deps (issueMark s) = some (.trap t)) (hk : CanTrap s fs) :
    (runChecked i sw pre deps body s).me = (s.me.started s.now).taking t fs ∧
      OnlySlot s (runChecked i sw pre deps body s) := by
  simp only [runChecked, hb]
  exact settle_trap hk

theorem runParking_early {i : Instr} {pre : State → Bool} {deps : List Nat} {check : State → Option Res}
    {fin : State → State} {s : State} {t : TrapInfo} {fs : List TrapFrame}
    (hb : issueChecks i pre deps (issueMark s) = some (.trap t)) (hk : CanTrap s fs) :
    (runParking i pre deps check fin s).me = (s.me.started s.now).taking t fs ∧
      OnlySlot s (runParking i pre deps check fin s) := by
  simp only [runParking, hb]
  exact settle_trap hk

/-! Units without errors (R57). -/

theorem withUnitAt_sound {s : State} (h : s.glitches = []) (i : Instr) (pc : Word) (u : UnitOf) (v : Word)
    (k : State → Word → Res) : withUnitAt s i pc u v k = k s v := by
  simp [withUnitAt, runUnit, glitchAt, h]

theorem withUnit_sound {s : State} (h : s.glitches = []) (i : Instr) (u : UnitOf) (v : Word) (k : State → Word → Res) :
    withUnit s i u v k = k s v := withUnitAt_sound h _ _ _ _ _

theorem withAgu_sound {s : State} (h : s.glitches = []) (i : Instr) (b x : Word) (sh : Nat) (d : Word)
    (k : State → Word → Res) : withAgu s i b x sh d k = k s (b + (x <<< sh) + d) := withUnit_sound h _ _ _ _

end Sys2Proof.Machine
end

