-- ==== Sys2Proof/Laws/Control.lean ====
section
/-! SUPPORT. Control transfers: what their own rules answer where no error of the hardware happens. -/

namespace Sys2Proof.Machine

theorem withTarget_sound {s : State} (h : s.glitches = []) (i : Instr) (loff : Word) (hi : BitVec 5)
    (k : State → Word → Res) : withTarget s i loff hi k = k s (relTarget s.me.pc loff hi) := withAgu_sound h _ _ _ _ _ _

/-- The condition of `loop.gtz` is the signed compare with 0. -/
theorem gtz_eq (x : Word) : selHolds .gtz x = (0 : Word).slt x := by
  simp only [selHolds, BitVec.slt, BitVec.msb_eq_toInt]
  by_cases h : x = 0
  · subst h; rfl
  · have : x.toInt ≠ 0 := by intro hx; exact h (BitVec.eq_of_toInt_eq (by simpa using hx))
    have h2 : (x != 0) = true := by simpa using h
    rw [h2, Bool.and_true, ← decide_not]
    congr 1
    simp only [eq_iff_iff]
    have : (0 : Word).toInt = 0 := rfl
    omega

/-- What a transfer's own rules answer. -/
theorem xfer_body {s : State} {i : Instr} {sw taken : Bool} {tgt : Word} {f : Slot → Slot}
    (hf : xferForm s.me i = some (sw, taken, tgt, f)) (hi : Issues i s) :
    ∃ body s1, exec i s = next (runInstr i sw (depsOf s.me i) body s) ∧ illegalHere (issueMark s) i = false ∧
      body (issueMark s) = (if taken then transferTo (issueMark s) i tgt s1 else .done s1) ∧
      s1.me = f (s.me.started s.now) ∧ OnlySlot (issueMark s) s1 ∧ (f (s.me.started s.now)).late = s.me.late := by
  have hg : (issueMark s).glitches = [] := hi.sound
  cases i <;> simp only [xferForm, reduceCtorEq, Option.some.injEq, Prod.mk.injEq] at hf
  all_goals obtain ⟨rfl, rfl, rfl, rfl⟩ := hf
  case br | bcc | bz =>
    refine ⟨_, issueMark s, rfl, rfl, ?_, me_issueMark s, OnlySlot.refl _, rfl⟩
    simp only [bccBody, bzBody, withUnit_sound hg, withTarget_sound hg, me_issueMark, if_true]
    rfl
  case ret =>
    refine ⟨_, issueMark s, rfl, rfl, ?_, me_issueMark s, OnlySlot.refl _, rfl⟩
    simp only [withAgu_sound hg, me_issueMark, if_true]
    congr 1
    simp
    rfl
  case bnz a _ _ =>
    refine ⟨_, issueMark s, rfl, rfl, ?_, me_issueMark s, OnlySlot.refl _, rfl⟩
    simp only [bzBody, withTarget_sound hg, me_issueMark]
    have hx : (s.me.started s.now).g a.toNat = s.me.g a.toNat := rfl
    rw [hx]
    by_cases h : s.me.g a.toNat = 0 <;> simp [h] <;> rfl
  case jal =>
    refine ⟨_, (issueMark s).setMe ((s.me.started s.now).setG _ s.me.npc), rfl, rfl, ?_, me_setMe _ _,
      onlySlot_setMe _ _, by simp; rfl⟩
    simp only [withTarget_sound hg, me_issueMark, if_true]
    rfl
  case jalr =>
    refine ⟨_, (issueMark s).setMe ((s.me.started s.now).setG _ s.me.npc), rfl, rfl, ?_, me_setMe _ _,
      onlySlot_setMe _ _, by simp; rfl⟩
    simp only [withAgu_sound hg, me_issueMark, if_true]
    congr 1
    simp
    rfl
  case loop | loopGtz =>
    refine ⟨_, (issueMark s).setMe ((s.me.started s.now).setG _ _), rfl, rfl, ?_, me_setMe _ _, onlySlot_setMe _ _,
      by simp; rfl⟩
    simp only [loopBody, withUnit_sound hg, withTarget_sound hg, me_issueMark, if_true, gtz_eq]
    rfl

end Sys2Proof.Machine
end

