-- ==== Sys2Proof/Laws/Integer.lean ====
section
/-! SUPPORT. Integer instructions: their units without errors, their issue without port registers. -/

namespace Sys2Proof.Machine

theorem find_pop_none {srcs : List Reg} (h : srcs.all (fun r => !isPop r) = true) : srcs.find? isPop = none := by
  rw [List.find?_eq_none]
  intro x hx
  simpa using List.all_eq_true.mp h x hx

theorem any_pop_false {srcs : List Reg} (h : srcs.all (fun r => !isPop r) = true) : srcs.any isPop = false := by
  rw [List.any_eq_false]
  intro x hx
  simpa using List.all_eq_true.mp h x hx

theorem pushAccess_low (s : State) (i : Instr) {r : Nat} (h : r ≤ 47) : pushAccess s i r = none := by
  unfold pushAccess
  rw [if_neg (by omega), if_neg (by omega), if_neg (by omega)]

theorem pushWait_low (s : State) {r : Nat} (h : r ≤ 47) : pushWait s r = none := if_pos h

theorem portTrap_none {s : State} {i : Instr} {srcs : List Reg} {d : Reg} (hs : srcs.all (fun r => !isPop r) = true)
    (hd : d.toNat ≤ 47) : portTrap s i srcs (some d) = none := by
  simp only [portTrap, find_pop_none hs, Option.bind_some, pushAccess_low s i hd]

theorem withAlu_sound {s : State} (h : s.glitches = []) (i : Instr) (pc : Word) (w : Nat) (f : AluFn) (a b : Word)
    (k : State → Word → Res) : withAlu s i pc w f a b k = k s (aluOf w f a b) := by
  unfold withAlu
  simp only [withUnitAt_sound h]
  repeat' split
  all_goals simp_all

theorem withSel_sound {s : State} (h : s.glitches = []) (i : Instr) (pc : Word) (c : SelCond) (x y t : Word)
    (k : State → Word → Res) : withSel s i pc c x y t k = k s (if selHolds c t then x else y) := by
  simp only [withSel, withUnitAt_sound h]

theorem withBit_sound {s : State} (h : s.glitches = []) (i : Instr) (pc : Word) (f : BitFn) (b c : Word)
    (k : State → Word → Res) : withBit s i pc f b c k = k s (bitVal f b c) := by
  unfold withBit
  simp only [withUnitAt_sound h]
  split <;> rfl

theorem withMul_sound {s : State} (h : s.glitches = []) (i : Instr) (pc : Word) (f : MulFn) (a b : Word)
    (k : State → Word → Res) : withMul s i pc f a b k = k s (mulVal f a b) := by
  simp only [withMul, mulVal, withUnitAt_sound h]
  cases (mulStep f a.toNat b.toNat).fix <;> simp

theorem withAddr_sound {s : State} (h : s.glitches = []) (i : Instr) (pc : Word) (f : AddrFn) (b c d : Word)
    (sh : BitVec 3) (x : BitVec 8) (k : State → Word → Res) :
    withAddr s i pc f b c d sh x k = k s (addrVal f b c d sh x) := by
  simp only [withAddr, withUnitAt_sound h]

/-- The issue of an integer instruction whose sources do not pop. -/
theorem intBody_done {i : Instr} {d : Reg} {s : State} {v : Word} (hs : (intSrcs i).all (fun r => !isPop r) = true)
    (hd : d.toNat ≤ 47) (hv : ∀ k, withInt s i s.me.pc ((intSrcs i).map (srcVal s.me)) k = k s v) :
    intBody i d false s = .done (s.setMe (s.me.setG d.toNat v)) := by
  simp only [intBody, portTrap_none hs hd, any_pop_false hs, Bool.or_false, Bool.false_and, Bool.false_eq_true, if_false,
    pushWait_low s hd, readSrcs, find_pop_none hs, hv, putResult, hd, if_true]

/-- The issue of a long-latency integer instruction whose sources do not pop: its value is outstanding. -/
theorem intBody_long {i : Instr} {d : Reg} {s : State} {v : Word} (hs : (intSrcs i).all (fun r => !isPop r) = true)
    (hd : d.toNat ≤ 47) (ho : outLimit s.me = false)
    (hv : ∀ k, withInt s i s.me.pc ((intSrcs i).map (srcVal s.me)) k = k s v) :
    intBody i d true s = putLong s i d.toNat false v 0 := by
  simp only [intBody, portTrap_none hs hd, ho, Bool.and_false, Bool.false_eq_true, if_false, Bool.true_or, if_true,
    pushWait_low s hd, readSrcs, find_pop_none hs, hv]

theorem constBody_done {i : Instr} {d : Reg} {s : State} {v : Word} (hg : s.glitches = []) (hd : d.toNat ≤ 47) :
    constBody i d v s = .done (s.setMe (s.me.setG d.toNat v)) := by
  simp only [constBody, portTrap, List.find?_nil, pushAccess_low s i hd, Option.bind_some, pushWait_low s hd,
    withUnit_sound hg, putResult, hd, if_true]

end Sys2Proof.Machine
end

