-- ==== Sys2Proof/Laws/Life.lean ====
section
/-! SUPPORT. The ends of activations: a cleared slot, a slot that starts again, and the policy of R386. -/

namespace Sys2Proof.Machine

theorem foldl_keep {α β γ : Type} (f : β → α → β) (g : β → γ) (h : ∀ b a, g (f b a) = g b) (l : List α) (b : β) :
    g (l.foldl f b) = g b := by
  induction l generalizing b with
  | nil => rfl
  | cons a r ih => rw [List.foldl_cons, ih, h]

/-- What a cleared slot leaves: the machine but for its cores, its clusters and its slots. -/
def State.trunk (s : State) : State := { s with slots := [], cores := [], clusters := [] }

theorem trunk_returnEntry (s : State) (cl i : Nat) : (returnEntry s cl i).trunk = s.trunk := rfl

theorem slots_returnEntry (s : State) (cl i : Nat) : (returnEntry s cl i).slots = s.slots := rfl

theorem slot_flushFenced (s : State) (c : Nat) (q : SlotRef) : (flushFenced s c).slot q = s.slot q := by
  unfold flushFenced
  split
  · exact foldl_keep (fun (u : State) (p : Nat × Packet) => u.fwTell (dieOf c) 1 (.returned 9 (returnedWords p.2 9)))
      (fun u : State => u.slot q) (fun _ _ => rfl) _ _
  · rfl

theorem slot_flushMembers (s : State) (cs : List Nat) (q : SlotRef) : (flushMembers s cs).slot q = s.slot q :=
  foldl_keep _ (fun u : State => u.slot q) (fun u c => slot_flushFenced u c q) cs s

/-- A slot that gives up everything, with no composition. -/
theorem trunk_clearSlot (s : State) (r : SlotRef) (hc : (s.slot r).curLog2 = 0) : (clearSlot s r).trunk = s.trunk := by
  unfold clearSlot
  dsimp only
  rw [if_pos hc, if_pos hc, show ∀ (u : State) (x : Slot), ((dropFar u r).setSlot r x).trunk = u.trunk from fun _ _ => rfl]
  have h1 : ∀ u : State, ((reservedPools (s.slot r)).foldl (fun v i => returnEntry v (clusterOf r.core) i) u).trunk = u.trunk :=
    fun u => foldl_keep (fun v i => returnEntry v (clusterOf r.core) i) State.trunk (fun v i => trunk_returnEntry v _ i) _ u
  split
  · exact h1 _
  · exact (h1 _).trans rfl

@[simp] theorem slot_clearSlot (s : State) (r : SlotRef) : (clearSlot s r).slot r = emptied (s.slot r) := by
  unfold clearSlot
  dsimp only
  split
  · exact slot_setSlot_same _ _ _
  · rw [slot_flushMembers]; exact slot_setSlot_same _ _ _

/-- Without a composition, no other slot changes. -/
theorem slot_clearSlot_other (s : State) (r q : SlotRef) (h : slotKey q ≠ slotKey r) (hc : (s.slot r).curLog2 = 0) :
    (clearSlot s r).slot q = s.slot q := by
  unfold clearSlot
  dsimp only
  rw [if_pos hc, if_pos hc, slot_setSlot, if_neg (Ne.symm h)]
  have h1 : ∀ u : State, ((reservedPools (s.slot r)).foldl (fun v i => returnEntry v (clusterOf r.core) i) u).slots = u.slots :=
    fun u => foldl_keep (fun v i => returnEntry v (clusterOf r.core) i) State.slots (fun v i => slots_returnEntry v _ i) _ u
  have h2 : ∀ u : State, (dropFar u r).slot q = u.slot q := fun _ => rfl
  rw [h2]
  have h3 : ∀ u : State, ((reservedPools (s.slot r)).foldl (fun v i => returnEntry v (clusterOf r.core) i) u).slot q = u.slot q :=
    fun u => by rw [State.slot, h1]; rfl
  rw [h3]
  split <;> rfl

theorem cpol_trunk {s t : State} (h : t.trunk = s.trunk) (d p : Nat) : cpol t d p = cpol s d p := by
  have h1 : cpol t d p = cpol t.trunk d p := rfl
  rw [h1, h]; rfl

theorem fenceBit_trunk {s t : State} (h : t.trunk = s.trunk) (c : Nat) : fenceBit t c = fenceBit s c := by
  have h1 : fenceBit t c = fenceBit t.trunk c := rfl
  rw [h1, h]; rfl

theorem slot_leaveLists (s : State) (a : Nat) (q : SlotRef) : (leaveLists s a).slot q = s.slot q := by
  unfold leaveLists; dsimp only; split <;> rfl

theorem fw_leaveLists (s : State) (a : Nat) : (leaveLists s a).fw = s.fw := by
  unfold leaveLists; dsimp only; split <;> rfl

/-- A slot that takes an activation, and nothing of other slots. -/
theorem slot_startFilling (s : State) (r q : SlotRef) (a : Nat) (t : Trigger) (fresh : Bool) (h : slotKey q ≠ slotKey r) :
    (startFilling s r a t fresh).slot q = s.slot q := by
  unfold startFilling
  dsimp only
  rw [show ∀ (u : State) (c : Nat) (x : CoreSt) (n : Nat), ({ u.setCore c x with seqNext := n } : State).slot q = u.slot q
    from fun _ _ _ _ => rfl]
  rw [slot_setSlot, if_neg (Ne.symm h)]
  exact slot_leaveLists s a q

theorem fw_startFilling (s : State) (r : SlotRef) (a : Nat) (t : Trigger) (fresh : Bool) :
    (startFilling s r a t fresh).fw = s.fw := by
  unfold startFilling; dsimp only; exact fw_leaveLists s a

theorem restarts_startFilling (s : State) (r : SlotRef) (old : Slot) (a : Nat) (t redo : Trigger) (fresh : Bool)
    (ha : a = old.strand) (hk : t.key = redo.key) (hp : t.payload = redo.payload) (hc : t.conflicts = redo.conflicts)
    (hd : t.redeliveries = redo.redeliveries) : old.Restarts redo ((startFilling s r a t fresh).slot r) := by
  unfold startFilling
  dsimp only
  rw [show ∀ (u : State) (c : Nat) (x : CoreSt) (n : Nat), ({ u.setCore c x with seqNext := n } : State).slot r = u.slot r
    from fun _ _ _ _ => rfl,
    slot_setSlot_same]
  constructor <;> first | rfl | exact ha | (dsimp only; split <;> first | exact hk | exact hp | exact hc | exact hd) | exact ⟨rfl, rfl, rfl⟩ | exact ⟨rfl, rfl, rfl, rfl, rfl, rfl⟩

end Sys2Proof.Machine
end

