-- ==== Sys2Proof/Laws/Outgoing.lean ====
section
/-! SUPPORT. Outgoing entries: what an instruction that only enters one answers, and where the entry goes. -/

namespace Sys2Proof.Machine

theorem addOut_buffered {s : State} {w : OutWhat} (h : s.me.irrev = false) : addOut s w = s.setMe (s.me.entered w) := by
  simp only [addOut, h, Bool.false_eq_true, if_false]; rfl

theorem irrev_started (sl : Slot) (n : Nat) : (sl.started n).irrev = sl.irrev := by
  unfold Slot.irrev Slot.started
  cases h : sl.act <;> rfl

theorem outFull_started (sl : Slot) (n : Nat) : outFull (sl.started n) = outFull sl := by
  rw [outFull, irrev_started]; rfl

theorem outWait_started (sl : Slot) (n : Nat) : outWait (sl.started n) = outWait sl := by
  rw [outWait, outFull_started, irrev_started]; rfl

theorem outstanding_issueMark (s : State) (q : Nat) : outstanding (issueMark s) (s.me.started s.now) q = outstanding s s.me q := rfl

theorem nextQseq_issueMark (s : State) (q : Nat) : nextQseq (issueMark s) (s.me.started s.now) q = nextQseq s s.me q := rfl

/-- A command that may be entered, and has room, is. -/
theorem takeCommand_entered {s : State} {i : Instr} {q : Nat} {word : Word} {cap : List Nat} {w : OutWhat}
    (hw : commandForm s q word cap = some w) (hf : outWait s.me = none)
    (hr : s.me.irrev = true → retFull s s.cur.core = false) :
    takeCommand (issueMark s) i q word cap = .done (addOut (issueMark s) w) := by
  unfold commandForm at hw
  split at hw
  · cases hw
  · rename_i hn
    rw [not_or] at hn
    cases hw
    simp only [takeCommand, me_issueMark, outstanding_issueMark, outWait_started, irrev_started, hf, nextQseq_issueMark]
    rw [if_neg hn.1, if_neg (by exact hn.2), if_neg]
    · rfl
    · rw [Bool.and_eq_true]
      rintro ⟨h1, h2⟩
      have := hr h1
      rw [show retFull (issueMark s) (issueMark s).cur.core = retFull s s.cur.core from rfl, this] at h2
      cases h2

theorem matrixBody_entered {s : State} {i : Instr} {op : Nat} {t : BitVec 2} {clr : Bool} {b c : Reg} {w : OutWhat}
    (hw : matrixForm s op t clr b c = some w) (hf : outWait s.me = none)
    (hr : s.me.irrev = true → retFull s s.cur.core = false) :
    matrixBody i op t clr b c (issueMark s) = .done (addOut (issueMark s) w) := by
  unfold matrixForm at hw
  split at hw
  · cases hw
  · rename_i hn
    unfold matrixBody
    simp only [me_issueMark]
    rw [if_neg (by exact hn)]
    exact takeCommand_entered hw hf hr

theorem collBody_entered {s : State} {i : Instr} {op : Nat} {b : Reg} {w : OutWhat}
    (hw : collForm s op b = some w) (hf : outWait s.me = none)
    (hr : s.me.irrev = true → retFull s s.cur.core = false) :
    collBody i op b (issueMark s) = .done (addOut (issueMark s) w) := by
  unfold collForm at hw
  split at hw
  · cases hw
  · rename_i hn
    unfold collBody
    simp only [me_issueMark]
    rw [if_neg (by exact hn)]
    exact takeCommand_entered hw hf hr

theorem sendWait_none {s : State} (hf : outWait s.me = none) (hr : s.me.irrev = true → retFull s s.cur.core = false) :
    sendWait (issueMark s) = none := by
  simp only [sendWait, me_issueMark, outWait_started, irrev_started, hf]
  rw [if_neg]
  rw [Bool.and_eq_true]
  rintro ⟨h1, h2⟩
  have := hr h1
  rw [show retFull (issueMark s) (issueMark s).cur.core = retFull s s.cur.core from rfl, this] at h2
  cases h2

theorem sendBody_entered {s : State} {i : Instr} {a b : Reg} {rep rmo res : Bool} {delta : BitVec 16} {w : OutWhat}
    (hw : sendForm s a b rep rmo res delta = some w) (hf : outWait s.me = none)
    (hr : s.me.irrev = true → retFull s s.cur.core = false) :
    sendBody i a b rep rmo res delta (issueMark s) =
      .done (addOut ((issueMark s).setMe (s.me.started s.now).outbSent) w) := by
  unfold sendForm at hw
  dsimp only at hw
  split at hw
  · cases hw
  · rename_i hn
    simp only [not_or] at hn
    obtain ⟨h1, h2, h3, h4, h5, h6⟩ := hn
    cases hw
    unfold sendBody
    simp only [me_issueMark, sendWait_none hf hr]
    rw [if_neg (by exact h1), if_neg (by
      intro h; apply h2
      simp only [Bool.and_eq_true, Bool.not_eq_true', decide_eq_true_eq] at h
      exact ⟨h.1.1, h.1.2, h.2⟩), if_neg (by
      intro h
      simp only [Bool.or_eq_true, Bool.and_eq_true, bne_iff_ne, ne_eq] at h
      rcases h with h | h
      · exact h3 h
      · exact h4 h), if_neg (by exact h5), if_neg (by exact h6)]
    have ho : inOrdered (issueMark s) = inOrdered s := by rw [inOrdered, me_issueMark]; rfl
    simp only [sendOut, me_issueMark, ho]
    rfl

/-- What an instruction that only enters an outgoing entry answers. -/
theorem out_body {s : State} {i : Instr} {sw msg : Bool} {f : Slot → Slot} {w : OutWhat}
    (hw : outForm s i = some (sw, msg, f, w)) (hf : outWait s.me = none)
    (hr : msg = true → s.me.irrev = true → retFull s s.cur.core = false) :
    ∃ body, exec i s = next (runInstr i sw (depsOf s.me i) body s) ∧ illegalHere (issueMark s) i = false ∧
      body (issueMark s) = .done (addOut ((issueMark s).setMe (f (s.me.started s.now))) w) := by
  cases i <;> simp only [outForm, reduceCtorEq, Option.map_eq_some_iff, Prod.mk.injEq] at hw
  case send =>
    obtain ⟨w', hw, rfl, rfl, rfl, rfl⟩ := hw
    exact ⟨_, rfl, rfl, sendBody_entered hw hf (hr rfl)⟩
  case collMax | collReduceBsi | collBcast | collGather =>
    obtain ⟨w', hw, rfl, rfl, rfl, rfl⟩ := hw
    refine ⟨_, rfl, rfl, ?_⟩
    rw [id_eq, issueMark_setMe]
    exact collBody_entered hw hf (hr rfl)
  case mm | mms | mmx | mread | mstw =>
    obtain ⟨w', hw, rfl, rfl, rfl, rfl⟩ := hw
    refine ⟨_, rfl, rfl, ?_⟩
    rw [id_eq, issueMark_setMe]
    exact matrixBody_entered hw hf (hr rfl)
  case mzero sw t c =>
    obtain ⟨w', hw, rfl, rfl, rfl, rfl⟩ := hw
    refine ⟨_, rfl, rfl, ?_⟩
    rw [id_eq, issueMark_setMe]
    simp only [me_issueMark]
    exact takeCommand_entered hw hf (hr rfl)
  case job sw b c =>
    split at hw
    · cases hw
    · rename_i hn
      cases hw
      refine ⟨_, rfl, rfl, ?_⟩
      rw [id_eq, issueMark_setMe]
      unfold jobBody
      simp only [me_issueMark]
      rw [if_neg (by exact hn), sendWait_none hf (hr rfl)]
      rfl
  case unbind sw ch cl =>
    split at hw
    · cases hw
    · rename_i hn
      cases hw
      refine ⟨_, rfl, rfl, ?_⟩
      rw [id_eq, issueMark_setMe]
      simp only [firmwareChannel, takeOut, me_issueMark, outWait_started, hf]
      rw [if_neg (by exact hn)]
      rfl
  case unkeep sw n =>
    split at hw
    · rename_i hn
      cases hw
      refine ⟨_, rfl, rfl, ?_⟩
      rw [id_eq, issueMark_setMe]
      have hk : keepGranted (issueMark s) n.toNat = true := by
        simp only [keepGranted, me_issueMark]; exact hn
      simp only [hk, takeOut, me_issueMark, outWait_started, hf]
      rfl
    · cases hw

end Sys2Proof.Machine
end

