-- ==== Sys2Proof/Laws/Park.lean ====
section
/-! SUPPORT. Parking instructions: their issue, and what they do at the end of a park that ends at once. -/

namespace Sys2Proof.Machine

/-- A parking instruction whose checks pass issues through `runParking` with what `finOf` gives it. -/
theorem park_shape {s : State} {i : Instr} (h : mayPark s i = true) :
   ∃ pre check, exec i s = next (runParking i pre (depsOf s.me i) check (finOf i) s) ∧
     pre (issueMark s) = illegalHere (issueMark s) i ∧ check (issueMark s) = none := by
  cases i <;> simp only [mayPark, reduceCtorEq] at h
  case yield =>
    refine ⟨_, _, rfl, rfl, ?_⟩
    rw [me_issueMark, if_neg]
    intro hx
    rw [show (s.me.started s.now).ts = s.me.ts from rfl] at hx
    simp [hx] at h
  case tret =>
    refine ⟨_, _, rfl, rfl, ?_⟩
    simp only [Bool.and_eq_true, bne_iff_ne, ne_eq, Bool.not_eq_true'] at h
    obtain ⟨⟨h1, h2⟩, h3⟩ := h
    simp only [tretCheck, me_issueMark]
    rw [if_neg (by rw [show (s.me.started s.now).super = s.me.super from rfl, h1]; simp), if_neg (by exact h2), if_neg]
    intro hx
    rw [show (s.me.started s.now).trapa = s.me.trapa from rfl, h3] at hx
    cases hx
  case mchkAbort =>
    refine ⟨_, _, rfl, rfl, ?_⟩
    rw [me_issueMark]
    exact if_pos h
  all_goals exact ⟨_, _, rfl, rfl, rfl⟩

theorem me_countIssue (s : State) : (countIssue s).me = s.me := me_countCore _ _ _ _
theorem onlySlot_countIssue (s : State) : OnlySlot s (countIssue s) := onlySlot_countCore _ _ _ _

theorem runParking_eq {i : Instr} {pre : State → Bool} {check : State → Option Res} {fin : State → State} {s : State}
    (hi : Issues i s) (hp : pre (issueMark s) = illegalHere (issueMark s) i) (hc : check (issueMark s) = none) :
    runParking i pre (depsOf s.me i) check fin s =
      if s.me.quiet then afterPark i fin (countIssue (issueMark s))
      else parkSlot (countIssue (issueMark s)) (countIssue (issueMark s)).cur (.after i) := by
  simp only [runParking, issueChecks_none hi rfl hp, hc, me_countIssue, me_issueMark]
  rfl

/-- The state in which a parking instruction acts when its park ends at once. -/
def parkEnded (s : State) : State := unpark (countIssue (issueMark s)) (countIssue (issueMark s)).cur

theorem cur_countIssue (s : State) : (countIssue s).cur = s.cur := (onlySlot_countIssue s).cur

theorem me_parkEnded (s : State) : (parkEnded s).me = (s.me.started s.now).unparked := by
  rw [parkEnded, unpark, setSlot_cur_me]
  change (State.me _).unparked = _
  rw [me_countIssue, me_issueMark]

theorem onlySlot_parkEnded (s : State) : OnlySlot s (parkEnded s) :=
  ((onlySlot_issueMark s).trans (onlySlot_countIssue _)).trans (onlySlot_setSlot_cur _ _)

/-- A park that ends at once with nothing before the instruction's effect. -/
theorem afterPark_now {i : Instr} {fin : State → State} {s : State}
    (hl : lateLast i = false → s.me.late = none) (hc : handsBack i = true → s.me.curLog2 = 0) :
    afterPark i fin (countIssue (issueMark s)) = fin (parkEnded s) := by
  unfold afterPark
  rw [me_countIssue, me_issueMark]
  have h1 : (if lateLast i then none else (s.me.started s.now).late) = none := by
    cases h : lateLast i
    · exact hl h
    · rfl
  rw [h1]
  have h2 : (handsBack i && (s.me.started s.now).curLog2 != 0) = false := by
    cases h : handsBack i
    · rfl
    · have : (s.me.started s.now).curLog2 = 0 := hc h
      rw [this]; rfl
  simp only [h2, Bool.false_eq_true, if_false]
  rfl

/-- What a parking instruction comes to when its park ends at once. -/
theorem park_now {s : State} {i : Instr} (hm : mayPark s i = true) (hi : Issues i s) (hq : s.me.quiet = true)
    (hl : lateLast i = false → s.me.late = none) (hc : handsBack i = true → s.me.curLog2 = 0) :
    exec i s = next (finOf i (parkEnded s)) := by
  obtain ⟨pre, check, he, hp, hk⟩ := park_shape hm
  rw [he, runParking_eq hi hp hk, if_pos hq, afterPark_now hl hc]

/-- Completion without an effect of its own at the end of a park. -/
theorem completeWith_parkEnded {i : Instr} {s : State} {k : State → State} (hi : Issues i s) :
    completeWith i (parkEnded s) (parkEnded s) k =
      k ((parkEnded s).setMe ((s.me.started s.now).parkOver i)) := by
  obtain ⟨c, hc⟩ := hi.signed
  unfold completeWith
  rw [me_parkEnded]
  have h : chkComplete (s.me.started s.now).unparked.chk i = .ok c := hc
  rw [h]
  dsimp only
  congr 2
  unfold Slot.passed Slot.parkOver
  rw [chkAfter_checked h]
  rfl

theorem onlySlot_parkOver (s : State) (i : Instr) : OnlySlot s ((parkEnded s).setMe ((s.me.started s.now).parkOver i)) :=
  (onlySlot_parkEnded s).trans (onlySlot_setMe _ _)

theorem OnlySlot.countEnd {s t : State} (h : OnlySlot s t) : OnlySlot s.countEnd t.countEnd :=
  ⟨h.slots, h.cores, h.bytes, congrArg State.countEnd h.rest⟩

/-- The registers after the saved ones are back. -/
theorem restoreG_g (sl : Slot) (f : TrapFrame) (r : Nat) : (restoreG sl f).g r =
    if r = 6 then f.g6 else if r = 5 then f.g5 else if r = 4 then f.g4 else if r = 3 then f.g3 else if r = 2 then f.g2 else if r = 1 then f.g1 else sl.g r := by
  simp only [restoreG, g_setG]
  by_cases h0 : r = 0
  · subst h0; simp
  · simp only [h0, if_false]
    grind

theorem resumeLevel_g (sl : Slot) (f : TrapFrame) (r : Nat) : (resumeLevel sl f false).g r = (restoreG sl f).g r := rfl

theorem resumeLevel_regs (sl : Slot) (f : TrapFrame) : (resumeLevel sl f true).regs = sl.regs := rfl

end Sys2Proof.Machine
end

