-- ==== Sys2Proof/Laws/Shape.lean ====
section
/-! SUPPORT. Every instruction of the table issues through one of two frames, with the registers of `depsOf` and the
early ILLEGAL of `illegalHere`; what the checks of those frames find. -/

namespace Sys2Proof.Machine

/-- An instruction issues through `runChecked`. -/
def IsChecked (i : Instr) (s : State) : Prop :=
  ∃ sw pre body, exec i s = next (runChecked i sw pre (depsOf s.me i) body s) ∧
    pre (issueMark s) = illegalHere (issueMark s) i

/-- An instruction issues through `runParking`. -/
def IsParking (i : Instr) (s : State) : Prop :=
  ∃ pre check fin, exec i s = next (runParking i pre (depsOf s.me i) check fin s) ∧
    pre (issueMark s) = illegalHere (issueMark s) i

theorem srWriting_shape {i : Instr} {sw : Bool} {f : Nat} {a b : Reg} {n : BitVec 10} {s : State}
    (hx : exec i s = next (srWriting i sw f a b n s)) (hd : depsOf s.me i = [b.toNat, a.toNat])
    (hp : illegalHere (issueMark s) i = srUnassigned n (issueMark s)) : IsChecked i s ∨ IsParking i s := by
  rw [srWriting] at hx
  split at hx
  · exact .inr ⟨_, _, _, hd ▸ hx, hp.symm⟩
  · exact .inl ⟨_, _, _, hd ▸ hx, hp.symm⟩

/-- Every instruction issues through one of the two frames. -/
theorem exec_shape (i : Instr) (s : State) (he : isEvent i = false) : IsChecked i s ∨ IsParking i s := by
  cases i
  all_goals try (cases he; done)
  all_goals try exact .inl ⟨_, _, _, rfl, rfl⟩
  all_goals try exact .inr ⟨_, _, _, rfl, rfl⟩
  case srWr => exact srWriting_shape rfl rfl rfl
  case srSet => exact srWriting_shape rfl rfl rfl
  case srClr => exact srWriting_shape rfl rfl rfl
  case vbsi sw f rm p a b c => cases f <;> exact .inl ⟨_, _, _, rfl, rfl⟩

theorem ports_issueMark (s : State) (deps : List Nat) :
    deps.any (portIllegal (issueMark s).me (issueMark s).cur.core) = deps.any (portIllegal s.me s.cur.core) := by
  rw [me_issueMark]; rfl

/-- The checks of an instruction that is not legal where it stands. -/
theorem issueChecks_illegal {i : Instr} {pre : State → Bool} {deps : List Nat} {s : State} (hd : deps = depsOf s.me i)
    (hp : pre (issueMark s) = illegalHere (issueMark s) i)
    (h : i.wf = false ∨ illegalHere s i = true ∨ (depsOf s.me i).any (portIllegal s.me s.cur.core) = true) :
    issueChecks i pre deps (issueMark s) = some (.trap (faultOf (issueMark s) i 1 0 0)) := by
  rw [illegalHere_issueMark] at hp
  unfold issueChecks
  rw [ports_issueMark, hd, hp, if_pos]
  · rfl
  · rcases h with h | h | h <;> simp [h]

/-- The checks of an instruction that names a pending register. -/
theorem issueChecks_depend {i : Instr} {pre : State → Bool} {deps : List Nat} {s : State} {r : Nat}
    (hd : deps = depsOf s.me i) (hp : pre (issueMark s) = illegalHere (issueMark s) i) (h1 : i.wf = true)
    (h2 : illegalHere s i = false) (h3 : (depsOf s.me i).any (portIllegal s.me s.cur.core) = false)
    (h4 : firstPending s.me (depsOf s.me i) = some r) :
    issueChecks i pre deps (issueMark s) = some (.trap (faultOf (issueMark s) i 6 0 (BitVec.ofNat 64 r))) := by
  rw [illegalHere_issueMark] at hp
  unfold issueChecks
  rw [ports_issueMark, hd, hp, h1, h2, h3, me_issueMark, firstPending_started, h4]
  rfl

end Sys2Proof.Machine
end

