-- ==== Sys2Proof/Laws/Vector.lean ====
section
/-! SUPPORT. Vector instructions that access no memory: their dispatch. -/

namespace Sys2Proof.Machine

/-- A vector instruction that accesses no memory issues through `vecDispatch`. -/
theorem vec_shape {s : State} {i : Instr} {sw : Bool} {srcs dests : List Nat} (h : vecForm s.me i = some (sw, srcs, dests)) :
    ∃ pre, exec i s = next (runChecked i sw pre (depsOf s.me i) (vecDispatch i srcs dests) s) ∧
     pre (issueMark s) = illegalHere (issueMark s) i := by
  cases i <;> simp only [vecForm, reduceCtorEq, Option.some.injEq, Prod.mk.injEq] at h
  all_goals obtain ⟨rfl, rfl, rfl⟩ := h
  case vbsi sw f rm p a b c => cases f <;> exact ⟨_, rfl, rfl⟩
  all_goals exact ⟨_, rfl, rfl⟩

end Sys2Proof.Machine
end

