-- ==== Sys2Proof/Tests/Slice0.lean ====
section
/-! SUPPORT. Tests: ill-formed terms that WellFormed refuses, words written out from the encodings of the manual, small
steps, and for every statement with hypotheses a state and operands that meet them. -/

open Sys2Proof Sys2Proof.Machine

namespace Sys2Proof.Tests

/-! WellFormed: one ill-formed term for each check. -/

theorem test_wf_reservedRegister : (Instr.alu false .add 3 59 2).wf = false := by decide
theorem test_wf_readsOutb : (Instr.alu false .add 3 57 2).wf = false := by decide
theorem test_wf_writesInb : (Instr.alu false .add 56 1 2).wf = false := by decide
theorem test_wf_writesTsr : (Instr.liImm16 false 58 0).wf = false := by decide
theorem test_wf_twoPops : (Instr.alu false .add 3 56 48).wf = false := by decide
theorem test_wf_portAsBase : (Instr.ld false .d 3 ⟨56, 0, 0, 0, 0, 0⟩).wf = false := by decide
theorem test_wf_portInBranch : (Instr.bz false 48 0 0).wf = false := by decide
theorem test_wf_retWithG0 : (Instr.ret false 0).wf = false := by decide
theorem test_wf_loopWithG0 : (Instr.loop false 0 0 0).wf = false := by decide
theorem test_wf_shiftAmount : (Instr.alui false .sll 2 1 64).wf = false ∧ (Instr.aluiw false .sll 2 1 32).wf = false := by
  decide
theorem test_wf_bitUnaryWithC : (Instr.bit false .clz 2 1 3).wf = false := by decide
theorem test_wf_addrWithD : (Instr.addr false .idx 2 1 3 4 0 0).wf = false := by decide
theorem test_wf_scope : (Instr.ld false .d 3 ⟨1, 0, 0, 6, 0, 0⟩).wf = false := by decide
theorem test_wf_eviction : (Instr.st false .d 3 ⟨1, 0, 0, 0, 7, 0⟩).wf = false := by decide
theorem test_wf_prefOrd : (Instr.pref false .l1 0 ⟨1, 0, 1, 0, 0, 0⟩).wf = false := by decide
theorem test_wf_fenceSets : (Instr.fence false 0 0 3).wf = false ∧ (Instr.fence false 0 3 0).wf = false := by decide
theorem test_wf_fenceScope : (Instr.fence false 6 3 3).wf = false := by decide
theorem test_wf_amoWidth : (Instr.amo false .add .q 1 2 ⟨0, 0, 0⟩).wf = false ∧
    (Instr.amo false .bsiadd .d 1 2 ⟨0, 0, 0⟩).wf = false := by decide
theorem test_wf_amoPair : (Instr.amof false .swap .q 3 1 4 ⟨0, 0, 0⟩).wf = false := by decide
theorem test_wf_amoOrder : (Instr.cas false .d 3 1 2 4 ⟨6, 0, 0⟩).wf = false := by decide
theorem test_wf_amotWidth : (Instr.amot false .add .q 1 2 4 ⟨0, 0, 0⟩).wf = false := by decide
theorem test_wf_composeSize : (Instr.compose false 0).wf = false ∧ (Instr.compose false 5).wf = false := by decide
theorem test_wf_counterNumber : (Instr.ctrRd false 1 12).wf = false := by decide
theorem test_wf_cvtRounding : (Instr.cvt false 6 false .f32 .f64 1 2 3).wf = false ∧
    (Instr.cvt false 7 true .f32 .f64 1 2 3).wf = false ∧ (Instr.cvt false 0 false .bsi96 .f64 1 2 3).wf = false := by decide
theorem test_wf_vcvtSegment : (Instr.vcvt false 0 false .f32 .f64 1 2 0 2 0).wf = false := by decide
theorem test_wf_vquantFormat : (Instr.vquant false 0 .f32 0 1 2 3 4).wf = false := by decide
theorem test_wf_vbexpWithC : (Instr.vbexp false false .e4m3 1 2 3).wf = false := by decide
theorem test_wf_vmxioDpow8 : (Instr.vmxio false false 0 false .dpow8 0 1 2 3 4).wf = false := by decide
theorem test_wf_vectorRegister : (Instr.vf false .add ⟨0, false, false, 0⟩ 32 1 2).wf = false := by decide
theorem test_wf_vfUnaryWithC : (Instr.vf false .abs ⟨0, false, false, 0⟩ 1 2 3).wf = false := by decide
theorem test_wf_vfRounding : (Instr.vf false .add ⟨5, false, false, 0⟩ 1 2 3).wf = false := by decide
theorem test_wf_viRounding : (Instr.vi false .add false ⟨1, false, false, 0⟩ 1 2 3).wf = false := by decide
theorem test_wf_vredPair : (Instr.vred false .bsiF32 0 3 1).wf = false := by decide
theorem test_wf_vpermWithD : (Instr.vperm false .perm false 0 1 2 3 4).wf = false := by decide
theorem test_wf_vmskMask : (Instr.vmsk false .and 8 1 2).wf = false := by decide
theorem test_wf_vmovInsertMasked : (Instr.vmov false .ins32 false 1 1 2 3).wf = false := by decide
theorem test_wf_vbsiSegment : (Instr.vbsi false .cvtF64 0 2 1 2 3).wf = false := by decide
theorem test_wf_vldIndex : (Instr.vld false .x32 1 ⟨1, 32, 0, 0, 0, 0⟩).wf = false := by decide

/-! Decoding: words written out from the field layouts of R27 and R29 and the codes of R30 and R41. A head is
S, TL, OPC, A from bit 15 down; a tail is written from its highest bit down. -/

-- `br`: OPC 0x01, TL 2; T32J: LOFF (27), HI (5).
theorem test_decode_br : decode ⟨0b1_10_0000001_000000, 0b111111111111111111111111111_00000⟩ = .ok (.br true (-1) 0) := by rfl
-- `bcc.ltu`: OPC 0x02, A 5; T32B: B 4, F 4, LOFF 2, HI 0.
theorem test_decode_bcc : decode ⟨0b0_10_0000010_000101, 0b000100_100_000000000000000010_00000⟩ =
    .ok (.bcc false .ltu 5 4 2 0) := by rfl
-- `ret`: OPC 0x06, TL 0, A 9.
theorem test_decode_ret : decode ⟨0b0_00_0000110_001001, 0⟩ = .ok (.ret false 9) := by rfl
-- `spawn`: OPC 0x0C, TL 2, A 1; T32I: B 2, F priority 5, W 3, I16 4.
theorem test_decode_spawn : decode ⟨0b0_10_0001100_000001, 0b000010_0101_000011_0000000000000100⟩ =
    .ok (.spawn false 1 2 3 5 4) := by rfl
-- `alu.sub`: OPC 0x10, TL 1, A 9; T16R: B 5, C 4, F 1.
theorem test_decode_alu : decode ⟨0b0_01_0010000_001001, 0b000101_000100_0001⟩ = .ok (.alu false .sub 9 5 4) := by rfl
-- `alui.sll g2, g1, #12`: OPC 0x13, TL 2 (R66's example).
theorem test_decode_alui : decode ⟨0x44C2, 0x0580000C⟩ = .ok (.alui false .sll 2 1 12) := by rfl
-- `li` with IMM48: OPC 0x15, TL 3.
theorem test_decode_li : decode ⟨0b0_11_0010101_000001, 0x000080000000⟩ = .ok (.liImm48 false 1 0x80000000) := by rfl
-- `ld.d`: OPC 0x30, TL 2, A 3; T32M: B 1, X 2, ORD 0, SCP 0, EVP 0, W 3, D9 -1.
theorem test_decode_ld : decode ⟨0b0_10_0110000_000011, 0b000001_000010_00_000_000_011_111111111⟩ =
    .ok (.ld false .d 3 ⟨1, 2, 0, 0, 0, -1⟩) := by rfl
-- `fence`: OPC 0x40, TL 1, A the scope; T16I: I10[3:2] the later set, [1:0] the earlier set.
theorem test_decode_fence : decode ⟨0b0_01_1000000_000010, 0b000000_0000001101⟩ = .ok (.fence false 2 3 1) := by rfl
-- `amo.add.d`: OPC 0x48; T32R: B 1, C 2, D 0, F[3:0] 0, F[5:4] 1, X: SCP 1, ORD 2, EVP 3.
theorem test_decode_amo : decode ⟨0b0_10_1001000_000000, 0b000001_000010_000000_010000_001_10_011⟩ =
    .ok (.amo false .add .d 1 2 ⟨1, 2, 3⟩) := by rfl
-- `bar.sum`: OPC 0x4C, TL 1, A 7; T16R: B 8, C the barrier 2, F 5.
theorem test_decode_bar : decode ⟨0b0_01_1001100_000111, 0b001000_000010_0101⟩ = .ok (.barCombine false .sum 7 8 2) := by rfl
-- `send`: OPC 0x50, TL 2, A 1; T32I: B 2, F: reply 1, remote memory 0, resume 1, W 0, I16 9.
theorem test_decode_send : decode ⟨0b0_10_1010000_000001, 0b000010_0101_000000_0000000000001001⟩ =
    .ok (.send false 1 2 true false true 9) := by rfl
-- `tret kr`: OPC 0x5B, TL 1, A 0; T16I: B 0, I10[9:7] 1, [0] KR.
theorem test_decode_tret : decode ⟨0b0_01_1011011_000000, 0b000000_001_0000001⟩ = .ok (.tret false true) := by rfl
-- `sr.wr`: OPC 0x5A, TL 2, A 1; T32I: B 2, F 1, W 0, I16 0x12.
theorem test_decode_sr : decode ⟨0b0_10_1011010_000001, 0b000010_0001_000000_0000000000010010⟩ =
    .ok (.srWr false 1 2 0x12) := by rfl
-- `cvt`: OPC 0x60, TL 2, A 1; T32R: B 2, C 3, D 0, F: SAT 1, RM 4; X: to f32 (9), from f64 (10).
theorem test_decode_cvt : decode ⟨0b0_10_1100000_000001, 0b000010_000011_000000_001100_1001_1010⟩ =
    .ok (.cvt false 4 true .f32 .f64 1 2 3) := by rfl
-- `vi.sub` on 32-bit lanes: OPC 0x6B, A 1; T32R: B 2, C 3, D 0, F 1; X: RM 0, SC 0, Z 1, KM 5.
theorem test_decode_vi : decode ⟨0b0_10_1101011_000001, 0b000010_000011_000000_000001_000_0_1_101⟩ =
    .ok (.vi false .sub false ⟨0, false, true, 5⟩ 1 2 3) := by rfl

theorem test_decode_reservedMajor : decode ⟨0b0_00_0000000_000001, 0⟩ = .error .reservedMajor := by rfl
theorem test_decode_badTail : decode ⟨0b0_10_0010000_001001, 0⟩ = .error .badTailLength := by rfl
theorem test_decode_badFunction : decode ⟨0b0_01_0010010_000001, 0b000010_000011_1101⟩ = .error .badFunction := by rfl
theorem test_decode_reservedField : decode ⟨0b0_00_0001010_000001, 0⟩ = .error .reservedField := by rfl
theorem test_decode_badOperand : decode ⟨0b0_01_0010000_001001, 0b111011_000100_0001⟩ = .error .badOperand := by rfl

/-! Values that the manual works out. -/

-- R69: division by zero, and the overflow of div and divw.
theorem test_muldiv_corners : mulVal .div 0x8000000000000000 (-1) = 0x8000000000000000 ∧ mulVal .rem 7 0 = 7 ∧
    mulVal .divuw 5 0 = -1 ∧ mulVal .divw 0x80000000 (-1) = 0xFFFFFFFF80000000 := by decide
-- R66's example: the 32-bit form sign-extends bit 31.
theorem test_aluw_signExtends : aluwVal .sll 0xABCDE 12 = 0xFFFFFFFFABCDE000 := by decide
-- R291's table.
theorem test_fondant : fonWord ⟨0x08090A0B0C0D0E0F, 0x0001020304050607, 7, 3⟩ 17 = 0x0DB3 := by decide +kernel
-- R266: the CRC of "123456789".
theorem test_crc32 : crc32 [0x31, 0x32, 0x33, 0x34, 0x35, 0x36, 0x37, 0x38, 0x39] = 0xCBF43926 := by decide +kernel

/-! Every row of the table that has a word: decoded and placed, the first step after reset answers a next state. -/

def isNext : Host.Outcome State Fault Refusal → Bool
  | .next _ => true
  | _ => false

def stepsNext (ws : List (Nat × Nat)) : Bool := ws.all fun p => isNext (step (State.reset.withFetchWord p.1 p.2))

theorem test_step_words : stepsNext ([(32, 0x24030420), (32, 0x25420003), (32, 0x21490400), (16, 0x0189),
    (16, 0x0280), (16, 0x0240), (16, 0x02C1), (32, 0x23410800), (16, 0x0380), (32, 0x24830421), (32, 0x25820400)] ++
    [(32, 0x3003000F), (16, 0x1040), (16, 0x10C0), (32, 0x30800400), (32, 0x33000000), (32, 0x34480400), (32, 0x34880000)] ++
    [(32, 0x34C00420), (32, 0x35000400), (32, 0x36000002), (16, 0x1640), (32, 0x36C00005), (32, 0x36C00080),
     (32, 0x37000420), (32, 0x37400000), (32, 0x37800001)]) = true := by decide +kernel

/-! Helpers for the witnesses. -/

/-- The decidable form of `Issues`. -/
def issuesB (i : Instr) (s : State) : Bool :=
  i.wf && !illegalHere s i && !(depsOf s.me i).any (portIllegal s.me s.cur.core) &&
    (firstPending s.me (depsOf s.me i)).isNone && (onceInst? s).isNone &&
    (match chkComplete s.me.chk i with | .ok _ => true | _ => false) && s.glitches.isEmpty

theorem issues_of {i : Instr} {s : State} (h : issuesB i s = true) : Issues i s := by
  simp only [issuesB, Bool.and_eq_true, Bool.not_eq_true', Option.isNone_iff_eq_none, List.isEmpty_iff] at h
  obtain ⟨⟨⟨⟨⟨⟨h1, h2⟩, h3⟩, h4⟩, h5⟩, h6⟩, h7⟩ := h
  refine ⟨h1, h2, h3, h4, h5, ?_, h7⟩
  split at h6
  · exact ⟨_, by assumption⟩
  · cases h6

/-- The decidable form of `CanTrap`, for the trap stack that the slot has. -/
def canTrapB (s : State) : Bool :=
  s.me.late.isNone && s.me.curLog2 == 0 && !s.me.doubleRisk && s.me.depth != 5 && (trapStack s s.me).isSome &&
    s.soft.isEmpty

theorem canTrap_of {s : State} (h : canTrapB s = true) : CanTrap s ((trapStack s s.me).getD []) := by
  simp only [canTrapB, Bool.and_eq_true, Bool.not_eq_true', Option.isNone_iff_eq_none, beq_iff_eq, bne_iff_ne,
    List.isEmpty_iff] at h
  obtain ⟨⟨⟨⟨⟨h1, h2⟩, h3⟩, h4⟩, h5⟩, h6⟩ := h
  refine ⟨h1, h2, h3, h4, ?_, fun _ => h6⟩
  cases h6 : trapStack s s.me
  · rw [h6] at h5; cases h5
  · rfl

theorem noLate {s : State} : NoLate false s := fun h => by cases h

/-- A slot in the middle of an activation, in a partition of its own, with a trap stack, at the PC 0x10000. -/
def sl0 : Slot :=
  { Slot.reset with
    st := .ready, act := .running, pc := 0x10000, npc := 0x10002, tvb := 0x20000, tstack := some []
    regs := [(1, 0x2000), (2, 5), (3, 0x20040), (4, 0x2040), (5, 0x2020)] }

/-- Core 0 with a page of data at 0x2000 in its TLB. -/
def core0 : CoreSt :=
  { CoreSt.reset with dtlb := [{ asid := 0, vpage := 2, size := 4096, pte := 0x20D7, global := false }] }

/-- The module with a slot at core 0, slot 0. -/
def at0 (sl : Slot) : State := { State.reset with slots := [(0, sl)], cores := [(0, core0)] }

def r0 : SlotRef := { core := 0, slot := 0 }

/-! Witnesses: states and operands that meet the hypotheses of the statements. -/

theorem witness_IntegerResult : intForm sl0 (.alu false .sub 6 1 2) = some (false, [1, 2], 6, 0x1FFB) ∧
    [(1 : Reg), 2].all (fun r => !isPop r) = true ∧ (6 : Reg).toNat ≤ 47 ∧
    Issues (.alu false .sub 6 1 2) (at0 sl0) ∧ NoLate false (at0 sl0) :=
  ⟨rfl, by decide, by decide, issues_of (by decide), noLate⟩

/-- A destination g0, which discards the write. -/
theorem witness_IntegerResult_discarded : intForm sl0 (.liImm16 false 0 7) = some (false, [], 0, 7) ∧
    Issues (.liImm16 false 0 7) (at0 sl0) := ⟨rfl, issues_of (by decide)⟩

theorem witness_TransferResult : xferForm sl0 (.ret false 3) = some (false, true, 0x20040, id) ∧
    Issues (.ret false 3) (at0 sl0) ∧ NoLate false (at0 sl0) ∧ (0x20040 : Word).toNat.testBit 0 = false :=
  ⟨rfl, issues_of (by decide), noLate, by decide⟩

theorem witness_TransferResult_misaligned : xferForm sl0 (.ret false 2) = some (false, true, 5, id) ∧
    Issues (.ret false 2) (at0 sl0) ∧ (5 : Word).toNat.testBit 0 = true ∧ CanTrap (at0 sl0) [] :=
  ⟨rfl, issues_of (by decide), by decide, canTrap_of (by decide)⟩

theorem witness_IllegalTaken : isEvent (.ret false 0) = false ∧ (Instr.ret false 0).wf = false ∧ CanTrap (at0 sl0) [] :=
  ⟨by decide, by decide, canTrap_of (by decide)⟩

/-- Port lk1 of core 0, which has no neighbour in direction W. -/
theorem witness_IllegalTaken_port :
    (depsOf (at0 { sl0 with ldir := 0x20 }).me (.liImm16 false 49 1)).any
      (portIllegal (at0 { sl0 with ldir := 0x20 }).me 0) = true ∧ CanTrap (at0 { sl0 with ldir := 0x20 }) [] :=
  ⟨by decide, canTrap_of (by decide)⟩

/-- A reserved RMODE.MODE under DYN. -/
theorem witness_IllegalTaken_dyn :
    illegalHere (at0 { sl0 with rmode := 6 }) (.cvt false 7 false .f32 .f64 1 2 3) = true ∧
      CanTrap (at0 { sl0 with rmode := 6 }) [] := ⟨by decide, canTrap_of (by decide)⟩

def pending0 : Slot := { sl0 with pend := [2] }

theorem witness_DependTaken : isEvent (.alu false .add 6 1 2) = false ∧ (Instr.alu false .add 6 1 2).wf = true ∧
    illegalHere (at0 pending0) (.alu false .add 6 1 2) = false ∧
    (depsOf (at0 pending0).me (.alu false .add 6 1 2)).any (portIllegal (at0 pending0).me 0) = false ∧
    firstPending (at0 pending0).me (depsOf (at0 pending0).me (.alu false .add 6 1 2)) = some 2 ∧
    CanTrap (at0 pending0) [] :=
  ⟨by decide, by decide, by decide, by decide, by decide, canTrap_of (by decide)⟩

theorem witness_MulDivResult : isPop 1 = false ∧ isPop 2 = false ∧ (6 : Reg).toNat ≤ 47 ∧
    outLimit (at0 sl0).me = false ∧ Issues (.muldiv false .div 6 1 2) (at0 sl0) ∧ NoLate false (at0 sl0) :=
  ⟨by decide, by decide, by decide, by decide, issues_of (by decide), noLate⟩

theorem witness_OutgoingEntry :
    (outForm (at0 sl0) (.unbind false 9 true)).map (fun x => x.2.2.2) = some (.unbind 9 true) ∧
    Issues (.unbind false 9 true) (at0 sl0) ∧ outWait (at0 sl0).me = none :=
  ⟨by decide, issues_of (by decide), by decide⟩

/-- A message with a payload, as its registers name it: channel 9, class 1, cluster 0, core 1. -/
def sending : Slot := { sl0 with regs := [(1, 0x0000000900000001)], outb := [7] }

theorem witness_OutgoingEntry_send :
    (outForm (at0 sending) (.send false 1 0 false false false 1)).isSome = true ∧
    Issues (.send false 1 0 false false false 1) (at0 sending) ∧ outWait (at0 sending).me = none ∧
    (at0 sending).me.irrev = false :=
  ⟨by decide, issues_of (by decide), by decide, by decide⟩

theorem witness_OutgoingEntry_engines :
    (outForm (at0 { sl0 with regs := [(1, 0x40)] }) (.job false 1 0)).isSome = true ∧
    (outForm (at0 { sl0 with regs := [(1, 0x40)] }) (.mm false 1 true 1 0)).isSome = true ∧
    (outForm (at0 { sl0 with regs := [(1, 0x40)] }) (.collGather false 1)).isSome = true := by decide

theorem witness_VectorDispatch :
    vecForm sl0 (.vi false .add false ⟨0, true, false, 0⟩ 1 2 3) = some (false, [3], []) ∧
    Issues (.vi false .add false ⟨0, true, false, 0⟩ 1 2 3) (at0 sl0) ∧ NoLate false (at0 sl0) ∧
    (at0 sl0).me.vq.length < 32 ∧
    (isScalarMove (.vred false .addI32 0 6 1) = true ∧ outLimit (at0 sl0).me = false ∧
      Issues (.vred false .addI32 0 6 1) (at0 sl0)) :=
  ⟨rfl, issues_of (by decide), noLate, by decide, by decide, by decide, issues_of (by decide)⟩

/-- A result outstanding for g6. -/
def out6 : Outst :=
  { dest := 6, pair := false, what := .value 9 0, major := 0x12, func := 0, pc := 0xFFFE, once := 0, ticket := none }

def waiting0 : Slot := { sl0 with outst := [out6], pend := [6] }

theorem witness_ParkingWaits : mayPark (at0 waiting0) (.endAct false) = true ∧ Issues (.endAct false) (at0 waiting0) ∧
    (at0 waiting0).me.quiet = false := ⟨by decide, issues_of (by decide), by decide⟩

theorem witness_TerminatorEnds : isTerm (.yield false) = true ∧ mayPark (at0 sl0) (.yield false) = true ∧
    Issues (.yield false) (at0 sl0) ∧ (at0 sl0).me.quiet = true ∧ (at0 sl0).me.late = none ∧ (at0 sl0).me.curLog2 = 0 :=
  ⟨by decide, by decide, issues_of (by decide), by decide, by decide, by decide⟩

/-- A slot that leads a composition of two cores. -/
def leading : Slot := { sl0 with st := .lead, curLog2 := 1 }

theorem witness_HandsBackFirst : mayPark (at0 leading) (.release false) = true ∧ Issues (.release false) (at0 leading) ∧
    (at0 leading).me.quiet = true ∧ (at0 leading).me.late = none ∧ (at0 leading).me.curLog2 ≠ 0 :=
  ⟨by decide, issues_of (by decide), by decide, by decide, by decide⟩

theorem witness_SoftTrapEnters : softForm (.trap false 5) = some (0x0C, 5) ∧ Issues (.trap false 5) (at0 sl0) ∧
    (at0 sl0).me.quiet = true ∧ CanTrap (at0 sl0) [] :=
  ⟨by decide, issues_of (by decide), by decide, canTrap_of (by decide)⟩

/-- A slot in its handler at depth 1, with TRAPC read. -/
def handling : Slot := { sl0 with super := true, trapc := 0x2101, trapa := 0x10040, tstack := some [TrapFrame.zero] }

theorem witness_TretReturns : mayPark (at0 handling) (.tret false false) = true ∧
    Issues (.tret false false) (at0 handling) ∧ (at0 handling).me.quiet = true ∧ (at0 handling).me.late = none ∧
    trapStack (at0 handling) (at0 handling).me = some [TrapFrame.zero] :=
  ⟨by decide, issues_of (by decide), by decide, by decide, by decide⟩

theorem witness_ComposeBegins : (at0 sl0).me.quiet = true ∧ (at0 sl0).me.late = none ∧
    Issues (.compose false 4) (at0 sl0) ∧ Issues (.release false) (at0 sl0) ∧ (at0 sl0).me.curLog2 = 0 :=
  ⟨by decide, by decide, issues_of (by decide), issues_of (by decide), by decide⟩

/-- A supervisor activation under a policy that redelivers three times. -/
def guarded (sl : Slot) : State := (at0 sl).devSet (dieDev 0 1 0) 0x31

theorem runsAgain_of {sl : Slot} (h1 : (guarded sl).me.team = none) (h2 : (guarded sl).me.irrev = false ∧ (guarded sl).me.phase = 0)
    (h3 : ((cpol (guarded sl) (dieOf (guarded sl).cur.core) (guarded sl).me.part.toNat).testBit 0 &&
      decide ((guarded sl).me.trig.redeliveries <
        natBits (cpol (guarded sl) (dieOf (guarded sl).cur.core) (guarded sl).me.part.toNat) 7 4) &&
      !fenceBit (guarded sl) (guarded sl).cur.core) = true) (h4 : (guarded sl).me.curLog2 = 0) : RunsAgain (guarded sl) := by
  simp only [Bool.and_eq_true, Bool.not_eq_true', decide_eq_true_eq] at h3
  exact ⟨h1, h2, h3.1.1, h3.1.2, h3.2, .inl h4⟩

theorem witness_MachineCheckRestarts : (guarded { sl0 with super := true }).me.quiet = true ∧
    (guarded { sl0 with super := true }).me.super = true ∧
    Issues (.mchkAbort false) (guarded { sl0 with super := true }) ∧ RunsAgain (guarded { sl0 with super := true }) :=
  ⟨by decide, by decide, issues_of (by decide), runsAgain_of (by decide) (by decide) (by decide) (by decide)⟩

/-- `mchk.inject` of a RESIDUE record of the integer unit. -/
def injecting : Slot := { sl0 with super := true, regs := [(1, 0x00010101)] }

theorem witness_MachineCheckRestarts_inject : (guarded injecting).me.pend.contains 1 = false ∧
    injectOk ((guarded injecting).me.g 1).toNat = true ∧ Issues (.mchkInject false 1) (guarded injecting) ∧
    RunsAgain (guarded injecting) :=
  ⟨by decide, by decide, issues_of (by decide), runsAgain_of (by decide) (by decide) (by decide) (by decide)⟩

theorem witness_OrderingResult : orderForm (issueMark (at0 sl0)) (.fence false 4 3 3) = some (false, true) ∧
    Issues (.fence false 4 3 3) (at0 sl0) ∧ NoLate false (at0 sl0) := ⟨by decide, issues_of (by decide), noLate⟩

theorem witness_OrderingResult_waits : orderForm (issueMark (at0 sl0)) (.irrev false) = some (false, false) ∧
    Issues (.irrev false) (at0 sl0) := ⟨by decide, issues_of (by decide)⟩

def badBlock : Slot := { sl0 with chk := ⟨0x1111, 0x2222, true, true⟩ }

theorem witness_SignatureFails : onceInst? (at0 badBlock) = none ∧ (at0 badBlock).me.chk.en = true ∧
    (at0 badBlock).me.chk.isOpen = true ∧ (at0 badBlock).me.chk.run ≠ (at0 badBlock).me.chk.expect := by decide
/-- A member of a two-member team in slot 0 of core 0, with the other in core 1. -/
def member : Slot := { sl0 with team := some 1, npc := 0x10002 }

def team1 : Team :=
  { Team.reset with n := 2, live := [0, 1], slots := [r0, { core := 1, slot := 0 }], running := true }

def inTeam (sl : Slot) : State :=
  { at0 sl with slots := [(0, sl), (8, { sl0 with team := some 1, tidx := 1 })], teams := [(1, team1)] }

theorem witness_OnceInTeam : (inTeam member).me.team = some 1 ∧ onceBad (issueMark (inTeam member)) = false ∧
    Issues (.once false) (inTeam member) ∧ NoLate false (inTeam member) ∧
    (((inTeam member).getTeam 1).onces.find? fun o => o.k == (inTeam member).me.onceN + 1) = none :=
  ⟨by decide, by decide, issues_of (by decide), noLate, by decide⟩

def onceAt (pc : Word) : State :=
  (inTeam member).setTeam 1 { team1 with onces := [⟨1, pc, 8, true, 0, 0, 0⟩] }

theorem witness_OnceInTeam_reached : onceBad (issueMark (onceAt 0x10002)) = false ∧
    ((onceAt 0x10002).getTeam 1).onces.find? (fun o => o.k == (onceAt 0x10002).me.onceN + 1) =
      some ⟨1, 0x10002, 8, true, 0, 0, 0⟩ ∧ (0x10002 : Word) = (onceAt 0x10002).me.npc ∧
    Issues (.once false) (onceAt 0x10002) := ⟨by decide, by decide, by decide, issues_of (by decide)⟩

theorem witness_OnceInTeam_elsewhere : onceBad (issueMark (onceAt 0x10004)) = false ∧
    ((onceAt 0x10004).getTeam 1).onces.find? (fun o => o.k == (onceAt 0x10004).me.onceN + 1) =
      some ⟨1, 0x10004, 8, true, 0, 0, 0⟩ ∧ (0x10004 : Word) ≠ (onceAt 0x10004).me.npc ∧
    Issues (.once false) (onceAt 0x10004) ∧ CanTrap (onceAt 0x10004) [] :=
  ⟨by decide, by decide, by decide, issues_of (by decide), canTrap_of (by decide)⟩

theorem witness_LinkDirections : (ldirForm { sl0 with regs := [(1, 0x0A1)] } (.ldirSet false 1)).isSome = true ∧
    Issues (.ldirSet false 1) (at0 { sl0 with regs := [(1, 0x0A1)] }) ∧ (ldirForm sl0 (.ldirRev false)).isSome = true ∧
    Issues (.ldirRev false) (at0 sl0) := ⟨by decide, issues_of (by decide), by decide, issues_of (by decide)⟩

theorem witness_StateRegister :
    srForm (.srWr false 6 1 0x08) = some (1, false, 6, 1, 0x08) ∧ Issues (.srWr false 6 1 0x08) (at0 sl0) ∧
    SrActs (issueMark (at0 sl0)) (.srWr false 6 1 0x08) 1 0x08 0x2000 :=
  ⟨by decide, issues_of (by decide), by decide, by decide, by decide, by decide, by decide⟩

theorem witness_StateRegister_privileged :
    Issues (.srRd false 6 0x10) (at0 { sl0 with super := true }) ∧
    SrActs (issueMark (at0 { sl0 with super := true })) (.srRd false 6 0x10) 0 0x10 0 :=
  ⟨issues_of (by decide), by decide, by decide, by decide, by decide, by decide⟩

theorem witness_PrivilegeTaken : (at0 sl0).me.super = false ∧ CanTrap (at0 sl0) [] ∧ (at0 sl0).me.quiet = true ∧
    (at0 sl0).me.depth < 5 ∧
    (Issues (.srRd false 6 0x10) (at0 sl0) ∧ srForm (.srRd false 6 0x10) = some (0, false, 6, 0, 0x10) ∧
      srPrivileged 0x10 false = true) ∧
    Issues (.trcFreeze false) (at0 sl0) ∧ Issues (.mchkAbort false) (at0 sl0) ∧ Issues (.mchkInject false 1) (at0 sl0) ∧
    Issues (.tlbAll false .module) (at0 sl0) ∧ Issues (.tlbProbe false 6 1 2) (at0 sl0) ∧
    (Issues (.ctrSel false 3 1) (at0 sl0) ∧ (selWord (at0 sl0) 3).toNat.testBit 8 = false) ∧
    (Issues (.ctrClr false 4) (at0 sl0) ∧ 4 ≤ (4 : BitVec 4).toNat) :=
  ⟨by decide, canTrap_of (by decide), by decide, by decide, ⟨issues_of (by decide), by decide, by decide⟩,
    issues_of (by decide), issues_of (by decide), issues_of (by decide), issues_of (by decide), issues_of (by decide),
    ⟨issues_of (by decide), by decide⟩, issues_of (by decide), by decide⟩

theorem witness_ChannelControl : chanForm (.chanPrio false 8 5) = some (false, 8, none, some 5) ∧
    Issues (.chanPrio false 8 5) (at0 sl0) ∧ NoLate false (at0 sl0) ∧ 8 ≤ (8 : BitVec 6).toNat ∧
    chanForm (.chanMask false 0) = some (false, 0, some true, none) ∧
    Issues (.chanMask false 0) (at0 { sl0 with super := true }) :=
  ⟨rfl, issues_of (by decide), noLate, by decide, rfl, issues_of (by decide)⟩

theorem witness_TraceAndCounters : (trcForm ((at0 { sl0 with super := true }).core 0) (.trcOn false)).isSome = true ∧
    Issues (.trcOn false) (at0 { sl0 with super := true }) ∧ ((at0 sl0).core 0).trcPost = none ∧
    (trcForm ((at0 sl0).core 0) (.trcMark false 1)).isSome = true ∧ Issues (.trcMark false 1) (at0 sl0) ∧
    ((at0 sl0).core 0).trctrig.toNat.testBit 63 = false ∧ (at0 sl0).me.quiet = true :=
  ⟨by decide, issues_of (by decide), by decide, by decide, issues_of (by decide), by decide, by decide⟩

theorem witness_TraceAndCounters_counters : Issues (.ctrRd false 6 11) (at0 sl0) ∧
    Issues (.ctrSel false 11 1) (at0 { sl0 with super := true }) ∧ Issues (.ctrClr false 0) (at0 { sl0 with super := true }) ∧
    ((at0 { sl0 with super := true }).core 0).ctrSel.all (fun p => natBits p.2.toNat 5 0 != 1) = true :=
  ⟨issues_of (by decide), issues_of (by decide), issues_of (by decide), by decide⟩

/-! Accesses. -/

/-- The parts of an access, translated one after the other. -/
def trAll (acc : Access) : List (Nat × Nat) → State → Option (State × List MPart)
  | [], s => some (s, [])
  | (va, n) :: rest, s =>
    match translate s (slotCtx s s.cur false) acc va n with
    | (u, .ok e pa) =>
      match trAll acc rest u with
      | some (t, qs) => some (t, { va := va, pa := pa, n := n, e := e } :: qs)
      | none => none
    | _ => none

theorem translates_of {acc : Access} {cuts : List (Nat × Nat)} {s t : State} {ps : List MPart}
    (h : trAll acc cuts s = some (t, ps)) : Translates acc cuts s t ps := by
  induction cuts generalizing s t ps with
  | nil => cases h; exact ⟨rfl, rfl⟩
  | cons c rest ih =>
    obtain ⟨va, n⟩ := c
    simp only [trAll] at h
    split at h
    · split at h
      · cases h; exact ⟨_, _, _, _, by assumption, ih (by assumption), rfl⟩
      · cases h
    · cases h

def trHolds (acc : Access) (cuts : List (Nat × Nat)) (s : State) (p : State → List MPart → Bool) : Bool :=
  match trAll acc cuts s with
  | some (t, ps) => p t ps
  | none => false

theorem reaches_of {acc : Access} {cuts : List (Nat × Nat)} {s : State} {p : State → List MPart → Bool}
    (h : trHolds acc cuts s p = true) : ∃ t ps, Translates acc cuts s t ps ∧ p t ps = true := by
  simp only [trHolds] at h
  split at h
  · exact ⟨_, _, translates_of (by assumption), h⟩
  · cases h

/-- The decidable form of `Accessible`. -/
def accB (s : State) (ps : List MPart) : Bool :=
  (ps.all fun p => ps.all (samePage p)) && ps.all fun p => p.view != 0 || !inLiveFrame s p.pa p.n

def dataOp : MemOp := ⟨1, 0, 0, 0, 0, 0⟩

theorem witness_LoadResult : loadForm (.ld false .d 6 dataOp) = some (false, 6, dataOp, 3, false, true) ∧
    Issues (.ld false .d 6 dataOp) (at0 sl0) ∧ NoLate false (at0 sl0) ∧ (at0 sl0).soft = [] ∧
    (effAddr (at0 sl0).me dataOp 3).toNat % 2 ^ 3 = 0 ∧ outLimit (at0 sl0).me = false ∧
    ∃ t ps, Translates .load (splitLine (effAddr (at0 sl0).me dataOp 3).toNat (2 ^ 3)) (issueMark (at0 sl0)) t ps ∧
      (accB t ps && plainParts ps && (ordWait t 0 0 ps).isNone && (loadWait t ps).isNone &&
        ps.all fun p => !partAborts t p) = true :=
  ⟨by decide, issues_of (by decide), noLate, by decide, by decide, by decide, reaches_of (by decide)⟩

/-- An unaligned load that crosses a line. -/
theorem witness_LoadResult_split : loadForm (.ldu false .d 6 ⟨4, 0, 0, 0, 0, -1⟩) =
      some (false, 6, ⟨4, 0, 0, 0, 0, -1⟩, 3, false, false) ∧
    ∃ t ps, Translates .load (splitLine 0x203C (2 ^ 3)) (issueMark (at0 { sl0 with regs := [(4, 0x2044)] })) t ps ∧
      (accB t ps && plainParts ps && (loadWait t ps).isNone && decide (ps.length = 2)) = true :=
  ⟨by decide, reaches_of (by decide)⟩

theorem witness_AccessFaults : Issues (.ld false .d 6 ⟨2, 0, 0, 0, 0, 0⟩) (at0 sl0) ∧
    (effAddr (at0 sl0).me ⟨2, 0, 0, 0, 0, 0⟩ 3).toNat % 2 ^ 3 ≠ 0 ∧ CanTrap (at0 sl0) [] ∧
    (storeForm (.st false .d 6 ⟨2, 0, 0, 0, 0, 0⟩)).isSome = true := ⟨issues_of (by decide), by decide, canTrap_of (by decide), by decide⟩

/-- A store to a page without a translation. -/
theorem witness_AccessFaults_untranslated : Issues (.st false .d 6 ⟨3, 0, 0, 0, 0, 0⟩) (at0 sl0) ∧
    splitLine (effAddr (at0 sl0).me ⟨3, 0, 0, 0, 0, 0⟩ 3).toNat (2 ^ 3) = [(0x20040, 8)] ∧
    (match translate (issueMark (at0 sl0)) (slotCtx (at0 sl0) (at0 sl0).cur false) .store 0x20040 8 with
      | (s1, .fault _ _) => canTrapB s1
      | _ => false) = true := ⟨issues_of (by decide), by decide, by decide⟩

theorem witness_StoreResult : storeForm (.st false .d 2 dataOp) = some (false, 2, dataOp, 3, true) ∧ isPop 2 = false ∧
    Issues (.st false .d 2 dataOp) (at0 sl0) ∧
    ∃ t ps, Translates .store (splitLine (effAddr (at0 sl0).me dataOp 3).toNat (2 ^ 3)) (issueMark (at0 sl0)) t ps ∧
      (accB t ps && plainParts ps && (storeWait t ps ps.length).isNone && !storesDirect t ps) = true :=
  ⟨by decide, by decide, issues_of (by decide), reaches_of (by decide)⟩

def irrev0 : Slot := { sl0 with act := .irrevocable }

theorem witness_StoreResult_direct : Issues (.st false .d 2 dataOp) (at0 irrev0) ∧
    ∃ t ps, Translates .store (splitLine (effAddr (at0 irrev0).me dataOp 3).toNat (2 ^ 3)) (issueMark (at0 irrev0)) t ps ∧
      (accB t ps && plainParts ps && (storeWait t ps ps.length).isNone && storesDirect t ps && (ordWait t 0 0 ps).isNone &&
        unread t ps && t.me.team.isNone) = true := ⟨issues_of (by decide), reaches_of (by decide)⟩

/-- Supervisor mode with the page of die 0's CPOL registers. -/
def atDevice : State :=
  { at0 { irrev0 with super := true } with
    cores := [(0, { CoreSt.reset with
      dtlb := [{ asid := 0, vpage := 2, size := 4096,
                 pte := BitVec.ofNat 64 (6 * 2 ^ 56 + (3 * 2 ^ 44 + 127 * 2 ^ 22 + 2 ^ 16) + 0xC7), global := false }] })] }

theorem witness_DeviceAccess : atDevice.me.super = true ∧ atDevice.me.irrev = true ∧ atomsBusy atDevice.me = false ∧
    mulPending atDevice.me = false ∧
    (effAddr atDevice.me dataOp 3).toNat % 8 = 0 ∧ Issues (.ld false .d 6 dataOp) atDevice ∧
    Issues (.st false .d 2 dataOp) atDevice ∧
    (∃ t ps, Translates .load [((effAddr atDevice.me dataOp 3).toNat, 8)] (issueMark atDevice) t ps ∧
      (accB t ps && decide (ps.length = 1) && !heldMeets t ps &&
        ps.all fun p => p.kind == .io && (devRead t p.pa).isSome) = true) ∧
    ∃ t ps, Translates .store [((effAddr atDevice.me dataOp 3).toNat, 8)] (issueMark atDevice) t ps ∧
      (accB t ps && ps.all fun p =>
        (devRead t p.pa).isSome && match devWrite t p.pa 5 with | some u => u.cur == t.cur | none => false) = true :=
  ⟨by decide, by decide, by decide, by decide, by decide, issues_of (by decide), issues_of (by decide), reaches_of (by decide +kernel),
    reaches_of (by decide +kernel)⟩

theorem witness_TranslationRules :
    (match translate (at0 sl0) (slotCtx (at0 sl0) r0 false) .load 0x2000 8 with | (_, .ok _ _) => true | _ => false) = true ∧
    (match translate (at0 sl0) (slotCtx (at0 sl0) r0 true) .fetch 0x2000 64 with | (_, .ok _ _) => true | _ => false) = false := by
  decide

theorem witness_PrefetchHarmless : Issues (.pref false .ws 7 dataOp) (at0 sl0) ∧ NoLate false (at0 sl0) :=
  ⟨issues_of (by decide), noLate⟩

theorem witness_LineOperations : copForm (.copZero false dataOp) = some (false, 3, dataOp) ∧
    Issues (.copZero false dataOp) (at0 sl0) ∧
    (∃ t ps, Translates (copAccess 3) [((effAddr (at0 sl0).me dataOp 6).toNat, 1)] (issueMark (at0 sl0)) t ps ∧
      (ps.all fun q => q.wholeLine.kind != .io && !inLiveFrame t q.wholeLine.pa 64 &&
        (storeWait t [q.wholeLine] 8).isNone && !storesDirect t [q.wholeLine]) = true) ∧
    ∃ t ps, Translates (copAccess 3) [((effAddr (at0 irrev0).me dataOp 6).toNat, 1)] (issueMark (at0 irrev0)) t ps ∧
      (ps.all fun q => (storeWait t [q.wholeLine] 8).isNone && storesDirect t [q.wholeLine] && unread t [q.wholeLine] &&
        noneLost t [q.wholeLine]) = true :=
  ⟨by decide, issues_of (by decide), reaches_of (by decide), reaches_of (by decide)⟩
/-- The entry form of an instruction, its access and the entry it comes to. -/
def entryB (s : State) (i : Instr) : Bool :=
  match entryForm s i with
  | some (_, acc, cuts, g) =>
    trHolds acc cuts (issueMark s) fun t ps => (g t ps).isSome && (acc != .load || (accB t ps && plainParts ps))
  | none => false

theorem entry_of {s : State} {i : Instr} (h : entryB s i = true) :
    ∃ sw acc cuts g t ps w, entryForm s i = some (sw, acc, cuts, g) ∧ Translates acc cuts (issueMark s) t ps ∧
      (acc = .load → accB t ps = true ∧ plainParts ps = true) ∧ g t ps = some w := by
  simp only [entryB] at h
  split at h
  · rename_i sw acc cuts g heq
    obtain ⟨t, ps, ht, hp⟩ := reaches_of h
    simp only [Bool.and_eq_true, Bool.or_eq_true, bne_iff_ne] at hp
    obtain ⟨w, hw⟩ := Option.isSome_iff_exists.mp hp.1
    exact ⟨sw, acc, cuts, g, t, ps, w, heq, ht, fun e => hp.2.resolve_left (fun n => n e), hw⟩
  · cases h

/-- A binding descriptor in memory at 0x2020: entry 0x3000, priority 1, budget 1. -/
def withDesc (sl : Slot) : State := (at0 sl).storeAt 0x2020 16 (0x3000 + 2 ^ 64 * (0x100 + 2 ^ 32))

theorem witness_TranslatedEntry : entryB (at0 sl0) (.launch false 4 0) = true ∧ Issues (.launch false 4 0) (at0 sl0) ∧
    (at0 sl0).me.irrev = false ∧ (at0 sl0).me.nextIdx < 64 ∧ (at0 sl0).soft = [] :=
  ⟨by decide, issues_of (by decide), by decide, by decide, by decide⟩

theorem witness_SpawnReserves : Issues (.spawn false 1 2 0 3 1) (at0 { sl0 with regs := [(1, 0x3000)] }) ∧
    (spawnEntry ((at0 { sl0 with regs := [(1, 0x3000)] }).devSet (clDev 0 2 0) 0x8000100000000000) 0).isSome = true := by
  exact ⟨issues_of (by decide), by decide⟩

theorem witness_AtomicPosted : Issues (.amo false .add .d 1 2 ⟨0, 0, 0⟩) (at0 sl0) ∧ isPop 2 = false ∧
    ((at0 sl0).me.g 1).toNat % amoBytes .d = 0 ∧
    (∃ t ps, Translates .atomic [(((at0 sl0).me.g 1).toNat, amoBytes .d)] (issueMark (at0 sl0)) t ps ∧
      (accB t ps && (ps.all fun p => p.kind != .host && p.kind != .io) && (storeWait t ps 1).isNone &&
        !storesDirect t ps) = true) ∧
    ∃ t ps, Translates .atomic [(((at0 irrev0).me.g 1).toNat, amoBytes .d)] (issueMark (at0 irrev0)) t ps ∧
      (storesDirect t ps && unread t ps && (ordWait t 0 0 ps).isNone &&
        ps.all fun p => !goesFar t (queueCore t (at0 irrev0).cur p.va) p.pa && !lineAborts t p.pa) = true :=
  ⟨issues_of (by decide), by decide, by decide, reaches_of (by decide), reaches_of (by decide)⟩

/-- A trigger descriptor at 0x2020: compare value 1, channel 9, delta 1. -/
def withTrigger : State := (at0 sl0).storeAt 0x2020 16 (1 + 2 ^ 96 * (9 + 2 ^ 16))

theorem witness_TriggeredPosted : Issues (.amot false .add .d 1 2 5 ⟨0, 0, 0⟩) withTrigger ∧
    (withTrigger.me.g 5).toNat % 32 = 0 ∧ withTrigger.soft = [] ∧ withTrigger.me.nextIdx < 64 ∧
    ∃ t ps, Translates .load [((withTrigger.me.g 5).toNat, 32)] (issueMark withTrigger) t ps ∧
      (accB t ps && plainParts ps && (loadWait t ps).isNone && (ps.all fun q => !partAborts t q) &&
        !descBad t (BitVec.ofNat 256 (leOf (ps.flatMap (partBytes t))))) = true :=
  ⟨issues_of (by decide), by decide, by decide, by decide, reaches_of (by decide)⟩

theorem witness_AtomicFetched :
    fetchForm (.amof false .add .d 6 1 2 ⟨0, 0, 0⟩) = some (false, .add, .d, 6, 1, 2, none, ⟨0, 0, 0⟩) ∧
    Issues (.amof false .add .d 6 1 2 ⟨0, 0, 0⟩) (at0 irrev0) ∧ (at0 irrev0).me.irrev = true ∧
    ∃ t ps, Translates .atomic [(((at0 irrev0).me.g 1).toNat, amoBytes .d)] (issueMark (at0 irrev0)) t ps ∧
      (accB t ps && (ordWait t 0 0 ps).isNone && (storeWait t ps 1).isNone && ps.all fun p => p.kind == .device &&
        !goesFar t (queueCore t (at0 irrev0).cur p.va) p.pa && !lineAborts t p.pa &&
        !holdsM t (queueCore t (at0 irrev0).cur p.va) (lineOf p.pa)) = true :=
  ⟨rfl, issues_of (by decide), by decide, reaches_of (by decide)⟩

/-- The same with the line held dirty. -/
def holding : State :=
  { at0 irrev0 with cores := [(0, { core0 with l1d := [{ CLine.plain 0x80 with dirty := true, excl := true }] })] }

theorem witness_AtomicFetched_held :
    fetchForm (.cas false .q 6 1 2 4 ⟨0, 0, 0⟩) = some (false, .add, .q, 6, 1, 2, some 4, ⟨0, 0, 0⟩) ∧
    Issues (.cas false .q 6 1 2 4 ⟨0, 0, 0⟩) holding ∧ (holding.me.g 1).toNat % amoBytes .q = 0 ∧ holding.me.team = none ∧
    ∃ t ps, Translates .atomic [((holding.me.g 1).toNat, amoBytes .q)] (issueMark holding) t ps ∧
      (unread t ps && ps.all fun p => holdsM t (queueCore t holding.cur p.va) (lineOf p.pa)) = true :=
  ⟨rfl, issues_of (by decide), by decide, by decide, reaches_of (by decide)⟩

/-- The decidable parts of `VecAccess`. -/
def vecAccB (s : State) (acc : Access) (w : VecW) (m : MemOp) (more : State → List MPart → Bool) : Bool :=
  decide (s.me.vq.length < 32) && (w == .c || s.me.vq.isEmpty) &&
    ((elemsOf s.me w m).all fun x => x.va % 2 ^ VecW.lg w == 0) &&
    trHolds acc ((elemsOf s.me w m).map fun x => (x.va, 2 ^ VecW.lg w)) s fun t ps =>
      (!VecW.isC w || ps.all fun p => ps.all (samePage p)) && (ps.all fun p => p.view != 0 || !inLiveFrame t p.pa p.n) &&
        plainParts ps && more t ps

theorem vecAccess_of {s : State} {acc : Access} {w : VecW} {m : MemOp} {more : State → List MPart → Bool}
    (h : vecAccB s acc w m more = true) : ∃ t ps, VecAccess s acc w m t ps ∧ more t ps = true := by
  simp only [vecAccB, Bool.and_eq_true, decide_eq_true_eq, Bool.or_eq_true, beq_iff_eq, List.isEmpty_iff] at h
  obtain ⟨⟨⟨h1, h2⟩, h3⟩, h4⟩ := h
  obtain ⟨t, ps, ht, hp⟩ := reaches_of h4
  simp only [Bool.and_eq_true, Bool.or_eq_true, Bool.not_eq_true'] at hp
  obtain ⟨⟨⟨h5, h6⟩, h7⟩, h8⟩ := hp
  exact ⟨t, ps, ⟨h1, h2, h3, ht, fun e => h5.resolve_left (by rw [e]; decide), h6, h7⟩, h8⟩

theorem witness_VectorLoad : Issues (.vld false .c 1 dataOp) (at0 sl0) ∧ (at0 sl0).soft = [] ∧ (at0 sl0).me.late = none ∧
    ∃ t ps, VecAccess (issueMark (at0 sl0)) .load .c dataOp t ps ∧
      ((ordWait t 0 0 ps).isNone && (loadWait t ps).isNone && ps.all fun p => !partAborts t p) = true :=
  ⟨issues_of (by decide), by decide, by decide, vecAccess_of (by decide +kernel)⟩

/-- Behind a late fault. -/
def lateSlot : Slot := { sl0 with late := some ⟨0x10000, 3, 0, 1, 0x68, 0⟩ }

theorem witness_VectorLoad_late : Issues (.vld false .s64 1 ⟨1, 0, 0, 0, 0, 0⟩) (at0 lateSlot) ∧
    (at0 lateSlot).me.late.isSome = true ∧
    ∃ t ps, VecAccess (issueMark (at0 lateSlot)) .load .s64 ⟨1, 0, 0, 0, 0, 0⟩ t ps ∧ true = true :=
  ⟨issues_of (by decide), by decide, vecAccess_of (by decide +kernel)⟩

theorem witness_VectorStore : Issues (.vst false .c 1 dataOp) (at0 sl0) ∧
    ∃ t ps, VecAccess (issueMark (at0 sl0)) .store .c dataOp t ps ∧
      ((ordWait t 0 0 ps).isNone && (storeWait t ps (vstCount .c)).isNone && !storesDirect t ps) = true :=
  ⟨issues_of (by decide), vecAccess_of (by decide +kernel)⟩

theorem witness_VectorStore_direct : Issues (.vst false .c 1 dataOp) (at0 irrev0) ∧ (at0 irrev0).me.irrev = true ∧
    (at0 irrev0).me.vq = [] ∧ (at0 irrev0).me.team = none ∧
    ∃ t ps, VecAccess (issueMark (at0 irrev0)) .store .c dataOp t ps ∧
      ((ordWait t 0 0 ps).isNone && (storeWait t ps (vstCount .c)).isNone && unread t ps && noneLost t ps) = true :=
  ⟨issues_of (by decide), by decide, by decide, by decide, vecAccess_of (by decide +kernel)⟩

theorem witness_Barriers : (at0 sl0).me.team = none ∧ arrivalOf (at0 sl0).me 3 = none ∧ arrivalOf (at0 sl0).me 7 = none ∧
    Issues (.barArrive false 3) (at0 sl0) ∧ Issues (.barSync false 3) (at0 sl0) ∧
    Issues (.barCombine false .sum 6 2 3) (at0 sl0) ∧
    arrivalOf (at0 { sl0 with barArr := [(3, 0)] }).me 3 = some 0 ∧
    Issues (.barWait false 3) (at0 { sl0 with barArr := [(3, 0)] }) :=
  ⟨by decide, by decide, by decide, issues_of (by decide), issues_of (by decide), issues_of (by decide), by decide,
    issues_of (by decide)⟩

/-- In a team: one arrival noted at barrier 0, its phase not yet complete, or complete with a result. -/
def atBarrier (ph : Nat) (key : Nat) : State :=
  (inTeam { member with barArr := [(key, 0)] }).setTeam 1
    { team1 with bars := [(0, { phase := ph, arr := if ph = 0 then [(0, 3, 5)] else [], result := 9, mixed := false })] }

theorem witness_Barriers_team : (inTeam member).me.team = some 1 ∧ releaseWait (inTeam member) = none ∧ arrivalOf (inTeam member).me 0 = none ∧
    arrivalOf (inTeam member).me 4 = none ∧ Issues (.barArrive false 0) (inTeam member) ∧
    Issues (.barSync false 0) (inTeam member) ∧ Issues (.barCombine false .max 6 2 0) (inTeam member) ∧
    (arrivalOf (atBarrier 1 0).me 0 = some 0 ∧ 0 < (smGet Barrier.reset ((atBarrier 1 0).getTeam 1).bars 0).phase ∧
      (smGet Barrier.reset ((atBarrier 1 0).getTeam 1).bars 0).mixed = false ∧
      Issues (.barWait false 0) (atBarrier 1 0)) ∧
    (arrivalOf (atBarrier 1 4).me 4 = some 0 ∧ Issues (.barCombine false .sum 6 2 0) (atBarrier 1 4)) ∧
    (arrivalOf (atBarrier 0 0).me 0 = some 0 ∧ (smGet Barrier.reset ((atBarrier 0 0).getTeam 1).bars 0).phase ≤ 0) :=
  ⟨by decide, by decide, by decide, by decide, issues_of (by decide), issues_of (by decide), issues_of (by decide),
    ⟨by decide, by decide, by decide, issues_of (by decide)⟩, ⟨by decide, issues_of (by decide)⟩, by decide, by decide⟩

/-- A phase that the member in core 1 has not reached, and one that it need not reach because it has ended. -/
theorem witness_Barriers_phases : smHas ((atBarrier 0 0).getTeam 1).bars 0 = true ∧
    (smGet Barrier.reset ((atBarrier 0 0).getTeam 1).bars 0).arr = [(0, 3, 5)] ∧
    ((atBarrier 0 0).slot { core := 1, slot := 0 }).term.isSome = false ∧
    (let s := (atBarrier 0 0).setSlot { core := 1, slot := 0 } { sl0 with team := some 1, tidx := 1, term := some (.endAct false) }
     (s.slot { core := 1, slot := 0 }).term.isSome = true ∧ (s.slot r0).tidx = 0) := by decide

theorem witness_TlbMaintenance : (at0 { sl0 with super := true }).me.super = true ∧
    Issues (.tlbAll false .die) (at0 { sl0 with super := true }) ∧
    (tlbDropOf (at0 { sl0 with super := true }).me (.tlbAll false .die)).isSome = true ∧
    tlbOthers (issueMark (at0 { sl0 with super := true })) .die = [] ∧
    Issues (.tlbProbe false 6 1 2) (at0 { sl0 with super := true }) ∧
    (probeAnswer (at0 { sl0 with super := true }) 0x2000 0).isSome = true :=
  ⟨by decide, issues_of (by decide), by decide, by decide, issues_of (by decide), by decide⟩

theorem witness_CvtResult : Issues (.cvt false 0 false .f32 .i64 6 2 0) (at0 sl0) ∧ outLimit (at0 sl0).me = false ∧
    (cvtElem .f32 .i64 (effMode (at0 sl0).me 0) (effSat (at0 sl0).me 0 false) 0 5).2 &&& (at0 sl0).me.flagEn = 0 ∧
    (cvtElem .f32 .i64 (effMode (at0 sl0).me 0) (effSat (at0 sl0).me 0 false) 0 5).1 < 2 ^ Fmt.width .f32 :=
  ⟨issues_of (by decide), by decide, by decide, by decide⟩

/-- A conversion whose NX is enabled. -/
def nxTrap : Slot := { sl0 with fflags := 0x3F00, regs := [(2, 0x3FF0000000000001)] }

theorem witness_CvtResult_trap : Issues (.cvt false 0 false .f32 .f64 6 2 0) (at0 nxTrap) ∧ CanTrap (at0 nxTrap) [] ∧
    (cvtElem .f32 .f64 (effMode (at0 nxTrap).me 0) (effSat (at0 nxTrap).me 0 false) 0 ((at0 nxTrap).me.g 2).toNat).2 &&&
      (at0 nxTrap).me.flagEn ≠ 0 := ⟨issues_of (by decide), canTrap_of (by decide), by decide⟩

theorem witness_PortOperands : intForm sl0 (.liImm16 false 57 3) = some (false, [], 57, 3) ∧
    Issues (.liImm16 false 57 3) (at0 sl0) ∧ outbCount (at0 sl0).me < 32 ∧ mulPending (at0 sl0).me = false ∧
    ((at0 sl0).me.outst.all fun o => o.dest != 57) = true ∧ outLimit (at0 sl0).me = false ∧
    Issues (.alu false .add 6 56 2) (at0 { sl0 with inbox := [7], inboxN := 1 }) ∧
    popWaiting (at0 { sl0 with inbox := [7], inboxN := 1 }).me 56 = false :=
  ⟨rfl, issues_of (by decide), by decide, by decide, by decide, by decide, issues_of (by decide), by decide⟩

/-- A handler that has not read TRAPC traps again. -/
def doubling : Slot := { sl0 with super := true, trapc := 0x0101, tstack := some [TrapFrame.zero] }

theorem witness_DoubleTrapHalts : softForm (.brk false 1) = some (0x0B, 1) ∧ Issues (.brk false 1) (guarded doubling) ∧
    (guarded doubling).me.quiet = true ∧ (guarded doubling).me.late = none ∧ (guarded doubling).me.curLog2 = 0 ∧
    (guarded doubling).me.doubleRisk = true ∧ (guarded doubling).me.vecFetch = false ∧ RunsAgain (guarded doubling) :=
  ⟨by decide, issues_of (by decide), by decide, by decide, by decide, by decide, by decide,
    runsAgain_of (by decide) (by decide) (by decide) (by decide)⟩

/-! Encodings and steps. -/

theorem witness_EncodeDecode : (Instr.alu false .sub 9 5 4).wf = true ∧
    encode (.alu false .sub 9 5 4) = some ⟨0x2409, 0x1441⟩ ∧ (0x1441 : BitVec 48).toNat < 2 ^ (16 * hdTl 0x2409) := by
  decide

/-- The placed line of `alu.sub`: the hypotheses of a step that issues, up to the decoded word. -/
theorem witness_StepRunsDecoded :
    let s := State.reset.withFetchWord 32 0x24091441
    let u := tick 1 s
    s.agenda = [] ∧ plan u s.cur = .issue ∧ u.soft = [] ∧ u.me.vecFetch = false ∧
    (match translate u (slotCtx u s.cur true) .fetch (u.me.pc.toNat / 64 * 64) 64 with
      | (s1, .ok _ pa) => !lineAborts s1 pa &&
          decodeLine (lineHalves s1 pa) (natBits u.me.pc.toNat 5 1) == some ⟨0x2409, 0x1441⟩
      | _ => false) = true := by decide +kernel

theorem witness_StepRunsDecoded_event :
    canHappen (tick 3 (withAgenda State.reset [])) (.heartbeatMiss 7) = true := by decide

theorem witness_MemoryStaysCanonical : State.reset.memoryCanonical = true ∧
    isNext (step (State.reset.withFetchWord 32 0x24091441)) = true := by decide +kernel

/-! Events. -/

/-- A slot of core 0 with work in its ring. -/
def inRing (i : Instr) (els : List (Nat × Nat × Nat)) : VecOp :=
  { instr := i, vseq := 0, pc := 0x10000, ops := [], rmode := 0, fond := [], elems := els }

def vAdd : VecOp := inRing (.vi false .add true ⟨0, false, true, 1⟩ 1 2 3) []
def vLoad : VecOp := inRing (.vld false .s64 1 dataOp) [(15, 0x2000, 7)]
def vStore : VecOp := inRing (.vst false .c 1 dataOp) [(31, 0x2000, 0x2000)]

theorem witness_VectorLanes : r0.core < 5120 ∧ r0.slot < 8 ∧
    ((at0 { sl0 with vq := [vAdd] }).slot r0).vq = vAdd :: [] ∧ ((at0 { sl0 with vq := [vAdd] }).slot r0).phase ≠ 1 ∧ ((at0 { sl0 with vq := [vAdd] }).slot r0).late = none ∧
    plainVi .add = true ∧ (vLoad.elems.map fun e => e.1).Nodup ∧
    (∀ e ∈ vLoad.elems, e.1 < vlanes .s64 ∧ e.2.2 < 2 ^ (8 * 2 ^ VecW.lg .s64)) ∧
    (∀ sw w a m, vAdd.instr ≠ .vst sw w a m) ∧ (at0 { lateSlot with vq := [vAdd] }).me.late.isSome = true := by
  refine ⟨by decide, by decide, by decide, by decide, by decide, by decide, by decide, by decide, ?_, by decide⟩
  intro sw w a m h; cases h

theorem witness_SlotEvents_result : ((at0 waiting0).slot r0).outst[0]? = some out6 ∧ out6.what = .value 9 0 ∧
    out6.dest ≤ 47 ∧ out6.once = 0 := by decide

theorem witness_SlotEvents_park : ((at0 { sl0 with st := .parked }).slot r0).st = .parked ∧
    ((at0 { sl0 with st := .parked }).slot r0).quiet = true ∧ ((at0 { sl0 with st := .parked }).slot r0).cont = .resume ∧
    ((at0 { sl0 with st := .parked }).slot r0).late = none := by decide

theorem witness_SlotEvents_stall : ((at0 { sl0 with st := .stalled, stall := .fwait }).slot r0).st = .stalled ∧
    ((at0 { sl0 with st := .stalled, stall := .fwait }).slot r0).phase ≠ 1 ∧
    plainStall ((at0 { sl0 with st := .stalled, stall := .fwait }).slot r0).stall = true ∧
    retFull (at0 { sl0 with st := .stalled, stall := .fwait }) 0 = false ∧
    (let u := { waiting0 with st := .stalled, stall := .srVector }
     ((at0 u).slot r0).st = .stalled ∧ ((at0 u).slot r0).stall = .srVector ∧ ((at0 u).slot r0).vq = [] ∧
      ((at0 u).slot r0).late = none ∧ ((at0 u).slot r0).phase ≠ 1) := by decide

def info0 : TrapInfo :=
  { code := 1, resume := 0x10000, cause := 0, lane := 63, vseq := 0, fpflags := 0, major := 0, func := 0, trapp := 0 }

def trapping : State := at0 { sl0 with st := .parked, cont := .trap info0 }

theorem witness_SlotEvents_trap : (trapping.slot r0).st = .parked ∧ (trapping.slot r0).quiet = true ∧
    (trapping.slot r0).cont = .trap info0 ∧ (trapping.slot r0).phase ≠ 1 ∧ CanTrap (trapping.turn r0) [] :=
  ⟨by decide, by decide, by decide, by decide, canTrap_of (s := trapping.turn r0) (by decide)⟩

theorem witness_SlotEvents_fill : ((at0 { sl0 with st := .filling }).slot r0).st = .filling ∧
    (at0 { sl0 with st := .filling }).soft = [] := by decide

/-- A root table whose first entry points back to it, with a page of 4 KiB as its seventh. -/
def rooted : State := ((at0 { sl0 with xroot := 0x5000 }).storeAt 0x5000 8 0x5001).storeAt 0x5030 8 0x20D7

theorem witness_SlotEvents_walk : (rooted.slot r0).act ≠ .none ∧ (rooted.slot r0).helperOf = none ∧
    canonical 0x6000 = true ∧ tlbLookup rooted (slotCtx rooted r0 false) 0x6000 = none ∧
    ∃ pte a size ptrs, (walkFill (rooted.turn r0) (slotCtx rooted r0 false) 0x6000).2 = .leaf pte a size ptrs := by
  refine ⟨by decide, by decide, by decide, by decide, ?_⟩
  have h : (match (walkFill (rooted.turn r0) (slotCtx rooted r0 false) 0x6000).2 with | .leaf .. => true | _ => false) = true := by
    decide +kernel
  split at h
  · rename_i heq; exact ⟨_, _, _, _, heq⟩
  · cases h

/-- An activation whose budget has run out. -/
def spent : Slot := { sl0 with budSet := 0 }

theorem witness_SlotEvents_budget : ((guarded spent).slot r0).helperOf = none ∧ watched ((guarded spent).slot r0) = true ∧
    (guarded spent).bud ((guarded spent).slot r0) = 0 ∧ RunsAgain ((guarded spent).turn r0) :=
  ⟨by decide, by decide, by decide, runsAgain_of (sl := spent) (by decide) (by decide) (by decide) (by decide)⟩

def invalidating : Slot :=
  { sl0 with super := true, st := .stalled, stall := .tlbInval, cont := .after (.tlbAll false .core) }

theorem witness_SlotEvents_tlb : ((at0 invalidating).slot r0).stall = .tlbInval ∧
    (tlbDropOf ((at0 invalidating).slot r0) (.tlbAll false .core)).isSome = true ∧
    tlbComplete ((at0 invalidating).turn r0) .core = true ∧ tlbMarked (.tlbAll false .core) = false ∧
    ∃ c, chkComplete ((at0 invalidating).slot r0).chk (.tlbAll false .core) = .ok c :=
  ⟨by decide, by decide, by decide, by decide, _, rfl⟩

/-- A fetching atomic at the core's own point. -/
def atom0 : AtomReq :=
  { pa := 0x2000, va := 0x2000, op := .add, w := .d, v := 5, cas := none, trig := none, idx := 0, attr := ⟨0, false⟩ }

def fetching : State := at0 { irrev0 with outst := [{ out6 with what := .own atom0 }], pend := [6] }

theorem witness_SlotEvents_atomic : OwnLineComes fetching r0 { out6 with what := .own atom0 } atom0 :=
  ⟨by decide, by decide, rfl, rfl, by decide, by decide⟩

theorem witness_SlotEvents_compose :
    (let s := at0 { sl0 with st := .composing, cont := .after (.compose false 1) }
     ClaimsNow s r0 (.compose false 1) 1 ∧ shapeFor s r0 1 = 1) ∧
    (let s := (at0 { sl0 with st := .composing, cont := .after (.compose false 1) }).devSet (dieDev 0 1 0x800) 2
     ClaimsNow s r0 (.compose false 1) 1 ∧ shapeFor s r0 1 = 0) ∧
    (at0 { sl0 with st := .releasing, curLog2 := 1 }).me.cont = .resume ∧
    (at0 { sl0 with st := .releasing, curLog2 := 1 }).me.curLog2 ≠ 0 ∧
    (at0 { sl0 with st := .releasing, curLog2 := 1 }).me.helperOf = none :=
  ⟨⟨⟨by decide, by decide, ⟨_, rfl⟩, rfl⟩, by decide⟩, ⟨⟨by decide, by decide, ⟨_, rfl⟩, rfl⟩, by decide⟩, by decide, by decide,
    by decide⟩

/-- `alu.sub` at the PC of a composed core. -/
def composed0 : State :=
  let s := (State.reset.withFetchWord 32 0x24091441).devSet (dieDev 0 1 0) 0x31
  s.setMe { s.me with curLog2 := 1 }

theorem witness_SlotEvents_operand : composed0.me.curLog2 ≠ 0 ∧
    (shapeMembers 0 composed0.me.curLog2.toNat).contains 0 = true ∧
    (shapeMembers 0 composed0.me.curLog2.toNat).contains 1 = true ∧ consumes (composed0.turn r0) 0x10 1 = true ∧
    res (0x12 : Word).toNat = res (0x21 : Word).toNat ∧ res (0x12 : Word).toNat ≠ res (0x13 : Word).toNat := by decide +kernel

theorem witness_SlotEvents_links :
    takeFirst 3 [(1, 5), (3, 9)] = some ((9 : Word), [(1, 5)]) ∧
    ((at0 sl0).core 0).linkbuf.filter (fun p => p.1 == 3) = [] := by decide

/-! Placement and commit. -/

/-- A READY strand with a trigger in cluster 0's list, its frame in core 0's store, and a FREE slot. -/
def trig0 : Trigger := { Trigger.none with kind := .continuation, key := ⟨5, 0, 0⟩, payload := [7] }

def strand0 : Strand := { Strand.reset with st := .ready, wsp := 2 ^ 44, trig := some trig0 }

def readyList : State :=
  { State.reset with
    clusters := [(0, { ClusterSt.reset with ready := [0x4000], part := 1, owned := true })]
    strands := [(0x4000, strand0)] }

theorem witness_PlacementAndCommit_pickup : (readyList.slot r0).st = .free ∧ admits readyList 0 = true ∧
    (readyList.cluster 0).ready = [0x4000] ∧ (readyList.strand 0x4000).trig = some trig0 ∧
    (trig0.redeliveries = 0 ∨ trig0.ranOn = r0.core) ∧ (readyList.strand 0x4000).home = 0 ∧ glazeHolds readyList 5 = false ∧
    frameElsewhere (readyList.strand 0x4000).wsp 0 = false := by decide

/-- A team of two waiting at cluster 0, with two pool entries. -/
def waitTeam (sl : Slot) (drain : Option Nat) : State :=
  let s : State :=
    { State.reset with
      slots := [(0, sl)]
      clusters := [(0, { ClusterSt.reset with waitTeams := [⟨1, 0, 0⟩], drain := drain })]
      teams := [(1, { team1 with running := false, slots := [] })] }
  (((s.devSet (clDev 0 2 0) 0x8000100000000000).devSet (clDev 0 2 8) 0x4000).devSet (clDev 0 2 16)
    0x8000100000010000).devSet (clDev 0 2 24) 0x4040

theorem witness_PlacementAndCommit_team : (((waitTeam Slot.reset none).cluster 0).waitTeams[0]?).isSome = true ∧
    placeOk (waitTeam Slot.reset none) 0 0 1 [0, 1] = true := by decide

theorem witness_PlacementAndCommit_horizon :
    (let s := { waitTeam Slot.reset none with now := 2 ^ 20 + 1 }
     (s.cluster 0).drain = none ∧ oldestTeam (s.cluster 0).waitTeams = some ⟨1, 0, 0⟩ ∧ horizon s 0 < s.now - 0) := by decide

theorem witness_PlacementAndCommit_drain :
    (let s := (waitTeam Slot.reset (some 1)).setCluster 0 { ClusterSt.reset with drain := some 1 }
     (s.cluster 0).drain = some 1 ∧ ((s.cluster 0).waitTeams.any fun w => w.team == 1) = false) ∧
    (let s := (waitTeam Slot.reset (some 1)).setTeam 1 { team1 with n := 17, running := false, slots := [] }
     let t := s.setCluster 1 { ClusterSt.reset with waitTeams := [⟨1, 0, 1⟩] }
     (s.cluster 0).drain = some 1 ∧ ((s.cluster 0).waitTeams.any fun w => w.team == 1) = true ∧ atBoundary s 0 = true ∧
      teamFits s 0 1 = false ∧ waitsIn s 1 ≤ 1 ∧
      (t.cluster 0).drain = some 1 ∧ atBoundary t 0 = true ∧ teamFits t 0 1 = false ∧ 1 < waitsIn t 1) := by decide

/-- An ended activation with the token of a domain that is not ORDERED, one store and one message. -/
def ended0 (st : SlotSt) (out : List OutEntry) : State :=
  { at0 { sl0 with
      st := st, stall := if st = .stalled then .commitToken else .none, term := some (.endAct false), domain := 3, outg := out,
      strand := 0x4000, buf := [.store 0x2000 0x2000 8 5 ⟨0, false⟩] } with
    domains := [(3, { Domain.reset with live := true })], strands := [(0x4000, Strand.reset)] }

def publishesB (s : State) (r : SlotRef) : Bool :=
  (s.slot r).team.isNone && (s.slot r).act != .none && tokenFor s r && !actDisturbs s r &&
    !glazeHolds s (s.slot r).key.ts && !needsSid (s.slot r) && sidsLeft s (s.slot r).domain (sidsWanted s r) &&
    (s.slot r).phase == 0 && !farWaits s r && onlyStores (s.slot r).buf && (readersOf s (bufLines (s.slot r).buf) [r]).isEmpty

theorem publishes_of {s : State} {r : SlotRef} (h : publishesB s r = true) : Publishes s r := by
  simp only [publishesB, Bool.and_eq_true, Bool.not_eq_true', Option.isNone_iff_eq_none, beq_iff_eq, bne_iff_ne,
    List.isEmpty_iff] at h
  obtain ⟨⟨⟨⟨⟨⟨⟨⟨⟨⟨h1, h2⟩, h3⟩, h4⟩, h5⟩, h6⟩, h7⟩, h8⟩, h9⟩, h10⟩, h11⟩ := h
  exact ⟨h1, h2, h3, h4, h5, h6, h7, h8, h9, h10, h11⟩

theorem witness_PlacementAndCommit_commit : Publishes (ended0 .closing [⟨0, .unbind 9 true⟩]) r0 ∧
    ((ended0 .closing [⟨0, .unbind 9 true⟩]).slot r0).st = .closing ∧ Publishes (ended0 .closing []) r0 :=
  ⟨publishes_of (by decide), by decide, publishes_of (by decide)⟩

theorem witness_PlacementAndCommit_irrevocable : Publishes (ended0 .stalled []) r0 ∧
    ((ended0 .stalled []).slot r0).stall = .commitToken ∧ ((ended0 .stalled []).slot r0).act ≠ .irrevocable ∧
    ((ended0 .stalled []).slot r0).outg = [] ∧ vstWaits (ended0 .stalled []) r0 = false :=
  ⟨publishes_of (by decide), by decide, by decide, by decide, by decide⟩

def issuing : State := at0 { sl0 with phase := 2, outg := [⟨0, .send 0 0 0 []⟩, ⟨1, .unbind 9 true⟩] }

theorem witness_PlacementAndCommit_entry : (issuing.slot r0).team = none ∧ (issuing.slot r0).phase = 2 ∧
    (issuing.slot r0).outg = ⟨0, .send 0 0 0 []⟩ :: [⟨1, .unbind 9 true⟩] ∧ retFull issuing 0 = false := by decide

/-! Events of the fabric. -/

/-- A message for channel 9 of core 0 from core 16, with a payload of one doubleword. -/
def msgTo (flags : Nat) (d2hi : Nat) : Packet :=
  { src := agentId 0 0 1 0, d0 := mkD0 (agentId 0 0 0 0) 9 1 1 flags, d1 := 40, d2 := mkD2 (2 ^ 28 + 3) 0 d2hi, d3 := 0, payload := [7] }

def bind9 : Binding := { entry := 0x30000, prio := 1, budget := 0, domain := 3, chk := false, ldir := 0, team := 0 }

/-- Core 0 with channel 9 bound in a live domain, a pool entry of its cluster, and `n` items on their way. -/
def fabric (x : CoreSt) (net : List NetItem) : State :=
  let s : State :=
    { State.reset with
      cores := [(0, x)], net := net
      clusters := [(0, { ClusterSt.reset with owned := true, part := 1 })]
      domains := [(3, { Domain.reset with live := true, ordered := false })] }
  (s.devSet (clDev 0 2 0) 0x8000100000000000).devSet (clDev 0 2 8) 0x4000

def bound0 : CoreSt := { CoreSt.reset with handlers := [(9, bind9)] }

theorem msgReaches_of {s : State} {k core : Nat} {p : Packet}
    (h : (arriving s k == some p && !p.bounced && !replayed s p && !p.rmo && agentCore? s p.dest == some core &&
      !queueFirst s core p && headerOk p && p.xform == 0 && !swappedOut s core) = true) : Reaches s k core p := by
  simp only [Bool.and_eq_true, Bool.not_eq_true', beq_iff_eq] at h
  obtain ⟨⟨⟨⟨⟨⟨⟨⟨h1, h2⟩, h3⟩, h4⟩, h5⟩, h6⟩, h7⟩, h8⟩, h9⟩ := h
  exact ⟨⟨h1, h2, h3⟩, h4, h5, h6, ⟨h7, h8⟩, h9⟩

def startsB (s : State) (core : Nat) (p : Packet) (r : SlotRef) (i : Nat) (b : Binding) : Bool :=
  !p.resume && bindingNow s core p.chan == some b && decide (b.team ≤ 1) &&
    !maskedNow s core p.chan && admits s core && triggerSlot s core == some r && usableEntry s core == some i &&
    (s.dom b.domain.toNat).live && !domCancelled s b.domain && !(s.dom b.domain.toNat).ordered && !glazeHolds s (raised s b.domain p).d1

theorem starts_of {s : State} {core : Nat} {p : Packet} {r : SlotRef} {i : Nat} {b : Binding}
    (h : startsB s core p r i b = true) : Starts s core p r i b := by
  simp only [startsB, Bool.and_eq_true, Bool.not_eq_true', beq_iff_eq, decide_eq_true_eq] at h
  obtain ⟨⟨⟨⟨⟨⟨⟨⟨⟨⟨h1, h2⟩, h3⟩, h4⟩, h5⟩, h6⟩, h7⟩, h8⟩, h11⟩, h9⟩, h10⟩ := h
  exact ⟨h1, h2, h3, h4, h5, h6, h7, ⟨h8, h11⟩, .inl h9, h10⟩

theorem witness_MessageEvents_start : Reaches (fabric bound0 [.msg (msgTo 0 0)]) 0 0 (msgTo 0 0) ∧
    fenced (fabric bound0 [.msg (msgTo 0 0)]) 0 = false ∧ Starts (fabric bound0 [.msg (msgTo 0 0)]) 0 (msgTo 0 0) r0 0 bind9 :=
  ⟨msgReaches_of (by decide), by decide, starts_of (by decide)⟩

theorem witness_MessageEvents_fenced :
    let s := (fabric bound0 [.msg (msgTo 0 0)]).devSet (dieDev 0 1 0x800) 1
    Reaches s 0 0 (msgTo 0 0) ∧ fenced s 0 = true := ⟨msgReaches_of (by decide), by decide⟩

theorem witness_MessageEvents_unbound :
    (let s := fabric CoreSt.reset [.msg (msgTo 0 0)]
     Reaches s 0 0 (msgTo 0 0) ∧ fenced s 0 = false ∧ (msgTo 0 0).resume = false ∧ bindingNow s 0 (msgTo 0 0).chan = none ∧
      (queuedFor s 0 (msgTo 0 0).chan).length < 16) ∧
    (let s := fabric { CoreSt.reset with pendq := List.replicate 16 (9, msgTo 0 0) } [.msg (msgTo 0 0)]
     Reaches s 0 0 (msgTo 0 0) ∧ 16 ≤ (queuedFor s 0 (msgTo 0 0).chan).length) :=
  ⟨⟨msgReaches_of (by decide), by decide, by decide, by decide, by decide⟩, msgReaches_of (by decide), by decide⟩

theorem witness_MessageEvents_retake :
    let s := fabric { bound0 with pendq := [(9, msgTo 0 0)] } []
    fenced s 0 = false ∧ swappedOut s 0 = false ∧ (s.core 0).pendq = [((9 : BitVec 6).toNat, msgTo 0 0)] ∧
      (msgTo 0 0).chan = (9 : BitVec 6).toNat ∧ Starts s 0 (msgTo 0 0) r0 0 bind9 :=
  ⟨by decide, by decide, by decide, by decide, starts_of (by decide)⟩

/-- A message of core 0 that comes back: D0[53], with a reason in D0[63:60]. -/
def back (reason retry : Nat) : Packet := { msgTo (2 + 256 * reason) retry with src := agentId 0 0 0 0 }

theorem witness_MessageEvents_bounced :
    (let s := fabric bound0 [.msg (back 2 31)]
     arriving s 0 = some (back 2 31) ∧ (back 2 31).bounced = true ∧ (back 2 31).reason = 2 ∧ (back 2 31).retry < 32 ∧
      retFull s (niOf (back 2 31).src) = false) ∧
    (let s := fabric bound0 [.msg (back 4 0)]
     arriving s 0 = some (back 4 0) ∧ (back 4 0).bounced = true ∧ 4 ≤ (back 4 0).reason) ∧
    (let s := fabric bound0 [.msg (back 3 32)]
     arriving s 0 = some (back 3 32) ∧ (back 3 32).bounced = true ∧ 32 ≤ (back 3 32).retry) ∧
    (let m : RetMsg := { pkt := msgTo 0 1, at_ := 0, times := 1 }
     let s := { fabric { CoreSt.reset with retbuf := [m] } [] with now := 512 }
     (s.core 0).retbuf[0]? = some m ∧ m.at_ + 256 * 2 ^ min m.times 8 ≤ s.now ∧ noneReady s = true) := by decide

/-- A `send` that has waited for room since cycle 0, at a core whose return buffer is full. -/
def noRoom : State :=
  let s := State.reset.withFetchWord 32 0x10400420
  let t := s.setMe { s.me with st := .stalled, stall := .bounceRoom 0, tvb := 0x20000, tstack := some [] }
  { t.setCore 0 { t.core 0 with retbuf := List.replicate 32 { pkt := msgTo 0 0, at_ := 0, times := 0 } } with now := 16384 }

theorem witness_MessageEvents_overflow : (noRoom.slot r0).st = .stalled ∧ (noRoom.slot r0).stall = .bounceRoom 0 ∧
    0 + 16384 ≤ noRoom.now ∧ retFull noRoom 0 = true ∧ CanTrap (noRoom.turn r0) [] ∧
    (peekInstr (noRoom.turn r0) (noRoom.slot r0).pc).map (fun x => x.isSome) = some true :=
  ⟨by decide +kernel, by decide +kernel, by decide +kernel, by decide +kernel,
    ⟨by decide +kernel, by decide +kernel, by decide +kernel, by decide +kernel, by decide +kernel, by decide +kernel⟩,
    by decide +kernel⟩

/-- A landing of one doubleword at 0x6000. -/
def land0 : Packet :=
  { src := agentId 0 0 1 0, d0 := mkD0 (agentId 0 0 0 18) 0 1 1 9, d1 := 40, d2 := mkD2 (2 ^ 28 + 3) 0 0, d3 := 0x6000, payload := [7] }

theorem lands_of {s : State} {k : Nat} {p : Packet}
    (h : (arriving s k == some p && !p.bounced && !replayed s p) = true) : Lands s k p := by
  simp only [Bool.and_eq_true, Bool.not_eq_true', beq_iff_eq] at h
  exact ⟨h.1.1, h.1.2, h.2⟩

theorem witness_MessageEvents_land :
    (let s := fabric bound0 [.msg land0]
     Lands s 0 land0 ∧ land0.rmo = true ∧ land0.chan = 0 ∧ ownEvent land0 = true ∧ headerOk land0 = true ∧
      land0.xform = 0 ∧ (land0.wantsReply = true → niFull s land0.dest = false) ∧ 1 ≤ land0.len ∧ land0.d3.toNat % 8 = 0 ∧ land0.payload.length = land0.len ∧
      landInside s (agentModCluster land0.dest) (landWrites land0.d3.toNat (bytesOfWords land0.payload)) = false) ∧
    (let s := ((fabric bound0 [.msg land0]).devSet (clDev 0 3 0) 0x8000000000006000).devSet (clDev 0 3 8) 0x6007
     Lands s 0 land0 ∧
      landInside s (agentModCluster land0.dest) (landWrites land0.d3.toNat (bytesOfWords land0.payload)) = true ∧
      ∀ j, j < land0.len → readersOf s [lineOf (land0.d3.toNat + 8 * j)] [] = []) := by
  refine ⟨⟨lands_of (by decide), by decide, by decide, by decide, by decide, by decide, by decide, by decide, by decide, by decide,
    by decide⟩, lands_of (by decide), by decide, ?_⟩
  intro j hj
  have h1 : land0.len = 1 := by decide
  obtain rfl : j = 0 := by omega
  decide

/-! Far atomics. -/

/-- A request to add 5 to the word of 64 bits at 0x6000, asking for the old value. -/
def farReq (first : Nat) (n : Nat) : Packet :=
  { src := agentId 0 0 1 0, d0 := mkD0 (agentId 0 0 0 18) 1 1 4 (8 + 32 * first), d1 := 40, d2 := mkD2 (2 ^ 28 + 3) n 0, d3 := 0,
    payload := [0x6000, 0x90, 5, 0] }

def home0 : HomeSrc := { src := agentId 0 0 1 0, exp := 4, replies := [(3, 0x180, [9, 0, 0])], movedTo := [], lastAt := 0 }

/-- The cluster of the home, and what it knows of the source. -/
def atHome0 (p : Packet) : State :=
  { State.reset with net := [.msg p], clusters := [(0, { ClusterSt.reset with homes := [home0] })] }

theorem witness_FarAtomicEvents_request :
    (let p := farReq 0 4
     Lands (atHome0 p) 0 p ∧ p.rmo = true ∧ p.chan = 1 ∧ ownEvent p = true ∧ headerOk p = true ∧ p.moved = false ∧
      homeSrc? ((atHome0 p).cluster (agentModCluster p.dest)) p.src = some home0 ∧ p.sidx = home0.exp ∧
      forwardOf (atHome0 p) (atomOf p.payload).pa = none ∧ (atomOf p.payload).trig = none ∧
      lineAborts (atHome0 p) (atomOf p.payload).pa = false ∧ home0.exp < 2 ^ 16 ∧
      readersOf (atHome0 p) [lineOf (atomOf p.payload).pa] (requester (atHome0 p) p).1 = [] ∧
      (atomOf p.payload).w = .d ∧ (atomOf p.payload).op = .add ∧ wantsOld p.payload = true) ∧
    (let p := farReq 0 3
     Lands (atHome0 p) 0 p ∧ trigHeld (atHome0 p) p = false ∧ 1 ≤ (home0.exp + 2 ^ 16 - p.sidx) % 2 ^ 16 ∧ (home0.exp + 2 ^ 16 - p.sidx) % 2 ^ 16 ≤ 32 ∧
      home0.replies.find? (fun r => r.1 == p.sidx) = some (3, 0x180, [9, 0, 0])) :=
  ⟨⟨lands_of (by decide), by decide, by decide, by decide, by decide, by decide, by decide, by decide, by decide, by decide,
    by decide, by decide, by decide, by decide, by decide, by decide⟩, lands_of (by decide), by decide, by decide, by decide, by decide⟩

/-- The request as core 0 sends it, its entry there, and its answers: a reply, and a NACK of a kind. -/
def sent0 : Packet := { farReq 0 4 with src := agentId 0 0 0 0, d0 := mkD0 (agentId 0 0 1 18) 1 1 4 8 }

def far0 : FarReq := { home := 1, seq := 4, pkt := sent0, sentAt := 0, retry := 0, slot := r0, live := true, fetch := true, req := { atom0 with pa := 0x6000 } }

def ans0 (chan : Nat) (pl : List Word) : Packet := answerTo sent0 chan pl

def waitsFar (p : Packet) : State :=
  { at0 { sl0 with outst := [{ out6 with what := .far 4 1 }], pend := [6] } with
    net := [.msg p], now := 26400, cores := [(0, { core0 with far := [far0] })] }

theorem witness_FarAtomicEvents_reply :
    let p := ans0 2 [9, 0, 0]
    Lands (waitsFar p) 0 p ∧ p.rmo = true ∧ p.chan = 2 ∧ ownEvent p = true ∧
      headerOk p = true ∧ agentCore? (waitsFar p) p.dest = some 0 ∧ findReq (waitsFar p) 0 p = some far0 ∧
      far0.live = true ∧ far0.fetch = true ∧
      ((waitsFar p).slot far0.slot).outst.find? (isFar far0) = some { out6 with what := .far 4 1 } ∧
      (p.payload.getD 2 0).toNat.testBit 1 = false :=
  ⟨lands_of (by decide), by decide, by decide, by decide, by decide, by decide, by decide, by decide, by decide,
    by decide, by decide⟩

theorem witness_FarAtomicEvents_nack :
    (let p := ans0 3 [1, 0]
     Lands (waitsFar p) 0 p ∧ p.rmo = true ∧ p.chan = 3 ∧ ownEvent p = true ∧
      headerOk p = true ∧ agentCore? (waitsFar p) p.dest = some 0 ∧ (p.payload.getD 0 0).toNat % 16 = 1 ∧
      ((waitsFar p).core 0).far.find? (fun q => q.pkt.dest == p.src) = some far0) ∧
    (let p := ans0 3 [2, 0x9000]
     Lands (waitsFar p) 0 p ∧ headerOk p = true ∧ (p.payload.getD 0 0).toNat % 16 = 2 ∧
      findReq (waitsFar p) 0 p = some far0) ∧
    (let p := ans0 3 [3, 0]
     Lands (waitsFar p) 0 p ∧ headerOk p = true ∧ (p.payload.getD 0 0).toNat % 16 = 3) :=
  ⟨⟨lands_of (by decide), by decide, by decide, by decide, by decide, by decide, by decide, by decide⟩,
    ⟨lands_of (by decide), by decide, by decide, by decide⟩, lands_of (by decide), by decide, by decide⟩

theorem witness_FarAtomicEvents_keep :
    ((waitsFar land0).core 0).far.filter (fun q => q.home == 1) = [far0] ∧ far0.sentAt + 26400 ≤ (waitsFar land0).now ∧
    far0.retry < 8 ∧
    (let s := (atHome0 land0).setCluster 0 { ClusterSt.reset with movedReplies := [⟨0, 0, 3, [], 0⟩] }
     let t := { s with now := 3300000 }
     (t.cluster 0).movedReplies[0]? = some ⟨0, 0, 3, [], 0⟩ ∧ 0 + 3300000 ≤ t.now) ∧
    ((atHome0 land0).cluster 0).homes = [home0] ∧ home0.replies = [(3, 0x180, [9, 0, 0])] ∧ 6 ≤ 0x180 / 64 ∧ 0x180 / 64 < 6 + framesOf 1 ∧ 6 < 2 ^ 44 ∧
    ((State.reset.die 0).forward.filter fun f => f.1 != 6).length < 32 := by decide

/-! Launches. -/

/-- A launch record of a kind, team size and entry point for cluster 0: LID 5, TS 40, SIDBASE 1. -/
def record0 (kind team entry : Nat) : BitVec 512 :=
  let hi : BitVec 256 := BitVec.ofNat 256 (0x10000 + 2 ^ 176)
  hi.append (BitVec.ofNat 256 (5 + kind * 2 ^ 32 + team * 2 ^ 48 + entry * 2 ^ 64 + 40 * 2 ^ 128))

/-- Die 0 with the page of 0x2000 in its TLB: the same address in HBM, writable. -/
def die0 : DieSt := { DieSt.reset with tlb := [{ asid := 0, vpage := 2, size := 4096, pte := 0x20D7, global := false }] }

/-- Partition 1 with cluster 0. -/
def launchable (p : Part) (ls : List Launch) : State :=
  let s : State :=
    { State.reset with
      clusters := [(0, { ClusterSt.reset with owned := true, part := 1 })]
      dies := [(0, die0)], parts := [(1, { p with valid := true })], launches := ls }
  (s.devSet (clDev 0 2 0) 0x8000100000000000).devSet (clDev 0 2 8) 0x4000

def delivery0 (readable : Bool) : Delivery :=
  { part := 1, record := record0 0 1 0x30000, readable := readable, reply := 0x900000000, parent := 9, key := ⟨3, 4, 5⟩, src := 0 }

theorem witness_LaunchEvents_delivery :
    (let s := { launchable Part.reset [] with net := [.delivery (delivery0 true)] }
     s.net[0]? = some (.delivery (delivery0 true)) ∧ parentGone s 1 9 = false ∧ (delivery0 true).reply ≠ 0 ∧
      niFull s (dispatcher s (agentDie (delivery0 true).src)) = false ∧
      accepted s 1 (record0 0 1 0x30000)) ∧
    (let s := { launchable Part.reset [] with net := [.delivery (delivery0 false)] }
     s.net[0]? = some (.delivery (delivery0 false)) ∧ parentGone s 1 9 = false ∧ (delivery0 false).reply ≠ 0 ∧
      niFull s (dispatcher s (agentDie (delivery0 false).src)) = false) := by
  exact ⟨⟨by decide, by decide, by decide, by decide, by decide +kernel, by decide +kernel⟩, by decide⟩

/-- A queue whose header stands at 0x2000 and whose entries stand from 0x2100 on, with one record in it. -/
def queued0 : State :=
  State.storeBytes (State.storeBytes (launchable { Part.reset with queues := [(2, 0x2000)] } [])
    0x2000 (leBytes 1 8 ++ List.replicate 56 0 ++ leBytes 0 8 ++ leBytes 0x2100 8 ++ leBytes 2 1 ++ leBytes 0 1))
    0x2100 (leBytes (record0 0 1 0x30000).toNat 64)

theorem witness_LaunchEvents_queue :
    ((queued0.getPart 1).queues.find? fun x => x.1 == 2) = some (2, 0x2000) ∧ qState queued0 0x2000 = 0 ∧
    qHead queued0 0x2000 ≠ qTail queued0 0x2000 ∧
    (qTail queued0 0x2000 + 2 ^ 64 - qHead queued0 0x2000) % 2 ^ 64 ≤ 2 ^ qLog queued0 0x2000 ∧
    (match readRecord queued0 1 ((qBase queued0 0x2000 + 64 * (qHead queued0 0x2000 % 2 ^ qLog queued0 0x2000)) % 2 ^ 64) with
      | (u, some b) => decide (b = record0 0 1 0x30000) && (recStatus u 1 b == 1 && !depsFailed u 1 b) &&
          decide (readersOf u [lineOf (0x2000 + 0x40), lineOf (0x2000 + 0x47)] [] = [])
      | _ => false) = true := by decide +kernel

def canStartB (s : State) (part lid : Nat) (l : Launch) : Bool :=
  findLaunch s part lid == some l && l.st == .waiting && l.cancelled.isNone && !depsFailed s l.part l.record &&
    depsMet s l.part l.record && !partOut s l.part && !glazeHolds s (BitVec.ofNat 64 (recTs l.record))

theorem canStart_of {s : State} {part lid : Nat} {l : Launch} (h : canStartB s part lid l = true) : CanStart s part lid l := by
  simp only [canStartB, Bool.and_eq_true, Bool.not_eq_true', beq_iff_eq, Option.isNone_iff_eq_none] at h
  obtain ⟨⟨⟨⟨⟨⟨h1, h2⟩, h3⟩, h4⟩, h5⟩, h6⟩, h7⟩ := h
  exact ⟨h1, ⟨h2, h3⟩, h4, h5, h6, h7⟩

def waiting (b : BitVec 512) : Launch := waitingLaunch 1 b none none none

theorem witness_LaunchEvents_start :
    (let s := launchable Part.reset [waiting (record0 0 1 0x30000)]
     CanStart s 1 5 (waiting (record0 0 1 0x30000)) ∧ recKind (record0 0 1 0x30000) = 0 ∧ freeSlot s 0 = some r0 ∧
      usableEntry s 0 = some 0 ∧ (recClusters (record0 0 1 0x30000)).contains (clusterOf 0) = true ∧ admits s 0 = true) ∧
    (let s := launchable Part.reset [waiting (record0 1 2 0x30000)]
     CanStart s 1 5 (waiting (record0 1 2 0x30000)) ∧ recKind (record0 1 2 0x30000) = 1) ∧
    (let s := launchable Part.reset [waiting (record0 2 0 0x30000)]
     CanStart s 1 5 (waiting (record0 2 0 0x30000)) ∧ recKind (record0 2 0 0x30000) = 2 ∧ niFull s (dispatcher s 0) = false) :=
  ⟨⟨canStart_of (by decide +kernel), by decide +kernel, by decide +kernel, by decide +kernel, by decide +kernel, by decide +kernel⟩, ⟨canStart_of (by decide +kernel), by decide +kernel⟩,
    canStart_of (by decide +kernel), by decide +kernel, by decide +kernel⟩

theorem witness_LaunchEvents_completion :
    let l := { waiting (record0 0 1 0x30000) with st := .live, domain := 3 }
    findLaunch (launchable Part.reset [l]) 1 5 = some l ∧ l.st = .live ∧ l.domain ≠ 0 ∧
      quiescent (launchable Part.reset [l]) l.domain = true ∧ l.cancelled = none ∧ l.faulted = false ∧
      recCtaddr l.record = 0 ∧ recCtchan l.record = 0 := by decide +kernel

/-- The time-triggered table at 0x2000 with one enabled entry, due at 0 every 100 ns, its record at 0x2100. -/
def timed (held : List (Nat × BitVec 512)) : State :=
  (State.storeBytes (State.storeBytes (launchable { Part.reset with held := held } [])
    0x2000 (leBytes 0 8 ++ leBytes 100 8 ++ leBytes 0x2100 8 ++ leBytes 1 1 ++ leBytes 1 1))
    0x2100 (leBytes (record0 0 1 0x30000).toNat 64)).devSet (dieDev 0 2 0x60) 0x8000000000002000

theorem witness_LaunchEvents_timed :
    ttAddr (timed []) 1 0 = some 0x2000 ∧ ttEn (timed []) 0x2000 = 1 ∧ ttNext (timed []) 0x2000 ≤ (timed []).timeNs ∧
    partOut (timed []) 1 = false ∧ ttRule (timed []) 0x2000 < 3 ∧
    (match readRecord (timed []) 1 (ttRec (timed []) 0x2000) with
      | (u, some b) => !glazeHolds u (BitVec.ofNat 64 (recTs b)) && (ttLive u 1 0).isNone && !smHas (u.getPart 1).held 0 &&
          (recStatus u 1 b == 1 && !depsFailed u 1 b) && decide (readersOf u [lineOf 0x2000] [] = []) && decide (ttPeriod u 0x2000 = 100)
      | _ => false) = true ∧
    ttLive (timed [(0, record0 0 1 0x30000)]) 1 0 = none ∧
    smHas ((timed [(0, record0 0 1 0x30000)]).getPart 1).held 0 = true ∧
    recStatus (timed [(0, record0 0 1 0x30000)]) 1 (smGet 0 ((timed [(0, record0 0 1 0x30000)]).getPart 1).held 0) = 1 ∧
    depsFailed (timed [(0, record0 0 1 0x30000)]) 1 (smGet 0 ((timed [(0, record0 0 1 0x30000)]).getPart 1).held 0) = false := by
  decide +kernel

/-! Jobs. -/

/-- Command 1 of unit `unit` of cluster 0 with the block `card`, for partition 1, its words at 0x2000. -/
def job0 (unit : Nat) (card : List Byte) (st : JobSt) : Job :=
  { id := 1, agent := agentId 0 0 0 unit, cmd := 0x2000,
    iss := { part := 1, xroot := 0, super := true, domain := 3, ts := 5, sid := 6, idx := 0, strand := 0x4000, queue := 0,
             qseq := 7, agent := 0, launch := 0 },
    st := st, card := card, rd := [], wr := [], status := 0, cause := 0, record := [], parent := none, captured := [] }

/-- The machine with one command, and with what its fabric carries. -/
def engines (j : Job) (net : List NetItem) : State :=
  let s : State :=
    { State.reset with dies := [(0, die0)], jobs := [j], net := net, strands := [(0x4000, { Strand.reset with toks := [⟨0, 7, none⟩] })] }
  s.devSet (clDev 0 1 0x80) 0x100000001

/-- A region of one row. -/
def row (a n : Nat) : List Byte := leBytes a 8 ++ leBytes n 4 ++ leBytes 1 4 ++ leBytes 0 8

/-- A card of 128 bytes with an operation, its counts of regions, and regions of 16 bytes at 0x2000 and 0x2040. -/
def card0 (op nr nw : Nat) : List Byte :=
  leBytes (op + (1 + 4 * nr + 32 * nw) * 256) 0x20 ++ (if nr = 1 then row 0x2000 16 else []) ++
    (if nw = 1 then row 0x2040 16 else []) ++ List.replicate 0x48 0

/-- Everything that `JobRuns` asks for, with the pieces that the job's footprints come to. -/
def jobRunsB (s : State) (cl id op : Nat) (more : State → List Piece → List Piece → Bool) : Bool :=
  match jobById s id with
  | some j => match startPieces s j (jobReads j.card) (jobWrites j.card) noDevice with
    | (u, .go rp wp) => agentModCluster j.agent == cl && engineUnit j.agent != 16 && engineUnit j.agent != 0 && j.st == .read &&
        jcOp j.card == op && jobFree s j && j.todo.isNone && jobById u id == some j && !rp.any (pieceAborts u) && u.glitches.isEmpty && more u rp wp
    | _ => false
  | none => false

theorem jobRuns_of {s : State} {cl id op : Nat} {more : State → List Piece → List Piece → Bool}
    (h : jobRunsB s cl id op more = true) : ∃ u j rp wp, JobRuns s u cl id op j rp wp ∧ more u rp wp = true := by
  simp only [jobRunsB] at h
  split at h
  · next j hj =>
    split at h
    · next u rp wp hs =>
      simp only [Bool.and_eq_true, Bool.not_eq_true', beq_iff_eq, bne_iff_ne, List.isEmpty_iff,
        Option.isNone_iff_eq_none] at h
      obtain ⟨⟨⟨⟨⟨⟨⟨⟨⟨⟨h1, h2⟩, h3⟩, h4⟩, h5⟩, h6⟩, h11⟩, h7⟩, h8⟩, h9⟩, h10⟩ := h
      exact ⟨u, j, rp, wp, ⟨hj, h1, ⟨h2, h3⟩, h4, h5, h6, h11, hs, h7, h8, h9⟩, h10⟩
    · cases h
  · cases h

def anyPieces : State → List Piece → List Piece → Bool := fun _ _ _ => true
def noAborts : State → List Piece → List Piece → Bool := fun u _ wp => !wp.any (pieceAborts u)

theorem witness_JobEvents_copy : ∃ u j rp wp,
    JobRuns (engines (job0 17 (card0 0 1 1) .read) []) u 0 1 0 j rp wp ∧ anyPieces u rp wp = true :=
  jobRuns_of (by decide +kernel)
theorem witness_JobEvents_fill : ∃ u j rp wp,
    JobRuns (engines (job0 17 (card0 1 0 1) .read) []) u 0 1 1 j rp wp ∧ anyPieces u rp wp = true :=
  jobRuns_of (by decide +kernel)
theorem witness_JobEvents_rput : ∃ u j rp wp, JobRuns (engines (job0 17 (card0 2 1 1) .read) []) u 0 1 2 j rp wp ∧
    (fun u rp _ => decide (niFull u (agentId 0 0 0 17) = false ∧ (dataOf u rp).length = (jcRegion (card0 2 1 1) 1).rowBytes ∧ (jcRegion (card0 2 1 1) 1).rows = 1 ∧
      1 ≤ (jcRegion (card0 2 1 1) 1).rowBytes ∧ (jcRegion (card0 2 1 1) 1).rowBytes ≤ 256)) u rp wp = true :=
  jobRuns_of (more := fun u rp _ => decide (niFull u (agentId 0 0 0 17) = false ∧ (dataOf u rp).length = (jcRegion (card0 2 1 1) 1).rowBytes ∧
    (jcRegion (card0 2 1 1) 1).rows = 1 ∧ 1 ≤ (jcRegion (card0 2 1 1) 1).rowBytes ∧ (jcRegion (card0 2 1 1) 1).rowBytes ≤ 256))
    (by decide +kernel)
theorem witness_JobEvents_stage : ∃ u j rp wp,
    JobRuns (engines (job0 17 (card0 3 1 0) .read) []) u 0 1 3 j rp wp ∧ anyPieces u rp wp = true :=
  jobRuns_of (by decide +kernel)
theorem witness_JobEvents_acc : ∃ u j rp wp,
    JobRuns (engines (job0 18 (card0 8 1 1) .read) []) u 0 1 8 j rp wp ∧ noAborts u rp wp = true :=
  jobRuns_of (by decide +kernel)
theorem witness_JobEvents_maxi : ∃ u j rp wp,
    JobRuns (engines (job0 18 (card0 9 1 1) .read) []) u 0 1 9 j rp wp ∧ noAborts u rp wp = true :=
  jobRuns_of (by decide +kernel)

def inboxB (s : State) (k : Nat) (want : Nat → Bool) (j : Job) : Bool :=
  commandAt s k want == some j && !cmdBehind s k j (cmdSrc s k) && decide (inboxCount s j.agent < 64)

theorem inbox_of {s : State} {k : Nat} {want : Nat → Bool} {j : Job} (h : inboxB s k want j = true) : Inbox s k want j := by
  simp only [inboxB, Bool.and_eq_true, Bool.not_eq_true', beq_iff_eq, decide_eq_true_eq] at h
  exact ⟨h.1.1, h.1.2, h.2⟩

theorem witness_JobEvents_arrival :
    let s := engines (job0 17 [] .issued) [.cmd 0 1]
    Inbox s 0 (fun x => x == 17 || x == 18) (job0 17 [] .issued) ∧
      (match readCard (takeNet s 0) (job0 17 [] .issued) with
        | (u, .ok b) => jobById u 1 == some (job0 17 [] .issued) && !jobCardOk 17 b
        | _ => false) = true := ⟨inbox_of (by decide +kernel), by decide +kernel⟩

/-- The same with a card in memory that is right. -/
theorem witness_JobEvents_card :
    let s := State.storeBytes (engines (job0 17 [] .issued) [.cmd 0 1]) 0x2000 (card0 1 0 1)
    Inbox s 0 (fun x => x == 17 || x == 18) (job0 17 [] .issued) ∧
      (match readCard (takeNet s 0) (job0 17 [] .issued) with
        | (u, .ok b) => jobById u 1 == some (job0 17 [] .issued) && jobCardOk 17 b
        | _ => false) = true := ⟨inbox_of (by decide +kernel), by decide +kernel⟩

theorem witness_JobEvents_completion :
    (let j := job0 17 (card0 0 1 1) .finished
     jobById (engines j []) 1 = some j ∧ agentModCluster j.agent = 0 ∧ engineUnit j.agent ≠ 16 ∧ engineUnit j.agent ≠ 0 ∧
      noneReady (engines j []) = true ∧ reportWaits (engines j []) j = false ∧ j.parent = none ∧ jcMm j.card = false ∧ launchJob j = false ∧ j.iss.queue < 4) ∧
    (let j := job0 17 (leBytes (128 * 256) 0x80) .finished
     jobById (engines j []) 1 = some j ∧ j.status = 0 ∧ jcMm j.card = true ∧ niFull (engines j []) j.agent = false ∧
      jcOp j.card = 0) ∧
    (let j := job0 17 (leBytes (2 + 128 * 256) 0x80) .finished
     jobById (engines j []) 1 = some j ∧ jcOp j.card = 2 ∧ jcMm j.card = true ∧ landsLeft (engines j []) j = false) := by
  decide +kernel

/-- A command that finds its inbox full, and one that has come back to core 0. -/
theorem witness_JobEvents_full :
    let j := { job0 17 [] .issued with id := 99 }
    let s := { engines j [.cmd 0 99] with
      jobs := j :: (natsFrom 0 64).map fun n => { job0 17 [] .read with id := n } }
    s.net[0]? = some (.cmd 0 j.id) ∧ commandAt s 0 (fun x => x == 17 || x == 18) = some j ∧
      cmdBehind s 0 j (cmdSrc s 0) = false ∧ 64 ≤ inboxCount s j.agent := by decide +kernel

theorem witness_MessageEvents_command :
    let s := engines (job0 17 [] .issued) [.cmdBack 0 1]
    s.net[0]? = some (.cmdBack 0 1) ∧ jobById s 1 = some (job0 17 [] .issued) ∧ (job0 17 [] .issued).bounces < 32 ∧
      retFull s (niOf 0) = false := by decide

/-! The matrix array. -/

/-- A block with an operation, control byte, format byte, M, N, the words at 0x20 and 0x28, and the fields behind. -/
def block0 (op ctl fmts m n a b : Nat) (rest : List Byte) : List Byte :=
  leBytes (op + ctl * 2 ^ 8 + fmts * 2 ^ 16) 0x1A ++ leBytes m 1 ++ leBytes n 1 ++ leBytes 0 4 ++ leBytes a 8 ++ leBytes b 8 ++ rest

/-- The fields of a multiplication: no pitches, and K. -/
def kOnly (k : Nat) : List Byte := leBytes 0 8 ++ leBytes k 4 ++ leBytes 0 4

/-- Die 0 with the pages of 0x2000 and 0x3000. -/
def arrays (j : Job) : State :=
  { engines j [] with
    dies := [(0, { die0 with tlb := die0.tlb ++ [{ asid := 0, vpage := 3, size := 4096, pte := 0x30D7, global := false }] })] }

/-- Everything that `MatrixRuns` asks for. -/
def matrixRunsB (s : State) (op cl part : Nat) (more : State → List Piece → Bool) : Bool :=
  match maHead s cl part with
  | some j => match startPieces s j (mcReads j.card) (mcWrites j.card) matrixRegion with
    | (u, .go rp _) => j.st == .read && mcOp j.card == op && matrixOk j && jobFree s j && j.todo.isNone &&
        (!needsValid j.card || (tileOf s cl (mcAcc j.card)).valid) && (op == 0x7D || ownsTile s cl j) &&
        jobById u j.id == some j && !rp.any (pieceAborts u) && u.glitches.isEmpty && more u rp
    | _ => false
  | none => false

theorem matrixRuns_of {s : State} {op cl part : Nat} {more : State → List Piece → Bool} (h : matrixRunsB s op cl part more = true) :
    ∃ u j rp wp, MatrixRuns s u op cl part j rp wp ∧ more u rp = true := by
  simp only [matrixRunsB] at h
  split at h
  · next j hj =>
    split at h
    · next u rp wp hs =>
      simp only [Bool.and_eq_true, Bool.or_eq_true, Bool.not_eq_true', beq_iff_eq, List.isEmpty_iff,
        Option.isNone_iff_eq_none] at h
      obtain ⟨⟨⟨⟨⟨⟨⟨⟨⟨⟨h1, h2⟩, h3⟩, h4⟩, h11⟩, h5⟩, h6⟩, h7⟩, h8⟩, h9⟩, h10⟩ := h
      refine ⟨u, j, rp, wp, ⟨hj, h1, h2, h3, h4, h11, ?_, h6, hs, h7, h8, h9⟩, h10⟩
      intro hn
      rcases h5 with h5 | h5
      · rw [hn] at h5; cases h5
      · exact h5
    · cases h
  · cases h

def anyData : State → List Piece → Bool := fun _ _ => true
def mma (b : List Byte) : State := arrays (job0 16 b .read)

theorem witness_MatrixEvents_mm : ∃ u j rp wp,
    MatrixRuns (mma (block0 0x78 0 0x77 1 1 0x2000 0x2400 (kOnly 32))) u 0x78 0 1 j rp wp ∧ anyData u rp = true :=
  matrixRuns_of (by decide +kernel)
theorem witness_MatrixEvents_mms : ∃ u j rp wp,
    MatrixRuns ((mma (block0 0x79 8 0 1 1 0x2000 0x2400 (kOnly 128))).storeBytes 0x2000 [0xFF, 0xFF]) u 0x79 0 1 j rp wp ∧
      (fun u rp => groupsOk 16 0 128 1 (dataOf u rp)) u rp = true :=
  matrixRuns_of (more := fun u rp => groupsOk 16 0 128 1 (dataOf u rp)) (by decide +kernel)
theorem witness_MatrixEvents_mmx : ∃ u j rp wp,
    MatrixRuns (mma (block0 0x7A 0 0 1 1 0x2000 0x2400 (kOnly 32))) u 0x7A 0 1 j rp wp ∧
      (fun u rp => xmxOk 32 2 (dataOf u rp)) u rp = true :=
  matrixRuns_of (more := fun u rp => xmxOk 32 2 (dataOf u rp)) (by decide +kernel)
theorem witness_MatrixEvents_mzero : ∃ u j rp wp,
    MatrixRuns (mma (mzeroBlock 0 7)) u 0x7B 0 1 j rp wp ∧ anyData u rp = true := matrixRuns_of (by decide +kernel)
theorem witness_MatrixEvents_mread : ∃ u j rp wp,
    MatrixRuns (mma (block0 0x7C 4 9 1 1 0x2000 0 (kOnly 0))) u 0x7C 0 1 j rp wp ∧ anyData u rp = true :=
  matrixRuns_of (by decide +kernel)
theorem witness_MatrixEvents_mstw : ∃ u j rp wp,
    MatrixRuns (mma (block0 0x7D 0 0 32 32 0x2000 0x3000 (leBytes 0x3800 8 ++ leBytes 128 4 ++ leBytes 0 4))) u 0x7D 0 1 j rp wp ∧
      anyData u rp = true := matrixRuns_of (by decide +kernel)

theorem witness_MatrixEvents_arrival :
    (let j := job0 16 [] .issued
     let s := engines j [.cmd 0 1]
     Inbox s 0 (fun x => x == 16) j ∧ j.parent = none ∧ j.captured.length < 9 ∧
      (match readBlock (queuedAt s 0 j) j 64 with | (u, .ok _) => jobById u 1 == some j | _ => false) = true) ∧
    (let j := { job0 16 [] .issued with parent := some 4 }
     Inbox (engines j [.cmd 0 1]) 0 (fun x => x == 16) j ∧ j.parent ≠ none) :=
  ⟨⟨inbox_of (by decide +kernel), by decide, by decide, by decide +kernel⟩, inbox_of (by decide +kernel), by decide⟩

theorem witness_MatrixEvents_completion :
    let j := job0 16 (mzeroBlock 0 7) .running
    maHead (engines j []) 0 1 = some j ∧ j.st = .running ∧ j.parent = none ∧ noneReady (engines j []) = true ∧
      launchJob j = false ∧ reportWaits (engines j []) j = false := by decide +kernel

/-! Collectives. -/

/-- Group 1 with ranks 0 and 1, coordinated by the collective engine of die 0, with a bitmap of members. -/
def group1 (j : Job) (net : List NetItem) (members : Nat) : State :=
  let s := { engines j net with dies := [(0, { die0 with maps := [(1, members)] })] }
  ((s.devSet (grpReg 0 1 0) 0xC000000000000002).devSet (grpReg 0 1 3) (BitVec.ofNat 64 (dieAgent State.reset 0 0).toNat)).devSet
    (grpReg 0 1 5) 1

/-- Command 1 of the collective engine of die 0, and its descriptor: an addition of one doubleword, CSEQ 8. -/
def coll0 (st : JobSt) : Job := { job0 0 [] st with agent := agentId 0 0 127 0 }

def desc0 : List Byte :=
  leBytes 0x100 8 ++ leBytes 8 8 ++ leBytes 0x2080 8 ++ leBytes 0x2100 8 ++ leBytes 1 4 ++ leBytes 0 20 ++ leBytes 0x2140 8

theorem witness_CollectiveEvents_arrival :
    let j := coll0 .issued
    let s := (group1 j [.cmd 0 1] 3).storeBytes 0x2000 desc0
    Inbox s 0 (fun x => x == 0) j ∧ niFull s j.agent = false ∧
      (match readBlock (takeNet s 0) j 64 with
        | (u, .ok b) =>
          match jobById (readyColl u j b) 1 with
          | some q =>
            (collCheck (tookBlock u j b) (agentDie j.agent) { j with card := b } (collOp j)).isNone &&
              ((readyColl u j b).jobs.filter fun x => engineUnit x.agent == 0 && x.st == .ready) == [q] && jobFree (readyColl u j b) q &&
              (match startPieces (readyColl u j b) q q.rd q.wr notDevice with
                | (w, .go rp _) => jobById w 1 == some q && !rp.any (pieceAborts w)
                | _ => false)
          | none => false
        | _ => false) = true := ⟨inbox_of (by decide +kernel), by decide, by decide +kernel⟩

/-- A contribution of rank 0 to instance 8. -/
def contrib0 (leaf op : Nat) : Contrib :=
  { group := 1, cseq := 8, rank := 0, op := op, count := 1, x := 0, root := 0, data := [1, 0, 0, 0, 0, 0, 0, 0], aborted := false,
    leaf := leaf, job := 1 }

def opensB (s : State) (k die : Nat) (c : Contrib) : Bool :=
  s.net[k]? == some (.contrib (dieAgent s die 0).toNat c) && cleHere s (dieAgent s die 0).toNat &&
    agentDie (BitVec.ofNat 32 (dieAgent s die 0).toNat) == die && gIsCoord s die c.group &&
    !(s.die die).outcomes.contains (c.group, c.cseq) && !(s.die die).served.contains (c.group, c.cseq, c.leaf, c.job) &&
    (findInst s die c.group c.cseq).isNone &&
    (awaited s die (newInst s die c)).contains c.rank && !c.aborted && noneReady s

theorem opens_of {s : State} {k die : Nat} {c : Contrib} (h : opensB s k die c = true) : OpensInst s k die c := by
  simp only [opensB, Bool.and_eq_true, Bool.not_eq_true', beq_iff_eq, Option.isNone_iff_eq_none] at h
  obtain ⟨⟨⟨⟨⟨⟨⟨⟨⟨h1, h2⟩, h3⟩, h4⟩, h5⟩, h10⟩, h6⟩, h7⟩, h8⟩, h9⟩ := h
  exact ⟨h1, ⟨h2, h3⟩, h4, ⟨h5, h10⟩, h6, h7, h8, h9⟩

theorem witness_CollectiveEvents_contribution :
    (let c := contrib0 (dieAgent State.reset 0 0).toNat 0
     let s := group1 (coll0 .running) [.contrib (dieAgent State.reset 0 0).toNat c] 3
     OpensInst s 0 0 c ∧ instDone s 0 (firstInst s 0 c) = false) ∧
    (let c := contrib0 (agentId 9 0 127 0).toNat 0
     let s := group1 (coll0 .running) [.contrib (dieAgent State.reset 0 0).toNat c] 1
     OpensInst s 0 0 c ∧ instDone s 0 (firstInst s 0 c) = true ∧ c.op = 0 ∧ leafHere s c.leaf = false ∧ s.glitches = []) :=
  ⟨⟨opens_of (by decide +kernel), by decide +kernel⟩, opens_of (by decide +kernel), by decide +kernel, by decide, by decide +kernel,
    by decide +kernel⟩

theorem witness_CollectiveEvents_notice :
    let leaf := (dieAgent State.reset 0 0).toNat
    let n : CollNotice :=
      { group := 1, cseq := 8, rank := 0, leaf := leaf, job := 1, status := 7, dst := none, outcome := [] }
    let s := group1 (coll0 .running) [.notice n] 3
    let t := s.setDie 0 { s.die 0 with leaf := [contrib0 leaf 0] }
    t.net[0]? = some (.notice n) ∧ cleHere t n.leaf = true ∧ n.status ≠ 4 ∧ n.dst = none ∧ n.outcome = [] ∧
      (t.die (agentDie (BitVec.ofNat 32 n.leaf))).leaf.find?
        (noticeFits (t.die (agentDie (BitVec.ofNat 32 n.leaf))).replay n) = some (contrib0 leaf 0) ∧
      jobById t (contrib0 leaf 0).job = some (coll0 .running) ∧ (coll0 .running).parent = none ∧
      launchJob (coll0 .running) = false ∧ noneReady t = true ∧ reportWaits t (coll0 .running) = false := by decide +kernel

theorem witness_CollectiveEvents_open :
    (let s := group1 (coll0 .running) [] 3
     let i := firstInst s 0 (contrib0 0 0)
     let t := { s.setDie 0 { s.die 0 with insts := [i] } with now := 3301 }
     findInst t 0 1 8 = some i ∧ gtime t 0 1 ≠ 0 ∧ i.notified = false ∧ i.openedAt + 3300 * gtime t 0 1 < t.now) ∧
    (let s := group1 (coll0 .running) [] 3
     noneReady s = true ∧ (1 : Word).toNat % 2 ^ 32 = (ggen s 0 1 + 1) % 2 ^ 32 ∧
      ((s.die 0).insts.all fun i => i.group != 1) = true ∧ ((s.die 0).pendingCoord.all fun p => p.1 != 1) = true ∧
      (2 : Word).toNat % 2 ^ 32 ≠ (ggen s 0 1 + 1) % 2 ^ 32) := by decide +kernel

/-! Links. -/

/-- Instance 8 of die 0. -/
def linked (x : LinkInst) (net : List NetItem) (now : Nat) : State :=
  { State.reset with links := [(8, x)], net := net, now := now, routed := [5] }

def up0 : LinkInst := { LinkInst.reset with up := true }

/-- A message to core 0 of module 5. -/
def away0 : Packet := { msgTo 0 0 with d0 := mkD0 (agentId 5 0 0 0) 9 1 1 0 }

theorem departs_of {s : State} {k m : Nat} {p : Packet}
    (h : (s.net[k]? == some (.msg p) && agentModule (headsFor p) == m && m != s.modNo && !behindAnother s k p) = true) :
    Departs s k m p := by
  simp only [Bool.and_eq_true, Bool.not_eq_true', beq_iff_eq, bne_iff_ne] at h
  exact ⟨h.1.1.1, ⟨h.1.1.2, h.1.2⟩, h.2⟩

theorem witness_LinkEvents_depart :
    (let s := (linked up0 [.msg away0] 0).devSet (dieDev 0 4 0) 0x8000000000000000
     Departs s 0 5 away0 ∧ s.down.contains 5 = false ∧ s.routed.contains 5 = true ∧ gletosInst s away0 = some 8 ∧
      crumbOn s = true ∧ s.crumbBroken = false ∧ crumbFull s (crumbSize away0) = false) ∧
    (let s := { (linked up0 [.msg away0] 0).devSet (dieDev 0 4 0) 0x8000000000000000 with down := [5] }
     Departs s 0 5 away0 ∧ s.down.contains 5 = true ∧ crumbOn s = true ∧ s.crumbBroken = false ∧
      crumbFull s (crumbSize away0) = false) :=
  ⟨⟨departs_of (by decide +kernel), by decide, by decide, by decide +kernel, by decide, by decide, by decide⟩,
    departs_of (by decide +kernel), by decide, by decide, by decide, by decide⟩

/-- A packet of 40 bytes as one flit, and its two halves. -/
def short0 : List Byte := streamOf { away0 with payload := [] }

/-- Flits of R265 with SEQ and ACK 0 on virtual network 1: the packet as one flit, its first 20 bytes and its last 20, and
the flits without data; the last four bytes of each are the CRC-32 of the first 60. -/
def flit0 (type : Nat) : BitVec 512 :=
  match type with
  | 4 => 0xc6d5eb6d000000000000000000000000000000000000000000000000100000030000000000000028000050090001400000014000000000202801040000000000
  | 1 => 0x0d85dcc6000000000000000000000000000000000000000000000000000000000000000000000028000050090001400000014000000000201401010000000000
  | 3 => 0xbcf1b9f5000000000000000000000000000000000000000000000000000000000000000000000000000000000000000010000003000000001401030000000000
  | 5 => 0xafba5fee000000000000000000000000000000000000000000000000000000000000000000000000000000000000000000000000000000000001050000000000
  | 6 => 0xc9be8ade000000000000000000000000000000000000000000000000000000000000000000000000000000000000000000000000000000000001060000000000
  | 7 => 0xebbd39ce000000000000000000000000000000000000000000000000000000000000000000000000000000000000000000000000000000000001070000000000
  | _ => 0xcedbbe7f000000000000000000000000000000000000000000000000000000000000000000000000000000000000000000000000000000000001080000000000

/-- The CRC with its register reduced to a numeral byte by byte. -/
def crcFrom : List Byte → Nat → BitVec 32
  | [], a => BitVec.ofNat 32 a
  | b :: r, a => match (crc32Step (BitVec.ofNat 32 a) b).toNat with
    | 0 => crcFrom r 0
    | k + 1 => crcFrom r (k + 1)

theorem crcFrom_eq (bs : List Byte) (a : BitVec 32) : crcFrom bs a.toNat = bs.foldl crc32Step a := by
  induction bs generalizing a with
  | nil => simp [crcFrom]
  | cons b r ih =>
    simp only [crcFrom, List.foldl_cons, BitVec.ofNat_toNat, BitVec.setWidth_eq]
    rw [← ih]
    split <;> simp_all

theorem good_of {f : BitVec 512} (h : (crcFrom (leBytes f.toNat 60) 0xFFFFFFFF ^^^ 0xFFFFFFFF == flCrc f) = true) :
    flGood f = true := by
  rw [flGood, crc32, ← crcFrom_eq]
  exact h

theorem good_flits : flGood (flit0 4) = true ∧ flGood (flit0 1) = true ∧ flGood (flit0 3) = true ∧ flGood (flit0 5) = true ∧
    flGood (flit0 6) = true ∧ flGood (flit0 7) = true ∧ flGood (flit0 8) = true :=
  ⟨good_of (by decide +kernel), good_of (by decide +kernel), good_of (by decide +kernel), good_of (by decide +kernel),
    good_of (by decide +kernel), good_of (by decide +kernel), good_of (by decide +kernel)⟩

/-- With a wrong bit the CRC is no longer right. -/
theorem bad_flit : flGood (flit0 4 ^^^ 1) = false := by
  rw [flGood, crc32, ← crcFrom_eq]
  decide +kernel

theorem receives_of {s : State} {die inst : Nat} {f : BitVec 512}
    (h : (decide (die < 4) && decide (inst < 16) && (s.link die inst).up) = true) (g : flGood f = true) : Receives s die inst f := by
  simp only [Bool.and_eq_true, decide_eq_true_eq] at h
  exact ⟨h.1, h.2, g⟩

theorem witness_LinkEvents_data :
    (let s := linked up0 [] 0
     Receives s 0 8 (flit0 4) ∧ flSeq (flit0 4) = (s.link 0 8).expSeq ∧ flType (flit0 4) = 4 ∧
      packetOf (flData (flit0 4)) = some { away0 with payload := [] }) ∧
    (Receives (linked up0 [] 0) 0 8 (flit0 1) ∧ flType (flit0 1) = 1) ∧
    (let s := linked { up0 with partials := [(1, short0.take 20)] } [] 0
     Receives s 0 8 (flit0 3) ∧ flSeq (flit0 3) = (s.link 0 8).expSeq ∧ flType (flit0 3) = 3 ∧
      packetOf (partialOf (s.link 0 8) (flVn (flit0 3)) ++ flData (flit0 3)) = some { away0 with payload := [] }) :=
  ⟨⟨receives_of (by decide) good_flits.1, by decide +kernel, by decide +kernel, by decide +kernel⟩,
    ⟨receives_of (by decide) good_flits.2.1, by decide +kernel⟩, receives_of (by decide) good_flits.2.2.1, by decide +kernel,
    by decide +kernel, by decide +kernel⟩

theorem witness_LinkEvents_control :
    ((linked up0 [] 0).link 0 8).up = true ∧ flGood (flit0 4 ^^^ 1) = false ∧
    lthr ((linked up0 [] 0).devSet (linkReg 0 8 0x10) 0) 0 8 = 0 ∧
    (Receives (linked up0 [] 0) 0 8 (flit0 5) ∧ flType (flit0 5) = 5 ∧ ((linked up0 [] 0).link 0 8).queued = []) ∧
    (Receives (linked up0 [] 0) 0 8 (flit0 6) ∧ flType (flit0 6) = 6 ∧ ((linked up0 [] 0).link 0 8).dstate = .none) ∧
    (let s := linked { up0 with replay := [flit0 4] } [] 6600
     (s.link 0 8).sends = true ∧ (s.link 0 8).replay ≠ [] ∧ (s.link 0 8).lastProgress + 6600 ≤ s.now) ∧
    (Receives (linked up0 [] 0) 0 8 (flit0 7) ∧ flType (flit0 7) = 7 ∧ ((linked up0 [] 0).link 0 8).degraded = false) ∧
    (let s := linked { up0 with dstate := .asked } [] 0
     Receives s 0 8 (flit0 8) ∧ flType (flit0 8) = 8 ∧ (s.link 0 8).dstate = .asked) ∧
    (let s := linked { up0 with dstate := .training } [] 0
     (s.link 0 8).up = true ∧ (s.link 0 8).dstate = .training ∧ (s.link 0 8).toFull = false) ∧
    (let s := linked { up0 with dstate := .training, toFull := true } [] 0
     (s.link 0 8).up = true ∧ (s.link 0 8).dstate = .training ∧ (s.link 0 8).toFull = true) ∧
    ((linked up0 [] (2 ^ 40)).link 0 8).windowStart + lwin (linked up0 [] (2 ^ 40)) 0 8 * 3300 ≤ (linked up0 [] (2 ^ 40)).now ∧
    ((linked up0 [] 0).link 0 8).sends = true :=
  ⟨by decide, bad_flit, by decide +kernel,
    ⟨receives_of (by decide) good_flits.2.2.2.1, by decide +kernel, by decide⟩,
    ⟨receives_of (by decide) good_flits.2.2.2.2.1, by decide +kernel, by decide⟩, by decide +kernel,
    ⟨receives_of (by decide) good_flits.2.2.2.2.2.1, by decide +kernel, by decide⟩,
    ⟨receives_of (by decide) good_flits.2.2.2.2.2.2, by decide +kernel, by decide⟩, by decide, by decide, by decide +kernel,
    by decide⟩

/-! Firmware and the host's mailbox. -/

/-- A module that has booted, with partition 1 and its queue 2, whose tables map the first GiB to HBM. -/
def hosted : State :=
  { (((((launchable { Part.reset with queues := [(2, 0x2000)], xroot := 0x100000 } []).storeAt 0x100000 8 0x101001).storeAt
      0x101000 8 0x102001).storeAt 0x102000 8 0xC7).storeAt 0x3048 8 0x2100).storeAt 0x3050 1 2 with bootStep := 6 }

theorem witness_FirmwareEvents_lines :
    (let s := { State.reset with clusters := [(0, { ClusterSt.reset with cmLines := [{ CLine.plain 5 with dirty := true }] })] }
     holdsDirty (s.cluster 0) 5 = true ∧ (s.devGet (clDev 0 0 (0x100 + 8 * 0))).toNat.testBit 63 = false) ∧
    (let s := { State.reset with clusters := [(0, { ClusterSt.reset with pendingSplit := some 0x04080202 })] }
     (s.cluster 0).pendingSplit = some 0x04080202 ∧ splitOk 0x02020804 = true) := by decide +kernel

theorem witness_FirmwareEvents_swap :
    (let s := launchable Part.reset []
     (s.devGet (pswapReg 0 1)).getLsbD 3 = false ∧ partClusters s 0 1 = [0]) ∧
    (let s := (launchable Part.reset []).devSet (pswapReg 0 1) 5
     (s.devGet (pswapReg 0 1)).getLsbD 2 = true ∧
      ((partClusters s 0 1).all fun c => atBoundary s c && decide ((s.cluster c).shadow.length < 2)) = true) ∧
    ((launchable Part.reset []).devSet (pswapReg 0 1) 9).devGet (pswapReg 0 1) = 9 := by decide +kernel

theorem queueIdle_of {s : State} {part q h : Nat}
    (t : (hostUp s && decide (part < 256) && decide (q < 16) && queueOf s part q == some h &&
      (s.launches.all fun l => !(l.part == part && l.queue == some q)) &&
      (readersOf s [lineOf (h + 0x40), lineOf (h + 0x51)] []).isEmpty) = true) : QueueIdle s part q h := by
  simp only [Bool.and_eq_true, beq_iff_eq, decide_eq_true_eq, List.isEmpty_iff] at t
  obtain ⟨⟨⟨⟨⟨h1, h2⟩, h3⟩, h4⟩, h5⟩, h6⟩ := t
  exact ⟨⟨h1, h2, h3⟩, h4, h5, h6⟩

theorem witness_FirmwareEvents_mailbox : QueueIdle hosted 1 2 0x2000 ∧ MailboxTakes hosted 1 3 ∧
    regqCheck hosted 1 3 0x3000 = .ok 0x3000 ∧ regqCheck hosted 1 3 0x3001 = .error 3 ∧ hosted.glaze = .idle ∧
    refusedCommand hosted 9 0 0 = true ∧ hosted.time.synced = false :=
  ⟨queueIdle_of (by decide +kernel), ⟨by decide +kernel, by decide, by decide⟩, rfl, rfl, by decide +kernel,
    by decide +kernel, by decide +kernel⟩

theorem witness_FirmwareEvents_glaze :
    (let s := { hosted with glaze := .holding, glazeG := 100, glazeEpoch := 3 }
     s.glaze = .holding ∧ workBelow s s.glazeG.toNat = false) ∧
    (let s := { hosted with glaze := .writing, glazeEpoch := 3 }
     s.glaze = .writing ∧ s.modNo < 2 ^ 32 ∧ s.glazeEpoch < 2 ^ 32 ∧
      slotComplete s (2 * s.modNo) s.modNo = false ∧ slotComplete s (2 * s.modNo + 1) s.modNo = false) ∧
    hosted.glaze = .idle ∧ epochComplete hosted hosted.epoch = false := by decide +kernel

/-! The module. -/

theorem witness_ModuleEvents_host : hostUp hosted = true ∧ 0x4000000040 < 768 * 2 ^ 30 ∧ 0x4000000040 % 64 + 8 ≤ 64 ∧
    { hosted with bad := [hdmPa 0x40 / 64] }.bad.contains (hdmPa 0x40 / 64) = true ∧
    kindOf (64 * (2 ^ 48 / 64)) = .host ∧ hosted.flash.minVersion ≤ hosted.flash.fwVersion ∧
    { hosted with recovery := true }.recovery = true := by decide +kernel

/-- An image of module 5 in slot 10, complete. -/
def safe0 : State :=
  { hosted with
    safe := [(imageBase 10, 0x47), (imageBase 10 + 1, 0x4C), (imageBase 10 + 2, 0x41), (imageBase 10 + 3, 0x5A),
             (imageBase 10 + 6, 1), (imageBase 10 + 8, 5)]
    images := [(10, imageOf hosted)] }

theorem witness_ModuleEvents_spare :
    (5 ≠ safe0.modNo ∧ safe0.down.contains 5 = false ∧ safe0.spare = none ∧ imageComplete safe0 10 5 = true) ∧
    (let s := { safe0 with spare := some ⟨10, false⟩ }
     s.spare = some ⟨10, false⟩ ∧ (s.images.find? (fun e => e.1 == 10)).isSome = true) ∧
    (let c : Crumb := { epoch := 0, deferred := false, item := .msg away0, offset := 0, size := 128 }
     let s := { linked up0 [] 0 with down := [5], crumbs := [c] }
     s.spare = none ∧ s.down = 5 :: [] ∧ crumbsTo s 5 false = [c] ∧ c.item = .msg away0 ∧ gletosInst s away0 = some 8) ∧
    (let s := { safe0 with spare := some ⟨10, true⟩ }
     s.spare = some ⟨10, true⟩ ∧ inboundLeft s = false) ∧
    (let s := { linked up0 [] 0 with down := [5] }
     s.spare = none ∧ s.down = 5 :: [] ∧ streamLeft s = false) := by decide +kernel

/-- Another module whose image of the epoch is there, and one whose image is not; this module's own image. -/
theorem witness_FirmwareEvents_images :
    (let s := { safe0 with glaze := .writing, routed := [5] }
     (∀ m ∈ s.routed, m ≠ s.modNo → imageThere s m s.glazeEpoch = true)) ∧
    (let s := { safe0 with glaze := .writing, routed := [6], glazeEpoch := 3 }
     (6 : Nat) ∈ s.routed ∧ 6 ≠ s.modNo ∧ imageThere s 6 s.glazeEpoch = false) ∧
    (let s := { safe0 with safe := [(0, 0x47), (1, 0x4C), (2, 0x41), (3, 0x5A), (6, 1)] }
     s.glaze = .idle ∧ epochComplete s s.epoch = true) := by decide +kernel

/-- A core outside every composition, whose fence is not set, and one that leads a composition. -/
theorem witness_FirmwareEvents_fence : (hosted.devGet (dieDev 0 1 0x800)).getLsbD 0 = false ∧
    inComposition hosted 0 = false ∧ inComposition (at0 leading) 0 = true := by decide +kernel

end Sys2Proof.Tests
end

section
/-! PROOF. The values of `alu`, `aluw`, `muldiv` and `bit` against their function tables (R65, R68 to R70). -/

namespace Sys2Proof.Machine

/-! Signed readings of R6, and bit vectors as unbounded integers cut to their width. -/

theorem sxInt_eq_toInt (v n : Nat) : sxInt v n = (BitVec.ofNat n v).toInt := by
  cases n with
  | zero => rw [BitVec.toInt_zero_length]; simp [sxInt, Nat.mod_one]
  | succ n => simp only [sxInt, BitVec.toInt_eq_toNat_cond, BitVec.toNat_ofNat, Nat.add_sub_cancel, Nat.pow_succ,
      Nat.mul_comm 2, Nat.mul_lt_mul_right Nat.two_pos]

theorem sxInt_toNat {w : Nat} (x : BitVec w) : sxInt x.toNat w = x.toInt := by
  rw [sxInt_eq_toInt, BitVec.ofNat_toNat, BitVec.setWidth_eq]

theorem ofInt_toNat {w : Nat} (x : BitVec w) : BitVec.ofInt w x.toNat = x := by
  rw [BitVec.ofInt_natCast, BitVec.ofNat_toNat, BitVec.setWidth_eq]

theorem ofInt_sub {w : Nat} (x y : Int) : BitVec.ofInt w (x - y) = BitVec.ofInt w x - BitVec.ofInt w y := by
  rw [Int.sub_eq_add_neg, BitVec.ofInt_add, BitVec.ofInt_neg, BitVec.sub_eq_add_neg]

theorem eq_ofInt_of_toNat {w : Nat} {x : BitVec w} {n : Nat} (h : x.toNat = n) : x = BitVec.ofInt w n := by
  rw [← h, ofInt_toNat]

theorem eq_ofInt_of_toNat_mod {w : Nat} {x : BitVec w} {n : Nat} (h : x.toNat = n % 2 ^ w) : x = BitVec.ofInt w n :=
  BitVec.eq_of_toNat_eq (by rw [h, BitVec.ofInt_natCast, BitVec.toNat_ofNat])

theorem boolVal_decide {w : Nat} (p : Prop) [Decidable p] :
    (boolVal (decide p) : BitVec w) = BitVec.ofInt w (if p then 1 else 0) := by
  by_cases h : p <;> simp [boolVal, h]

/-! `alu` and `aluw` (R65). -/

/-- A rotation's two parts lie side by side. -/
theorem shiftLeft_or_shiftRight {a n w : Nat} (ha : a < 2 ^ w) (hn : n ≤ w) :
    a <<< n % 2 ^ w ||| a >>> (w - n) = (a * 2 ^ n + a / 2 ^ (w - n)) % 2 ^ w := by
  obtain ⟨m, rfl⟩ := Nat.exists_eq_add_of_le' hn
  rw [Nat.add_sub_cancel, Nat.shiftRight_eq_div_pow]
  have hlow : a / 2 ^ m < 2 ^ n := Nat.div_lt_of_lt_mul (by rwa [← Nat.pow_add])
  have hhigh : a <<< n % 2 ^ (m + n) = (a % 2 ^ m) <<< n := by
    rw [Nat.shiftLeft_eq, Nat.shiftLeft_eq, Nat.pow_add, Nat.mul_mod_mul_right]
  have hlt : a <<< n % 2 ^ (m + n) ||| a / 2 ^ m < 2 ^ (m + n) :=
    Nat.or_lt_two_pow (Nat.mod_lt _ (Nat.two_pow_pos _)) (Nat.lt_of_lt_of_le hlow (Nat.pow_le_pow_right Nat.two_pos hn))
  rw [← Nat.mod_eq_of_lt hlt, hhigh, ← Nat.shiftLeft_add_eq_or_of_lt hlow, ← hhigh, Nat.mod_add_mod, Nat.shiftLeft_eq]

/-- The ALU computes its function table on every width (R65). -/
theorem aluOp_eq_table {w : Nat} (f : AluFn) (a b : BitVec w) {n : Nat} (h : n < w) :
    aluOp f a b n = BitVec.ofInt w (aluTable f w a.toNat b.toNat n) := by
  cases f
  case add => simp only [aluOp, aluTable, BitVec.ofInt_add, ofInt_toNat]
  case sub => simp only [aluOp, aluTable, ofInt_sub, ofInt_toNat]
  case and => exact eq_ofInt_of_toNat (BitVec.toNat_and a b)
  case or => exact eq_ofInt_of_toNat (BitVec.toNat_or a b)
  case xor => exact eq_ofInt_of_toNat (BitVec.toNat_xor a b)
  case andn => exact eq_ofInt_of_toNat (by rw [aluOp, BitVec.toNat_and, BitVec.toNat_not])
  case sll =>
    have : (aluOp .sll a b n).toNat = a.toNat * 2 ^ n % 2 ^ w := by
      rw [aluOp, BitVec.toNat_shiftLeft, Nat.shiftLeft_eq]
    simpa [aluTable] using eq_ofInt_of_toNat_mod this
  case srl => exact eq_ofInt_of_toNat (by rw [aluOp, BitVec.toNat_ushiftRight, Nat.shiftRight_eq_div_pow])
  case sra => simp [aluOp, aluTable, BitVec.sshiftRight_eq, sxInt_toNat, Int.shiftRight_eq_div_pow]
  case rol =>
    refine eq_ofInt_of_toNat_mod ?_
    rw [aluOp, BitVec.toNat_rotateLeft, Nat.mod_eq_of_lt h, shiftLeft_or_shiftRight a.isLt (Nat.le_of_lt h)]
  case ror =>
    refine eq_ofInt_of_toNat_mod ?_
    have := shiftLeft_or_shiftRight a.isLt (Nat.sub_le w n)
    rw [Nat.sub_sub_self (Nat.le_of_lt h)] at this
    rw [aluOp, BitVec.toNat_rotateRight, Nat.mod_eq_of_lt h, Nat.or_comm, this, Nat.add_comm]
  case slt => simp only [aluOp, aluTable, sxInt_toNat, BitVec.slt, boolVal_decide]
  case sltu => simp only [aluOp, aluTable, BitVec.ult, boolVal_decide]
  case seq =>
    rw [aluTable, ← boolVal_decide]
    simp only [BitVec.toNat_inj]
    rfl
  case min =>
    simp only [aluOp, aluTable, sxInt_toNat, BitVec.slt_iff_toInt_lt]
    by_cases hlt : b.toInt < a.toInt
    · rw [if_pos hlt, Int.min_eq_right (Int.le_of_lt hlt), BitVec.ofInt_toInt]
    · rw [if_neg hlt, Int.min_eq_left (Int.not_lt.mp hlt), BitVec.ofInt_toInt]
  case max =>
    simp only [aluOp, aluTable, sxInt_toNat, BitVec.slt_iff_toInt_lt]
    by_cases hlt : a.toInt < b.toInt
    · rw [if_pos hlt, Int.max_eq_right (Int.le_of_lt hlt), BitVec.ofInt_toInt]
    · rw [if_neg hlt, Int.max_eq_left (Int.not_lt.mp hlt), BitVec.ofInt_toInt]

theorem aluVal_eq_table (f : AluFn) (a b : Word) :
    aluVal f a b = BitVec.ofInt 64 (aluTable f 64 a.toNat b.toNat (b.toNat % 64)) :=
  aluOp_eq_table f a b (Nat.mod_lt _ (by decide))

theorem aluwVal_eq_table (f : AluFn) (a b : Word) :
    aluwVal f a b =
      (BitVec.ofInt 32 (aluTable f 32 (a.toNat % 2 ^ 32) (b.toNat % 2 ^ 32) (b.toNat % 32))).signExtend 64 := by
  rw [aluwVal, aluOp_eq_table f _ _ (Nat.mod_lt _ (by decide)), BitVec.toNat_setWidth, BitVec.toNat_setWidth]

/-! `muldiv` (R68, R69). -/

/-- What a step of the multiplier or divider gives when its units are right. -/
def MulStep.value (m : MulStep) : Word := m.post (m.raw + m.fix.getD 0)

theorem mulVal_eq_value (f : MulFn) (a b : Word) : mulVal f a b = (mulStep f a.toNat b.toNat).value := rfl

theorem MulStep.value_of_unfixed {m : MulStep} (h : m.fix = none) : m.value = m.post m.raw := by
  rw [MulStep.value, h, Option.getD_none, show (0 : Word) = 0#64 from rfl, BitVec.add_zero]

/-- The reading of `w` bits, signed or not. -/
def readInt (signed : Bool) (w v : Nat) : Int := if signed then sxInt v w else v

theorem readInt_eq_sub (signed : Bool) {v w : Nat} (hv : v < 2 ^ w) (hw : 0 < w) :
    readInt signed w v = v - (signed && v.testBit (w - 1)).toInt * 2 ^ w := by
  cases signed with
  | false => simp [readInt]
  | true =>
    have hlast : (BitVec.ofNat w v).getLsbD (w - 1) = v.testBit (w - 1) := by
      rw [BitVec.getLsbD_ofNat, decide_eq_true (by omega), Bool.true_and]
    rw [readInt, if_pos rfl, sxInt_eq_toInt, BitVec.toInt_eq_msb_cond, BitVec.msb_eq_getLsbD_last, hlast,
      BitVec.toNat_ofNat, Nat.mod_eq_of_lt hv]
    cases v.testBit (w - 1) <;> simp

/-! Products. -/

theorem mulLoStep_value (a b : Nat) : (mulLoStep a b).value = BitVec.ofInt 64 (a * b) := by
  rw [MulStep.value_of_unfixed rfl, ← Int.natCast_mul, BitVec.ofInt_natCast]
  rfl

theorem mulwStep_value (a b : Nat) :
    (mulwStep a b).value = (BitVec.ofInt 32 ((a % 2 ^ 32 : Nat) * (b % 2 ^ 32 : Nat))).signExtend 64 := by
  rw [MulStep.value_of_unfixed rfl, ← Int.natCast_mul, BitVec.ofInt_natCast,
    ← BitVec.setWidth_ofNat_of_le (w := 64) (by decide)]
  rfl

/-- The high half of a product whose factors are `p` and `q` times `m` below the unsigned ones. -/
theorem mul_sub_ediv (a b p q : Int) {m : Int} (hm : m ≠ 0) :
    (a - p * m) * (b - q * m) / m = a * b / m - (p * b + q * a) + p * q * m := by
  have : (a - p * m) * (b - q * m) = a * b + (-(p * b + q * a) + p * q * m) * m := by grind
  rw [this, Int.add_mul_ediv_right _ _ hm]
  omega

/-- The signed high half is the unsigned one less each negative factor's other factor. -/
theorem mulHiStep_value (sa sb : Bool) (hs : sb = true → sa = true) {a b : Nat} (ha : a < 2 ^ 64) (hb : b < 2 ^ 64) :
    (mulHiStep sa sb a b).value = BitVec.ofInt 64 (readInt sa 64 a * readInt sb 64 b / 2 ^ 64) := by
  have hfix : (mulHiStep sa sb a b).value = BitVec.ofNat 64 (a * b / 2 ^ 64) -
      BitVec.ofNat 64 ((if sa && a.testBit 63 then b else 0) + (if sb && b.testBit 63 then a else 0)) := by
    cases sa with
    | true => rw [BitVec.sub_eq_add_neg]; rfl
    | false =>
      rw [MulStep.value_of_unfixed rfl, eq_false_of_ne_true fun h => Bool.false_ne_true (hs h)]
      simp [mulHiStep]
  have hneg (c : Bool) (n : Nat) : ((if c then n else 0 : Nat) : Int) = c.toInt * n := by cases c <;> simp
  have hover (k : Int) : BitVec.ofInt 64 (k * 2 ^ 64) = 0 := by rw [BitVec.ofInt_mul]; exact BitVec.mul_zero
  rw [hfix, readInt_eq_sub sa ha (by decide), readInt_eq_sub sb hb (by decide), mul_sub_ediv _ _ _ _ (by decide),
    BitVec.ofInt_add, hover, ofInt_sub, ← hneg, ← hneg, ← Int.natCast_add, BitVec.ofInt_natCast]
  exact (BitVec.add_zero _).symm

/-! Quotients and remainders. -/

/-- The quotient of R68 with the divisor 0 of R69, as `mulTable` has it. -/
def tableQuo (x y : Int) : Int := if y = 0 then -1 else x.tdiv y

/-- The remainder of R68 with the divisor 0 of R69, as `mulTable` has it. -/
def tableRem (x y : Int) : Int := if y = 0 then x else x - x.tdiv y * y

/-- A magnitude with a sign. -/
def negIf (neg : Bool) (m : Nat) : Int := if neg then -(m : Int) else m

@[simp] theorem negIf_false (m : Nat) : negIf false m = m := rfl
@[simp] theorem negIf_true (m : Nat) : negIf true m = -m := rfl

theorem negIf_eq_zero (neg : Bool) (m : Nat) : negIf neg m = 0 ↔ m = 0 := by
  cases neg <;> simp

theorem negIf_tdiv (p q : Bool) (n d : Nat) : (negIf p n).tdiv (negIf q d) = negIf (p != q) (n / d) := by
  cases p <;> cases q <;> simp

theorem negIf_sub_tdiv_mul (p q : Bool) (n d : Nat) :
    negIf p n - (negIf p n).tdiv (negIf q d) * negIf q d = negIf p (n % d) := by
  rw [Int.mul_comm, ← Int.tmod_def]
  cases p <;> cases q <;> simp [Int.tmod_neg, ← Int.ofNat_tmod]

theorem signedVal_eq (w : Nat) (neg : Bool) (m : Nat) :
    signedVal w neg m = (BitVec.ofInt w (negIf neg m)).signExtend 64 := by
  have (v : Int) : BitVec.ofNat w (v % (2 ^ w : Nat)).toNat = BitVec.ofInt w v := by
    rw [← BitVec.toNat_ofInt, BitVec.ofNat_toNat, BitVec.setWidth_eq]
  rw [BitVec.signExtend, ← this, ← sxInt_eq_toInt]
  rfl

theorem two_mul_natAbs_sxInt_le (v w : Nat) : 2 * (sxInt v w).natAbs ≤ 2 ^ w := by
  rw [sxInt_eq_toInt]
  have hlow := BitVec.le_two_mul_toInt (x := BitVec.ofNat w v)
  have hhigh := BitVec.two_mul_toInt_lt (x := BitVec.ofNat w v)
  have hcast : ((2 ^ w : Nat) : Int) = 2 ^ w := Int.natCast_pow 2 w
  omega

theorem divMag_lt (signed : Bool) {w : Nat} (hw : w ≤ 64) (v : Nat) : divMag signed w v < 2 ^ 64 := by
  have hle : (2 : Nat) ^ w ≤ 2 ^ 64 := Nat.pow_le_pow_right Nat.two_pos hw
  have hlt : v % 2 ^ w < 2 ^ w := Nat.mod_lt _ (Nat.two_pow_pos w)
  cases signed with
  | false => exact Nat.lt_of_lt_of_le hlt hle
  | true =>
    have := two_mul_natAbs_sxInt_le (v % 2 ^ w) w
    simp only [divMag, magOf, if_true]
    omega

theorem divMag_eq_zero (signed : Bool) (w v : Nat) : divMag signed w v = 0 ↔ v % 2 ^ w = 0 := by
  cases signed with
  | false => rfl
  | true =>
    simp only [divMag, magOf, if_true, Int.natAbs_eq_zero, sxInt_eq_toInt]
    rw [← BitVec.toInt_zero (w := w), BitVec.toInt_inj, ← BitVec.toNat_inj, BitVec.toNat_ofNat, Nat.mod_mod,
      BitVec.toNat_zero]

/-- The divider works on the sign and the magnitude of what the table reads. -/
theorem readInt_eq_negIf (signed : Bool) {w : Nat} (hw : 0 < w) (v : Nat) :
    readInt signed w (v % 2 ^ w) = negIf (remNeg signed w v) (divMag signed w v) := by
  have hlt : v % 2 ^ w < 2 ^ w := Nat.mod_lt _ (Nat.two_pow_pos w)
  have hbit : (v % 2 ^ w).testBit (w - 1) = v.testBit (w - 1) := by
    rw [Nat.testBit_mod_two_pow, decide_eq_true (by omega), Bool.true_and]
  cases signed with
  | false => rfl
  | true =>
    have hcast : ((2 ^ w : Nat) : Int) = 2 ^ w := Int.natCast_pow 2 w
    have hval := readInt_eq_sub true hlt hw
    simp only [readInt, if_true, hbit, Bool.true_and] at hval
    simp only [readInt, remNeg, divMag, magOf, if_true, Bool.true_and]
    cases hneg : v.testBit (w - 1)
    · have : 0 ≤ sxInt (v % 2 ^ w) w := by
        rw [hval, hneg, Bool.toInt_false, Int.zero_mul, Int.sub_zero]
        exact Int.natCast_nonneg _
      exact (Int.natAbs_of_nonneg this).symm
    · have : sxInt (v % 2 ^ w) w ≤ 0 := by
        rw [hval, hneg, Bool.toInt_true, Int.one_mul, ← hcast]
        exact Int.sub_nonpos_of_le (Int.ofNat_le.mpr (Nat.le_of_lt hlt))
      rw [negIf_true, Int.ofNat_natAbs_of_nonpos this, Int.neg_neg]

theorem divQuo_lt {n : Nat} (hn : n < 2 ^ 64) (d : Nat) : divQuo n d < 2 ^ 64 := by
  rw [divQuo]
  split
  · decide
  · exact Nat.lt_of_le_of_lt (Nat.div_le_self n d) hn

theorem divRem_lt {n : Nat} (hn : n < 2 ^ 64) (d : Nat) : divRem n d < 2 ^ 64 := by
  rw [divRem]
  split
  · exact hn
  · exact Nat.lt_of_le_of_lt (Nat.mod_le n d) hn

/-- The divider's quotient by 0 is all ones, which is -1 at every width. -/
theorem ofInt_allOnes {w : Nat} (hw : w ≤ 64) : BitVec.ofInt w (2 ^ 64 - 1 : Nat) = BitVec.ofInt w (-1) := by
  have : BitVec.ofInt w (-1) = BitVec.allOnes w := by
    rw [BitVec.ofInt_neg, ← BitVec.neg_one_eq_allOnes]; rfl
  rw [this, BitVec.ofInt_natCast]
  refine BitVec.eq_of_getLsbD_eq fun i hi => ?_
  rw [BitVec.getLsbD_allOnes, BitVec.getLsbD_ofNat, Nat.testBit_two_pow_sub_one, decide_eq_true hi,
    decide_eq_true (Nat.lt_of_lt_of_le hi hw), Bool.and_self]

theorem quoStep_value (signed : Bool) {w : Nat} (hw : 0 < w) (hw64 : w ≤ 64) (a b : Nat) :
    (quoStep signed w a b).value =
      (BitVec.ofInt w (tableQuo (readInt signed w (a % 2 ^ w)) (readInt signed w (b % 2 ^ w)))).signExtend 64 := by
  have hval : (quoStep signed w a b).value =
      signedVal w (quoNeg signed w a b) (divQuo (divMag signed w a) (divMag signed w b)) := by
    rw [MulStep.value_of_unfixed rfl]
    simp only [quoStep, BitVec.toNat_ofNat, Nat.mod_eq_of_lt (divQuo_lt (divMag_lt signed hw64 a) _)]
  rw [hval, signedVal_eq, readInt_eq_negIf signed hw, readInt_eq_negIf signed hw, tableQuo, negIf_tdiv, divQuo]
  by_cases hb : divMag signed w b = 0
  · have hneg : quoNeg signed w a b = false := by simp [quoNeg, (divMag_eq_zero signed w b).mp hb]
    rw [if_pos hb, if_pos ((negIf_eq_zero _ _).mpr hb), hneg, negIf_false, ofInt_allOnes hw64]
  · have hb' : b % 2 ^ w ≠ 0 := hb ∘ (divMag_eq_zero signed w b).mpr
    have hneg : quoNeg signed w a b = (remNeg signed w a != remNeg signed w b) := by
      cases signed <;> simp [quoNeg, remNeg, hb']
    rw [if_neg hb, if_neg (hb ∘ (negIf_eq_zero _ _).mp), hneg]

theorem remStep_value (signed : Bool) {w : Nat} (hw : 0 < w) (hw64 : w ≤ 64) (a b : Nat) :
    (remStep signed w a b).value =
      (BitVec.ofInt w (tableRem (readInt signed w (a % 2 ^ w)) (readInt signed w (b % 2 ^ w)))).signExtend 64 := by
  have hval : (remStep signed w a b).value =
      signedVal w (remNeg signed w a) (divRem (divMag signed w a) (divMag signed w b)) := by
    rw [MulStep.value_of_unfixed rfl]
    simp only [remStep, BitVec.toNat_ofNat, Nat.mod_eq_of_lt (divRem_lt (divMag_lt signed hw64 a) _)]
  rw [hval, signedVal_eq, readInt_eq_negIf signed hw, readInt_eq_negIf signed hw, tableRem, negIf_sub_tdiv_mul, divRem]
  simp only [negIf_eq_zero, apply_ite (negIf _)]

theorem quoStep_wide (signed : Bool) (a b : Word) : (quoStep signed 64 a.toNat b.toNat).value =
    BitVec.ofInt 64 (tableQuo (readInt signed 64 a.toNat) (readInt signed 64 b.toNat)) := by
  rw [quoStep_value signed (by decide) (Nat.le_refl 64), BitVec.toNat_mod_cancel, BitVec.toNat_mod_cancel,
    BitVec.signExtend_eq]

theorem remStep_wide (signed : Bool) (a b : Word) : (remStep signed 64 a.toNat b.toNat).value =
    BitVec.ofInt 64 (tableRem (readInt signed 64 a.toNat) (readInt signed 64 b.toNat)) := by
  rw [remStep_value signed (by decide) (Nat.le_refl 64), BitVec.toNat_mod_cancel, BitVec.toNat_mod_cancel,
    BitVec.signExtend_eq]

/-- The multiplier and divider compute the table of R68 with the corners of R69. -/
theorem mulVal_eq_table (f : MulFn) (a b : Word) :
    mulVal f a b = if mulNarrow f then (BitVec.ofInt 32 (mulTable f a.toNat b.toNat)).signExtend 64
                   else BitVec.ofInt 64 (mulTable f a.toNat b.toNat) := by
  rw [mulVal_eq_value]
  cases f
  case mul => exact mulLoStep_value _ _
  case mulh => exact mulHiStep_value true true id a.isLt b.isLt
  case mulhu => exact mulHiStep_value false false id a.isLt b.isLt
  case mulhsu => exact mulHiStep_value true false (fun _ => rfl) a.isLt b.isLt
  case div => exact quoStep_wide true a b
  case divu => exact quoStep_wide false a b
  case rem => exact remStep_wide true a b
  case remu => exact remStep_wide false a b
  case mulw => exact mulwStep_value _ _
  case divw => exact quoStep_value true (by decide) (by decide) _ _
  case divuw => exact quoStep_value false (by decide) (by decide) _ _
  case remw => exact remStep_value true (by decide) (by decide) _ _
  case remuw => exact remStep_value false (by decide) (by decide) _ _

/-! `bit` (R70): counts of zeros. The places that the model walks are those of a range. -/

theorem natsFrom_eq_range' (k n : Nat) : natsFrom k n = List.range' k n := by
  induction n generalizing k with
  | zero => rfl
  | succ n ih => rw [natsFrom, ih, List.range'_succ]

theorem natsFrom_zero_eq_range (n : Nat) : natsFrom 0 n = List.range n := by
  rw [natsFrom_eq_range', List.range_eq_range']

theorem clz_highest_bit {b : Word} (c : Word) (hb : b ≠ 0) :
    ∃ h, h < 64 ∧ b.getLsbD h = true ∧ (∀ j, h < j → b.getLsbD j = false) ∧
      bitVal .clz b c = BitVec.ofNat 64 (63 - h) := by
  have hne : b.toNat ≠ 0 := fun h => hb (BitVec.eq_of_toNat_eq h)
  refine ⟨b.toNat.log2, (Nat.log2_lt hne).mpr b.isLt, Nat.testBit_log2 hne, fun j hj => ?_, ?_⟩
  · exact Nat.testBit_lt_two_pow (Nat.lt_of_lt_of_le Nat.lt_log2_self (Nat.pow_le_pow_right Nat.two_pos hj))
  · rw [bitVal, clz64, if_neg hne]

theorem ctz_lowest_bit {b : Word} (c : Word) (hb : b ≠ 0) :
    ∃ l, l < 64 ∧ b.getLsbD l = true ∧ (∀ j, j < l → b.getLsbD j = false) ∧
      bitVal .ctz b c = BitVec.ofNat 64 l := by
  have hctz : bitVal .ctz b c = BitVec.ofNat 64 (((List.range 64).find? fun i => b.getLsbD i).getD 64) := by
    rw [← natsFrom_zero_eq_range]; rfl
  cases hfind : (List.range 64).find? fun i => b.getLsbD i with
  | none =>
    rw [List.find?_range_eq_none] at hfind
    exact absurd (BitVec.eq_of_getLsbD_eq fun i hi => by simpa using hfind i hi) hb
  | some l =>
    obtain ⟨hbit, hmem, hbelow⟩ := List.find?_range_eq_some.mp hfind
    refine ⟨l, List.mem_range.mp hmem, hbit, fun j hj => by simpa using hbelow j hj, ?_⟩
    rw [hctz, hfind, Option.getD_some]

/-! `bit`: reversals and extensions. The model adds powers of two at distinct places, so that nothing carries. -/

/-- A power of two added where the bit is clear sets that bit alone. -/
theorem testBit_add_two_pow {x k : Nat} (h : x.testBit k = false) (j : Nat) :
    (x + 2 ^ k).testBit j = (x.testBit j || k == j) := by
  induction k generalizing x j with
  | zero =>
    have heven : x % 2 = 0 := by simpa [Nat.testBit_zero] using h
    cases j with
    | zero => simp [Nat.testBit_zero, heven, Nat.add_mod]
    | succ j =>
      have hdiv : (x + 1) / 2 = x / 2 := by omega
      simp [Nat.testBit_add_one, hdiv]
  | succ k ih =>
    rw [Nat.testBit_add_one] at h
    cases j with
    | zero =>
      have hmod : (x + 2 ^ (k + 1)) % 2 = x % 2 := by omega
      simp [Nat.testBit_zero, hmod]
    | succ j =>
      have hdiv : (x + 2 ^ (k + 1)) / 2 = x / 2 + 2 ^ k := by omega
      rw [Nat.testBit_add_one, Nat.testBit_add_one, hdiv, ih h]
      simp

/-- The bits of a list put at distinct places: bit `j` of the sum is set when an element that is put there is. -/
theorem testBit_foldl_two_pow {α : Type} (bit : α → Bool) (place : α → Nat) (l : List α) (r j : Nat)
    (hd : (l.map place).Nodup) (hr : ∀ x ∈ l, r.testBit (place x) = false) :
    (l.foldl (fun r x => if bit x then r + 2 ^ place x else r) r).testBit j =
      (r.testBit j || l.any fun x => bit x && place x == j) := by
  induction l generalizing r with
  | nil => simp
  | cons x l ih =>
    rw [List.map_cons, List.nodup_cons] at hd
    obtain ⟨hx, hd⟩ := hd
    rw [List.foldl_cons, List.any_cons, ← Bool.or_assoc]
    have hrx := hr x List.mem_cons_self
    cases hbit : bit x with
    | false =>
      rw [if_neg Bool.false_ne_true, ih r hd fun y hy => hr y (List.mem_cons_of_mem x hy), Bool.false_and,
        Bool.or_false]
    | true =>
      rw [if_pos rfl, ih _ hd fun y hy => ?_, testBit_add_two_pow hrx, Bool.true_and]
      rw [testBit_add_two_pow hrx, hr y (List.mem_cons_of_mem x hy), Bool.false_or, beq_eq_false_iff_ne]
      exact fun h => hx (h ▸ List.mem_map_of_mem hy)

theorem testBit_foldl_two_pow_zero {α : Type} (bit : α → Bool) (place : α → Nat) {l : List α}
    (hd : (l.map place).Nodup) (j : Nat) :
    (l.foldl (fun r x => if bit x then r + 2 ^ place x else r) 0).testBit j = true ↔
      ∃ x ∈ l, bit x = true ∧ place x = j := by
  rw [testBit_foldl_two_pow bit place l 0 j hd fun x _ => Nat.zero_testBit _]
  simp

theorem brev_getLsbD (b c : Word) {i : Nat} (hi : i < 64) : (bitVal .brev b c).getLsbD (63 - i) = b.getLsbD i := by
  have hnodup : ((natsFrom 0 64).map fun k => 63 - k).Nodup := by
    rw [natsFrom_zero_eq_range]; decide
  have hbit := testBit_foldl_two_pow_zero (fun k => b.getLsbD k) (fun k => 63 - k) hnodup (63 - i)
  rw [bitVal, BitVec.getLsbD_ofNat, decide_eq_true (by omega), Bool.true_and, Bool.eq_iff_iff]
  refine hbit.trans ⟨?_, fun h => ⟨i, by simp [natsFrom_zero_eq_range, hi], h, rfl⟩⟩
  rintro ⟨k, hk, hkbit, hplace⟩
  rw [natsFrom_zero_eq_range, List.mem_range] at hk
  rwa [show i = k by omega]

/-- Eight bytes put at the places of `bswap`: each reads back at its own place. -/
theorem byte_foldl_swapped {d : Nat → Nat} (hd : ∀ k, d k < 2 ^ 8) {i : Nat} (hi : i < 8) :
    (natsFrom 0 8).foldl (fun r k => r + d k * 2 ^ (8 * (7 - k))) 0 / 2 ^ (8 * (7 - i)) % 2 ^ 8 = d i := by
  simp only [natsFrom, List.foldl_cons, List.foldl_nil, Nat.reduceMul, Nat.reduceSub, Nat.reduceAdd]
  have := hd 0; have := hd 1; have := hd 2; have := hd 3
  have := hd 4; have := hd 5; have := hd 6; have := hd 7
  obtain rfl | rfl | rfl | rfl | rfl | rfl | rfl | rfl :
      i = 0 ∨ i = 1 ∨ i = 2 ∨ i = 3 ∨ i = 4 ∨ i = 5 ∨ i = 6 ∨ i = 7 := by omega
  all_goals omega

theorem bswap64_byte (v : Nat) {i : Nat} (hi : i < 8) :
    bswap64 v / 2 ^ (8 * (7 - i)) % 2 ^ 8 = v / 2 ^ (8 * i) % 2 ^ 8 :=
  byte_foldl_swapped (d := fun k => v / 2 ^ (8 * k) % 2 ^ 8) (fun _ => Nat.mod_lt _ (by decide)) hi

theorem bswap_getLsbD (b c : Word) {i j : Nat} (hi : i < 8) (hj : j < 8) :
    (bitVal .bswap b c).getLsbD (8 * (7 - i) + j) = b.getLsbD (8 * i + j) := by
  have hbyte (v k : Nat) : v.testBit (k + j) = (v / 2 ^ k % 2 ^ 8).testBit j := by
    rw [Nat.testBit_mod_two_pow, decide_eq_true hj, Bool.true_and, Nat.testBit_div_two_pow, Nat.add_comm]
  rw [bitVal, BitVec.getLsbD_ofNat, decide_eq_true (by omega), Bool.true_and, hbyte, bswap64_byte _ hi, ← hbyte]
  rfl

theorem toInt_signExtend_setWidth (b : Word) {w : Nat} (hw : w ≤ 64) :
    ((b.setWidth w).signExtend 64).toInt = sxInt (b.toNat % 2 ^ w) w := by
  rw [BitVec.toInt_signExtend_of_le hw, ← sxInt_toNat, BitVec.toNat_setWidth]

theorem toNat_setWidth_setWidth (b : Word) {w : Nat} (hw : w ≤ 64) :
    ((b.setWidth w).setWidth 64).toNat = b.toNat % 2 ^ w := by
  rw [BitVec.toNat_setWidth_of_le hw, BitVec.toNat_setWidth]

/-! `bit`: extract and deposit. Both rest on where a set bit of the mask stands in the list of its set bits. -/

theorem setBits_eq_filter (m : Word) : setBits m.toNat = (List.range 64).filter fun i => m.getLsbD i := by
  rw [setBits, natsFrom_zero_eq_range]
  rfl

theorem nodup_setBits (m : Word) : (setBits m.toNat).Nodup := by
  rw [setBits_eq_filter]
  exact List.nodup_range.filter _

theorem rankBelow_eq_length (m : Word) (i : Nat) :
    rankBelow m i = ((List.range i).filter fun j => m.getLsbD j).length := by
  rw [rankBelow, natsFrom_zero_eq_range]

theorem length_setBits (m : Word) : (setBits m.toNat).length = rankBelow m 64 := by
  rw [setBits_eq_filter, rankBelow_eq_length]

theorem setBits_getElem?_rankBelow {m : Word} {i : Nat} (hi : i < 64) (hbit : m.getLsbD i = true) :
    (setBits m.toNat)[rankBelow m i]? = some i := by
  have hrange : List.range 64 = List.range i ++ i :: List.range' (i + 1) (63 - i) := by
    have happend := List.range'_append_1 (s := 0) (m := i) (n := 63 - i + 1)
    rw [Nat.zero_add, show i + (63 - i + 1) = 64 by omega] at happend
    rw [List.range_eq_range', List.range_eq_range', ← List.range'_succ, happend]
  rw [setBits_eq_filter, rankBelow_eq_length, hrange, List.filter_append, List.filter_cons_of_pos hbit,
    List.getElem?_append_right (Nat.le_refl _), Nat.sub_self, List.getElem?_cons_zero]

/-- A set bit stands in the list of a mask's set bits at its rank. -/
theorem mem_zipIdx_setBits {m : Word} {i r : Nat} :
    (i, r) ∈ (setBits m.toNat).zipIdx ↔ i < 64 ∧ m.getLsbD i = true ∧ r = rankBelow m i := by
  rw [List.mem_zipIdx_iff_getElem?]
  constructor
  · intro h
    have hmem := List.mem_of_getElem? h
    rw [setBits_eq_filter, List.mem_filter, List.mem_range] at hmem
    obtain ⟨hi, hbit⟩ := hmem
    refine ⟨hi, hbit, (List.getElem?_inj (List.getElem?_eq_some_iff.mp h).1 (nodup_setBits m)).mp ?_⟩
    rw [h, setBits_getElem?_rankBelow hi hbit]
  · rintro ⟨hi, hbit, rfl⟩
    exact setBits_getElem?_rankBelow hi hbit

theorem bext64_testBit (v : Nat) (m : Word) (j : Nat) : (bext64 v m.toNat).testBit j = true ↔
    ∃ i, i < 64 ∧ m.getLsbD i = true ∧ rankBelow m i = j ∧ v.testBit i = true := by
  have hnodup : ((setBits m.toNat).zipIdx.map Prod.snd).Nodup := by
    rw [List.zipIdx_map_snd]; exact List.nodup_range'
  refine (testBit_foldl_two_pow_zero _ _ hnodup j).trans ⟨?_, ?_⟩
  · rintro ⟨⟨i, r⟩, hmem, hbit, rfl⟩
    obtain ⟨hi, hset, rfl⟩ := mem_zipIdx_setBits.mp hmem
    exact ⟨i, hi, hset, rfl, hbit⟩
  · rintro ⟨i, hi, hset, rfl, hbit⟩
    exact ⟨(i, _), mem_zipIdx_setBits.mpr ⟨hi, hset, rfl⟩, hbit, rfl⟩

theorem bdep64_testBit (v : Nat) (m : Word) (j : Nat) : (bdep64 v m.toNat).testBit j = true ↔
    j < 64 ∧ m.getLsbD j = true ∧ v.testBit (rankBelow m j) = true := by
  have hnodup : ((setBits m.toNat).zipIdx.map Prod.fst).Nodup := by
    rw [List.zipIdx_map_fst]; exact nodup_setBits m
  refine (testBit_foldl_two_pow_zero _ _ hnodup j).trans ⟨?_, ?_⟩
  · rintro ⟨⟨i, r⟩, hmem, hbit, rfl⟩
    obtain ⟨hi, hset, rfl⟩ := mem_zipIdx_setBits.mp hmem
    exact ⟨hi, hset, hbit⟩
  · rintro ⟨hi, hset, hbit⟩
    exact ⟨(j, _), mem_zipIdx_setBits.mpr ⟨hi, hset, rfl⟩, hbit, rfl⟩

theorem rankBelow_lt {m : Word} {i : Nat} (hi : i < 64) (hset : m.getLsbD i = true) :
    rankBelow m i < rankBelow m 64 := by
  rw [← length_setBits]
  exact (List.getElem?_eq_some_iff.mp (setBits_getElem?_rankBelow hi hset)).1

theorem rankBelow_inj {m : Word} {i k : Nat} (hi : i < 64) (hk : k < 64) (hiset : m.getLsbD i = true)
    (hkset : m.getLsbD k = true) (h : rankBelow m i = rankBelow m k) : i = k :=
  Option.some.inj (by rw [← setBits_getElem?_rankBelow hi hiset, h, setBits_getElem?_rankBelow hk hkset])

theorem rankBelow_le (m : Word) (i : Nat) : rankBelow m i ≤ i := by
  rw [rankBelow_eq_length]
  exact Nat.le_trans (List.length_filter_le _ _) (Nat.le_of_eq List.length_range)

theorem bext_getLsbD_rankBelow (b : Word) {c : Word} {i : Nat} (hi : i < 64) (hset : c.getLsbD i = true) :
    (bitVal .bext b c).getLsbD (rankBelow c i) = b.getLsbD i := by
  have hlt : rankBelow c i < 64 := Nat.lt_of_le_of_lt (rankBelow_le c i) hi
  rw [bitVal, BitVec.getLsbD_ofNat, decide_eq_true hlt, Bool.true_and, Bool.eq_iff_iff, bext64_testBit]
  constructor
  · rintro ⟨k, hk, hkset, hrank, hbit⟩
    rwa [rankBelow_inj hi hk hset hkset hrank.symm]
  · exact fun hbit => ⟨i, hi, hset, rfl, hbit⟩

theorem bext_getLsbD_above (b : Word) {c : Word} {j : Nat} (hj : rankBelow c 64 ≤ j) :
    (bitVal .bext b c).getLsbD j = false := by
  rw [bitVal, BitVec.getLsbD_ofNat, Bool.and_eq_false_imp]
  refine fun _ => eq_false_of_ne_true fun h => ?_
  obtain ⟨i, hi, hset, rfl, -⟩ := (bext64_testBit _ _ _).mp h
  exact absurd (rankBelow_lt hi hset) (Nat.not_lt.mpr hj)

theorem bdep_getLsbD (b c : Word) {i : Nat} (hi : i < 64) :
    (bitVal .bdep b c).getLsbD i = (c.getLsbD i && b.getLsbD (rankBelow c i)) := by
  rw [bitVal, BitVec.getLsbD_ofNat, decide_eq_true hi, Bool.true_and, Bool.eq_iff_iff, bdep64_testBit, Bool.and_eq_true]
  exact and_iff_right hi

/-- Settles O2, function by function: the ALU on every width, the multiplier and divider by sign and magnitude, the bit
unit by the places of its bits. -/
theorem integerValues : Obligations.IntegerValues := by
  refine ⟨fun f a b => ⟨aluVal_eq_table f a b, aluwVal_eq_table f a b⟩, mulVal_eq_table, fun b c => ?_⟩
  exact ⟨fun hb => by rw [hb]; exact ⟨rfl, rfl⟩, clz_highest_bit c, ctz_lowest_bit c, rfl,
    fun _ => brev_getLsbD b c, fun _ _ => bswap_getLsbD b c,
    toInt_signExtend_setWidth b (by decide), toInt_signExtend_setWidth b (by decide),
    toInt_signExtend_setWidth b (by decide), toNat_setWidth_setWidth b (by decide),
    toNat_setWidth_setWidth b (by decide), toNat_setWidth_setWidth b (by decide),
    fun _ => bext_getLsbD_rankBelow b, fun _ => bext_getLsbD_above b, fun _ => bdep_getLsbD b c⟩

end Sys2Proof.Machine
end

section
/-! PROOF. Control flow: transfers (R75 to R83), the ordering instructions (R127, R212 to R215), the checker's failure
at `sig` (R88, R89), and the state after reset. -/

namespace Sys2Proof.Machine

/-! Transfers. -/

/-- Settles O3: a transfer's own rules answer as `xfer_body` says, and the frame does the rest. -/
theorem transferResult : Obligations.TransferResult := by
  constructor
  · intro s i sw taken tgt f hf hi hl halign
    obtain ⟨body, s1, hexec, hallowed, hbody, hme, honly, hlate⟩ := xfer_body hf hi
    have hl1 : sw = true → s1.me.late = none := by rw [hme, hlate]; exact hl
    refine ⟨_, hexec, ?_⟩
    cases taken with
    | false => exact (runChecked_done hi rfl hallowed.symm hbody hl1).ofSlot hme honly
    | true =>
      have hjump : body (issueMark s) = .jump s1 tgt := by
        rw [hbody, if_pos rfl, transferTo, halign rfl, if_neg Bool.false_ne_true]
      exact (runChecked_jump hi rfl hallowed.symm hjump hl1).ofSlot hme honly
  · intro s i sw tgt f fs hf hi hodd htrap
    obtain ⟨body, s1, hexec, hallowed, hbody, -⟩ := xfer_body hf hi
    have halign : body (issueMark s) = .trap (faultOf (issueMark s) i 2 0 tgt) := by
      rw [hbody, if_pos rfl, transferTo, if_pos hodd, Res.align]
    exact ⟨_, hexec, runChecked_trap hi rfl hallowed.symm halign htrap⟩

/-! Ordering: each body completes with nothing changed once nothing is left that it waits for, and stalls till then. -/

theorem fenceBody_eq (scp : BitVec 3) (earlier : BitVec 2) (s : State) : ∃ w, fenceBody scp earlier s =
    if scp == 0 || !((earlier.getLsbD 0 && loadsLeft s) || (earlier.getLsbD 1 && storesLeft s) || vecMemPending s.me)
    then .done s else .stall s w := by
  unfold fenceBody
  cases (earlier.getLsbD 0 && loadsLeft s) || (earlier.getLsbD 1 && storesLeft s) with
  | true => exact ⟨.popEmpty, by simp⟩
  | false => exact ⟨.vectorBusy, by cases vecMemPending s.me <;> simp⟩

/-- Some job of the slot's domain has a property unless every job is another domain's or lacks it. -/
theorem any_domainJobs (s : State) (p : Job → Bool) :
    (domainJobs s).any p = !s.jobs.all fun j => j.iss.domain != s.me.domain || !p j := by
  rw [domainJobs, List.any_filter, List.not_all_eq_any_not]
  congr 1
  funext j
  rw [Bool.not_or, Bool.not_not, bne, Bool.not_not]

theorem isEmpty_domainJobs (s : State) :
    (domainJobs s).isEmpty = s.jobs.all fun j => j.iss.domain != s.me.domain := by
  rw [domainJobs, Bool.eq_iff_iff]
  simp

/-- What an ordering instruction's own rules answer. -/
theorem order_body {s : State} {i : Instr} {sw ready : Bool} (hf : orderForm (issueMark s) i = some (sw, ready)) :
    ∃ body w, exec i s = next (runInstr i sw (depsOf s.me i) body s) ∧ illegalHere (issueMark s) i = false ∧
      body (issueMark s) = if ready then .done (issueMark s) else .stall (issueMark s) w := by
  cases i <;> simp only [orderForm, reduceCtorEq, Option.some.injEq, Prod.mk.injEq, Option.ite_none_right_eq_some] at hf
  case fence _ scp _ earlier =>
    obtain ⟨rfl, rfl⟩ := hf
    obtain ⟨w, hw⟩ := fenceBody_eq scp earlier (issueMark s)
    exact ⟨_, w, rfl, rfl, hw⟩
  case tfence =>
    obtain ⟨rfl, rfl⟩ := hf
    refine ⟨_, .vectorBusy, rfl, rfl, ?_⟩
    cases (issueMark s).me.team <;> cases vecMemPending (issueMark s).me <;> rfl
  case fwaitW | fwaitRw =>
    obtain ⟨rfl, rfl⟩ := hf
    refine ⟨_, .fwait, rfl, rfl, ?_⟩
    rw [any_domainJobs]
    cases List.all _ _ <;> rfl
  case fwaitAll =>
    obtain ⟨rfl, rfl⟩ := hf
    refine ⟨_, .fwait, rfl, rfl, ?_⟩
    rw [← isEmpty_domainJobs]
  case irrev =>
    obtain ⟨rfl, rfl⟩ := hf
    exact ⟨_, .commitToken, rfl, rfl, rfl⟩
  case sig =>
    obtain ⟨rfl, rfl⟩ := hf
    exact ⟨_, .none, rfl, rfl, rfl⟩
  case once =>
    obtain ⟨⟨hteam, hgood⟩, rfl, rfl⟩ := hf
    refine ⟨_, .none, rfl, rfl, ?_⟩
    simp only [hteam, hgood, Bool.false_eq_true, if_false, if_true]

/-- Settles O16: the instruction completes with the slot as issue left it, or the slot stalls. -/
theorem orderingResult : Obligations.OrderingResult := by
  intro s i sw ready hf hi hl
  obtain ⟨body, w, hexec, hallowed, hbody⟩ := order_body hf
  refine ⟨_, hexec, ?_⟩
  cases ready with
  | true =>
    have hdone : body (issueMark s) = .done ((issueMark s).setMe (id (s.me.started s.now))) := by
      rw [hbody, if_pos rfl, id, issueMark_setMe]
    obtain ⟨hme, honly⟩ := runInstr_slot hi rfl hallowed hdone hl rfl
    exact ⟨honly, fun _ => hme, nofun⟩
  | false =>
    have hstall : runInstr i sw (depsOf s.me i) body s = (issueMark s).setMe ((issueMark s).me.waiting w) :=
      runChecked_stall hi rfl hallowed.symm hbody
    rw [hstall, me_setMe, me_issueMark]
    exact ⟨(onlySlot_issueMark s).trans (onlySlot_setMe _ _), nofun, fun _ => ⟨w, rfl⟩⟩

/-! The checker's failure at `sig`. -/

theorem chkComplete_sig_fail {c : ChkMode} {sw : Bool} {crc : BitVec 16} (hen : c.en = true) (hopen : c.isOpen = true)
    (hne : c.run ≠ c.expect) : chkComplete c (.sig sw crc) = .fail 1 c.run c.expect := by
  simp [chkComplete, hen, hopen, hne]

/-- An instruction that would complete at a failing check ends its activation instead (R88, R89). -/
theorem settleIssue_done_fail {i : Instr} {sw : Bool} {s s1 : State} {func : Nat} {run expect : BitVec 16}
    (h : chkComplete s.me.chk i = .fail func run expect) :
    settleIssue i sw s (.done s1) =
      countIssueOf s (errorAbort s s.cur (signatureRecord s s.cur i func run expect)) := by
  simp only [settleIssue, settle, completeWith, h, countIssueOf]

/-- `sig` names no register and is legal everywhere: it comes to its completion. -/
theorem exec_sig {s : State} {sw : Bool} {crc : BitVec 16} (h : onceInst? s = none) :
    exec (.sig sw crc) s = .next (settleIssue (.sig sw crc) sw (issueMark s) (.done (issueMark s))) := by
  have honce : onceInst? (issueMark s) = none := by rw [onceInst_issueMark, h]
  show next (runChecked _ _ _ _ _ _) = _
  simp only [runChecked, honce]
  rfl

@[simp] theorem hdOpc_mkHead (sw : Bool) (tl : BitVec 2) (opc : BitVec 7) (a : Reg) :
    hdOpc (mkHead sw tl opc a) = opc.toNat := by
  rw [hdOpc, mkHead, BitVec.extractLsb'_append_eq_of_le (by decide), BitVec.extractLsb'_append_eq_right]

theorem majorOf_sig (sw : Bool) (crc : BitVec 16) : majorOf (.sig sw crc) = 0x08 := by
  simp [majorOf, encode]

/-- Issue leaves what a SIGNATURE record of the slot names. -/
theorem signatureRecord_issueMark (s : State) (i : Instr) (func : Nat) (run expect : BitVec 16) :
    signatureRecord (issueMark s) s.cur i func run expect = signatureRecord s s.cur i func run expect := by
  have hslot : (issueMark s).slot s.cur = s.me.started s.now := me_issueMark s
  simp only [signatureRecord, checkAgent, hslot]
  rfl

/-- Settles O17: the check fails as `sig` completes, and the record takes the place of its effect. -/
theorem signatureFails : Obligations.SignatureFails := by
  intro s sw crc honce hen hopen hne
  have hfail : chkComplete (issueMark s).me.chk (.sig sw crc) = .fail 1 s.me.chk.run s.me.chk.expect := by
    rw [me_issueMark]
    exact chkComplete_sig_fail hen hopen hne
  have hcount : ∀ t, countIssueOf (issueMark s) t = countIssueOf s t := fun t => by
    rw [countIssueOf, me_issueMark]; rfl
  rw [exec_sig honce, settleIssue_done_fail hfail, hcount, cur_issueMark, signatureRecord_issueMark, signatureRecord,
    majorOf_sig]
  rfl

/-! Reset. -/

/-- Settles O46: the tables of the reset state list nothing, so that every read answers the default. -/
theorem resetState : Obligations.ResetState :=
  ⟨fun _ => rfl, rfl, rfl, rfl, rfl, rfl, rfl, rfl, rfl, rfl, fun _ => ⟨rfl, rfl, rfl⟩, fun _ => rfl, rfl, rfl⟩

end Sys2Proof.Machine
end

section
/-! PROOF. Composition: the instructions that hand a composition back before they act, `compose` and `release`
(R145 to R148, R382). -/

namespace Sys2Proof.Machine

/-! Handing back. -/

/-- What beginning a hand-back changes. -/
theorem beginRelease_spec (s : State) (c : ParkCont) :
    (beginRelease s s.cur c).me = s.me.handingBack c ∧ OnlySlot s (beginRelease s s.cur c) :=
  ⟨setSlot_cur_me s _, onlySlot_setSlot_cur s _⟩

/-- At the end of its park, with no late fault there, an instruction that hands back does so before it acts. -/
theorem afterPark_handsBack {i : Instr} {fin : State → State} {s : State} {c : ChkMode} (hback : handsBack i = true)
    (hlate : s.me.late = none) (hlead : s.me.curLog2 ≠ 0) (hsigned : chkComplete s.me.chk i = .ok c) :
    afterPark i fin s = beginRelease s s.cur (.after i) := by
  have hgo : (handsBack i && s.me.curLog2 != 0) = true := by rw [hback, Bool.true_and, bne_iff_ne]; exact hlead
  simp only [afterPark, hlate, ite_self, hgo, if_true, guardEffects_signed hsigned]

theorem handsBack_of_isTerm {i : Instr} (h : isTerm i = true) : handsBack i = true := by
  cases i with
  | yield | endAct | wait => rfl
  | _ => cases h

/-- Settles O11: the park ends at once, and the instruction is one that hands back. -/
theorem handsBackFirst : Obligations.HandsBackFirst := by
  intro s i hform hpark hi hquiet hlate hlead
  have hback : handsBack i = true := by
    obtain hterm | ⟨sw, rfl⟩ := hform
    · exact handsBack_of_isTerm hterm
    · rfl
  obtain ⟨pre, check, hexec, hpre, hcheck⟩ := park_shape hpark
  obtain ⟨c, hsigned⟩ := hi.signed
  have hme : (countIssue (issueMark s)).me = s.me.started s.now := by rw [me_countIssue, me_issueMark]
  have hafter := afterPark_handsBack (fin := finOf i) (s := countIssue (issueMark s)) (c := c) hback
    (by rw [hme]; exact hlate) (by rw [hme]; exact hlead) (by rw [hme]; exact hsigned)
  obtain ⟨hslot, honly⟩ := beginRelease_spec (countIssue (issueMark s)) (.after i)
  rw [hexec, runParking_eq hi hpre hcheck, if_pos hquiet, hafter]
  exact ⟨_, rfl, ((onlySlot_issueMark s).trans (onlySlot_countIssue _)).trans honly, by rw [hslot, hme]⟩

/-! `compose`, and `release` outside a composition. -/

/-- What an instruction that only goes on at the end of its park changes. -/
theorem advance_parkOver (s : State) (i : Instr) :
    let t := advance ((parkEnded s).setMe ((s.me.started s.now).parkOver i)) (parkEnded s).me.npc false
    t.me = ((s.me.started s.now).parkOver i).goTo s.me.npc ∧ OnlySlot s t := by
  obtain ⟨hme, honly⟩ := advance_spec ((parkEnded s).setMe ((s.me.started s.now).parkOver i)) (parkEnded s).me.npc false
    nofun
  refine ⟨?_, (onlySlot_parkOver s i).trans honly⟩
  rw [hme, me_setMe, me_parkEnded]
  rfl

/-- When `compose` leaves things as they are (R145, R382). -/
theorem composeVoid_eq_false_iff (sl : Slot) :
    sl.composeVoid = false ↔ sl.curLog2 = 0 ∧ sl.team = none ∧ sl.depth = 0 := by
  simp [Slot.composeVoid, and_assoc]

/-- Neither the issue nor the end of a park touches what `compose` asks about. -/
theorem composeVoid_parkEnded (s : State) : (parkEnded s).me.composeVoid = s.me.composeVoid := by
  rw [me_parkEnded]; rfl

/-- `compose` at the end of its park: the claim of R147 where it is not void, else the next instruction. -/
theorem finCompose_spec {s : State} {i : Instr} (hi : Issues i s) :
    OnlySlot s (finCompose i (parkEnded s)) ∧
      (finCompose i (parkEnded s)).me =
        if s.me.curLog2 = 0 ∧ s.me.team = none ∧ s.me.depth = 0
        then ((s.me.started s.now).unparked).claiming i
        else ((s.me.started s.now).parkOver i).goTo s.me.npc := by
  simp only [← composeVoid_eq_false_iff, finCompose, composeVoid_parkEnded]
  cases s.me.composeVoid with
  | true =>
    obtain ⟨hme, honly⟩ := advance_parkOver s i
    simp only [if_true, Bool.true_eq_false, if_false, completeWith_parkEnded hi]
    exact ⟨honly, hme⟩
  | false =>
    simp only [Bool.false_eq_true, if_false, if_true, me_setMe, me_parkEnded]
    exact ⟨(onlySlot_parkEnded s).trans (onlySlot_setMe _ _), rfl⟩

/-- `release` at the end of its park: it only goes on, and the trace shows it. -/
theorem finRelease_spec {s : State} {i : Instr} (hi : Issues i s) :
    OnlySlot s (finRelease i (parkEnded s)) ∧
      (finRelease i (parkEnded s)).me = ((s.me.started s.now).parkOver i).goTo s.me.npc := by
  obtain ⟨hme, honly⟩ := advance_parkOver s i
  rw [finRelease, completeWith_parkEnded hi, me_traceEv]
  exact ⟨honly.trans (onlySlot_traceEv _ _ _ _), hme⟩

/-- Settles O14: the park ends at once with the effect of `finCompose` or `finRelease`. -/
theorem composeBegins : Obligations.ComposeBegins := by
  intro s sw hquiet hlate
  constructor
  · intro lg hi
    exact ⟨_, park_now rfl hi hquiet (fun _ => hlate) nofun, finCompose_spec hi⟩
  · intro hi hsingle
    exact ⟨_, park_now rfl hi hquiet (fun _ => hlate) (fun _ => hsingle), finRelease_spec hi⟩

end Sys2Proof.Machine
end

section
/-! PROOF. What the engines' shared operations do: writes, touches of home slices, corrected errors, the table of jobs
and the report of a command (R152, R161, R162, R206, R255, R259). -/

namespace Sys2Proof.Machine

/-! The parts that engines write. -/

/-- From `s` to `t` only bytes, their copies and the registers that record lost lines change. -/
def OnlyMemory (s t : State) : Prop :=
  ∃ mem dev cores clusters, t = { s with mem := mem, dev := dev, cores := cores, clusters := clusters }

theorem OnlyMemory.refl (s : State) : OnlyMemory s s := ⟨_, _, _, _, rfl⟩

theorem OnlyMemory.trans {s t u : State} (h : OnlyMemory s t) (k : OnlyMemory t u) : OnlyMemory s u := by
  obtain ⟨_, _, _, _, rfl⟩ := h
  obtain ⟨_, _, _, _, rfl⟩ := k
  exact ⟨_, _, _, _, rfl⟩

theorem OnlyMemory.jobs {s t : State} (h : OnlyMemory s t) : t.jobs = s.jobs := by obtain ⟨_, _, _, _, rfl⟩ := h; rfl
theorem OnlyMemory.slots {s t : State} (h : OnlyMemory s t) : t.slots = s.slots := by obtain ⟨_, _, _, _, rfl⟩ := h; rfl

theorem onlyMemory_foldl {β : Type} {f : State → β → State} (hf : ∀ u b, OnlyMemory u (f u b)) (bs : List β)
    (s : State) : OnlyMemory s (bs.foldl f s) :=
  bs.foldlRecOn f (.refl s) fun u h b _ => h.trans (hf u b)

theorem onlyMemory_dropCopies (s : State) (pa n : Nat) : OnlyMemory s (dropCopies s pa n) :=
  onlyMemory_foldl (fun _ _ => ⟨_, _, _, _, rfl⟩) _ s

theorem onlyMemory_storeBytes (s : State) (pa : Nat) (bs : List Byte) : OnlyMemory s (s.storeBytes pa bs) := by
  induction bs generalizing s pa with
  | nil => exact .refl s
  | cons b r ih => exact .trans ⟨_, _, _, _, rfl⟩ (ih (s.storeAt pa 1 b.toNat) (pa + 1))

theorem onlyMemory_healLost (s : State) (ps : List (Nat × Nat)) : OnlyMemory s (healLost s ps) := by
  refine onlyMemory_foldl (fun u p => ?_) ps s
  split
  · refine onlyMemory_foldl (fun v i => ?_) _ u
    dsimp only
    split
    · exact ⟨_, _, _, _, rfl⟩
    · exact .refl v
  · exact .refl u

theorem onlyMemory_engStore (s : State) (pa : Nat) (bs : List Byte) : OnlyMemory s (engStore s pa bs) := by
  unfold engStore
  split
  · exact .refl s
  · exact ((onlyMemory_dropCopies _ _ _).trans (onlyMemory_storeBytes _ _ _)).trans (onlyMemory_healLost _ _)

theorem onlyMemory_writeBlocks (s : State) (ws : List (Nat × List Byte)) : OnlyMemory s (writeBlocks s ws) :=
  onlyMemory_foldl (fun u (w : Nat × List Byte) => onlyMemory_engStore u w.1 w.2) ws s

/-! The bytes that an engine writes. -/

theorem mem_storeBytes_congr {s t : State} (h : s.mem = t.mem) (pa : Nat) (bs : List Byte) :
    (s.storeBytes pa bs).mem = (t.storeBytes pa bs).mem := by
  induction bs generalizing s t pa with
  | nil => exact h
  | cons b r ih => exact ih (by rw [State.storeAt, State.storeAt, h]) _

theorem mem_engStore (s : State) (pa : Nat) (bs : List Byte) : (engStore s pa bs).mem = (s.storeBytes pa bs).mem := by
  unfold engStore
  cases bs with
  | nil => rfl
  | cons b r =>
    rw [if_neg (by simp), mem_healLost]
    exact mem_storeBytes_congr (mem_dropCopies _ _ _) _ _

/-- What blocks leave in memory depends on memory alone. -/
theorem mem_writeBlocks_congr {s t : State} (h : s.mem = t.mem) (ws : List (Nat × List Byte)) :
    (writeBlocks s ws).mem = (writeBlocks t ws).mem := by
  induction ws generalizing s t with
  | nil => exact h
  | cons w r ih => exact ih (by rw [mem_engStore, mem_engStore, mem_storeBytes_congr h])

theorem writeBlocks_cons (s : State) (w : Nat × List Byte) (ws : List (Nat × List Byte)) :
    writeBlocks s (w :: ws) = writeBlocks (engStore s w.1 w.2) ws := rfl

/-- Blocks cut from a list of bytes leave those bytes and no other, where their number suffices. -/
theorem byte_writeBlocks_cutBlocks (k : Nat) (s : State) (pa : Nat) (bs : List Byte) (y : Nat)
    (h : bs.length + pa % 64 ≤ 64 * k) :
    (writeBlocks s (cutBlocks k pa bs)).byte y =
      if pa ≤ y ∧ y < pa + bs.length then bs.getD (y - pa) 0 else s.byte y := by
  induction k generalizing s pa bs with
  | zero => rw [if_neg (by omega)]; rfl
  | succ k ih =>
    cases hbs : bs.isEmpty with
    | true =>
      rw [List.isEmpty_iff.mp hbs, if_neg (by simp only [List.length_nil]; omega)]
      rfl
    | false =>
      have hcut : cutBlocks (k + 1) pa bs =
          (pa, bs.take (64 - pa % 64)) :: cutBlocks k (pa + (64 - pa % 64)) (bs.drop (64 - pa % 64)) := by
        rw [cutBlocks, hbs]; rfl
      have hrest : (bs.drop (64 - pa % 64)).length = bs.length - (64 - pa % 64) := List.length_drop
      have hhead : (bs.take (64 - pa % 64)).length = min (64 - pa % 64) bs.length := List.length_take
      rw [hcut, writeBlocks_cons, ih _ _ _ (by omega), byte_engStore, hrest, hhead]
      simp only [List.getD_eq_getElem?_getD]
      by_cases hin : pa ≤ y ∧ y < pa + bs.length
      · rw [if_pos hin]
        by_cases hlate : pa + (64 - pa % 64) ≤ y
        · rw [if_pos ⟨hlate, by omega⟩, List.getElem?_drop,
            show 64 - pa % 64 + (y - (pa + (64 - pa % 64))) = y - pa from by omega]
        · rw [if_neg (fun hc => hlate hc.1), if_pos ⟨hin.1, by omega⟩, List.getElem?_take_of_lt (by omega)]
      · rw [if_neg hin, if_neg (by omega), if_neg (by omega)]

/-- One piece takes the bytes of a list as long as it is, and nothing else changes (R206). -/
theorem byte_writePieces_single (s : State) (p : Piece) (bs : List Byte) (y : Nat) (h : p.n = bs.length) :
    (writePieces s [p] bs).byte y = if p.pa ≤ y ∧ y < p.pa + p.n then bs.getD (y - p.pa) 0 else s.byte y := by
  have hcut : pieceWrites [p] bs = cutBlocks (p.n / 64 + 2) p.pa bs := by
    rw [pieceWrites, pieceWrites, List.append_nil, h, List.take_length]
  rw [writePieces, hcut, byte_writeBlocks_cutBlocks _ _ _ _ _ (by omega), h]

/-! Touches of home slices. -/

/-- From `s` to `t` only clusters and the free values change. -/
def OnlyClusters (s t : State) : Prop := ∃ clusters free, t = { s with clusters := clusters, free := free }

theorem OnlyClusters.refl (s : State) : OnlyClusters s s := ⟨_, _, rfl⟩

theorem OnlyClusters.trans {s t u : State} (h : OnlyClusters s t) (k : OnlyClusters t u) : OnlyClusters s u := by
  obtain ⟨_, _, rfl⟩ := h
  obtain ⟨_, _, rfl⟩ := k
  exact ⟨_, _, rfl⟩

theorem onlyClusters_foldl {β : Type} {f : State → β → State} (hf : ∀ u b, OnlyClusters u (f u b)) (bs : List β)
    (s : State) : OnlyClusters s (bs.foldl f s) :=
  bs.foldlRecOn f (.refl s) fun u h b _ => h.trans (hf u b)

theorem onlyClusters_setCluster (s : State) (c : Nat) (x : ClusterSt) : OnlyClusters s (s.setCluster c x) := ⟨_, _, rfl⟩

theorem onlyClusters_countCluster (s : State) (cl ev k : Nat) : OnlyClusters s (countCluster s cl ev k) := by
  unfold countCluster
  dsimp only
  split
  · exact .refl s
  · exact onlyClusters_setCluster _ _ _

theorem onlyClusters_countCm (s : State) (cl : Nat) (hit : Bool) : OnlyClusters s (countCm s cl hit) :=
  onlyClusters_countCluster _ _ _ _

theorem onlyClusters_encoded (s : State) (a : LineAttr) : OnlyClusters s (encoded s a) := by
  unfold encoded
  split
  · exact ⟨_, _, rfl⟩
  · exact .refl s

theorem onlyClusters_touchRet (s : State) (cl : Nat) (c : CLine) : OnlyClusters s (touchRet s cl c) := by
  unfold touchRet
  dsimp only
  split
  · exact (onlyClusters_setCluster _ _ _).trans (onlyClusters_countCluster _ _ _ _)
  · exact onlyClusters_setCluster _ _ _

theorem onlyClusters_touchHome (s : State) (pa : Nat) (a : LineAttr) (dirty : Bool) :
    OnlyClusters s (touchHome s pa a dirty) := by
  unfold touchHome touchHomeHit
  dsimp only
  split
  · exact ((onlyClusters_countCm _ _ _).trans (onlyClusters_countCluster _ _ _ _)).trans (onlyClusters_touchRet _ _ _)
  · have hcount := fun cl hit => (onlyClusters_encoded s a).trans (onlyClusters_countCm _ cl hit)
    split
    · exact (hcount _ _).trans (onlyClusters_touchRet _ _ _)
    · exact (hcount _ _).trans (onlyClusters_setCluster _ _ _)

/-! Corrected single-bit errors. -/

/-- From `s` to `t` single-bit errors have been corrected and counted: nothing but their list and CORRCOUNT changes, so
that the same reads end in an abort completion (R161). -/
structure OnlyCorrected (s t : State) : Prop where
  rest : ∃ soft dev, t = { s with soft := soft, dev := dev }
  lines : ∀ pa, lineAborts t pa = lineAborts s pa

theorem OnlyCorrected.refl (s : State) : OnlyCorrected s s := ⟨⟨_, _, rfl⟩, fun _ => rfl⟩

theorem OnlyCorrected.trans {s t u : State} (h : OnlyCorrected s t) (k : OnlyCorrected t u) : OnlyCorrected s u := by
  obtain ⟨⟨_, _, rfl⟩, hlines⟩ := h
  obtain ⟨⟨_, _, rfl⟩, klines⟩ := k
  exact ⟨⟨_, _, rfl⟩, fun pa => (klines pa).trans (hlines pa)⟩

theorem onlyCorrected_foldl {β : Type} {f : State → β → State} (hf : ∀ u b, OnlyCorrected u (f u b)) (bs : List β)
    (s : State) : OnlyCorrected s (bs.foldl f s) :=
  bs.foldlRecOn f (.refl s) fun u h b _ => h.trans (hf u b)

/-- CORRCOUNT of a die is no LOST register of a cluster (R389, R398). -/
theorem corrcount_ne_lost (d pa i : Nat) (h : i < 16) :
    dieDev d 1 0x8A8 ≠ clDev (homeCluster pa) 0 (0x100 + 8 * i) := by
  unfold clDev dieDev devAddr
  omega

theorem lostLine_devSet_corrcount (s : State) (d : Nat) (v : Word) (pa : Nat) :
    lostLine (s.devSet (dieDev d 1 0x8A8) v) pa = lostLine s pa := by
  rw [Bool.eq_iff_iff]
  simp only [lostLine, natsFrom_zero_eq_range, Bool.and_eq_true, List.any_eq_true, List.mem_range]
  refine and_congr_right fun _ => exists_congr fun i => and_congr_right fun hi => ?_
  rw [devGet_devSet, if_neg (corrcount_ne_lost d pa i hi)]

theorem onlyCorrected_softFix (s : State) (pa n : Nat) : OnlyCorrected s (softFix s pa n) := by
  unfold softFix
  dsimp only
  split
  · exact .refl s
  · refine ⟨⟨_, _, rfl⟩, fun a => ?_⟩
    simp only [lineAborts, lostLine_devSet_corrcount]
    rfl

theorem onlyCorrected_softPiece (s : State) (p : Piece) : OnlyCorrected s (softPiece s p) := by
  unfold softPiece
  split
  · exact onlyCorrected_softFix _ _ _
  · exact (onlyCorrected_softFix _ _ _).trans (onlyCorrected_foldl (fun u l => onlyCorrected_softFix u (64 * l) 64) _ _)

theorem onlyCorrected_softPieces (s : State) (ps : List Piece) : OnlyCorrected s (softPieces s ps) := by
  unfold softPieces
  split
  · exact .refl s
  · exact onlyCorrected_foldl onlyCorrected_softPiece ps s

namespace OnlyCorrected

variable {s t : State} (h : OnlyCorrected s t)
include h

theorem mem : t.mem = s.mem := by obtain ⟨⟨_, _, rfl⟩, -⟩ := h; rfl
theorem jobs : t.jobs = s.jobs := by obtain ⟨⟨_, _, rfl⟩, -⟩ := h; rfl
theorem slots : t.slots = s.slots := by obtain ⟨⟨_, _, rfl⟩, -⟩ := h; rfl
theorem net : t.net = s.net := by obtain ⟨⟨_, _, rfl⟩, -⟩ := h; rfl
theorem glitches : t.glitches = s.glitches := by obtain ⟨⟨_, _, rfl⟩, -⟩ := h; rfl
theorem niFull_eq (a : BitVec 32) : niFull t a = niFull s a := by obtain ⟨⟨_, _, rfl⟩, -⟩ := h; rfl

theorem dataOf_eq (ps : List Piece) : dataOf t ps = dataOf s ps := by
  have hbytes (p : Piece) : pieceBytes t p = pieceBytes s p := by obtain ⟨⟨_, _, rfl⟩, -⟩ := h; rfl
  rw [dataOf, dataOf, funext hbytes]

theorem pieceAborts_eq : pieceAborts t = pieceAborts s := by
  have hdesc (a : Nat) : viewDesc t a = viewDesc s a := by obtain ⟨⟨_, _, rfl⟩, -⟩ := h; rfl
  funext p
  simp only [pieceAborts, viewAborts, readAborts, hdesc, h.lines]

end OnlyCorrected

/-! The table of jobs. -/

theorem find?_updFirst {α : Type} (p : α → Bool) (f : α → α) (hf : ∀ a, p (f a) = p a) (l : List α) :
    (updFirst p f l).find? p = (l.find? p).map f := by
  induction l with
  | nil => rfl
  | cons a r ih =>
    cases ha : p a with
    | true =>
      rw [updFirst, if_pos ha, List.find?_cons_of_pos ((hf a).trans ha), List.find?_cons_of_pos ha]
      rfl
    | false => simp [updFirst, ha, ih]

theorem jobById_id {s : State} {id : Nat} {j : Job} (h : jobById s id = some j) : j.id = id :=
  beq_iff_eq.mp (List.find?_some (p := fun k : Job => k.id == id) h)

/-- A changed job keeps its place. -/
theorem jobById_updJob {s : State} {id : Nat} {j : Job} (h : jobById s id = some j) {f : Job → Job}
    (hf : ∀ q, (f q).id = q.id) : jobById (updJob s id f) id = some (f j) :=
  (find?_updFirst _ f (fun q => by rw [hf]) s.jobs).trans (congrArg (Option.map f) h)

theorem jobById_congr {s t : State} (h : t.jobs = s.jobs) (id : Nat) : jobById t id = jobById s id := by
  rw [jobById, h, jobById]

theorem jobAt_endJob {s : State} {id : Nat} {j : Job} (h : jobById s id = some j) (status cause : Nat)
    (record : List Word) : jobAt (endJob s id status cause record) id = some (.finished, status) := by
  simp [jobAt, endJob, jobById_updJob h]

/-! The report of a command (R255, R259). -/

theorem sendReply_eq (s : State) (j : Job) (w : Word) : sendReply s j w = { s with net := s.net ++ jobReply j w } := by
  rw [sendReply, jobReply]
  cases replyOf (engineUnit j.agent) j.card with
  | some _ => rfl
  | none => exact congrArg (fun net => { s with net := net }) (List.append_nil s.net).symm

theorem giveToken_strands (s : State) (j : Job) (w : Word) :
    ∃ strands, giveToken s j w = { s with strands := strands } := by
  unfold giveToken
  split
  · exact ⟨_, rfl⟩
  · exact ⟨_, rfl⟩

theorem toks_giveToken {j : Job} (hq : j.iss.queue < 4) (s : State) (w : Word) :
    ((giveToken s j w).strand j.iss.strand).toks =
      updFirst (fun x => x.queue == j.iss.queue && x.qseq == j.iss.qseq) (fun x => { x with done := some w })
        (s.strand j.iss.strand).toks := by
  rw [giveToken, if_neg (by omega), strand_setStrand, if_pos rfl]

/-- Where no collective command waits, the end of one starts none. -/
theorem startColls_of_noneReady {s : State} (h : noneReady s = true) : startColls s = s := by
  have hnone : s.jobs.filter (fun j => engineUnit j.agent == 0 && j.st == .ready) = [] := by
    rw [List.filter_eq_nil_iff]
    intro j hj
    have hst : (j.st == .ready) = false := by simpa [bne] using List.all_eq_true.mp h j hj
    simp [hst]
  rw [startColls, hnone, List.foldl_nil]

/-- A command that is no part of another and fails no launch is reported with its own status. -/
theorem finishJob_reported {s : State} {j : Job} (hp : j.parent = none) (hl : launchJob j = false ∨ j.status = 0)
    (hn : noneReady s = true) : Reported s (finishJob s j) s.net j ∧ (finishJob s j).mem = s.mem := by
  have hlaunch : (launchJob j && j.status != 0) = false := by
    rcases hl with hl | hl
    · rw [hl, Bool.false_and]
    · rw [hl, bne_self_eq_false, Bool.and_false]
  have hrep : reportJob s j = sendReply (giveToken { s with jobs := s.jobs.filter fun k => k.id != j.id } j
      (completionWord j j.status j.cause)) j (completionWord j j.status j.cause) := by
    simp [reportJob, hp, hlaunch]
  have htok := fun hq => toks_giveToken (j := j) hq { s with jobs := s.jobs.filter fun k => k.id != j.id }
    (completionWord j j.status j.cause)
  obtain ⟨strands, hgive⟩ := giveToken_strands { s with jobs := s.jobs.filter fun k => k.id != j.id } j
    (completionWord j j.status j.cause)
  rw [sendReply_eq, hgive] at hrep
  rw [hgive] at htok
  have hnone : noneReady (reportJob s j) = true := by
    rw [hrep]
    exact List.all_eq_true.mpr fun k hk => List.all_eq_true.mp hn k (List.mem_filter.mp hk).1
  rw [finishJob, startColls_of_noneReady hnone, hrep]
  exact ⟨⟨rfl, htok, rfl⟩, rfl⟩

end Sys2Proof.Machine
end

section
/-! PROOF. Jobs of the copy engine and the atomic unit from their card to their completion (R206, R255 to R259). -/

namespace Sys2Proof.Machine

/-! A card arrives (R255, R259 step 1). -/

/-- A command that its inbox can take is accepted. -/
theorem execJobCardArrival_inbox {s : State} {k : Nat} {j : Job} (h : Inbox s k (fun x => x == 17 || x == 18) j) :
    execJobCardArrival k s = next (acceptCard (takeNet s k) j) := by
  simp only [execJobCardArrival, h.here, commandArrives, h.first, Bool.false_eq_true, if_false]
  rw [if_neg (Nat.not_le.mpr h.room)]

/-- A command whose inbox is full goes back to its sender. -/
theorem execJobCardArrival_full {s : State} {k : Nat} {j : Job} {a : BitVec 32} (hnet : s.net[k]? = some (.cmd a j.id))
    (hcmd : commandAt s k (fun x => x == 17 || x == 18) = some j) (hfirst : cmdBehind s k j (cmdSrc s k) = false)
    (hfull : 64 ≤ inboxCount s j.agent) :
    execJobCardArrival k s = next (post (takeNet s k) (.cmdBack a j.id)) := by
  simp only [execJobCardArrival, hcmd, commandArrives, hfirst, Bool.false_eq_true, if_false, if_pos hfull, commandFull,
    hnet]

theorem jobById_tookBlock {s : State} {j : Job} {b : List Byte} (h : jobById s j.id = some j) :
    (jobById (tookBlock s j b) j.id).map (fun q => (q.st, q.card)) = some (.read, b) := by
  simp [tookBlock, jobById_updJob h]

/-- A card that could be read is kept where it is right, and ends its job with BADCARD where it is not. -/
theorem acceptCard_read {s u : State} {j : Job} {b : List Byte} (hread : readCard s j = (u, .ok b)) :
    acceptCard s j =
      if jobCardOk (engineUnit j.agent) b then tookBlock u j b else endJob (tookBlock u j b) j.id 5 0 [] := by
  rw [acceptCard, hread]

/-! Performing (R206, R258). -/

theorem cleanBytes_of_readable {s : State} {ps : List Piece} (h : ps.any (pieceAborts s) = false) :
    cleanBytes s ps = dataOf s ps := by
  induction ps with
  | nil => rfl
  | cons p r ih =>
    rw [List.any_cons, Bool.or_eq_false_iff] at h
    obtain ⟨hp, hr⟩ := h
    rw [cleanBytes, if_neg (by simp [hp]), ih hr]
    rfl

theorem abortOf_of_readable {s : State} {ps : List Piece} (h : ps.any (pieceAborts s) = false) :
    abortOf s ps = none := by
  rw [abortOf, List.find?_eq_none.mpr, Option.map_none]
  intro p hp
  simp [List.any_eq_false.mp h p hp]

/-- What a job writes when all that it reads is readable and its adder right. -/
def soundWork (wp : List Piece) (bs : List Byte) : JobWork :=
  { writes := pieceWrites wp bs, stop := none, fault := none }

theorem copyWork_sound {s : State} {j : Job} {rp wp : List Piece} (hr : rp.any (pieceAborts s) = false) :
    copyWork s j rp wp = (s, soundWork wp (dataOf s rp)) := by
  rw [copyWork, cleanBytes_of_readable hr, abortOf_of_readable hr]
  rfl

theorem leBytes_getD (v n k : Nat) (h : k < n) : (leBytes v n).getD k 0 = BitVec.ofNat 8 (v / 256 ^ k) := by
  induction k generalizing v n with
  | zero =>
    obtain ⟨n, rfl⟩ := Nat.exists_eq_add_of_lt h
    simp [leBytes]
  | succ k ih =>
    cases n with
    | zero => omega
    | succ n => rw [leBytes, List.getD_cons_succ, ih _ _ (by omega), Nat.div_div_eq_div_mul, Nat.pow_succ, Nat.mul_comm]

theorem fillWork_sound (s : State) (j : Job) (rp wp : List Piece) :
    fillWork s j rp wp = (s, soundWork wp ((natsFrom 0 (wp.foldl (fun n p => n + p.n) 0)).map fun i =>
      BitVec.ofNat 8 (jcParam j.card / 256 ^ (i % 8)))) := by
  have hbytes : (fun k => (leBytes (jcParam j.card) 8).getD (k % 8) 0) =
      fun i => BitVec.ofNat 8 (jcParam j.card / 256 ^ (i % 8)) :=
    funext fun k => leBytes_getD _ _ _ (Nat.mod_lt k (by decide))
  rw [fillWork, hbytes]
  rfl

/-- A checked path with no error armed hands on what it makes. -/
theorem checkedUnits_sound {s : State} (h : s.glitches = []) (agent : BitVec 32) (us : List (List Byte)) :
    checkedUnits s agent us = (s, us, none) := by
  rw [checkedUnits, engGlitch, h, List.find?_nil]

theorem mergeWork_sound {s : State} {rp wp : List Piece} (hg : s.glitches = []) (hr : rp.any (pieceAborts s) = false)
    (hw : wp.any (pieceAborts s) = false) (n : Nat) (f : Nat → Nat → Nat) (j : Job) :
    mergeWork n f s j rp wp = (s, soundWork wp (mergedBytes n f (dataOf s rp) (dataOf s wp))) := by
  have hboth : (rp ++ wp).any (pieceAborts s) = false := by rw [List.any_append, hr, hw, Bool.or_false]
  simp only [mergeWork, cleanBytes_of_readable hr, cleanBytes_of_readable hw, abortOf_of_readable hboth,
    checkedUnits_sound hg, List.flatMap_map]
  rfl

theorem doStage_eq (s : State) (j : Job) (rp : List Piece) :
    ∃ v, OnlyClusters s v ∧ doStage s j rp = endPerformed v j.id (abortOf s rp) :=
  ⟨_, onlyClusters_foldl (fun u (l : Nat × Bool) => onlyClusters_touchHome u (64 * l.1) _ false) _ s, rfl⟩

/-- From `u` to `t` job `id` has written a list of bytes to its pieces and nothing else, and has ended DONE. -/
structure Wrote (u t : State) (id : Nat) (wp : List Piece) (bs : List Byte) : Prop where
  mem : t.mem = (writePieces u wp bs).mem
  ended : jobAt t id = some (.finished, 0)
  slots : t.slots = u.slots

theorem endJobWork_wrote {u : State} {id : Nat} {j : Job} (h : jobById u id = some j) (wp : List Piece)
    (bs : List Byte) : Wrote u (endJobWork u j (soundWork wp bs)) id wp bs := by
  have hwrites := onlyMemory_writeBlocks u (pieceWrites wp bs)
  refine ⟨rfl, ?_, hwrites.slots⟩
  obtain rfl := jobById_id h
  have hkept := (jobById_congr hwrites.jobs j.id).trans h
  exact jobAt_endJob (jobById_updJob hkept (f := fun q => { q with todo := none }) fun _ => rfl) 0 0 []

/-- What the pieces take depends on memory alone. -/
theorem Wrote.of_corrected {u v t : State} {id : Nat} {wp : List Piece} {bs : List Byte} (hv : OnlyCorrected u v)
    (h : Wrote v t id wp bs) : Wrote u t id wp bs :=
  ⟨h.mem.trans (mem_writeBlocks_congr hv.mem _), h.ended, h.slots.trans hv.slots⟩

section
variable {s u : State} {cl id op : Nat} {j : Job} {rp wp : List Piece} (h : JobRuns s u cl id op j rp wp)
include h

theorem JobRuns.has : jobHas cl op j = true := by
  simp [jobHas, h.cluster, h.engine.1, h.engine.2, h.taken, h.code]

/-- A job that has its turn acts on its translated pieces, once what it reads has been corrected. -/
theorem JobRuns.startJob_eq (act : State → Job → List Piece → List Piece → State) :
    ∃ v, OnlyCorrected u v ∧ startJob act s j = act v j rp wp := by
  refine ⟨_, onlyCorrected_softPieces u (if 8 ≤ jcOp j.card then rp ++ wp else rp), ?_⟩
  rw [startJob, h.free, h.start]
  rfl

theorem JobRuns.runJob_eq (act : State → Job → List Piece → List Piece → State) :
    ∃ v, OnlyCorrected u v ∧ runJob op act cl id s = act v j rp wp := by
  obtain ⟨v, hv, hact⟩ := h.startJob_eq act
  exact ⟨v, hv, by simp only [runJob, h.found, h.has, if_true, hact]⟩

/-- A job that has its turn writes what its operation works out, whatever corrections come before it. -/
theorem JobRuns.runJobWork_wrote {work : State → Job → List Piece → List Piece → State × JobWork} {bs : List Byte}
    (hw : ∀ v, OnlyCorrected u v → work v j rp wp = (v, soundWork wp bs)) :
    Wrote u (runJobWork op work cl id s) id wp bs := by
  obtain ⟨v, hv, hact⟩ := h.startJob_eq fun u k rp wp => endJobWork (work u k rp wp).1 k (work u k rp wp).2
  have hrun : runJobWork op work cl id s = endJobWork v j (soundWork wp bs) := by
    simp only [runJobWork, h.found, h.has, h.fresh, hact, hw v hv, Bool.not_true, Bool.false_eq_true, if_false]
  rw [hrun]
  exact (endJobWork_wrote ((jobById_congr hv.jobs id).trans h.kept) wp bs).of_corrected hv

theorem JobRuns.copy_wrote : Wrote u (runJobWork op copyWork cl id s) id wp (dataOf u rp) :=
  h.runJobWork_wrote fun v hv => by
    rw [copyWork_sound (by rw [hv.pieceAborts_eq, h.readable]), hv.dataOf_eq]

theorem JobRuns.merge_wrote (hwp : wp.any (pieceAborts u) = false) (n : Nat) (f : Nat → Nat → Nat) :
    Wrote u (runJobWork op (mergeWork n f) cl id s) id wp (mergedBytes n f (dataOf u rp) (dataOf u wp)) :=
  h.runJobWork_wrote fun v hv => by
    rw [mergeWork_sound (by rw [hv.glitches, h.sound]) (by rw [hv.pieceAborts_eq, h.readable])
      (by rw [hv.pieceAborts_eq, hwp]), hv.dataOf_eq, hv.dataOf_eq]

/-- STAGE moves lines into caches and ends. -/
theorem JobRuns.stage_ends : let t := runJob op (fun s j rp _ => doStage s j rp) cl id s
    t.mem = u.mem ∧ jobAt t id = some (.finished, 0) ∧ t.slots = u.slots ∧ t.net = u.net := by
  obtain ⟨v, hv, hrun⟩ := h.runJob_eq fun s j rp _ => doStage s j rp
  obtain ⟨_, ⟨clusters, free, rfl⟩, hstage⟩ := doStage_eq v j rp
  rw [hrun, hstage, abortOf_of_readable (by rw [hv.pieceAborts_eq, h.readable]), jobById_id h.found]
  exact ⟨hv.mem, jobAt_endJob ((jobById_congr hv.jobs id).trans h.kept) _ _ _, hv.slots, hv.net⟩

end

/-! RPUT. -/

/-- The messages of an RPUT. -/
def rputSent (j : Job) : List (Nat × Nat) → List Byte → List NetItem
  | [], _ => []
  | (a, n) :: r, bs => if bs.isEmpty then [] else .msg (rputMsg j a (bs.take n)) :: rputSent j r (bs.drop n)

theorem rputAll_eq (s : State) (j : Job) (ps : List (Nat × Nat)) (bs : List Byte) :
    rputAll s j ps bs = { s with net := s.net ++ rputSent j ps bs } := by
  induction ps generalizing s bs with
  | nil => simp [rputAll, rputSent]
  | cons p r ih =>
    obtain ⟨a, n⟩ := p
    rw [rputAll, rputSent]
    split
    · rw [List.append_nil]
    · rw [ih, sendMsg, post, List.append_assoc]; rfl

/-- A write region of one row of at most 256 bytes is one piece. -/
theorem landPieces_single {g : Region} (hrows : g.rows = 1) (hpos : 1 ≤ g.rowBytes) (hmax : g.rowBytes ≤ 256) :
    (g.rowList.flatMap fun a => landPieces (g.rowBytes / 256 + 1) a g.rowBytes) = [(g.row 0, g.rowBytes)] := by
  have hnone (k a : Nat) : landPieces k a 0 = [] := by cases k <;> rfl
  have hrow : g.rowList = [g.row 0] := by rw [Region.rowList, hrows]; rfl
  rw [hrow, List.flatMap_singleton, landPieces, if_neg (by omega), Nat.min_eq_left hmax, Nat.sub_self, hnone]

theorem rputSent_single {j : Job} {a n : Nat} {bs : List Byte} (hpos : 1 ≤ n) (hlen : bs.length = n) :
    rputSent j [(a, n)] bs = [.msg (rputMsg j a bs)] := by
  have hne : bs.isEmpty = false := by
    rw [List.isEmpty_eq_false_iff, ← List.length_pos_iff]
    omega
  rw [rputSent, hne, ← hlen, List.take_length]
  rfl

/-- RPUT sends the bytes of its read region along the rows of its write region and ends. -/
theorem JobRuns.rput_ends {s u : State} {cl id op : Nat} {j : Job} {rp wp : List Piece}
    (h : JobRuns s u cl id op j rp wp) (hni : niFull u j.agent = false) :
    let t := runJob op (fun s j rp _ => if niFull s j.agent then s else doRput s j rp) cl id s
    let g := jcRegion j.card 1
    t.mem = u.mem ∧ jobAt t id = some (.finished, 0) ∧
      t.net = u.net ++ rputSent j (g.rowList.flatMap fun a => landPieces (g.rowBytes / 256 + 1) a g.rowBytes)
        (dataOf u rp) := by
  obtain ⟨v, hv, hrun⟩ := h.runJob_eq fun s j rp _ => if niFull s j.agent then s else doRput s j rp
  have hreadable : rp.any (pieceAborts v) = false := by rw [hv.pieceAborts_eq, h.readable]
  dsimp only
  rw [hrun, hv.niFull_eq, hni, if_neg (by simp), doRput, cleanBytes_of_readable hreadable,
    abortOf_of_readable hreadable, rputAll_eq, hv.dataOf_eq, hv.net, jobById_id h.found]
  exact ⟨hv.mem, jobAt_endJob ((jobById_congr hv.jobs id).trans h.kept) _ _ _, rfl⟩

/-! Completion (R256, R259, R328). -/

/-- A completion is due at the engine of its job. -/
theorem execJobCompletion_eq {s : State} {cl id : Nat} {j : Job} (hj : jobById s id = some j)
    (hcl : agentModCluster j.agent = cl) (hma : engineUnit j.agent ≠ 16) (hcle : engineUnit j.agent ≠ 0) :
    execJobCompletion cl id s = next (completeJob s j) := by
  simp only [execJobCompletion, hj]
  rw [if_pos ⟨hcl, hma, hcle⟩]

theorem completeJob_reports {s : State} {j : Job} (hst : j.st = .finished) (hwait : reportWaits s j = false)
    (hmm : j.status ≠ 0 ∨ jcMm j.card = false) : completeJob s j = finishJob s j := by
  rw [completeJob, if_neg (by simp [hst]), if_neg (by simp [hst]), if_neg, hwait]
  · rfl
  · rintro ⟨hdone, hhas⟩
    rcases hmm with hmm | hmm
    · exact hmm hdone
    · simp [hmm] at hhas

theorem completeJob_issues {s : State} {j : Job} (hst : j.st = .finished) (hdone : j.status = 0)
    (hmm : jcMm j.card = true) (hni : niFull s j.agent = false) (hland : jcOp j.card = 2 → landsLeft s j = false) :
    completeJob s j = issueMatrix s j := by
  have hlanded : (jcOp j.card == 2 && landsLeft s j) = false := by
    by_cases hop : jcOp j.card = 2
    · rw [hland hop, Bool.and_false]
    · simp [hop]
  rw [completeJob, if_neg (by simp [hst]), if_neg (by simp [hst]), if_pos ⟨hdone, hmm⟩, hlanded, hni]
  rfl

/-- The job runs on while its matrix command is on its way. -/
theorem jobAt_issueMatrix {s : State} {id : Nat} {j : Job} (hj : jobById s id = some j) :
    jobAt (issueMatrix s j) id = some (.running, j.status) := by
  obtain rfl := jobById_id hj
  have hrun := jobById_updJob hj (f := fun q => { q with st := .running }) fun _ => rfl
  have hkept : jobById (issueMatrix s j) j.id = some { j with st := .running } :=
    List.find?_append.trans (congrArg (Option.or · _) hrun)
  rw [jobAt, hkept]
  rfl

theorem issueMatrix_posts (s : State) (j : Job) :
    (issueMatrix s j).jobs.getLast? = some (embeddedJob s j) ∧
      (issueMatrix s j).net = s.net ++ [.cmd j.agent (embeddedJob s j).id] :=
  ⟨List.getLast?_concat, rfl⟩

/-- Settles O54: each event is its operation on a job that has its turn, and the engines' shared operations change
nothing that another part of the claim reads. -/
theorem jobEvents : Obligations.JobEvents := by
  intro s u cl id k j rp wp
  refine ⟨?_, ?_, ?_, ?_, ?_, ?_, ?_, ?_, ?_, fun p bs y h => byte_writePieces_single s p bs y h⟩
  · intro b hin hread hj
    refine ⟨_, execJobCardArrival_inbox hin, ?_⟩
    rw [acceptCard_read hread]
    cases hok : jobCardOk (engineUnit j.agent) b with
    | true => exact ⟨rfl, fun _ => jobById_tookBlock hj, nofun⟩
    | false =>
      obtain ⟨q, hq, -⟩ := Option.map_eq_some_iff.mp (jobById_tookBlock (b := b) hj)
      exact ⟨rfl, nofun, fun _ => jobAt_endJob hq 5 0 []⟩
  · intro a hnet hcmd hfirst hfull
    exact ⟨_, execJobCardArrival_full hnet hcmd hfirst hfull, rfl, rfl, rfl, rfl⟩
  · intro h
    obtain ⟨hmem, hended, hslots⟩ := h.copy_wrote
    exact ⟨_, rfl, hmem, hended, hslots⟩
  · intro h
    obtain ⟨hmem, hended, hslots⟩ := h.runJobWork_wrote fun v _ => fillWork_sound v j rp wp
    exact ⟨_, rfl, hended, hslots, hmem⟩
  · intro h hni
    obtain ⟨hmem, hended, hnet⟩ := h.rput_ends hni
    refine ⟨_, rfl, hmem, hended, fun hrows hpos hmax hlen => ?_, ?_⟩
    · rw [landPieces_single hrows hpos hmax, rputSent_single hpos hlen] at hnet
      exact hnet
    · rw [rputAll_eq]
      exact hnet
  · intro h
    exact ⟨_, rfl, h.stage_ends⟩
  · intro h hwp
    obtain ⟨hmem, hended, hslots⟩ := h.merge_wrote hwp 16 bsiAddBits
    exact ⟨_, rfl, hended, hslots, hmem⟩
  · intro h hwp
    obtain ⟨hmem, hended, hslots⟩ := h.merge_wrote hwp 8 maxDouble
    exact ⟨_, rfl, hended, hslots, hmem⟩
  · intro hj hcl hma hcle hst hcalm
    have hexec := execJobCompletion_eq hj hcl hma hcle
    constructor
    · intro hwait hparent hmm hlaunch
      rw [completeJob_reports hst hwait hmm] at hexec
      obtain ⟨hreported, hmem⟩ := finishJob_reported hparent hlaunch hcalm
      exact ⟨_, hexec, hreported, fun y => by rw [State.byte, hmem, State.byte]⟩
    · intro hdone hmm hni hland
      rw [completeJob_issues hst hdone hmm hni hland] at hexec
      obtain ⟨hlast, hnet⟩ := issueMatrix_posts s j
      exact ⟨_, _, hexec, hdone ▸ jobAt_issueMatrix hj, hlast, rfl, rfl, hnet⟩

end Sys2Proof.Machine
end
